-- ==== Sys2Proof/Word.lean ====
section
/-! DEFINITION. The word types of the SK2416 and its index types (spec/00_scope.md, 1.6). -/

namespace Sys2Proof

/-- One byte of the command link or of the store-link (R183, R172). -/
abbrev Byte := BitVec 8

/-- A 16-bit DAC code, 0..65535 (1.6). -/
abbrev Code := BitVec 16

/-- A parameter value, an ADC result or a reported panel value, 0..4095 (1.6, R140, R159). -/
abbrev Val12 := BitVec 12

/-- A value of the allocator's 32-bit stamp counter (R22). -/
abbrev Stamp := BitVec 32

/-- Voices V0..V15 (1.6). -/
abbrev Voice := Fin 16

/-- Parts 0..3 (1.6). -/
abbrev PartNo := Fin 4

/-- Card slots A..D (1.6). -/
abbrev CardNo := Fin 4

/-- Zones Z0..Z7 (1.6). -/
abbrev ZoneNo := Fin 8

/-- Panel channels 0..31 (1.6). -/
abbrev ChannelNo := Fin 32

/-- Cache slots 0..7 (1.6). -/
abbrev CacheNo := Fin 8

/-- A voice's control-voltage destinations 0..23 (1.6). -/
abbrev DestNo := Fin 24

end Sys2Proof
end

