-- ==== Sys2Proof/Config.lean ====
section
/-! DEFINITION. What the part fixes for good (its identity and its table sizes), and the one choice the manual leaves
open, as an opaque constant that no proof can see through. -/

namespace Sys2Proof.Config

/-- Family code of the part identity (R192). -/
def familyCode : Byte := 0x53

/-- Part code of the part identity (R192). -/
def partCode : BitVec 16 := 2416

/-- Revision number of the part identity (R192). -/
def revision : Byte := 2

/-- Held keys a part's list takes at most (R6). -/
def heldKeyLimit : Nat := 16

/-- Jobs the store-link queue takes at most (R168). -/
def jobLimit : Nat := 8

/-- Cache slots that may be host-locked at once (R166, R167). -/
def lockLimit : Nat := 6

/-- Debounce frames an edge starts (R84). -/
def debounceFrames : Nat := 20

/-- Ready timer at entry to POWERING (R88). -/
def readyFrames : Nat := 100

/-- Bytes of the stored patch record (10.5). -/
def recordBytes : Nat := 74

/-- Bytes of a flash page (10.5). -/
def pageBytes : Nat := 256

/-- DESIGN CHOICE (log entry 4): which of several voices in SOUNDING or STEAL_GAP that carry one key a re-strike renews.
R27 names no order among them. The constant has no body: it is applied to the count of such choices made so far
(`State.freePicks`) and answers a position among the candidates, taken modulo their number. -/
opaque restrikePick : Nat → Nat

end Sys2Proof.Config
end

