-- ==== Sys2Proof/Syntax.lean ====
section
/-! DEFINITION. The commands: one constructor for each row of spec/opcode_table.json, with the row's operands as the bytes,
levels and results that come from outside the part. -/

namespace Sys2Proof

/-- The two detect lines of a card slot (R83; the manual's worked sequences call them left and right). -/
inductive DetectLine where
  | left
  | right
deriving DecidableEq, Repr

/-- The four bytes of one PLAY event as they stand in the frame (10.5, PLAY event). -/
structure RawEvent where
  kind : Byte
  b1 : Byte
  b2 : Byte
  b3 : Byte
deriving DecidableEq, Repr

/-- The commands of the block. A host command carries its payload's fields as bytes, in the order of the catalogue (R190),
out-of-range values included: the command itself refuses those. -/
inductive Instr where
  /-- POWER_ON_RESET (R21): `detect` holds the eight detect-line levels as read when the reset ends (R83), closed as 1:
  bit 2k the left line of slot k, bit 2k + 1 its right line. -/
  | powerOnReset (detect : BitVec 8)
  /-- REQUEST_FRAME (R185): the whole bytes shifted in, the first of them 1..255. -/
  | requestFrame (bytes : List Byte)
  /-- EMPTY_TRANSACTION (R183). -/
  | emptyTransaction
  /-- RESPONSE_FETCH (R188): the number of whole bytes the host clocked, the leading 0x00 included. -/
  | responseFetch (clocked : Nat)
  /-- PLAY (R1): the events of the frame. -/
  | play (events : List RawEvent)
  /-- KEY_ON (R3). -/
  | keyOn (channel key velocity : Byte)
  /-- KEY_OFF (R9). -/
  | keyOff (channel key : Byte)
  /-- SUSTAIN (R15): the position byte, 0 for up (R194). -/
  | sustain (part position : Byte)
  /-- BEND (R14): the value, a signed 16-bit number (R194). -/
  | bend (part : Byte) (value : BitVec 16)
  /-- ALL_OFF (R10). -/
  | allOff (part : Byte)
  /-- ALLOCATOR_FRAME_EXPIRY (R37 to R40). -/
  | allocatorFrameExpiry
  /-- STEAL_GAP_END (R37). -/
  | stealGapEnd (v : Voice)
  /-- RELEASE_TAIL_END (R38). -/
  | releaseTailEnd (v : Voice)
  /-- GLIDE_END (R39). -/
  | glideEnd (v : Voice)
  /-- INTERVAL_TIMER_EXPIRY (R17). -/
  | intervalTimerExpiry
  /-- SET_ZONE (R4). -/
  | setZone (zone enabled source lowKey highKey lowVel highVel part transpose : Byte)
  /-- READ_ZONE (R5). -/
  | readZone (zone : Byte)
  /-- SET_PART (R18). -/
  | setPart (part reserve fineTune panelBend : Byte)
  /-- READ_PART (R19). -/
  | readPart (part : Byte)
  /-- READ_VOICE (R51). -/
  | readVoice (voice : Byte)
  /-- VOICE_ONLINE (R49). -/
  | voiceOnline (voice : Byte)
  /-- VOICE_OFFLINE (R50). -/
  | voiceOffline (voice : Byte)
  /-- RELEASE_QUARANTINE (R137). -/
  | releaseQuarantine (voice : Byte)
  /-- CLEAR_FAILS (R138). -/
  | clearFails (voice : Byte)
  /-- TUNE (R107): the voice set with V0 in the lowest bit, the destination set and the force flag. -/
  | tune (voices : BitVec 16) (dests force : Byte)
  /-- TUNE_ABORT (R119). -/
  | tuneAbort
  /-- READ_TUNE (R124). -/
  | readTune
  /-- SET_TUNE_PLAN (R123). -/
  | setTunePlan (pitchLo pitchHi cutoffLo cutoffHi : Byte)
  /-- READ_CAL (R97). -/
  | readCal (voice : Byte)
  /-- WRITE_CAL (R98): the 78 bytes of the calibration transfer record (10.5). -/
  | writeCal (voice : Byte) (record : List Byte)
  /-- SET_MONITOR (R79). -/
  | setMonitor (selector dest : Byte)
  /-- READ_MONITOR (R81). -/
  | readMonitor
  /-- CARD_POWER (R92). -/
  | cardPower (slot power : Byte)
  /-- READ_CARDS (R94). -/
  | readCards
  /-- SET_CHANNEL (R155). -/
  | setChannel (channel role mode notify : Byte)
  /-- READ_CHANNEL (R158). -/
  | readChannel (channel : Byte)
  /-- SET_FOCUS (R151). -/
  | setFocus (part : Byte)
  /-- SET_PANEL (R157). -/
  | setPanel (shift deadband : Byte)
  /-- READ_CHANGES (R154). -/
  | readChanges (maximum : Byte)
  /-- RECALL (R169, R170). -/
  | recallPart (part : Byte) (location : BitVec 16)
  /-- STORE (R176). -/
  | store (part : Byte) (location : BitVec 16)
  /-- WRITE_PARAM (R161): the field and its two value bytes, or its twelve name characters. -/
  | writeParam (part field : Byte) (value : List Byte)
  /-- READ_LIVE (R163). -/
  | readLive (part : Byte)
  /-- CACHE_LOCK (R167): code 30 with a mode byte other than 0 (R190: 1 locks, any other is refused). -/
  | cacheLock (mode : Byte) (location : BitVec 16)
  /-- CACHE_UNLOCK (R167): code 30 with mode 0. -/
  | cacheUnlock (location : BitVec 16)
  /-- READ_CACHE (R181). -/
  | readCache
  /-- READ_NOTICES (R200). -/
  | readNotices
  /-- ACK_NOTICES (R201): code 33 with its mode byte and the bytes after it, every form but mode 1 with one byte. -/
  | ackNotices (mode : Byte) (fields : List Byte)
  /-- ACK_NOTICES with mode 1 (R202). -/
  | ackNoticesSetEnables (kinds : Byte)
  /-- READ_DEVICE (R192). -/
  | readDevice
  /-- SET_DEVICE (R191). -/
  | setDevice (number : Byte) (value : BitVec 32)
  /-- SOFT_RESET (R193). -/
  | softReset
  /-- CHANNEL_SLOT_EXPIRY (R70, R71). -/
  | channelSlotExpiry
  /-- ROUND_COMPLETION (R74). -/
  | roundCompletion
  /-- DETECT_EDGE (R84): the level the line changes to. -/
  | detectEdge (slot : CardNo) (line : DetectLine) (closed : Bool)
  /-- SLOT_FRAME_EXPIRY (R84, R88): the four ready inputs as they stand, slot k in bit k, high as 1. -/
  | slotFrameExpiry (ready : BitVec 4)
  /-- DEBOUNCE_TAKEN (R85, R87). -/
  | debounceTaken (slot : CardNo)
  /-- READY_TIMEOUT (R90). -/
  | readyTimeout (slot : CardNo)
  /-- TUNE_FRAME_EXPIRY (R100, R128). -/
  | tuneFrameExpiry
  /-- SETTLE_END (R100). -/
  | settleEnd
  /-- TUNE_LINE_EDGE (R101, R102): the REFCLK ticks that passed in the unit before this edge, those already
  counted by idle steps left out. -/
  | tuneLineEdge (elapsed : Nat)
  /-- MEASUREMENT_COMPLETE (R102): the tick count m at the edge that completes the window. -/
  | measurementComplete (m : Nat)
  /-- NO_SIGNAL (R101). -/
  | noSignal
  /-- TOO_SLOW (R102). -/
  | tooSlow
  /-- SCAN_SLOT_EXPIRY (R142): the conversion result. -/
  | scanSlotExpiry (adc : Val12)
  /-- STORELINK_FRAME_EXPIRY (R172): the status byte the flash answers with. -/
  | storelinkFrameExpiry (status : Byte)
  /-- FLASH_TIMEOUT (R172, R178). -/
  | flashTimeout
  /-- FETCH_READ_COMPLETE (R173): the 74 bytes read. -/
  | fetchReadComplete (bytes : List Byte)
  /-- VERIFY_COMPLETE (R178): the 256 bytes read. -/
  | verifyComplete (bytes : List Byte)
  /-- CHIP_SELECT_FALL (R183, R188). -/
  | chipSelectFall
deriving DecidableEq, Repr

end Sys2Proof
end

