-- ==== Sys2Proof/WellFormed.lean ====
section
/-! DEFINITION. Which terms of `Instr` stand for something that can reach the part: the shapes of its transactions and
transfers. A field of a host command that is out of range is well formed: the command refuses it by its own rule. -/

namespace Sys2Proof

/-- A request frame has a first byte, and the first byte is not 0x00 (R183). -/
def frameShape : List Byte → Bool
  | [] => false
  | b :: _ => b != 0

/-- The lengths and byte counts that the catalogue (R190), the link (R183) and the flash's transfers (10.5) fix. -/
def Instr.wellFormed : Instr → Bool
  | .requestFrame bytes => frameShape bytes
  | .responseFetch n => decide (1 ≤ n)
  | .play events => decide (1 ≤ events.length ∧ events.length ≤ 16)
  | .writeCal _ record => decide (record.length = 78)
  | .writeParam _ _ value => decide (value.length = 2 ∨ value.length = 12)
  | .cacheLock mode _ => mode != 0
  | .ackNotices mode fields => decide (fields.length = 11 ∨ fields.length = 1 ∧ mode ≠ 1)
  | .fetchReadComplete bytes => decide (bytes.length = Config.recordBytes)
  | .verifyComplete bytes => decide (bytes.length = Config.pageBytes)
  | _ => true

end Sys2Proof
end

