-- ==== Sys2Proof/Decode.lean ====
section
/-! DEFINITION. Reading commands. `decodeTableWord` is over the rows of spec/opcode_table.json that give bits: none does.
The rest is the catalogue of the command link (R190): which request frame is which host command, and its encoder. -/

namespace Sys2Proof

/-- The rows of spec/opcode_table.json that give bits, as (number of bits, word, command). Every row's "fields" is empty. -/
def tableRows : List (Nat × Nat × Instr) := []

/-- The command that a word spells by the table's bits. -/
def decodeTableWord (nbits w : Nat) : Option Instr :=
  (tableRows.find? fun r => r.1 == nbits && r.2.1 == w).map fun r => r.2.2

/-- A 16-bit value, high byte first (R183). -/
def bytes16 (x : BitVec 16) : List Byte := [x.extractLsb' 8 8, x.extractLsb' 0 8]

/-- A 32-bit value, high byte first (R183). -/
def bytes32 (x : BitVec 32) : List Byte :=
  [x.extractLsb' 24 8, x.extractLsb' 16 8, x.extractLsb' 8 8, x.extractLsb' 0 8]

/-- Two bytes as a 16-bit value, high byte first (R183). -/
def word16 (hi lo : Byte) : BitVec 16 := hi ++ lo

/-- Four bytes as a 32-bit value, high byte first (R183). -/
def word32 (b3 b2 b1 b0 : Byte) : BitVec 32 := ((b3 ++ b2) ++ b1) ++ b0

/-- The bytes of one PLAY event (10.5). -/
def RawEvent.bytes (e : RawEvent) : List Byte := [e.kind, e.b1, e.b2, e.b3]

/-- The events of a PLAY payload, four bytes each (10.5); none where the bytes are not whole events. -/
def rawEvents : List Byte → Option (List RawEvent)
  | [] => some []
  | a :: b :: c :: d :: rest => (rawEvents rest).map fun es => ⟨a, b, c, d⟩ :: es
  | _ => none

/-- The payload lengths that the catalogue allows for a code (R190). -/
def lengthAllowed (code n : Nat) : Bool :=
  match code with
  | 1 => n % 4 == 0 && (4 ≤ n && n ≤ 64)
  | 2 => n == 9
  | 4 | 11 | 14 | 21 => n == 4
  | 12 | 13 | 18 | 20 | 31 | 32 | 34 | 36 => n == 0
  | 16 => n == 79
  | 17 | 19 | 24 => n == 2
  | 26 | 27 | 30 => n == 3
  | 28 => n == 4 || n == 14
  | 33 => n == 12 || n == 2
  | 35 => n == 5
  | 3 | 5 | 6 | 7 | 8 | 9 | 10 | 15 | 22 | 23 | 25 | 29 => n == 1
  | _ => false

/-- The host command with this code and payload (R190). -/
def commandOfPayload (code : Nat) (p : List Byte) : Option Instr :=
  match code with
  | 1 => if lengthAllowed 1 p.length then (rawEvents p).map .play else none
  | 2 => match p with
    | [z, en, src, lk, hk, lv, hv, part, tr] => some (.setZone z en src lk hk lv hv part tr)
    | _ => none
  | 3 => match p with | [z] => some (.readZone z) | _ => none
  | 4 => match p with | [a, b, c, d] => some (.setPart a b c d) | _ => none
  | 5 => match p with | [a] => some (.readPart a) | _ => none
  | 6 => match p with | [a] => some (.readVoice a) | _ => none
  | 7 => match p with | [a] => some (.voiceOnline a) | _ => none
  | 8 => match p with | [a] => some (.voiceOffline a) | _ => none
  | 9 => match p with | [a] => some (.releaseQuarantine a) | _ => none
  | 10 => match p with | [a] => some (.clearFails a) | _ => none
  | 11 => match p with | [h, l, d, f] => some (.tune (word16 h l) d f) | _ => none
  | 12 => match p with | [] => some .tuneAbort | _ => none
  | 13 => match p with | [] => some .readTune | _ => none
  | 14 => match p with | [a, b, c, d] => some (.setTunePlan a b c d) | _ => none
  | 15 => match p with | [a] => some (.readCal a) | _ => none
  | 16 => match p with
    | a :: record => if record.length = 78 then some (.writeCal a record) else none
    | _ => none
  | 17 => match p with | [a, b] => some (.setMonitor a b) | _ => none
  | 18 => match p with | [] => some .readMonitor | _ => none
  | 19 => match p with | [a, b] => some (.cardPower a b) | _ => none
  | 20 => match p with | [] => some .readCards | _ => none
  | 21 => match p with | [a, b, c, d] => some (.setChannel a b c d) | _ => none
  | 22 => match p with | [a] => some (.readChannel a) | _ => none
  | 23 => match p with | [a] => some (.setFocus a) | _ => none
  | 24 => match p with | [a, b] => some (.setPanel a b) | _ => none
  | 25 => match p with | [a] => some (.readChanges a) | _ => none
  | 26 => match p with | [a, h, l] => some (.recallPart a (word16 h l)) | _ => none
  | 27 => match p with | [a, h, l] => some (.store a (word16 h l)) | _ => none
  | 28 => match p with
    | a :: f :: value => if value.length = 2 ∨ value.length = 12 then some (.writeParam a f value) else none
    | _ => none
  | 29 => match p with | [a] => some (.readLive a) | _ => none
  | 30 => match p with
    | [m, h, l] => if m = 0 then some (.cacheUnlock (word16 h l)) else some (.cacheLock m (word16 h l))
    | _ => none
  | 31 => match p with | [] => some .readCache | _ => none
  | 32 => match p with | [] => some .readNotices | _ => none
  | 33 => match p with
    | [m, k] => if m = 1 then some (.ackNoticesSetEnables k) else some (.ackNotices m [k])
    | m :: fields => if fields.length = 11 then some (.ackNotices m fields) else none
    | _ => none
  | 34 => match p with | [] => some .readDevice | _ => none
  | 35 => match p with | [n, a, b, c, d] => some (.setDevice n (word32 a b c d)) | _ => none
  | 36 => match p with | [] => some .softReset | _ => none
  | _ => none

/-- The host command that a request frame carries: code, length, payload (R185, R190). -/
def commandOfFrame : List Byte → Option Instr
  | code :: n :: payload =>
    if n.toNat ≤ 240 ∧ payload.length = n.toNat then commandOfPayload code.toNat payload else none
  | _ => none

/-- Code and payload of a host command (R190); none for an event that is no request of the host. -/
def Instr.request : Instr → Option (Byte × List Byte)
  | .play events => some (1, events.flatMap RawEvent.bytes)
  | .setZone z en src lk hk lv hv part tr => some (2, [z, en, src, lk, hk, lv, hv, part, tr])
  | .readZone z => some (3, [z])
  | .setPart a b c d => some (4, [a, b, c, d])
  | .readPart a => some (5, [a])
  | .readVoice a => some (6, [a])
  | .voiceOnline a => some (7, [a])
  | .voiceOffline a => some (8, [a])
  | .releaseQuarantine a => some (9, [a])
  | .clearFails a => some (10, [a])
  | .tune voices d f => some (11, bytes16 voices ++ [d, f])
  | .tuneAbort => some (12, [])
  | .readTune => some (13, [])
  | .setTunePlan a b c d => some (14, [a, b, c, d])
  | .readCal a => some (15, [a])
  | .writeCal a record => some (16, a :: record)
  | .setMonitor a b => some (17, [a, b])
  | .readMonitor => some (18, [])
  | .cardPower a b => some (19, [a, b])
  | .readCards => some (20, [])
  | .setChannel a b c d => some (21, [a, b, c, d])
  | .readChannel a => some (22, [a])
  | .setFocus a => some (23, [a])
  | .setPanel a b => some (24, [a, b])
  | .readChanges a => some (25, [a])
  | .recallPart a l => some (26, a :: bytes16 l)
  | .store a l => some (27, a :: bytes16 l)
  | .writeParam a f value => some (28, a :: f :: value)
  | .readLive a => some (29, [a])
  | .cacheLock m l => some (30, m :: bytes16 l)
  | .cacheUnlock l => some (30, 0 :: bytes16 l)
  | .readCache => some (31, [])
  | .readNotices => some (32, [])
  | .ackNotices m fields => some (33, m :: fields)
  | .ackNoticesSetEnables k => some (33, [1, k])
  | .readDevice => some (34, [])
  | .setDevice n x => some (35, n :: bytes32 x)
  | .softReset => some (36, [])
  | .powerOnReset .. | .requestFrame .. | .emptyTransaction | .responseFetch .. | .keyOn .. | .keyOff .. | .sustain ..
  | .bend .. | .allOff .. | .allocatorFrameExpiry | .stealGapEnd .. | .releaseTailEnd .. | .glideEnd ..
  | .intervalTimerExpiry | .channelSlotExpiry | .roundCompletion | .detectEdge .. | .slotFrameExpiry ..
  | .debounceTaken .. | .readyTimeout .. | .tuneFrameExpiry | .settleEnd | .tuneLineEdge .. | .measurementComplete ..
  | .noSignal | .tooSlow | .scanSlotExpiry .. | .storelinkFrameExpiry .. | .flashTimeout | .fetchReadComplete ..
  | .verifyComplete .. | .chipSelectFall => none

/-- The request frame of a host command: code, length byte, payload (10.5, Frames). -/
def Instr.frame (c : Instr) : Option (List Byte) :=
  c.request.map fun r => r.1 :: BitVec.ofNat 8 r.2.length :: r.2

end Sys2Proof
end

