-- ==== Sys2Proof/Machine/State.lean ====
section
/-! DEFINITION. The whole state of the SK2416, block by block (spec/00_scope.md, 1.3), and its reset values. Numbers with a
range but no wrap are Nat or Int; bytes, codes, wrapping counts and sets sent as bits are bit vectors. -/

namespace Sys2Proof.Machine

/-! ### Patches and parts (R11, R159) -/

/-- Voice mode of a patch (R159). -/
inductive VoiceMode where
  | poly
  | mono
  | unison
deriving DecidableEq, Repr

/-- Glide mode of a patch (R159). -/
inductive GlideMode where
  | off
  | always
  | legato
deriving DecidableEq, Repr

/-- Key priority of a patch (R159). -/
inductive KeyPriority where
  | last
  | low
  | high
deriving DecidableEq, Repr

/-- Mono trigger of a patch (R159). -/
inductive MonoTrigger where
  | retrig
  | legato
deriving DecidableEq, Repr

/-- A patch record (R159). -/
structure Patch where
  params : Vector Val12 25
  voiceMode : VoiceMode
  voiceLimit : Nat
  unisonCount : Nat
  unisonSpread : Nat
  bendRange : Nat
  glideMode : GlideMode
  keyPriority : KeyPriority
  monoTrigger : MonoTrigger
  name : Vector Byte 12
deriving DecidableEq, Repr

/-- The default patch (R11). -/
def Patch.default : Patch where
  params := (Vector.replicate 25 2048).set 0 0
  voiceMode := .poly
  voiceLimit := 16
  unisonCount := 4
  unisonSpread := 6
  bendRange := 2
  glideMode := .off
  keyPriority := .last
  monoTrigger := .retrig
  name := Vector.replicate 12 0x20

/-- A held-key entry (R6). -/
structure HeldKey where
  channel : Nat
  key : Nat
  note : Nat
  zone : ZoneNo
  velocity : Nat
deriving DecidableEq, Repr

/-- A zone record (R2); a source channel of `none` is ANY. -/
structure Zone where
  enabled : Bool
  source : Option Nat
  lowKey : Nat
  highKey : Nat
  lowVel : Nat
  highVel : Nat
  part : PartNo
  transpose : Int
deriving DecidableEq, Repr

/-- Reset value of a zone (R2). -/
def Zone.reset : Zone := ⟨false, none, 0, 127, 1, 127, 0, 0⟩

/-- Result codes of recalls and stores (R11, R180, R192). -/
inductive PatchResult where
  | ok
  | blank
  | damaged
  | eraseFail
  | programFail
  | verifyFail
  | timeout
  | superseded
deriving DecidableEq, Repr

/-- A part record (R11). -/
structure Part where
  live : Patch
  origin : Option Nat
  dirty : Bool
  editCount : BitVec 16
  wanted : Option Nat
  lastRecall : PatchResult
  reserve : Nat
  fineTune : Int
  panelBend : Bool
  bend : Int
  /-- Sustain position, `true` for down. -/
  sustain : Bool
  /-- Oldest first. -/
  held : List HeldKey
  lastPitch : Nat
  steals : Nat
  stealsShown : Nat
  drops : Nat
  dropsShown : Nat
deriving DecidableEq, Repr

/-- Reset value of part `p` (R11). -/
def Part.reset (p : PartNo) : Part where
  live := .default
  origin := none
  dirty := false
  editCount := 0
  wanted := none
  lastRecall := .ok
  reserve := if p = 0 then 4 else 0
  fineTune := 0
  panelBend := decide (p = 0)
  bend := 0
  sustain := false
  held := []
  lastPitch := 3840
  steals := 0
  stealsShown := 0
  drops := 0
  dropsShown := 0

/-! ### Voices (R20, R125) -/

/-- Service states (R20). -/
inductive Service where
  | absent
  | offline
  | idle
  | sounding
  | releasing
  | stealGap
  | calibrating
  | retuning
  | quarantined
deriving DecidableEq, Repr

/-- An assignment (R20). -/
structure Assignment where
  part : PartNo
  zone : ZoneNo
  channel : Nat
  key : Nat
  note : Nat
  velocity : Nat
  stamp : Stamp
  sustained : Bool
  unison : Nat
deriving DecidableEq, Repr

/-- The pitch destinations, which drift (R125). -/
inductive Osc where
  | a
  | b
deriving DecidableEq, Repr

/-- The last check of a pitch destination; `m` is its count (R125, R130, R131). -/
inductive LastCheck where
  | none
  | within (m : Nat)
  | corrected (m : Nat)
  | limited (m : Nat)
  | atRail (m : Nat)
  | noSignal
deriving DecidableEq, Repr

/-- The drift fields held once for each pitch destination (R125). -/
structure Drift where
  target : Int
  applied : Int
  /-- `true` for RAISED. -/
  alarm : Bool
  overCount : Nat
  underCount : Nat
  lastCheck : LastCheck
deriving DecidableEq, Repr

/-- A voice record with its drift and health fields (R20, R125). -/
structure VoiceRec where
  state : Service
  asg : Option Assignment
  /-- Current pitch G. -/
  pitch : Nat
  target : Nat
  /-- Remaining glide frames r. -/
  glide : Nat
  tail : Nat
  gap : Nat
  idle : Nat
  lastPart : Option PartNo
  lastNote : Option Nat
  lastFree : Stamp
  lastCheckStamp : Stamp
  tunePending : Bool
  offlinePending : Bool
  driftA : Drift
  driftB : Drift
  nextCheck : Osc
  fails : Nat
deriving DecidableEq, Repr

/-- Power-on value of the drift fields (R125). -/
def Drift.reset : Drift := ⟨0, 0, false, 0, 0, .none⟩

/-- Power-on value of a voice record (R21, R125). -/
def VoiceRec.reset : VoiceRec where
  state := .absent
  asg := none
  pitch := 0
  target := 0
  glide := 0
  tail := 0
  gap := 0
  idle := 0
  lastPart := none
  lastNote := none
  lastFree := 0
  lastCheckStamp := 0
  tunePending := false
  offlinePending := false
  driftA := .reset
  driftB := .reset
  nextCheck := .a
  fails := 0

/-! ### Refresh engine (R70 to R82) -/

/-- A monitor selection (R79). -/
inductive MonSel where
  | voice (v : Voice) (d : DestNo)
  | mod
  | pedal
deriving DecidableEq, Repr

/-- How the selected channel's last code was chosen (R79). -/
inductive MonSource where
  | computed
  | override
deriving DecidableEq, Repr

/-- The facts of the selected channel's last write (R79). -/
structure MonFacts where
  code : Code
  source : MonSource
  input : Option Nat
  segment : Option Nat
  fraction : Option Nat
  round : BitVec 16
deriving DecidableEq, Repr

/-- The refresh engine (R70, R72, R74, R79). Written is yes exactly while `facts` is present. -/
structure Refresh where
  pos : Fin 386
  /-- The write of channel 385 is done and its round completion is not (R74). -/
  completionDue : Bool
  round : BitVec 16
  /-- The override table: per voice, per destination. -/
  overrides : Vector (Vector (Option Code) 24) 16
  sel : MonSel
  facts : Option MonFacts
  /-- Demultiplexer address outputs as last driven (R71). -/
  outChannel : Fin 386
  /-- DAC data outputs as last driven (R71). -/
  outCode : Code
deriving DecidableEq, Repr

/-- An empty override table (R72). -/
def noOverrides : Vector (Vector (Option Code) 24) 16 := Vector.replicate 16 (Vector.replicate 24 none)

/-- Power-on value of the refresh engine (R82). -/
def Refresh.reset : Refresh where
  pos := 0
  completionDue := false
  round := 0
  overrides := noOverrides
  sel := .voice 0 0
  facts := none
  outChannel := 0
  outCode := 0

/-! ### Card slots (R83) -/

/-- Slot states (R83). -/
inductive CardState where
  | empty
  | half
  | seated
  | powering
  | powered
  | powerFault
deriving DecidableEq, Repr

/-- Fault causes (R83). -/
inductive FaultCause where
  | none
  | readyTimeout
  | readyLost
deriving DecidableEq, Repr

/-- A slot record (R83); a detect line reads `true` when closed. `CardState.half` is the manual's PARTIAL. -/
structure Card where
  state : CardState
  settledLeft : Bool
  settledRight : Bool
  rawLeft : Bool
  rawRight : Bool
  debounce : Nat
  removalPending : Bool
  power : Bool
  readyTimer : Nat
  readySeen : Bool
  cause : FaultCause
deriving DecidableEq, Repr

/-- Power-on value of a slot record whose lines read `left` and `right` when the reset ends (R83). -/
def Card.reset (left right : Bool) : Card where
  state := .empty
  settledLeft := false
  settledRight := false
  rawLeft := left
  rawRight := right
  debounce := if left || right then Config.debounceFrames else 0
  removalPending := false
  power := false
  readyTimer := 0
  readySeen := false
  cause := .none

/-! ### Tune controller (R95 to R139) -/

/-- The three tuned destinations (R95). -/
inductive Tuned where
  | a
  | b
  | cutoff
deriving DecidableEq, Repr

/-- Calibration statuses (R95). `CalStatus.part` is the manual's PARTIAL. -/
inductive CalStatus where
  | nominal
  | calibrated
  | part
  | stale
  | failed
deriving DecidableEq, Repr

/-- A destination entry of a calibration record (R95). The cutoff entry's baseline stays NONE. -/
structure CalEntry where
  codes : Vector Code 12
  measured : Vector Bool 12
  status : CalStatus
  baseline : Option Nat
deriving DecidableEq, Repr

/-- A calibration record (R95). -/
structure CalRecord where
  a : CalEntry
  b : CalEntry
  cutoff : CalEntry
deriving DecidableEq, Repr

/-- The tune plan (R123). -/
structure Plan where
  pitchLo : Nat
  pitchHi : Nat
  cutoffLo : Nat
  cutoffHi : Nat
deriving DecidableEq, Repr

/-- Default tune plan (R123). -/
def Plan.reset : Plan := ⟨1, 9, 3, 9⟩

/-- Pass outcome of the summary (R124). The pass state is RUNNING exactly while this is `running`. -/
inductive PassOutcome where
  | none
  | running
  | completed
  | aborted
deriving DecidableEq, Repr

/-- Entry states of the pass queue and of the summary (R106, R124). -/
inductive EntryState where
  | notInPass
  | skipped
  | pending
  | waiting
  | inService
  | done
  | left
deriving DecidableEq, Repr

/-- Entry reasons (R124, R195). -/
inductive EntryReason where
  | none
  | absent
  | offline
  | quarantined
  | offlinePending
  | lost
  | aborted
deriving DecidableEq, Repr

/-- Destination pass states (R124). `DestState.part` is the manual's PARTIAL. -/
inductive DestState where
  | notStarted
  | inProgress
  | calibrated
  | part
  | failed
  | restored
deriving DecidableEq, Repr

/-- Failure causes of a destination (R114, R195). -/
inductive FailCause where
  | none
  | noSignal
  | fewConverged
deriving DecidableEq, Repr

/-- What the summary says of one destination of one voice (R124). -/
structure DestSummary where
  state : DestState
  cause : FailCause
  converged : Nat
deriving DecidableEq, Repr

/-- A destination not started (R108, R124). -/
def DestSummary.fresh : DestSummary := ⟨.notStarted, .none, 0⟩

/-- One voice's pass-queue entry and summary (R106, R124). `inA`, `inB`, `inCutoff` are its destination set. -/
structure PassEntry where
  state : EntryState
  reason : EntryReason
  inA : Bool
  inB : Bool
  inCutoff : Bool
  sumA : DestSummary
  sumB : DestSummary
  sumCutoff : DestSummary
deriving DecidableEq, Repr

/-- A voice not in the pass (R124). -/
def PassEntry.reset : PassEntry := ⟨.notInPass, .none, false, false, false, .fresh, .fresh, .fresh⟩

/-- The working entry of the destination in progress (R106, R111). A breakpoint's converged flag is set exactly where its
converged count is present. -/
structure Working where
  codes : Vector Code 12
  counts : Vector (Option Nat) 12
  /-- The plan's low and high breakpoints, read when the destination began (R110). -/
  lo : Nat
  hi : Nat
  bp : Nat
  /-- The iteration reached at `bp`, which is what READ_TUNE shows (R106, R124): measurements made or asked for, the first trial
  included (R113). That it counts a trial from its asking on, and so is 1 and not 0 while the first trial waits or is
  measured, is the model's (DESIGN CHOICE, log entry 36). -/
  iter : Nat
  trial : Code
deriving DecidableEq, Repr

/-- The voice in service with its destination in progress and working entry (R106). -/
structure InService where
  voice : Voice
  dest : Tuned
  work : Working
deriving DecidableEq, Repr

/-- Who asked for a measurement (R99). -/
inductive Requester where
  | pass
  | check
deriving DecidableEq, Repr

/-- Phases of a measurement with the counts each keeps (R99 to R102). -/
inductive Phase where
  | waitWrite
  | settling (left : Nat)
  | waitEdge (ticks : Nat)
  | counting (ticks cycles : Nat)
deriving DecidableEq, Repr

/-- A measurement in progress (R99). -/
structure Measurement where
  requester : Requester
  voice : Voice
  dest : Tuned
  bp : Nat
  code : Code
  window : Nat
  tg : Nat
  settle : Nat
  phase : Phase
deriving DecidableEq, Repr

/-- The check in hand (R126). -/
structure Check where
  voice : Voice
  dest : Osc
  bp : Nat
  code : Code
  tg : Nat
deriving DecidableEq, Repr

/-- The tune controller but for its fields of the voice records (R95, R99, R106, R123, R124, R126). -/
structure Tune where
  cal : Vector CalRecord 16
  plan : Plan
  outcome : PassOutcome
  force : Bool
  entries : Vector PassEntry 16
  service : Option InService
  /-- The quarantine request held for the voice in service (R106, R136). -/
  heldQuarantine : Bool
  /-- The pass's request for the unit, waiting at the arbiter (R104). -/
  requestWaiting : Bool
  unit : Option Measurement
  check : Option Check
  /-- Tune-line multiplexer selection (R99). -/
  lineVoice : Voice
  lineDest : Tuned
deriving DecidableEq, Repr

/-! ### Panel (R140, R141, R152) -/

/-- Panel channel roles (R140). -/
inductive Role where
  | parameter (i : Fin 25)
  | bend
  | mod
  | pedal
  | parked
deriving DecidableEq, Repr

/-- Pickup states (R140). -/
inductive Pickup where
  | live
  | waitRise
  | waitFall
deriving DecidableEq, Repr

/-- A panel channel record (R140); mode is PICKUP when `pickupMode` holds, else JUMP. -/
structure Channel where
  role : Role
  pickupMode : Bool
  initialised : Bool
  raw : Val12
  /-- 0..65520, at sixteen times the parameter scale. -/
  filtered : Nat
  reported : Val12
  pickup : Pickup
  armPending : Bool
  notify : Bool
deriving DecidableEq, Repr

/-- The default map of roles (R140). -/
def defaultRole (c : ChannelNo) : Role :=
  if h : c.val < 25 then .parameter ⟨c.val, h⟩
  else if c = 25 then .bend
  else if c = 26 then .mod
  else if c = 27 then .pedal
  else .parked

/-- Reset value of channel `c` (R140). -/
def Channel.reset (c : ChannelNo) : Channel where
  role := defaultRole c
  pickupMode := true
  initialised := false
  raw := 0
  filtered := 0
  reported := 0
  pickup := .live
  armPending := false
  notify := true

/-- An entry of the panel change list (R152). -/
structure Change where
  channel : ChannelNo
  part : PartNo
  param : Fin 25
  value : Val12
deriving DecidableEq, Repr

/-- The panel scanner (R140, R141, R152). -/
structure Panel where
  channels : Vector Channel 32
  focus : PartNo
  shift : Nat
  deadband : Nat
  modValue : Val12
  pedalValue : Val12
  scanPos : ChannelNo
  /-- Oldest first. -/
  changes : List Change
deriving DecidableEq, Repr

/-- Reset value of the panel scanner (R140, R141, R152). -/
def Panel.reset : Panel where
  channels := Vector.ofFn Channel.reset
  focus := 0
  shift := 2
  deadband := 8
  modValue := 0
  pedalValue := 0
  scanPos := 0
  changes := []

/-! ### Patch manager (R164, R168, R172) -/

/-- Cache slot states (R164). -/
inductive CacheState where
  | empty
  | filling
  | valid
deriving DecidableEq, Repr

/-- A cache slot (R164). -/
structure CacheSlot where
  state : CacheState
  location : Option Nat
  contents : Option Patch
  rank : Nat
  lock : Bool
  pin : Nat
deriving DecidableEq, Repr

/-- Reset value of cache slot `c` (R164). -/
def CacheSlot.reset (c : CacheNo) : CacheSlot := ⟨.empty, none, none, c.val, false, 0⟩

/-- A store-link job (R168). -/
inductive Job where
  | fetch (location : Nat) (slot : CacheNo) (part : PartNo) (detached : Bool)
  | store (location : Nat) (slot : CacheNo) (part : PartNo) (snapshot : BitVec 16) (linked : Bool)
deriving DecidableEq, Repr

/-- How far the head job has come, with the expiries counted in the step (R172, R173, R178, R181). The verify step keeps the
bytes programmed. -/
inductive JobStep where
  | readyWait (expiries : Nat)
  | read
  | erase (expiries : Nat)
  | program (expiries : Nat) (page : List Byte)
  | verify (page : List Byte)
deriving DecidableEq, Repr

/-- One transaction on the store-link, between the fall and the rise of the flash's chip-select: the bytes the part sends, and how
many bytes it then takes (R172, 10.5). -/
structure FlashFrame where
  sends : List Byte
  takes : Nat
deriving DecidableEq, Repr

/-- The patch manager (R164, R168, R172, R181). -/
structure PatchMgr where
  slots : Vector CacheSlot 8
  /-- Oldest first; the first is the head. -/
  queue : List Job
  /-- The head's step; present exactly while there is a head. -/
  head : Option JobStep
  lastStore : PatchResult
  lastStoreLoc : Option Nat
  /-- The status byte the flash answers a status read with (an input). -/
  flashStatus : Byte
  /-- The transactions of the latest event that used the store-link, in order (an output). -/
  sent : List FlashFrame
deriving DecidableEq, Repr

/-- Reset value of the patch manager (R182). -/
def PatchMgr.reset : PatchMgr where
  slots := Vector.ofFn CacheSlot.reset
  queue := []
  head := none
  lastStore := .ok
  lastStoreLoc := none
  flashStatus := 0
  sent := []

/-! ### Command port (R184 to R189) -/

/-- Port states (R184). -/
inductive PortState where
  | ready
  | executing
  | answerPending
deriving DecidableEq, Repr

/-- Status codes (R189). -/
inductive Status where
  | ok
  | accepted
  | badCommand
  | badLength
  | badValue
  | wrongState
  | noSlot
  | queueFull
  | isProtected
  | noAnswer
deriving DecidableEq, Repr

/-- An answer: status and payload (R187). -/
structure Answer where
  status : Status
  payload : List Byte
deriving DecidableEq, Repr

/-- The command port (R184, R188). RDY is high exactly while the state is ANSWER_PENDING. -/
structure Port where
  state : PortState
  /-- Request buffer: the frame being executed, else empty. -/
  request : List Byte
  /-- Events of a PLAY in hand already taken, and the two counts (R1). -/
  taken : Nat
  applied : Nat
  ignored : Nat
  /-- Response buffer. -/
  response : Option Answer
  resetRequest : Bool
  /-- Reset cause, `true` for SOFT. -/
  softCause : Bool
  /-- While a transaction is open: the port state at the chip-select fall that opened it (R188). -/
  fall : Option PortState
  /-- The bytes shifted out in the latest transaction (an output, R183, R188). -/
  shifted : List Byte
deriving DecidableEq, Repr

/-- Power-on value of the port (R184). -/
def Port.reset : Port where
  state := .ready
  request := []
  taken := 0
  applied := 0
  ignored := 0
  response := none
  resetRequest := false
  softCause := false
  fall := none
  shifted := []

/-! ### Notices (R196) -/

/-- The notice unit: the pending source sets and the enables (R196); the clear mode is setting 24. -/
structure Notices where
  card : BitVec 4
  tune : Bool
  health : BitVec 16
  clamp : BitVec 16
  recalls : BitVec 4
  store : Bool
  panel : Bool
  link : Bool
  /-- One bit per kind, in the order of the kind byte (10.5). -/
  enables : BitVec 8
deriving DecidableEq, Repr

/-- Value after either reset (R196). -/
def Notices.reset : Notices := ⟨0, false, 0, 0, 0, false, false, false, 0xFF⟩

/-! ### Device settings (R191) -/

/-- The twenty-four device settings, in the order of their numbers (R191). -/
structure Settings where
  stealGap : Nat
  idleDwell : Nat
  backgroundChecks : Bool
  checkBreakpoint : Nat
  gearStep : Nat
  alarmLevel : Nat
  alarmSet : Nat
  alarmClear : Nat
  failThreshold : Nat
  quarantine : Bool
  autoPower : Bool
  autoOnline : Bool
  autoTune : Bool
  windowShift : Nat
  tRef : Nat
  tolerance : Nat
  maxIterations : Nat
  settleFrames : Nat
  nominalBase : Nat
  nominalCpo : Nat
  protectLow : Nat
  protectHigh : Nat
  protectOn : Bool
  /-- Notice clear mode, `true` for ACK_CLEARS. -/
  ackClears : Bool
deriving DecidableEq, Repr

/-- Default settings (R191). -/
def Settings.reset : Settings where
  stealGap := 2
  idleDwell := 2000
  backgroundChecks := true
  checkBreakpoint := 5
  gearStep := 4
  alarmLevel := 400
  alarmSet := 3
  alarmClear := 3
  failThreshold := 4
  quarantine := true
  autoPower := true
  autoOnline := true
  autoTune := false
  windowShift := 4
  tRef := 1956995
  tolerance := 38
  maxIterations := 8
  settleFrames := 5
  nominalBase := 0
  nominalCpo := 5461
  protectLow := 0
  protectHigh := 127
  protectOn := true
  ackClears := true

/-! ### Calibration at power-on (R96) -/

/-- The nominal codes for a base and a CPO: base + k × CPO, clamped to 0..65535 (R96). -/
def nominalCodes (base cpo : Nat) : Vector Code 12 :=
  Vector.ofFn fun k : Fin 12 => BitVec.ofNat 16 (min 65535 (base + k.val * cpo))

/-- A NOMINAL entry at power-on (R96). -/
def CalEntry.reset : CalEntry where
  codes := nominalCodes Settings.reset.nominalBase Settings.reset.nominalCpo
  measured := Vector.replicate 12 false
  status := .nominal
  baseline := none

/-- A calibration record at power-on (R96). -/
def CalRecord.reset : CalRecord := ⟨.reset, .reset, .reset⟩

/-- Power-on value of the tune controller (R96, R106, R121, R123, R124, R126). The multiplexer's selection and the force
flag's value, 0, are given by no rule: DESIGN CHOICE (log entry 3). -/
def Tune.reset : Tune where
  cal := Vector.replicate 16 .reset
  plan := .reset
  outcome := .none
  force := false
  entries := Vector.replicate 16 .reset
  service := none
  heldQuarantine := false
  requestWaiting := false
  unit := none
  check := none
  lineVoice := 0
  lineDest := .a

/-! ### The machine -/

/-- The machine's state: the eleven blocks of 1.3, the settings, and the queue of waiting commands. -/
structure State where
  zones : Vector Zone 8
  parts : Vector Part 4
  voices : Vector VoiceRec 16
  /-- The allocator's stamp counter (R22). -/
  stamp : Stamp
  /-- The MODEL's own field: choices taken from `Config.restrikePick` so far (log entry 4). -/
  freePicks : Nat
  refresh : Refresh
  tune : Tune
  cards : Vector Card 4
  panel : Panel
  patches : PatchMgr
  port : Port
  notices : Notices
  settings : Settings
  /-- Commands waiting, first in, first out. -/
  pending : List Instr
deriving DecidableEq, Repr

/-- Why the block stops with a fault. -/
inductive Fault where
  /-- Raised by FETCH_READ_COMPLETE and VERIFY_COMPLETE for a transfer that did not bring exactly the bytes the read asks for
  (74 and 256): "A memory that answers differently is outside what this manual specifies" (1.5). Safe: the hardware's effect
  there is not given, and the model claims none. -/
  | malformedTransfer
deriving DecidableEq, Repr

/-- Why the block refuses a command. -/
inductive Refusal where
  /-- Raised only by an arm of `exec` whose command has no meaning yet (no such arm is left). Safe. -/
  | notModelled (mnemonic : String)
deriving DecidableEq, Repr

/-- The machine at the end of a power-on reset whose detect lines read as `detect` says (R21, R83, and each block's reset
rule); the queue is kept. -/
def State.powerOn (detect : BitVec 8) (pending : List Instr) : State where
  zones := Vector.replicate 8 .reset
  parts := Vector.ofFn Part.reset
  voices := Vector.replicate 16 .reset
  stamp := 0
  freePicks := 0
  refresh := .reset
  tune := .reset
  cards := Vector.ofFn fun k : Fin 4 => Card.reset (detect.getLsbD (2 * k.val)) (detect.getLsbD (2 * k.val + 1))
  panel := .reset
  patches := .reset
  port := .reset
  notices := .reset
  settings := .reset
  pending := pending

/-- The machine right after power-on reset, every detect line open (DESIGN CHOICE, log entry 3). -/
def State.reset : State := State.powerOn 0 []

end Sys2Proof.Machine
end

