-- ==== Sys2Proof/Machine/Ops.lean ====
section
/-! DEFINITION. The named operations over the records of the state, the manual's arithmetic (1.6), stamps and their ages
(R22), and the placing of an answer (R187). -/

namespace Sys2Proof.Machine

/-! ### Arithmetic words (1.6) -/

/-- `x` clamped to `lo..hi`. -/
def clampInt (lo hi x : Int) : Int := if x < lo then lo else if hi < x then hi else x

/-- `x` clamped to 0..65535, as a DAC code. -/
def toCode (x : Int) : Code := BitVec.ofNat 16 (clampInt 0 65535 x).toNat

/-- `n / d` for `d > 0`, rounded half away from zero. -/
def roundHalfAway (n d : Int) : Int :=
  if n < 0 then -((-2 * n + d) / (2 * d)) else (2 * n + d) / (2 * d)

/-- A count that saturates at `m`. -/
def saturate (m n : Nat) : Nat := min m n

/-- The sign of `x`. -/
def signOf (x : Int) : Int := if x < 0 then -1 else if x = 0 then 0 else 1

/-- Element `k` of a table, or `d` past its end. -/
def tableAt {α : Type} {n : Nat} (t : Vector α n) (k : Nat) (d : α) : α := if h : k < n then t[k] else d

/-- A table with element `k` replaced; unchanged for `k` past its end. -/
def tablePut {α : Type} {n : Nat} (t : Vector α n) (k : Nat) (x : α) : Vector α n :=
  if h : k < n then t.set k x else t

/-- The index `b` where it is below `n`. -/
def index? (n b : Nat) : Option (Fin n) := if h : b < n then some ⟨b, h⟩ else none

/-! ### Records by number -/

/-- All voices, in ascending voice number. -/
def allVoices : List Voice := List.finRange 16

/-- All parts, in ascending order. -/
def allParts : List PartNo := List.finRange 4

/-- All card slots, slot A first. -/
def allCards : List CardNo := List.finRange 4

/-- All zones, in ascending order. -/
def allZones : List ZoneNo := List.finRange 8

/-- All cache slots, in ascending order. -/
def allCaches : List CacheNo := List.finRange 8

/-- All panel channels, in ascending order. -/
def allChannels : List ChannelNo := List.finRange 32

/-- A zone record. -/
def State.zone (s : State) (z : ZoneNo) : Zone := s.zones[z]

/-- Replaces a zone record. -/
def State.setZone (s : State) (z : ZoneNo) (r : Zone) : State := { s with zones := s.zones.set z r }

/-- A part record. -/
def State.part (s : State) (p : PartNo) : Part := s.parts[p]

/-- Replaces a part record. -/
def State.setPart (s : State) (p : PartNo) (r : Part) : State := { s with parts := s.parts.set p r }

/-- Changes a part record. -/
def State.modPart (s : State) (p : PartNo) (f : Part → Part) : State := s.setPart p (f (s.part p))

/-- A voice record. -/
def State.voice (s : State) (v : Voice) : VoiceRec := s.voices[v]

/-- Replaces a voice record. -/
def State.setVoice (s : State) (v : Voice) (r : VoiceRec) : State := { s with voices := s.voices.set v r }

/-- Changes a voice record. -/
def State.modVoice (s : State) (v : Voice) (f : VoiceRec → VoiceRec) : State := s.setVoice v (f (s.voice v))

/-- A slot record. -/
def State.card (s : State) (k : CardNo) : Card := s.cards[k]

/-- Replaces a slot record. -/
def State.setCard (s : State) (k : CardNo) (r : Card) : State := { s with cards := s.cards.set k r }

/-- Changes a slot record. -/
def State.modCard (s : State) (k : CardNo) (f : Card → Card) : State := s.setCard k (f (s.card k))

/-- A panel channel record. -/
def State.channel (s : State) (c : ChannelNo) : Channel := s.panel.channels[c]

/-- Replaces a panel channel record. -/
def State.setChannel (s : State) (c : ChannelNo) (r : Channel) : State :=
  { s with panel := { s.panel with channels := s.panel.channels.set c r } }

/-- A cache slot. -/
def State.cache (s : State) (c : CacheNo) : CacheSlot := s.patches.slots[c]

/-- Replaces a cache slot. -/
def State.setCache (s : State) (c : CacheNo) (r : CacheSlot) : State :=
  { s with patches := { s.patches with slots := s.patches.slots.set c r } }

/-- A calibration record. -/
def State.calRecord (s : State) (v : Voice) : CalRecord := s.tune.cal[v]

/-- Replaces a calibration record. -/
def State.setCalRecord (s : State) (v : Voice) (r : CalRecord) : State :=
  { s with tune := { s.tune with cal := s.tune.cal.set v r } }

/-- A voice's entry of the pass queue and summary. -/
def State.entry (s : State) (v : Voice) : PassEntry := s.tune.entries[v]

/-- Replaces a voice's entry. -/
def State.setEntry (s : State) (v : Voice) (e : PassEntry) : State :=
  { s with tune := { s.tune with entries := s.tune.entries.set v e } }

/-- The pitch destination's tuned destination. -/
def Osc.tuned : Osc → Tuned
  | .a => .a
  | .b => .b

/-- The other pitch destination (R132). -/
def Osc.other : Osc → Osc
  | .a => .b
  | .b => .a

/-- A tuned destination's number among the voice's destinations (1.6). -/
def Tuned.number : Tuned → DestNo
  | .a => 0
  | .b => 1
  | .cutoff => 2

/-- A destination entry of a calibration record. -/
def CalRecord.entry (r : CalRecord) : Tuned → CalEntry
  | .a => r.a
  | .b => r.b
  | .cutoff => r.cutoff

/-- Replaces a destination entry. -/
def CalRecord.setEntry (r : CalRecord) (d : Tuned) (e : CalEntry) : CalRecord :=
  match d with
  | .a => { r with a := e }
  | .b => { r with b := e }
  | .cutoff => { r with cutoff := e }

/-- A destination entry of a voice. -/
def State.cal (s : State) (v : Voice) (d : Tuned) : CalEntry := (s.calRecord v).entry d

/-- Replaces a destination entry of a voice. -/
def State.setCal (s : State) (v : Voice) (d : Tuned) (e : CalEntry) : State :=
  s.setCalRecord v ((s.calRecord v).setEntry d e)

/-- The drift fields of a pitch destination. -/
def VoiceRec.drift (r : VoiceRec) : Osc → Drift
  | .a => r.driftA
  | .b => r.driftB

/-- Replaces the drift fields of a pitch destination. -/
def VoiceRec.setDrift (r : VoiceRec) (d : Osc) (x : Drift) : VoiceRec :=
  match d with
  | .a => { r with driftA := x }
  | .b => { r with driftB := x }

/-- Whether a destination is in an entry's destination set. -/
def PassEntry.has (e : PassEntry) : Tuned → Bool
  | .a => e.inA
  | .b => e.inB
  | .cutoff => e.inCutoff

/-- The summary of one destination. -/
def PassEntry.sum (e : PassEntry) : Tuned → DestSummary
  | .a => e.sumA
  | .b => e.sumB
  | .cutoff => e.sumCutoff

/-- Replaces the summary of one destination. -/
def PassEntry.setSum (e : PassEntry) (d : Tuned) (x : DestSummary) : PassEntry :=
  match d with
  | .a => { e with sumA := x }
  | .b => { e with sumB := x }
  | .cutoff => { e with sumCutoff := x }

/-- The card slot of a voice (1.6). -/
def cardOf (v : Voice) : CardNo := ⟨v.val / 4, by omega⟩

/-- The four voices of a card slot, in ascending order (1.6). -/
def voicesOf (k : CardNo) : List Voice := allVoices.filter fun v => cardOf v == k

/-! ### Live patch readings -/

/-- Parameter `i` of a patch; the manual's indices are all below 25. -/
def Patch.param (p : Patch) (i : Fin 25) : Nat := (p.params[i]).toNat

/-- Effective limit of a patch (R24). -/
def Patch.limit (p : Patch) : Nat :=
  match p.voiceMode with
  | .poly => p.voiceLimit
  | .mono => 1
  | .unison => p.unisonCount

/-- Glide frames F of a patch: P0 div 4 (R26). -/
def Patch.glideFrames (p : Patch) : Nat := p.param 0 / 4

/-- Release tail of a patch: P6 div 2 (R34). -/
def Patch.tailFrames (p : Patch) : Nat := p.param 6 / 2

/-! ### Stamps (R22) -/

/-- Whether stamp `a` is older than stamp `b`: a − b read as a signed 32-bit number is negative. -/
def older (a b : Stamp) : Bool := (a - b).msb

/-- The item with the oldest stamp; among items whose stamps compare equal, the first of the list. -/
def oldestBy {α : Type} (stamp : α → Stamp) : List α → Option α
  | [] => none
  | x :: xs => some (xs.foldl (fun best y => if older (stamp y) (stamp best) then y else best) x)

/-- The item with the newest stamp; among items whose stamps compare equal, the first of the list. -/
def newestBy {α : Type} (stamp : α → Stamp) : List α → Option α
  | [] => none
  | x :: xs => some (xs.foldl (fun best y => if older (stamp best) (stamp y) then y else best) x)

/-- Takes the next stamp: the counter increments, wrapping, and the value after is the stamp taken. -/
def State.bump (s : State) : State := { s with stamp := s.stamp + 1 }

/-! ### Voice records -/

/-- The voice is one of those a part's count counts: SOUNDING or STEAL_GAP (R24). -/
def Service.counted : Service → Bool
  | .sounding | .stealGap => true
  | _ => false

/-- The part of the voice's assignment, if it has one. -/
def VoiceRec.asgPart (r : VoiceRec) : Option PartNo := r.asg.map fun a => a.part

/-- The stamp of the voice's assignment, 0 without one. -/
def VoiceRec.asgStamp (r : VoiceRec) : Stamp := (r.asg.map fun a => a.stamp).getD 0

/-- The part's voices: those in SOUNDING or STEAL_GAP whose assignment names it (R24), in ascending order. -/
def State.partVoices (s : State) (p : PartNo) : List Voice :=
  allVoices.filter fun v => (s.voice v).state.counted && decide ((s.voice v).asgPart = some p)

/-- A part's count (R24). -/
def State.count (s : State) (p : PartNo) : Nat := (s.partVoices p).length

/-- A part's effective limit (R24). -/
def State.limit (s : State) (p : PartNo) : Nat := (s.part p).live.limit

/-- The record with its assignment dropped: the glide stops and G stays (R20). The tail and the gap, frames of a state
that is left with the assignment, become 0 (DEDUCED, log entry 5). -/
def VoiceRec.drop (r : VoiceRec) : VoiceRec := { r with asg := none, glide := 0, tail := 0, gap := 0 }

/-- The voice enters IDLE other than by return from a check: a new stamp becomes its last-free stamp and its idle frames
become 0 (R22, R38, R46, R49). -/
def State.enterIdle (s : State) (v : Voice) : State :=
  s.bump.modVoice v fun r => { r with state := .idle, lastFree := s.stamp + 1, idle := 0 }

/-! ### Answers (R187) -/

/-- The port places an answer: it becomes ANSWER_PENDING and the request buffer is emptied (R187). -/
def State.answer (s : State) (status : Status) (payload : List Byte) : State :=
  { s with port := { s.port with
      state := .answerPending, request := [], taken := 0, applied := 0, ignored := 0, response := some ⟨status, payload⟩ } }

/-- A refusal answers with its status and length 0 (R187, R189). -/
def State.refuse (s : State) (status : Status) : State := s.answer status []

end Sys2Proof.Machine
end

