-- ==== Sys2Proof/Machine/Flags.lean ====
section
/-! DEFINITION. The part's indications: the pending source sets and their postings (R197), and the outputs RDY, ATTN and the
gates, each a view of the state that decides it (R184, R199, R77). -/

namespace Sys2Proof.Machine

/-- RDY is high exactly while the port is ANSWER_PENDING (R184). -/
def State.rdy (s : State) : Bool := s.port.state == .answerPending

/-- A voice's gate output is open exactly while the voice is SOUNDING (R77). -/
def State.gate (s : State) (v : Voice) : Bool := (s.voice v).state == .sounding

/-- The kind byte of the kinds whose pending source set is non-empty (R200, 10.5). -/
def Notices.kinds (n : Notices) : BitVec 8 :=
  BitVec.ofBoolListLE [n.card != 0, n.tune, n.health != 0, n.clamp != 0, n.recalls != 0, n.store, n.panel, n.link]

/-- ATTN is high while a kind whose enable is on has a non-empty pending source set (R199). -/
def State.attn (s : State) : Bool := s.notices.kinds &&& s.notices.enables != 0

/-- Posts CARD for a slot (R197). -/
def State.postCard (s : State) (k : CardNo) : State :=
  { s with notices := { s.notices with card := s.notices.card ||| 1#4 <<< k.val } }

/-- Posts TUNE (R197). -/
def State.postTune (s : State) : State := { s with notices := { s.notices with tune := true } }

/-- Posts HEALTH for a voice (R197). -/
def State.postHealth (s : State) (v : Voice) : State :=
  { s with notices := { s.notices with health := s.notices.health ||| 1#16 <<< v.val } }

/-- Posts CLAMP for a voice (R64, R197). -/
def State.postClamp (s : State) (v : Voice) : State :=
  { s with notices := { s.notices with clamp := s.notices.clamp ||| 1#16 <<< v.val } }

/-- Posts RECALL for a part (R197). -/
def State.postRecall (s : State) (p : PartNo) : State :=
  { s with notices := { s.notices with recalls := s.notices.recalls ||| 1#4 <<< p.val } }

/-- Posts STORE (R197). -/
def State.postStore (s : State) : State := { s with notices := { s.notices with store := true } }

/-- Posts LINK (R186, R197). -/
def State.postLink (s : State) : State := { s with notices := { s.notices with link := true } }

/-- The panel scanner's report that the change list is non-empty or empty (R153, R198). -/
def State.reportPanel (s : State) (nonEmpty : Bool) : State := { s with notices := { s.notices with panel := nonEmpty } }

/-- A pass runs: the pass state is RUNNING (R106, R124). -/
def State.passRunning (s : State) : Bool := s.tune.outcome == .running

end Sys2Proof.Machine
end

