-- ==== Sys2Proof/Machine/Port.lean ====
section
/-! DEFINITION. The command port: form checks, overruns and the handing of a request to its block (R183 to R190). -/

namespace Sys2Proof.Machine

/-- Code of a status (R189). -/
def Status.code : Status → Byte
  | .ok => 0
  | .accepted => 1
  | .badCommand => 2
  | .badLength => 3
  | .badValue => 4
  | .wrongState => 5
  | .noSlot => 6
  | .queueFull => 7
  | .isProtected => 8
  | .noAnswer => 9

/-- The status of the first form check of R185 that a request frame fails; none where it passes all three. -/
def formCheck : List Byte → Option Status
  | [] => some .badLength
  | [code] => if 37 ≤ code.toNat then some .badCommand else some .badLength
  | code :: n :: payload =>
    if 37 ≤ code.toNat then some .badCommand
    else if 240 < n.toNat ∨ payload.length ≠ n.toNat then some .badLength
    else if lengthAllowed code.toNat payload.length then none
    else some .badLength

/-- The chip-select rise that ends a transaction in which the part shifted out `out` (R183). -/
def State.endTransaction (s : State) (out : List Byte) : State :=
  { s with port := { s.port with fall := none, shifted := out } }

/-- The port keeps a well-formed frame and becomes EXECUTING (R185). -/
def State.keepFrame (s : State) (bytes : List Byte) : State :=
  { s with port := { s.port with state := .executing, request := bytes, taken := 0, applied := 0, ignored := 0 } }

/-- A request frame is taken at the chip-select rise: its form is checked while the port is READY, and it is an overrun
otherwise (R185, R186). -/
def State.takeFrame (s : State) (bytes : List Byte) : State :=
  let s1 := s.endTransaction (List.replicate bytes.length 0xFF)
  match s.port.state with
  | .ready =>
    match formCheck bytes with
    | some status => s1.refuse status
    | none => s1.keepFrame bytes
  | .executing => s1.postLink
  | .answerPending => s1.postLink

/-- The request the port has handed to its owning block and that is not yet answered (R185, R187). -/
def State.inHand (s : State) : Option Instr :=
  match s.port.state with
  | .executing => commandOfFrame s.port.request
  | .ready => none
  | .answerPending => none

/-- A host command. Where it is the request in hand, its owning block takes it (R187). Where it is not, the host sends its
frame now (R185, R186), and the block takes the request if the port keeps that frame (DESIGN CHOICE, log entry 1). -/
def hostCommand (c : Instr) (serve : State → State) (s : State) : State :=
  if s.inHand = some c then serve s
  else
    match c.frame with
    | none => s
    | some bytes =>
      let s1 := s.takeFrame bytes
      if s1.inHand = some c then serve s1 else s1

/-- What the part shifts out in a fetch of `n` bytes: 0xFF, status, length, payload, then 0xFF (R188). -/
def fetchBytes (n : Nat) (a : Answer) : List Byte :=
  (([0xFF, a.status.code, BitVec.ofNat 8 a.payload.length] ++ a.payload) ++ List.replicate n 0xFF).take n

/-- The held answer is given up and the port becomes READY (R188). -/
def State.giveUpAnswer (s : State) : State :=
  { s with port := { s.port with state := .ready, response := none } }

end Sys2Proof.Machine
end

