-- ==== Sys2Proof/Machine/Operands.lean ====
section
/-! DEFINITION. The operand and answer forms of the link: how a payload byte names a record or a value, and the byte layouts
of the answers (R187, R190, R192, R195 and 10.5). -/

namespace Sys2Proof.Machine

/-! ### Reading fields -/

/-- A voice number, none above 15. -/
def voice? (b : Byte) : Option Voice := index? 16 b.toNat

/-- A part number, none above 3. -/
def part? (b : Byte) : Option PartNo := index? 4 b.toNat

/-- A zone number, none above 7. -/
def zone? (b : Byte) : Option ZoneNo := index? 8 b.toNat

/-- A card slot number, none above 3. -/
def card? (b : Byte) : Option CardNo := index? 4 b.toNat

/-- A panel channel number, none above 31. -/
def channel? (b : Byte) : Option ChannelNo := index? 32 b.toNat

/-- A two-valued field: 0 for no or off, 1 for yes or on (R190). -/
def flag? (b : Byte) : Option Bool := if b = 0 then some false else if b = 1 then some true else none

/-- A source channel of a zone: 0..15, or 0xFF for ANY (R190). -/
def source? (b : Byte) : Option (Option Nat) :=
  if b = 0xFF then some none else if b.toNat < 16 then some (some b.toNat) else none

/-- A channel role (R190). -/
def role? (b : Byte) : Option Role :=
  match index? 25 b.toNat with
  | some i => some (.parameter i)
  | none =>
    if b = 32 then some .bend else if b = 33 then some .mod else if b = 34 then some .pedal
    else if b = 35 then some .parked else none

/-- A monitor selection (R79, R190). -/
def monSel? (selector dest : Byte) : Option MonSel :=
  if selector = 0x40 then some .mod
  else if selector = 0x41 then some .pedal
  else match voice? selector, index? 24 dest.toNat with
    | some v, some d => some (.voice v d)
    | _, _ => none

/-! ### Writing fields: the fewest whole bytes that hold a field's range (R187), NONE and absent as all ones (R195) -/

/-- One byte. -/
def byte1 (n : Nat) : List Byte := [BitVec.ofNat 8 n]

/-- Two bytes. -/
def byte2 (n : Nat) : List Byte := bytes16 (BitVec.ofNat 16 n)

/-- Three bytes, high byte first. -/
def byte3 (n : Nat) : List Byte := BitVec.ofNat 8 (n / 65536) :: byte2 n

/-- Four bytes. -/
def byte4 (n : Nat) : List Byte := bytes32 (BitVec.ofNat 32 n)

/-- A signed field of one byte. -/
def int1 (x : Int) : List Byte := [BitVec.ofInt 8 x]

/-- A signed field of two bytes. -/
def int2 (x : Int) : List Byte := bytes16 (BitVec.ofInt 16 x)

/-- A two-valued field (R195). -/
def bit1 (b : Bool) : List Byte := [if b then 1 else 0]

/-- A field of one byte that may be absent. -/
def opt1 : Option Nat → List Byte
  | some n => byte1 n
  | none => [0xFF]

/-- A field of two bytes that may be absent. -/
def opt2 : Option Nat → List Byte
  | some n => byte2 n
  | none => [0xFF, 0xFF]

/-- `n` bytes of a field whose condition does not hold (R195). -/
def absentField (n : Nat) : List Byte := List.replicate n 0xFF

/-- A voice set: two bytes, V0 in the lowest bit (R195). -/
def voiceSet (f : Voice → Bool) : List Byte := bytes16 ((BitVec.ofBoolListLE (allVoices.map f)).setWidth 16)

/-! ### Codes of named values (R192, R195) -/

/-- Code of a service state. -/
def Service.code : Service → Nat
  | .absent => 0
  | .offline => 1
  | .idle => 2
  | .sounding => 3
  | .releasing => 4
  | .stealGap => 5
  | .calibrating => 6
  | .retuning => 7
  | .quarantined => 8

/-- Code of a last check, and its count where one was taken. -/
def LastCheck.bytes : LastCheck → List Byte
  | .none => 0 :: absentField 3
  | .within m => 1 :: byte3 m
  | .corrected m => 2 :: byte3 m
  | .limited m => 3 :: byte3 m
  | .atRail m => 4 :: byte3 m
  | .noSignal => 5 :: absentField 3

/-- Code of a pitch destination. -/
def Osc.code : Osc → Nat
  | .a => 0
  | .b => 1

/-- Code of a tuned destination. -/
def Tuned.code : Tuned → Nat
  | .a => 0
  | .b => 1
  | .cutoff => 2

/-- Code of a calibration status. -/
def CalStatus.code : CalStatus → Nat
  | .nominal => 0
  | .calibrated => 1
  | .part => 2
  | .stale => 3
  | .failed => 4

/-- Code of a slot state. -/
def CardState.code : CardState → Nat
  | .empty => 0
  | .half => 1
  | .seated => 2
  | .powering => 3
  | .powered => 4
  | .powerFault => 5

/-- Code of a fault cause. -/
def FaultCause.code : FaultCause → Nat
  | .none => 0
  | .readyTimeout => 1
  | .readyLost => 2

/-- Code of a monitor source. -/
def MonSource.code : MonSource → Nat
  | .computed => 0
  | .override => 1

/-- Code of a channel role. -/
def Role.code : Role → Nat
  | .parameter i => i.val
  | .bend => 32
  | .mod => 33
  | .pedal => 34
  | .parked => 35

/-- Code of a pickup state. -/
def Pickup.code : Pickup → Nat
  | .live => 0
  | .waitRise => 1
  | .waitFall => 2

/-- Code of a pass outcome. -/
def PassOutcome.code : PassOutcome → Nat
  | .none => 0
  | .running => 1
  | .completed => 2
  | .aborted => 3

/-- Code of a pass entry state. -/
def EntryState.code : EntryState → Nat
  | .notInPass => 0
  | .skipped => 1
  | .pending => 2
  | .waiting => 3
  | .inService => 4
  | .done => 5
  | .left => 6

/-- Code of an entry reason. -/
def EntryReason.code : EntryReason → Nat
  | .none => 0
  | .absent => 1
  | .offline => 2
  | .quarantined => 3
  | .offlinePending => 4
  | .lost => 5
  | .aborted => 6

/-- Code of a destination pass state. -/
def DestState.code : DestState → Nat
  | .notStarted => 0
  | .inProgress => 1
  | .calibrated => 2
  | .part => 3
  | .failed => 4
  | .restored => 5

/-- Code of a failure cause. -/
def FailCause.code : FailCause → Nat
  | .none => 0
  | .noSignal => 1
  | .fewConverged => 2

/-- Code of a measurement's requester. -/
def Requester.code : Requester → Nat
  | .pass => 0
  | .check => 1

/-- Code of a measurement's phase. -/
def Phase.code : Phase → Nat
  | .waitWrite => 0
  | .settling _ => 1
  | .waitEdge _ => 2
  | .counting _ _ => 3

/-- Code of a cache slot state. -/
def CacheState.code : CacheState → Nat
  | .empty => 0
  | .filling => 1
  | .valid => 2

/-- Code of a job step. -/
def JobStep.code : JobStep → Nat
  | .readyWait _ => 0
  | .read => 1
  | .erase _ => 2
  | .program _ _ => 3
  | .verify _ => 4

/-- The expiries counted in a job step (R181). -/
def JobStep.expiries : JobStep → Nat
  | .readyWait n => n
  | .read => 0
  | .erase n => n
  | .program n _ => n
  | .verify _ => 0

/-- Result code of a recall or a store (R192). -/
def PatchResult.code : PatchResult → Nat
  | .ok => 0
  | .blank => 1
  | .damaged => 2
  | .eraseFail => 4
  | .programFail => 5
  | .verifyFail => 6
  | .timeout => 7
  | .superseded => 8

/-- Code of a voice mode (R159). -/
def VoiceMode.code : VoiceMode → Nat
  | .poly => 0
  | .mono => 1
  | .unison => 2

/-- Code of a glide mode (R159). -/
def GlideMode.code : GlideMode → Nat
  | .off => 0
  | .always => 1
  | .legato => 2

/-- Code of a key priority (R159). -/
def KeyPriority.code : KeyPriority → Nat
  | .last => 0
  | .low => 1
  | .high => 2

/-- Code of a mono trigger (R159). -/
def MonoTrigger.code : MonoTrigger → Nat
  | .retrig => 0
  | .legato => 1

/-! ### Answer layouts -/

/-- READ_ZONE (R5). -/
def Zone.bytes (z : Zone) : List Byte :=
  bit1 z.enabled ++ opt1 z.source ++ byte1 z.lowKey ++ byte1 z.highKey ++ byte1 z.lowVel ++ byte1 z.highVel
    ++ byte1 z.part.val ++ int1 z.transpose

/-- A held-key entry (R6, R19). -/
def HeldKey.bytes (h : HeldKey) : List Byte :=
  byte1 h.channel ++ byte1 h.key ++ byte1 h.note ++ byte1 h.zone.val ++ byte1 h.velocity

/-- READ_PART (R19). -/
def partAnswer (s : State) (p : PartNo) : List Byte :=
  let r := s.part p
  byte1 r.reserve ++ int1 r.fineTune ++ bit1 r.panelBend ++ int2 r.bend ++ bit1 r.sustain ++ byte2 r.lastPitch
    ++ byte2 r.stealsShown ++ byte2 r.dropsShown ++ opt2 r.origin ++ bit1 r.dirty ++ bytes16 r.editCount
    ++ opt2 r.wanted ++ byte1 r.lastRecall.code ++ byte1 (s.count p) ++ byte1 r.held.length
    ++ r.held.flatMap HeldKey.bytes

/-- The nine fields of an assignment (R20, R51), all ones without one (R195). -/
def assignmentBytes : Option Assignment → List Byte
  | some a => byte1 a.part.val ++ byte1 a.zone.val ++ byte1 a.channel ++ byte1 a.key ++ byte1 a.note ++ byte1 a.velocity
      ++ bytes32 a.stamp ++ bit1 a.sustained ++ byte1 a.unison
  | none => absentField 12

/-- The six drift fields of one pitch destination (R125). -/
def Drift.bytes (d : Drift) : List Byte :=
  int2 d.target ++ int2 d.applied ++ bit1 d.alarm ++ byte1 d.overCount ++ byte1 d.underCount ++ d.lastCheck.bytes

/-- READ_VOICE (R51, R125). -/
def voiceAnswer (s : State) (v : Voice) : List Byte :=
  let r := s.voice v
  byte1 r.state.code ++ bit1 r.tunePending ++ bit1 r.offlinePending ++ bit1 r.asg.isSome ++ assignmentBytes r.asg
    ++ byte2 r.pitch ++ byte2 r.target ++ byte2 r.glide ++ byte2 r.tail ++ byte1 r.gap ++ byte2 r.idle
    ++ opt1 (r.lastPart.map fun p => p.val) ++ opt1 r.lastNote ++ bytes32 r.lastFree ++ bytes32 r.lastCheckStamp
    ++ bytes32 s.stamp ++ r.driftA.bytes ++ r.driftB.bytes ++ byte1 r.nextCheck.code ++ byte1 r.fails

/-- The tuned destinations, in order. -/
def tunedAll : List Tuned := [.a, .b, .cutoff]

/-- A destination set: bit 0 A, bit 1 B, bit 2 cutoff (R190). The set of a voice that has no entry in the pass queue is sent as the
empty set, 0 (DESIGN CHOICE, log entry 33). -/
def PassEntry.setByte (e : PassEntry) : Nat :=
  (if e.inA then 1 else 0) + (if e.inB then 2 else 0) + (if e.inCutoff then 4 else 0)

/-- One destination of the pass summary, all ones where the destination is not in the set (R124, R195). -/
def PassEntry.destBytes (e : PassEntry) (d : Tuned) : List Byte :=
  if e.has d then byte1 (e.sum d).state.code ++ byte1 (e.sum d).cause.code ++ byte1 (e.sum d).converged
  else absentField 3

/-- READ_TUNE (R124). The measurement unit is sent as 1 where it is busy and 0 where it is free (DESIGN CHOICE, log entry 32). -/
def tuneAnswer (s : State) : List Byte :=
  let t := s.tune
  bit1 s.passRunning ++ bit1 t.force ++ byte1 t.outcome.code
    ++ allVoices.flatMap (fun v => byte1 (s.entry v).state.code ++ byte1 (s.entry v).reason.code
        ++ byte1 (s.entry v).setByte)
    ++ allVoices.flatMap (fun v => tunedAll.flatMap (s.entry v).destBytes)
    ++ (match t.service with
        | some x => byte1 x.dest.code ++ byte1 x.work.bp ++ byte1 x.work.iter ++ bytes16 x.work.trial
        | none => absentField 5)
    ++ (match t.unit with
        | some m => [1] ++ byte1 m.requester.code ++ byte1 m.voice.val ++ byte1 m.dest.code ++ byte1 m.bp
            ++ bytes16 m.code ++ byte1 m.phase.code
        | none => [0] ++ absentField 7)

/-- The measured flags of an entry: breakpoint k in bit k of two bytes (10.5). -/
def CalEntry.flagBytes (e : CalEntry) : List Byte := bytes16 ((BitVec.ofBoolListLE e.measured.toList).setWidth 16)

/-- The calibration transfer record (10.5): codes, then baselines with 0 for NONE. -/
def CalRecord.transfer (r : CalRecord) : List Byte :=
  tunedAll.flatMap (fun d => (r.entry d).codes.toList.flatMap bytes16)
    ++ byte3 (r.a.baseline.getD 0) ++ byte3 (r.b.baseline.getD 0)

/-- READ_CAL (R97, 10.5). -/
def calAnswer (s : State) (v : Voice) : List Byte :=
  let r := s.calRecord v
  r.transfer ++ tunedAll.flatMap (fun d => byte1 (r.entry d).status.code)
    ++ tunedAll.flatMap (fun d => (r.entry d).flagBytes)
    ++ (match s.tune.service with
        | some x => if x.voice = v then byte1 x.dest.code else [0xFF]
        | none => [0xFF])

/-- The selector and destination bytes of a monitor selection (R195). -/
def MonSel.bytes : MonSel → List Byte
  | .voice v d => byte1 v.val ++ byte1 d.val
  | .mod => [0x40, 0xFF]
  | .pedal => [0x41, 0xFF]

/-- READ_MONITOR (R81). -/
def monitorAnswer (s : State) : List Byte :=
  let r := s.refresh
  r.sel.bytes ++ bit1 r.facts.isSome
    ++ (match r.facts with
        | some f => bytes16 f.code ++ byte1 f.source.code ++ opt2 f.input ++ opt1 f.segment ++ opt2 f.fraction
            ++ bytes16 f.round
        | none => absentField 10)
    ++ bytes16 r.round
    ++ (match r.sel with
        | .voice v d => bit1 (r.overrides[v][d]).isSome
        | .mod => bit1 false
        | .pedal => bit1 false)

/-- One slot record (R94). The order of the four readings is the model's reading (DEDUCED, log entry 15). -/
def Card.bytes (c : Card) : List Byte :=
  byte1 c.state.code ++ bit1 c.removalPending ++ bit1 c.rawLeft ++ bit1 c.rawRight ++ bit1 c.settledLeft
    ++ bit1 c.settledRight ++ byte1 c.debounce ++ bit1 c.power ++ bit1 c.readySeen ++ byte1 c.readyTimer
    ++ byte1 c.cause.code

/-- READ_CARDS (R94). The order of the three auto settings, auto power, auto online, auto tune, is the model's reading: R94
names the three together only (DEDUCED, log entry 15). -/
def cardsAnswer (s : State) : List Byte :=
  allCards.flatMap (fun k => (s.card k).bytes)
    ++ bit1 s.settings.autoPower ++ bit1 s.settings.autoOnline ++ bit1 s.settings.autoTune

/-- READ_CHANNEL (R158). -/
def channelAnswer (s : State) (c : ChannelNo) : List Byte :=
  let r := s.channel c
  byte1 r.role.code ++ bit1 r.pickupMode ++ bit1 r.initialised ++ byte2 r.raw.toNat ++ byte2 r.filtered
    ++ byte2 r.reported.toNat ++ byte1 r.pickup.code ++ bit1 r.armPending ++ bit1 r.notify
    ++ (match r.role with
        | .parameter i => byte2 ((s.part s.panel.focus).live.param i)
        | .bend | .mod | .pedal | .parked => absentField 2)
    ++ byte1 s.panel.focus.val ++ byte1 s.panel.shift ++ byte1 s.panel.deadband ++ byte2 s.panel.modValue.toNat
    ++ byte2 s.panel.pedalValue.toNat ++ byte1 s.panel.changes.length
    ++ bit1 (s.panel.changes.any fun e => e.channel == c)

/-- A change-list entry (R152, R154). -/
def Change.bytes (e : Change) : List Byte :=
  byte1 e.channel.val ++ byte1 e.part.val ++ byte1 e.param.val ++ byte2 e.value.toNat

/-- The eight discrete fields, one byte each (10.5, Stored patch record). -/
def Patch.discreteBytes (p : Patch) : List Byte :=
  byte1 p.voiceMode.code ++ byte1 p.voiceLimit ++ byte1 p.unisonCount ++ byte1 p.unisonSpread ++ byte1 p.bendRange
    ++ byte1 p.glideMode.code ++ byte1 p.keyPriority.code ++ byte1 p.monoTrigger.code

/-- P0..P24, the discrete fields and the name: bytes 2..71 of the stored record (10.5). -/
def Patch.body (p : Patch) : List Byte :=
  p.params.toList.flatMap (fun x => byte2 x.toNat) ++ p.discreteBytes ++ p.name.toList

/-- READ_LIVE (R163). -/
def liveAnswer (r : Part) : List Byte :=
  r.live.body ++ opt2 r.origin ++ bit1 r.dirty ++ bytes16 r.editCount ++ opt2 r.wanted

/-- One cache slot (R181). -/
def CacheSlot.bytes (c : CacheSlot) : List Byte :=
  byte1 c.state.code ++ opt2 c.location ++ byte1 c.rank ++ bit1 c.lock ++ byte1 c.pin
    ++ (match c.state, c.contents with
        | .valid, some p => p.name.toList
        | _, _ => absentField 12)

/-- One store-link job (R181). -/
def Job.bytes : Job → List Byte
  | .fetch l c p detached => [0] ++ byte2 l ++ byte1 c.val ++ byte1 p.val ++ bit1 detached ++ absentField 2
  | .store l c p snapshot linked => [1] ++ byte2 l ++ byte1 c.val ++ byte1 p.val ++ bit1 linked ++ bytes16 snapshot

/-- READ_CACHE (R181). -/
def cacheAnswer (s : State) : List Byte :=
  let m := s.patches
  allCaches.flatMap (fun c => (s.cache c).bytes) ++ byte1 m.queue.length ++ m.queue.flatMap Job.bytes
    ++ (match m.head with
        | some h => byte1 h.code ++ byte1 h.expiries
        | none => absentField 2)
    ++ byte1 m.lastStore.code ++ opt2 m.lastStoreLoc ++ byte2 s.settings.protectLow ++ byte2 s.settings.protectHigh
    ++ bit1 s.settings.protectOn

/-- The source set block (10.5). -/
def Notices.block (n : Notices) : List Byte :=
  [n.card.setWidth 8] ++ bit1 n.tune ++ bytes16 n.health ++ bytes16 n.clamp ++ [n.recalls.setWidth 8] ++ bit1 n.store
    ++ bit1 n.panel ++ bit1 n.link

/-- READ_NOTICES (R200, 10.5). -/
def noticesAnswer (s : State) : List Byte :=
  [s.notices.kinds, s.notices.enables] ++ bit1 s.settings.ackClears ++ s.notices.block

/-- The settings in the order of their numbers, each in 4 bytes (R192). -/
def Settings.bytes (x : Settings) : List Byte :=
  [x.stealGap, x.idleDwell, x.backgroundChecks.toNat, x.checkBreakpoint, x.gearStep, x.alarmLevel, x.alarmSet,
    x.alarmClear, x.failThreshold, x.quarantine.toNat, x.autoPower.toNat, x.autoOnline.toNat, x.autoTune.toNat,
    x.windowShift, x.tRef, x.tolerance, x.maxIterations, x.settleFrames, x.nominalBase, x.nominalCpo, x.protectLow,
    x.protectHigh, x.protectOn.toNat, x.ackClears.toNat].flatMap byte4

/-- READ_DEVICE (R192). -/
def deviceAnswer (s : State) : List Byte :=
  [Config.familyCode] ++ bytes16 Config.partCode ++ [Config.revision] ++ bit1 s.port.softCause
    ++ byte1 s.patches.lastStore.code ++ opt2 s.patches.lastStoreLoc
    ++ allParts.flatMap (fun p => byte1 (s.part p).lastRecall.code) ++ s.settings.bytes

end Sys2Proof.Machine
end

