-- ==== Sys2Proof/Machine/Attention.lean ====
section
/-! DEFINITION. The notice unit's commands: reading and acknowledging notices, and the enables (R196 to R203). -/

namespace Sys2Proof.Machine

/-- The sets left by a READ_NOTICES in READ_CLEARS mode: only the PANEL condition stays (R198, R200). -/
def Notices.cleared (n : Notices) : Notices := { Notices.reset with panel := n.panel, enables := n.enables }

/-- The sets after a READ_NOTICES in a clear mode, `true` for ACK_CLEARS (R200). -/
def Notices.afterRead (n : Notices) (ackClears : Bool) : Notices := if ackClears then n else n.cleared

/-- READ_NOTICES (R200). -/
def execReadNotices (s : State) : Host.Outcome State Fault Refusal :=
  .next <| hostCommand .readNotices
    (fun t =>
      ({ t with notices := t.notices.afterRead t.settings.ackClears }).answer .ok (noticesAnswer t)) s

/-- A source set block as ACK_NOTICES carries it (10.5). -/
structure SourceBlock where
  card : Byte
  tune : Byte
  health : BitVec 16
  clamp : BitVec 16
  recalls : Byte
  store : Byte
  panel : Byte
  link : Byte
deriving DecidableEq, Repr

/-- The kind byte and source set block of an acknowledge, none where they are not eleven bytes (R190, 10.5). -/
def ackFields : List Byte → Option (Byte × SourceBlock)
  | [kinds, card, tune, h1, h0, c1, c0, recalls, store, panel, link] =>
    some (kinds, ⟨card, tune, word16 h1 h0, word16 c1 c0, recalls, store, panel, link⟩)
  | _ => none

/-- Every bit of the block lies inside its kind's sources (R201). -/
def SourceBlock.inRange (b : SourceBlock) : Bool :=
  decide (b.card.toNat < 16) && decide (b.tune.toNat < 2) && decide (b.recalls.toNat < 16) && decide (b.store.toNat < 2)
    && decide (b.panel.toNat < 2) && decide (b.link.toNat < 2)

/-- The sources that an acknowledge of one kind clears: those named, where the kind byte names the kind (R201). -/
def ackMask {w : Nat} (kinds : Byte) (kind : Nat) (sources : BitVec w) : BitVec w :=
  if kinds.getLsbD kind then sources else 0

/-- The sets after an acknowledge; PANEL is not cleared this way (R201). -/
def Notices.acked (n : Notices) (kinds : Byte) (b : SourceBlock) : Notices :=
  { n with
    card := n.card &&& ~~~ (ackMask kinds 0 (b.card.setWidth 4))
    tune := n.tune && !(kinds.getLsbD 1 && b.tune.getLsbD 0)
    health := n.health &&& ~~~ (ackMask kinds 2 b.health)
    clamp := n.clamp &&& ~~~ (ackMask kinds 3 b.clamp)
    recalls := n.recalls &&& ~~~ (ackMask kinds 4 (b.recalls.setWidth 4))
    store := n.store && !(kinds.getLsbD 5 && b.store.getLsbD 0)
    link := n.link && !(kinds.getLsbD 7 && b.link.getLsbD 0) }

/-- ACK_NOTICES in every form but mode 1 with one byte (R190, R201). -/
def execAckNotices (mode : Byte) (fields : List Byte) (s : State) : Host.Outcome State Fault Refusal :=
  .next <| hostCommand (.ackNotices mode fields)
    (fun t =>
      if 1 < mode.toNat then t.refuse .badValue
      else if mode = 1 then t.refuse .badLength
      else match ackFields fields with
        | none => t.refuse .badLength
        | some (kinds, b) =>
          if b.inRange then ({ t with notices := t.notices.acked kinds b }).answer .ok [] else t.refuse .badValue) s

/-- ACK_NOTICES mode 1 (R202). -/
def execAckNoticesSetEnables (kinds : Byte) (s : State) : Host.Outcome State Fault Refusal :=
  .next <| hostCommand (.ackNoticesSetEnables kinds)
    (fun t => ({ t with notices := { t.notices with enables := kinds } }).answer .ok []) s

end Sys2Proof.Machine
end

