-- ==== Sys2Proof/Machine/Tune.lean ====
section
/-! DEFINITION. The tune controller: overrides, the measurement unit and its arbiter (R72, R99 to R105), the pass's work on a
voice (R106, R109 to R118, R120), and background checks with drift alarms, failure counts and quarantine (R126 to R136). -/

namespace Sys2Proof.Machine

/-! ### Overrides (R72) -/

/-- The override entry of a voice's destination. -/
def State.overrideAt (s : State) (v : Voice) (d : DestNo) : Option Code := (s.refresh.overrides[v])[d]

/-- Sets (`some`) or withdraws (`none`) the override code of a voice's destination (R72). -/
def State.setOverride (s : State) (v : Voice) (d : DestNo) (x : Option Code) : State :=
  { s with refresh := { s.refresh with overrides := s.refresh.overrides.set v ((s.refresh.overrides[v]).set d x) } }

/-- Withdraws the overrides of a destination in progress: its own channel, and for cutoff the resonance (R111). -/
def State.withdrawDest (s : State) (v : Voice) (d : Tuned) : State :=
  let s1 := s.setOverride v d.number none
  match d with
  | .cutoff => s1.setOverride v 3 none
  | .a | .b => s1

/-! ### Windows, targets and corrections (R99, R105) -/

/-- The window of breakpoint `k` in cycles for a window shift (R99). -/
def window (shift k : Nat) : Nat := if shift ≤ k then 2 ^ (k - shift) else 1

/-- The target count of breakpoint `k` (R99). -/
def targetCount (tRef shift k : Nat) : Nat := tRef * window shift k / 2 ^ k

/-- A count within tolerance of a target (R105). -/
def withinTolerance (m tg tol : Nat) : Bool := decide (((m : Int) - tg).natAbs * 65536 ≤ tg * tol)

/-- The bounded step Δ towards the target, for an estimate of codes per octave (R105). -/
def correction (cpo : Int) (m tg : Nat) : Int :=
  let raw := roundHalfAway (cpo * 1477 * ((m : Int) - tg)) (1024 * tg)
  signOf ((m : Int) - tg) * max 1 (min (raw.natAbs : Int) (cpo / 2))

/-- The code is at its rail in the direction of the step (R105). -/
def atRail (code : Code) (delta : Int) : Bool :=
  (code == 0 && decide (delta < 0)) || (code == 0xFFFF && decide (0 < delta))

/-- An estimate of codes per octave: the difference where it is at least 2, else the nominal CPO setting (R112, R130). -/
def cpoEstimate (difference : Int) (nominal : Nat) : Int := if 2 ≤ difference then difference else nominal

/-- The outcome of a measurement (R101, R102). -/
inductive Reading where
  | count (m : Nat)
  | tooSlow
  | noSignal
deriving DecidableEq, Repr

/-- The count a reading hands its requester; a TOO_SLOW counts as twice the target (R102). -/
def Reading.count? (tg : Nat) : Reading → Option Nat
  | .count m => some m
  | .tooSlow => some (2 * tg)
  | .noSignal => none

/-! ### The measurement unit and its arbiter (R99, R104) -/

/-- Starts a measurement: the override, the multiplexer and WAIT_WRITE (R99). -/
def State.startMeasurement (s : State) (q : Requester) (v : Voice) (d : Tuned) (k : Nat) (code : Code) : State :=
  let s1 := s.setOverride v d.number (some code)
  { s1 with tune := { s1.tune with
      unit := some { requester := q, voice := v, dest := d, bp := k, code := code,
                     window := window s.settings.windowShift k,
                     tg := targetCount s.settings.tRef s.settings.windowShift k,
                     settle := s.settings.settleFrames, phase := .waitWrite }
      lineVoice := v
      lineDest := d } }

/-- The arbiter grants a free unit to a waiting pass request (R104). -/
def State.arbitrate (s : State) : State :=
  match s.tune.requestWaiting, s.tune.unit, s.tune.service with
  | true, none, some x =>
    ({ s with tune := { s.tune with requestWaiting := false } }).startMeasurement .pass x.voice x.dest x.work.bp
      x.work.trial
  | _, _, _ => s

/-- The pass requests the unit for the trial of its working entry (R104, R113). -/
def State.requestTrial (s : State) (x : InService) : State :=
  ({ s with tune := { s.tune with service := some x, requestWaiting := true } }).arbitrate

/-! ### Failure count (R135, R136) -/

/-- An increment of a voice's failure count, held at 255. The Boolean is the quarantine request of R136. -/
def State.failOnce (s : State) (v : Voice) : State × Bool :=
  let n := (s.voice v).fails
  if 255 ≤ n then (s, false)
  else
    ((s.modVoice v fun r => { r with fails := n + 1 }).postHealth v,
      s.settings.quarantine && n + 1 == s.settings.failThreshold)

/-- The voice becomes QUARANTINED, with its HEALTH event (R48, R136). -/
def State.enterQuarantine (s : State) (v : Voice) : State :=
  (s.modVoice v fun r => { r with state := .quarantined }).postHealth v

/-! ### The pass's work on a voice (R110 to R118) -/

/-- The plan's low and high breakpoints for a destination (R110). -/
def Plan.range (p : Plan) : Tuned → Nat × Nat
  | .a => (p.pitchLo, p.pitchHi)
  | .b => (p.pitchLo, p.pitchHi)
  | .cutoff => (p.cutoffLo, p.cutoffHi)

/-- Breakpoint `k` has converged in this destination. -/
def Working.converged (w : Working) (k : Nat) : Bool := (tableAt w.counts k none).isSome

/-- The converged breakpoints, in ascending order. -/
def Working.convergedList (w : Working) : List Nat := (List.range 12).filter w.converged

/-- The working code of breakpoint `k`. -/
def Working.code (w : Working) (k : Nat) : Int := (tableAt w.codes k 0).toNat

/-- CPO_est of breakpoint `k` (R112). -/
def Working.estimate (w : Working) (nominal k : Nat) : Int :=
  if 2 ≤ k && w.converged (k - 1) && w.converged (k - 2) then cpoEstimate (w.code (k - 1) - w.code (k - 2)) nominal
  else nominal

/-- The first trial code of breakpoint `k` (R112). A breakpoint not yet converged still has its committed code in the working
entry. -/
def Working.firstTrial (w : Working) (nominal k : Nat) : Code :=
  if 1 ≤ k && w.converged (k - 1) then toCode (w.code (k - 1) + w.estimate nominal k) else tableAt w.codes k 0

/-- The working entry moved to breakpoint `k` (R113): its first trial is asked for, and the iteration is 1 from here on
(DESIGN CHOICE, log entry 36). -/
def Working.goto (w : Working) (nominal k : Nat) : Working :=
  { w with bp := k, iter := 1, trial := w.firstTrial nominal k }

/-- The working entry at the beginning of a destination (R111): the first trial is asked for, and the iteration is 1 from here on
(DESIGN CHOICE, log entry 36). -/
def Working.begin (e : CalEntry) (range : Nat × Nat) : Working where
  codes := e.codes
  counts := Vector.replicate 12 none
  lo := range.1
  hi := range.2
  bp := range.1
  iter := 1
  trial := tableAt e.codes range.1 0

/-- A destination of the voice begins (R110, R111). -/
def State.beginDest (s : State) (v : Voice) (d : Tuned) : State :=
  let s1 := s.setEntry v ((s.entry v).setSum d ⟨.inProgress, .none, 0⟩)
  let s2 := match d with
    | .cutoff => s1.setOverride v 3 (some 0xFFFF)
    | .a | .b => s1
  s2.requestTrial { voice := v, dest := d, work := .begin (s.cal v d) (s.tune.plan.range d) }

/-- The first destination of an entry's set, in the order A, B, cutoff, among those listed. -/
def PassEntry.firstOf (e : PassEntry) (ds : List Tuned) : Option Tuned := ds.find? e.has

/-- The destinations after `d` in the order A, B, cutoff. -/
def Tuned.after : Tuned → List Tuned
  | .a => [.b, .cutoff]
  | .b => [.cutoff]
  | .cutoff => []

/-- The lowest-numbered voice whose entry has this state. -/
def State.firstEntry (s : State) (x : EntryState) : Option Voice := allVoices.find? fun v => (s.entry v).state == x

/-- A voice is taken into service and its first destination begins (R110). -/
def State.beginService (s : State) (v : Voice) : State :=
  let e := { s.entry v with state := .inService }
  match e.firstOf [.a, .b, .cutoff] with
  | some d => (s.setEntry v e).beginDest v d
  | none => s.setEntry v e

/-- The pass ends: COMPLETED, with a TUNE event (R118). -/
def State.endPass (s : State) : State := ({ s with tune := { s.tune with outcome := .completed } }).postTune

/-- With no voice in service, a running pass chooses its next voice (R110) or, with no entry still to be served, ends (R118). -/
def State.settlePass (s : State) : State :=
  if s.passRunning && s.tune.service.isNone then
    match s.firstEntry .waiting with
    | some v => s.beginService v
    | none => if (s.firstEntry .pending).isSome then s else s.endPass
  else s

/-- The voice in service has its pass work done and is returned, to QUARANTINED where a request is held (R117). -/
def State.finishVoice (s : State) (v : Voice) : State :=
  let s1 := s.setEntry v { s.entry v with state := .done }
  let s2 := { s1 with tune := { s1.tune with service := none, heldQuarantine := false } }
  (if s.tune.heldQuarantine then s2.enterQuarantine v else s2.enterIdle v).settlePass

/-- After a destination: the voice's next destination, or the end of its pass work (R114, R116, R117). -/
def State.nextDest (s : State) (v : Voice) (d : Tuned) : State :=
  match (s.entry v).firstOf d.after with
  | some d' => s.beginDest v d'
  | none => s.finishVoice v

/-- A destination fails (R114): the committed entry keeps its codes, flags and baseline. -/
def State.failDest (s : State) (x : InService) (cause : FailCause) : State :=
  let s1 := s.withdrawDest x.voice x.dest
  let s2 := s1.setCal x.voice x.dest { s1.cal x.voice x.dest with status := .failed }
  let (s3, request) := s2.failOnce x.voice
  let s4 := { s3 with tune := { s3.tune with service := none, heldQuarantine := s3.tune.heldQuarantine || request } }
  (s4.setEntry x.voice ((s4.entry x.voice).setSum x.dest ⟨.failed, cause, x.work.convergedList.length⟩)).nextDest
    x.voice x.dest

/-- The code on the line through breakpoints `p` and `q` at breakpoint `k`: from `base`, floor-divided by the distance (R115). -/
def Working.onLine (w : Working) (base p q k : Nat) : Int :=
  w.code base + (w.code q - w.code p) * ((k : Int) - base) / ((q : Int) - p)

/-- The rebuilt code of breakpoint `k` (R115). -/
def Working.rebuilt (w : Working) (k : Nat) : Code :=
  if w.converged k then tableAt w.codes k 0
  else
    let below := w.convergedList.filter (· < k)
    let above := w.convergedList.filter (k < ·)
    match below.reverse, above with
    | j :: _, l :: _ => toCode (w.onLine j j l k)
    | [], l :: l2 :: _ => toCode (w.onLine l l l2 k)
    | h :: h1 :: _, [] => toCode (w.onLine h h1 h k)
    | _, _ => tableAt w.codes k 0

/-- Every breakpoint of the plan converged (R116). -/
def Working.complete (w : Working) : Bool := (List.range 12).all fun k => !(w.lo ≤ k && k ≤ w.hi) || w.converged k

/-- The entry that a destination commits (R115, R116); `check` is the check breakpoint setting. -/
def Working.commit (w : Working) (d : Tuned) (check : Nat) : CalEntry where
  codes := Vector.ofFn fun k => w.rebuilt k.val
  measured := Vector.ofFn fun k => w.converged k.val
  status := if w.complete then .calibrated else .part
  baseline := match d with
    | .a | .b => tableAt w.counts check none
    | .cutoff => none

/-- The record with a destination's drift target and applied drift at 0; the cutoff has none (R98, R116). -/
def VoiceRec.zeroDrift (r : VoiceRec) : Tuned → VoiceRec
  | .a => { r with driftA := { r.driftA with target := 0, applied := 0 } }
  | .b => { r with driftB := { r.driftB with target := 0, applied := 0 } }
  | .cutoff => r

/-- A destination is committed (R116). -/
def State.commitDest (s : State) (x : InService) : State :=
  let e := x.work.commit x.dest s.settings.checkBreakpoint
  let s1 := (s.setCal x.voice x.dest e).withdrawDest x.voice x.dest
  let s2 := (s1.modVoice x.voice fun r => r.zeroDrift x.dest)
  let s3 := { s2 with tune := { s2.tune with service := none } }
  let state := if x.work.complete then DestState.calibrated else DestState.part
  (s3.setEntry x.voice ((s3.entry x.voice).setSum x.dest ⟨state, .none, x.work.convergedList.length⟩)).nextDest
    x.voice x.dest

/-- After a breakpoint converged or failed: the next breakpoint, or the end of the destination (R113 to R116). -/
def State.nextBreakpoint (s : State) (x : InService) : State :=
  if x.work.bp < x.work.hi then
    s.requestTrial { x with work := x.work.goto s.settings.nominalCpo (x.work.bp + 1) }
  else if x.work.convergedList.length < 2 then s.failDest x .fewConverged
  else s.commitDest x

/-- The pass takes an outcome (R113); the unit is free. -/
def State.passReading (s : State) (x : InService) (tg : Nat) (r : Reading) : State :=
  match r.count? tg with
  | none => s.failDest x .noSignal
  | some m =>
    let w := x.work
    if withinTolerance m tg s.settings.tolerance then
      let w1 := { w with codes := tablePut w.codes w.bp w.trial, counts := tablePut w.counts w.bp (some m) }
      let s1 := s.setEntry x.voice
        ((s.entry x.voice).setSum x.dest ⟨.inProgress, .none, w1.convergedList.length⟩)
      s1.nextBreakpoint { x with work := w1 }
    else
      let delta := correction (w.estimate s.settings.nominalCpo w.bp) m tg
      if atRail w.trial delta || s.settings.maxIterations ≤ w.iter then s.nextBreakpoint x
      else s.requestTrial { x with work := { w with iter := w.iter + 1, trial := toCode (w.trial.toNat + delta) } }

/-! ### Voices joining, leaving and lost (R109, R120) -/

/-- An entry's state and reason replaced. -/
def State.markEntry (s : State) (v : Voice) (x : EntryState) (why : EntryReason) : State :=
  s.setEntry v { s.entry v with state := x, reason := why }

/-- A PENDING voice's tail has ended: its entry becomes WAITING (R109). -/
def State.joinPass (s : State) (v : Voice) : State :=
  if (s.entry v).state = .pending then ((s.markEntry v .waiting .none).settlePass) else s

/-- A PENDING voice leaves its pass by VOICE_OFFLINE (R50, R109). -/
def State.leavePass (s : State) (v : Voice) : State :=
  if (s.entry v).state = .pending then ((s.markEntry v .left .offline).settlePass) else s

/-- Discards the check in hand of a voice, with its measurement and its override (R103, R133). -/
def State.dropCheck (s : State) (v : Voice) : State :=
  match s.tune.check with
  | none => s
  | some c =>
    if c.voice = v then
      ({ s with tune := { s.tune with check := none, unit := none } }).setOverride v c.dest.tuned.number none
    else s

/-- An abandon: the check is discarded, and the unit goes to a waiting pass request (R103, R133). -/
def State.abandonCheck (s : State) (v : Voice) : State := (s.dropCheck v).arbitrate

/-- The unit with a measurement of the pass abandoned (R103). -/
def dropPassUnit : Option Measurement → Option Measurement
  | some m => match m.requester with
    | .pass => none
    | .check => some m
  | none => none

/-- Discards the work on the destination in progress: the measurement or the waiting request, the working entry and the
overrides; the summary shows RESTORED (R119, R120). The number of converged breakpoints that READ_TUNE shows beside it (R124) stays
as reached: R119 and R120 name the state only (DESIGN CHOICE, log entry 35). -/
def State.dropService (s : State) : State :=
  match s.tune.service with
  | none => s
  | some x =>
    let s1 := { s with tune := { s.tune with
      service := none, requestWaiting := false, unit := dropPassUnit s.tune.unit } }
    (s1.withdrawDest x.voice x.dest).setEntry x.voice
      ((s1.entry x.voice).setSum x.dest ⟨.restored, .none, ((s1.entry x.voice).sum x.dest).converged⟩)

/-- The loss of a voice to a slot-down: its check or its place in the pass goes (R44, R109, R120, R133). -/
def State.loseVoice (s : State) (v : Voice) : State :=
  let s1 := s.dropCheck v
  let s2 := match s1.tune.service with
    | some x =>
      if x.voice = v then
        let t := s1.dropService
        { t with tune := { t.tune with heldQuarantine := false } }
      else s1
    | none => s1
  match (s2.entry v).state with
  | .pending | .waiting | .inService => s2.markEntry v .left .lost
  | _ => s2

/-! ### Background checks (R126 to R134) -/

/-- A status that checks are made on (R95, R127). -/
def CalStatus.checkable : CalStatus → Bool
  | .calibrated | .part => true
  | _ => false

/-- The destination a check of the voice would take, none where neither is CALIBRATED or PARTIAL (R127). -/
def State.checkDest (s : State) (v : Voice) : Option Osc :=
  let d := (s.voice v).nextCheck
  if (s.cal v d.tuned).status.checkable then some d
  else if (s.cal v d.other.tuned).status.checkable then some d.other
  else none

/-- A voice is eligible for a background check (R127). -/
def State.eligible (s : State) (v : Voice) : Bool :=
  s.settings.backgroundChecks && !s.passRunning && (s.voice v).state == .idle
    && decide (s.settings.idleDwell ≤ (s.voice v).idle) && (s.checkDest v).isSome

/-- Starts the check of a voice: the claim of R45, the check record and the measurement (R128, R129). -/
def State.startCheck (s : State) (v : Voice) (d : Osc) : State :=
  let kc := s.settings.checkBreakpoint
  let code := toCode ((tableAt (s.cal v d.tuned).codes kc 0).toNat + ((s.voice v).drift d).target)
  let s1 := s.modVoice v fun r => { r with state := .retuning }
  let s2 := { s1 with tune := { s1.tune with
    check := some ⟨v, d, kc, code, targetCount s.settings.tRef s.settings.windowShift kc⟩ } }
  s2.startMeasurement .check v d.tuned kc code

/-- Looks for a check to start (R128). -/
def State.seekCheck (s : State) : State :=
  if s.tune.check.isNone && s.tune.unit.isNone && !s.tune.requestWaiting then
    match oldestBy (fun v => (s.voice v).lastCheckStamp) (allVoices.filter s.eligible) with
    | some v => match s.checkDest v with
      | some d => s.startCheck v d
      | none => s
    | none => s
  else s

/-- The drift alarm evaluated on the target as it stands (R134). -/
def Drift.evaluate (x : Drift) (level setCount clearCount : Nat) : Drift :=
  let big := decide ((level : Int) < x.target.natAbs)
  let overs := if big then saturate 3 (x.overCount + 1) else 0
  let unders := if big then 0 else saturate 3 (x.underCount + 1)
  let raised := x.alarm || decide (setCount ≤ overs)
  { x with overCount := overs, underCount := unders, alarm := raised && !decide (clearCount ≤ unders) }

/-- What a check finds of a count: the new drift fields, and whether it counts as a failure (R130). -/
def Drift.find (x : Drift) (code : Code) (cpo : Int) (m tg tol : Nat) : Drift × Bool :=
  let delta := correction cpo m tg
  if withinTolerance m tg tol then ({ x with lastCheck := .within m }, false)
  else if atRail code delta then ({ x with lastCheck := .atRail m }, true)
  else
    let t := x.target + delta
    if t < -2047 ∨ 2047 < t then ({ x with target := clampInt (-2047) 2047 t, lastCheck := .limited m }, true)
    else ({ x with target := t, lastCheck := .corrected m }, false)

/-- CPO_est of a check, from the committed codes (R130). -/
def State.checkEstimate (s : State) (c : Check) : Int :=
  let codes := (s.cal c.voice c.dest.tuned).codes
  cpoEstimate ((tableAt codes c.bp 0).toNat - (tableAt codes (c.bp - 1) 0).toNat) s.settings.nominalCpo

/-- Step 2 of a check's completion, the finding applied: the state and the quarantine request of its increment (R132). -/
def State.applyFinding (s : State) (c : Check) (r : Reading) : State × Bool :=
  let x := (s.voice c.voice).drift c.dest
  match r.count? c.tg with
  | none => (s.modVoice c.voice fun q => q.setDrift c.dest { x with lastCheck := .noSignal }).failOnce c.voice
  | some m =>
    let (y, failed) := x.find c.code (s.checkEstimate c) m c.tg s.settings.tolerance
    let s1 := s.modVoice c.voice fun q => q.setDrift c.dest y
    if failed then s1.failOnce c.voice else (s1, false)

/-- Step 3 of a check's completion: the alarm after a COUNT or TOO_SLOW, a change of it posting HEALTH (R132, R134). -/
def State.applyAlarm (s : State) (c : Check) (r : Reading) : State :=
  match r.count? c.tg with
  | none => s
  | some _ =>
    let x := (s.voice c.voice).drift c.dest
    let y := x.evaluate s.settings.alarmLevel s.settings.alarmSet s.settings.alarmClear
    let s1 := s.modVoice c.voice fun q => q.setDrift c.dest y
    if x.alarm = y.alarm then s1 else s1.postHealth c.voice

/-- The return of a checked voice: a new last-check stamp, then IDLE, or QUARANTINED with a request (R45, R48, R132). -/
def State.returnChecked (s : State) (v : Voice) (quarantine : Bool) : State :=
  let s1 := s.bump.modVoice v fun r => { r with lastCheckStamp := s.stamp + 1 }
  if quarantine then s1.enterQuarantine v else s1.modVoice v fun r => { r with state := .idle }

/-- A check completes at its measurement's end (R132); the unit is free. -/
def State.finishCheck (s : State) (c : Check) (r : Reading) : State :=
  let s1 := s.setOverride c.voice c.dest.tuned.number none
  let (s2, request) := s1.applyFinding c r
  let s3 := s2.applyAlarm c r
  let s4 := s3.modVoice c.voice fun q => { q with nextCheck := c.dest.other }
  let s5 := s4.returnChecked c.voice request
  { s5 with tune := { s5.tune with check := none } }

/-! ### The end of a measurement and the passing of its time (R100 to R104) -/

/-- A measurement ends: the unit becomes free, its requester takes the outcome, and the arbiter looks for a waiting request
(R102, R104). -/
def State.endMeasurement (s : State) (m : Measurement) (r : Reading) : State :=
  let s1 := { s with tune := { s.tune with unit := none } }
  let s2 := match m.requester with
    | .pass => match s1.tune.service with
      | some x => s1.passReading x m.tg r
      | none => s1
    | .check => match s1.tune.check with
      | some c => s1.finishCheck c r
      | none => s1
  s2.arbitrate

/-- The measurement's phase replaced. -/
def State.setPhase (s : State) (m : Measurement) (p : Phase) : State :=
  { s with tune := { s.tune with unit := some { m with phase := p } } }

/-- `n` REFCLK ticks with no edge of the tune line among them, as far as the outcome that the limits of R101 and R102 give. The
Boolean says whether the measurement still waits for an edge after them. -/
def State.passTicks (s : State) (n : Nat) : State × Bool :=
  match s.tune.unit with
  | none => (s, false)
  | some m =>
    match m.phase with
    | .waitWrite => (s, false)
    | .settling _ => (s, false)
    | .waitEdge t =>
      if 4 * m.tg ≤ t + n then (s.endMeasurement m .noSignal, false) else (s.setPhase m (.waitEdge (t + n)), true)
    | .counting t c =>
      if 2 * m.tg ≤ t + n then (s.endMeasurement m .tooSlow, false) else (s.setPhase m (.counting (t + n) c), true)

/-- A rising edge of the tune line (R101, R102). -/
def State.lineEdge (s : State) : State :=
  match s.tune.unit with
  | none => s
  | some m =>
    match m.phase with
    | .waitWrite => s
    | .settling _ => s
    | .waitEdge _ => s.setPhase m (.counting 0 0)
    | .counting t c => if m.window ≤ c + 1 then s.endMeasurement m (.count t) else s.setPhase m (.counting t (c + 1))

/-- One expiry's decrement of the settle count, with the end of the settle (R100). -/
def State.settleFrame (s : State) : State :=
  match s.tune.unit with
  | none => s
  | some m =>
    match m.phase with
    | .settling n => if n ≤ 1 then s.setPhase m (.waitEdge 0) else s.setPhase m (.settling (n - 1))
    | .waitWrite => s
    | .waitEdge _ => s
    | .counting _ _ => s

/-- The refresh engine's channel-written report (R73, R100). -/
def State.channelWritten (s : State) (v : Voice) (d : DestNo) (code : Code) : State :=
  match s.tune.unit with
  | none => s
  | some m =>
    match m.phase with
    | .waitWrite =>
      if m.voice = v ∧ m.dest.number = d ∧ m.code = code then s.setPhase m (.settling m.settle) else s
    | .settling _ => s
    | .waitEdge _ => s
    | .counting _ _ => s

/-! ### The unit's events -/

/-- TUNE_FRAME_EXPIRY: settle counts, then the search for a check (R100, R128). -/
def execTuneFrameExpiry (s : State) : Host.Outcome State Fault Refusal := .next s.settleFrame.seekCheck

/-- SETTLE_END: the end of a settle whose count stands at its last frame (R100; log entry 2). -/
def execSettleEnd (s : State) : Host.Outcome State Fault Refusal :=
  .next <| match s.tune.unit with
    | none => s
    | some m =>
      match m.phase with
      | .settling n => if n ≤ 1 then s.setPhase m (.waitEdge 0) else s
      | .waitWrite => s
      | .waitEdge _ => s
      | .counting _ _ => s

/-- TUNE_LINE_EDGE: the ticks before the edge, then the edge where the measurement still waits for one (R101, R102). -/
def execTuneLineEdge (elapsed : Nat) (s : State) : Host.Outcome State Fault Refusal :=
  let (s1, waiting) := s.passTicks elapsed
  .next (if waiting then s1.lineEdge else s1)

/-- MEASUREMENT_COMPLETE: the edge that completes the window, taken at tick count `m`, with the ticks and edges before it
(R102; log entry 2). -/
def execMeasurementComplete (m : Nat) (s : State) : Host.Outcome State Fault Refusal :=
  .next <| match s.tune.unit with
    | none => s
    | some u =>
      match u.phase with
      | .counting t _ => if t ≤ m ∧ m < 2 * u.tg then s.endMeasurement u (.count m) else s
      | .waitWrite => s
      | .settling _ => s
      | .waitEdge _ => s

/-- NO_SIGNAL: in WAIT_EDGE, the ticks up to four target counts pass without an edge (R101). -/
def execNoSignal (s : State) : Host.Outcome State Fault Refusal :=
  .next <| match s.tune.unit with
    | none => s
    | some u =>
      match u.phase with
      | .waitEdge _ => s.endMeasurement u .noSignal
      | .waitWrite => s
      | .settling _ => s
      | .counting _ _ => s

/-- TOO_SLOW: in COUNTING, the ticks up to twice the target count pass with the window incomplete (R102). -/
def execTooSlow (s : State) : Host.Outcome State Fault Refusal :=
  .next <| match s.tune.unit with
    | none => s
    | some u =>
      match u.phase with
      | .counting _ _ => s.endMeasurement u .tooSlow
      | .waitWrite => s
      | .settling _ => s
      | .waitEdge _ => s

/-- One REFCLK tick, which the block takes when no command waits (R101, R102; DESIGN CHOICE, log entry 6). -/
def State.tick (s : State) : State := (s.passTicks 1).1

end Sys2Proof.Machine
end

