-- ==== Sys2Proof/Machine/Alloc.lean ====
section
/-! DEFINITION. The voice allocator: assignments and glides (R25, R26), the choice of a voice (R27 to R30), MONO and UNISON
(R31 to R33), releases and tails (R34 to R38), the frame timer (R37 to R40), re-seat, limits and re-home (R41 to R44), and the
claims of the tune controller (R45 to R47). -/

namespace Sys2Proof.Machine

/-! ### Assignments (R25, R26) -/

/-- Where an assignment's glide starts. -/
inductive GlideStart where
  /-- A key-on: from the part's last pitch where the glide mode asks for it, with the hand-off's legato indication (R26). -/
  | fromLast (legato : Bool)
  /-- A re-seat replay or a re-home: no glide (R26). -/
  | none
  /-- A note change: from the voice's own G (R32). -/
  | fromCurrent
deriving DecidableEq, Repr

/-- Whether a glide start glides, under a patch (R26, R32). -/
def GlideStart.glides (g : GlideStart) (live : Patch) : Bool :=
  decide (0 < live.glideFrames) &&
    match g with
    | .fromLast legato => live.glideMode == .always || (live.glideMode == .legato && legato)
    | .none => false
    | .fromCurrent => live.glideMode != .off

/-- The voice record with its glide started toward `target` (R26, R32). -/
def VoiceRec.startGlide (r : VoiceRec) (g : GlideStart) (live : Patch) (lastPitch target : Nat) : VoiceRec :=
  let start := match g with
    | .fromLast _ => lastPitch
    | .none => target
    | .fromCurrent => r.pitch
  if g.glides live then { r with pitch := start, target := target, glide := live.glideFrames }
  else { r with pitch := target, target := target, glide := 0 }

/-- The service state and gap after an assignment of a voice in state `x` (R25). -/
def assignedState (x : Service) (stealGap : Nat) : Service × Nat :=
  if x.counted then (if stealGap = 0 then (.sounding, 0) else (.stealGap, stealGap)) else (.sounding, 0)

/-- The voice record after an assignment (R25). -/
def VoiceRec.assigned (r : VoiceRec) (p : PartNo) (h : HeldKey) (j : Nat) (g : GlideStart) (part : Part) (stamp : Stamp)
    (stealGap : Nat) : VoiceRec :=
  { r.startGlide g part.live part.lastPitch (64 * h.note) with
    state := (assignedState r.state stealGap).1
    gap := (assignedState r.state stealGap).2
    asg := some ⟨p, h.zone, h.channel, h.key, h.note, h.velocity, stamp, false, j⟩
    lastPart := some p
    lastNote := some h.note
    idle := 0
    tail := 0 }

/-- Gives a voice an assignment (R25, R26). -/
def State.assign (s : State) (v : Voice) (p : PartNo) (h : HeldKey) (j : Nat) (g : GlideStart) : State :=
  let s1 := if (s.voice v).state = .retuning then s.abandonCheck v else s
  let s2 := s1.bump
  let s3 := s2.modVoice v fun r => r.assigned p h j g (s.part p) s2.stamp s.settings.stealGap
  s3.modPart p fun q => { q with lastPitch := 64 * h.note }

/-! ### The choice of a voice (R27 to R30) -/

/-- The assignment carries this key of the part's list: zone, source channel and source key (R27, R43). -/
def Assignment.carries (a : Assignment) (p : PartNo) (h : HeldKey) : Bool :=
  a.part == p && a.zone == h.zone && a.channel == h.channel && a.key == h.key

/-- The voice's assignment carries this key. -/
def VoiceRec.carries (r : VoiceRec) (p : PartNo) (h : HeldKey) : Bool :=
  match r.asg with
  | some a => a.carries p h
  | none => false

/-- The voices that a re-strike of this key may renew (R27, R50). -/
def State.carriers (s : State) (p : PartNo) (h : HeldKey) : List Voice :=
  allVoices.filter fun v => (s.voice v).carries p h && !(s.voice v).tunePending && !(s.voice v).offlinePending

/-- One of the carriers in SOUNDING or STEAL_GAP. R27 says which only where there is one (log entry 4). -/
def State.pickCarrier (s : State) : List Voice → State × Option Voice
  | [] => (s, none)
  | [v] => (s, some v)
  | v :: w :: vs =>
    ({ s with freePicks := s.freePicks + 1 },
      some ((v :: w :: vs).getD (Config.restrikePick s.freePicks % (vs.length + 2)) v))

/-- The voice of the free-voice step, by its four tiers (R28). -/
def State.freeChoice (s : State) (note : Nat) : Option Voice :=
  let idle := allVoices.filter fun v => (s.voice v).state == .idle
  let repeated := idle.filter fun v => (s.voice v).lastNote == some note
  let others := idle.filter fun v => (s.voice v).lastNote != some note
  let tails := allVoices.filter fun v =>
    (s.voice v).state == .releasing && !(s.voice v).tunePending && !(s.voice v).offlinePending
  let checked := allVoices.filter fun v => (s.voice v).state == .retuning
  (oldestBy (fun v => (s.voice v).lastFree) repeated).or <|
    (oldestBy (fun v => (s.voice v).lastFree) others).or <|
      (oldestBy (fun v => (s.voice v).asgStamp) tails).or <|
        oldestBy (fun v => (s.voice v).lastFree) checked

/-- The free-voice step (R28). -/
def State.freeStep (s : State) (p : PartNo) (h : HeldKey) (j : Nat) (g : GlideStart) (limit : Nat) : Option State :=
  if s.count p < limit then (s.freeChoice h.note).map fun v => s.assign v p h j g else none

/-- A voice that another part's or its own part's steal may take, its pending flags aside: its part's count exceeds its
part's reserve (R29). -/
def State.unprotected (s : State) (v : Voice) : Bool :=
  match (s.voice v).asg with
  | some a => decide ((s.part a.part).reserve < s.count a.part)
  | none => false

/-- The candidates of the steal step (R29); at a UNISON acquisition the part's own voices are none (R33). -/
def State.stealCandidates (s : State) (p : PartNo) (limit : Nat) (spareOwn : Bool) : List Voice :=
  allVoices.filter fun v =>
    (s.voice v).state == .sounding && !(s.voice v).tunePending && !(s.voice v).offlinePending
      && (if s.count p < limit then s.unprotected v else (s.voice v).asgPart == some p)
      && !(spareOwn && (s.voice v).asgPart == some p)

/-- The voice's assignment is marked sustained. -/
def VoiceRec.isSustained (r : VoiceRec) : Bool := (r.asg.map fun a => a.sustained).getD false

/-- The voice of the steal step: sustained voices first, then by the oldest assignment stamp (R29). -/
def State.stealChoice (s : State) (p : PartNo) (limit : Nat) (spareOwn : Bool) : Option Voice :=
  let c := s.stealCandidates p limit spareOwn
  (oldestBy (fun v => (s.voice v).asgStamp) (c.filter fun v => (s.voice v).isSustained)).or <|
    oldestBy (fun v => (s.voice v).asgStamp) (c.filter fun v => !(s.voice v).isSustained)

/-- The steal step (R29). -/
def State.stealStep (s : State) (p : PartNo) (h : HeldKey) (j : Nat) (g : GlideStart) (limit : Nat) (spareOwn : Bool) :
    Option State :=
  (s.stealChoice p limit spareOwn).map fun v =>
    (s.assign v p h j g).modPart p fun q => { q with steals := saturate 65535 (q.steals + 1) }

/-- A dropped key (R30). -/
def State.dropKey (s : State) (p : PartNo) : State := s.modPart p fun q => { q with drops := saturate 65535 (q.drops + 1) }

/-- The free-voice and steal steps (R28, R29); none where neither finds a voice. -/
def State.acquire (s : State) (p : PartNo) (h : HeldKey) (j : Nat) (g : GlideStart) (limit : Nat) (spareOwn : Bool) :
    Option State :=
  (s.freeStep p h j g limit).or (s.stealStep p h j g limit spareOwn)

/-- A POLY key-on (R27 to R30). -/
def State.polyKeyOn (s : State) (p : PartNo) (h : HeldKey) (legato : Bool) : State :=
  let g := GlideStart.fromLast legato
  let (s1, live) := s.pickCarrier ((s.carriers p h).filter fun v => (s.voice v).state.counted)
  match live with
  | some v => s1.assign v p h 0 g
  | none =>
    match newestBy (fun v => (s.voice v).asgStamp) ((s.carriers p h).filter fun v => (s.voice v).state == .releasing) with
    | some v =>
      if s.count p < s.limit p then s.assign v p h 0 g
      else (s.stealStep p h 0 g (s.limit p) false).getD (s.dropKey p)
    | none => (s.acquire p h 0 g (s.limit p) false).getD (s.dropKey p)

/-! ### MONO and UNISON (R31 to R33) -/

/-- Two entries of one list with the same source channel, key and zone (R6). -/
def HeldKey.same (a b : HeldKey) : Bool := a.channel == b.channel && a.key == b.key && a.zone == b.zone

/-- The chosen key of a held-key list, oldest first, under a key priority (R31). -/
def chosenKey (priority : KeyPriority) : List HeldKey → Option HeldKey
  | [] => none
  | h :: hs => some <| hs.foldl (fun best x =>
      match priority with
      | .last => x
      | .low => if x.note ≤ best.note then x else best
      | .high => if best.note ≤ x.note then x else best) h

/-- The chosen key of a part (R31). -/
def State.chosen (s : State) (p : PartNo) : Option HeldKey := chosenKey (s.part p).live.keyPriority (s.part p).held

/-- The unison index of a voice. -/
def VoiceRec.unisonIndex (r : VoiceRec) : Nat := (r.asg.map fun a => a.unison).getD 0

/-- A voice's record after a LEGATO note change (R32). -/
def VoiceRec.legatoChange (r : VoiceRec) (h : HeldKey) (live : Patch) (lastPitch : Nat) : VoiceRec :=
  { r.startGlide .fromCurrent live lastPitch (64 * h.note) with
    asg := r.asg.map fun a =>
      { a with zone := h.zone, channel := h.channel, key := h.key, note := h.note, velocity := h.velocity,
               sustained := false } }

/-- A note change of a part's voices to its chosen key (R32). -/
def State.noteChange (s : State) (p : PartNo) (h : HeldKey) : State :=
  let vs := s.partVoices p
  let s1 := match (s.part p).live.monoTrigger with
    | .legato => vs.foldl (fun (t : State) v => t.modVoice v fun r => r.legatoChange h (s.part p).live (s.part p).lastPitch) s
    | .retrig =>
      (vs.insertionSort fun a b => (s.voice a).unisonIndex ≤ (s.voice b).unisonIndex).foldl
        (fun (t : State) v => t.assign v p h (s.voice v).unisonIndex .fromCurrent) s
  s1.modPart p fun q => { q with lastPitch := 64 * h.note }

/-- A note change where the chosen key is new to the part's voices or is the hand-off's own key struck again (R31, R33). -/
def State.followChosen (s : State) (p : PartNo) (h e : HeldKey) (v : Voice) : State :=
  if (s.voice v).carries p e then (if h.same e then s.noteChange p e else s) else s.noteChange p e

/-- A MONO key-on (R31). -/
def State.monoKeyOn (s : State) (p : PartNo) (h : HeldKey) (legato : Bool) : State :=
  match s.chosen p with
  | none => s
  | some e =>
    match s.partVoices p with
    | [] => (s.acquire p e 0 (.fromLast legato) 1 false).getD (s.dropKey p)
    | v :: _ => s.followChosen p h e v

/-- Acquisition of voices for the missing ones of these unison indices, lowest first, until one finds no candidate (R33). -/
def State.acquireStack (s : State) (p : PartNo) (e : HeldKey) (g : GlideStart) (u : Nat) : List Nat → State
  | [] => s
  | j :: js =>
    if (s.partVoices p).any fun v => (s.voice v).unisonIndex == j then s.acquireStack p e g u js
    else match s.acquire p e j g u true with
      | some t => t.acquireStack p e g u js
      | none => s

/-- Steps 2 and 3 of a UNISON key-on (R33). -/
def State.fillStack (s : State) (p : PartNo) (e : HeldKey) (g : GlideStart) : State :=
  let u := (s.part p).live.unisonCount
  let t := if s.count p < u then s.acquireStack p e g u (List.range u) else s
  if t.count p = 0 then t.dropKey p else t

/-- A UNISON key-on (R33). -/
def State.unisonKeyOn (s : State) (p : PartNo) (h : HeldKey) (legato : Bool) : State :=
  match s.chosen p with
  | none => s
  | some e =>
    let s1 := match s.partVoices p with
      | [] => s
      | v :: _ => s.followChosen p h e v
    s1.fillStack p e (.fromLast legato)

/-- A key-on hand-off (R27, R31, R33). -/
def State.allocKeyOn (s : State) (p : PartNo) (h : HeldKey) (legato : Bool) : State :=
  match (s.part p).live.voiceMode with
  | .poly => s.polyKeyOn p h legato
  | .mono => s.monoKeyOn p h legato
  | .unison => s.unisonKeyOn p h legato

/-! ### Letting notes go (R34 to R38) -/

/-- The end of a release tail (R38). -/
def State.endTail (s : State) (v : Voice) : State :=
  let s1 := s.modVoice v VoiceRec.drop
  if (s.voice v).tunePending then
    (s1.modVoice v fun r => { r with state := .calibrating, tunePending := false }).joinPass v
  else if (s.voice v).offlinePending then s1.modVoice v fun r => { r with state := .offline, offlinePending := false }
  else s1.enterIdle v

/-- A voice becomes RELEASING; a tail of 0 frames ends at once (R34). -/
def State.release (s : State) (v : Voice) : State :=
  let n := match (s.voice v).asgPart with
    | some p => (s.part p).live.tailFrames
    | none => 0
  let s1 := s.modVoice v fun r => { r with state := .releasing, tail := n, gap := 0 }
  if n = 0 then s1.endTail v else s1

/-- The sustained mark of a voice replaced. -/
def VoiceRec.setSustained (r : VoiceRec) (b : Bool) : VoiceRec := { r with asg := r.asg.map fun a => { a with sustained := b } }

/-- A voice released without regard to sustain, its mark cleared (R36). -/
def State.releaseClear (s : State) (v : Voice) : State := (s.modVoice v fun r => r.setSustained false).release v

/-- A key-off reaching one voice that carries the key (R34). -/
def State.keyOffVoice (s : State) (p : PartNo) (v : Voice) : State :=
  match (s.voice v).state with
  | .sounding => if (s.part p).sustain then s.modVoice v fun r => r.setSustained true else s.release v
  | .stealGap => s.release v
  | .absent | .offline | .idle | .releasing | .calibrating | .retuning | .quarantined => s

/-- A key-off hand-off for the key of a removed entry (R34, R35). Where it reaches several voices they are taken in ascending
voice number, so voices whose tails are 0 take their last-free stamps in that order (DESIGN CHOICE, log entry 31). -/
def State.allocKeyOff (s : State) (p : PartNo) (h : HeldKey) : State :=
  match (s.part p).live.voiceMode with
  | .poly => (allVoices.filter fun v => (s.voice v).carries p h).foldl (fun (t : State) v => t.keyOffVoice p v) s
  | .mono | .unison =>
    if (s.partVoices p).any fun v => (s.voice v).carries p h then
      match s.chosen p with
      | some e => s.noteChange p e
      | none => (s.partVoices p).foldl (fun (t : State) v => t.keyOffVoice p v) s
    else s

/-- A sustain-up hand-off (R36). -/
def State.sustainUp (s : State) (p : PartNo) : State :=
  ((s.partVoices p).filter fun v => (s.voice v).state == .sounding && (s.voice v).isSustained).foldl
    State.releaseClear s

/-- An all-off hand-off (R36). -/
def State.allocAllOff (s : State) (p : PartNo) : State := (s.partVoices p).foldl State.releaseClear s

/-! ### The frame timer (R37 to R40) -/

/-- One frame of a glide (R39). -/
def VoiceRec.glideFrame (r : VoiceRec) : VoiceRec :=
  if r.glide = 0 then r
  else if r.glide = 1 then { r with pitch := r.target, glide := 0 }
  else
    { r with pitch := ((r.pitch : Int) + ((r.target : Int) - r.pitch).tdiv r.glide).toNat, glide := r.glide - 1 }

/-- The counts of one expiry for one voice, by the state it has at the expiry (R37 to R40). -/
def VoiceRec.countFrame (r : VoiceRec) : VoiceRec :=
  match r.state with
  | .stealGap => { r.glideFrame with gap := r.gap - 1 }
  | .releasing => { r.glideFrame with tail := r.tail - 1 }
  | .idle => { r.glideFrame with idle := saturate 65535 (r.idle + 1) }
  | .absent | .offline | .sounding | .calibrating | .retuning | .quarantined => r.glideFrame

/-- One voice's share of an expiry: its counts, then the end of its gap or tail (R37 to R40; DESIGN CHOICE, log entry 7). -/
def State.frameVoice (s : State) (v : Voice) : State :=
  let s1 := s.modVoice v VoiceRec.countFrame
  match (s.voice v).state with
  | .stealGap => if (s1.voice v).gap = 0 then s1.modVoice v fun r => { r with state := .sounding } else s1
  | .releasing => if (s1.voice v).tail = 0 then s1.endTail v else s1
  | .absent | .offline | .idle | .sounding | .calibrating | .retuning | .quarantined => s1

/-! ### Recalls, lost voices and slots (R41 to R44) -/

/-- Replay of a part's held keys in POLY, oldest first, without glide (R41). -/
def State.replayPoly (s : State) (p : PartNo) (hs : List HeldKey) : State :=
  hs.foldl (fun t h => (t.acquire p h 0 .none (t.limit p) false).getD (t.dropKey p)) s

/-- A re-seat after a change of voice mode (R41). -/
def State.reseat (s : State) (p : PartNo) : State :=
  let s1 := s.allocAllOff p
  match (s1.part p).live.voiceMode with
  | .poly => s1.replayPoly p (s1.part p).held
  | .mono => match s1.chosen p with
    | some e => (s1.acquire p e 0 .none 1 false).getD (s1.dropKey p)
    | none => s1
  | .unison => match s1.chosen p with
    | some e => s1.fillStack p e .none
    | none => s1

/-- The part's voices in order of assignment stamp, oldest first (R42). -/
def State.byAge (s : State) (p : PartNo) : List Voice :=
  (s.partVoices p).insertionSort fun a b => !older (s.voice b).asgStamp (s.voice a).asgStamp

/-- The excess of a part's voices over its effective limit is released, oldest first (R42). -/
def State.reduce (s : State) (p : PartNo) : State :=
  ((s.byAge p).take (s.count p - s.limit p)).foldl State.releaseClear s

/-- What a change of a part's patch does to its voices (R41, R42, R162): a re-seat for another voice mode, else the release of
the voices above the limit. -/
def State.afterPatch (s : State) (p : PartNo) (old : VoiceMode) : State :=
  if (s.part p).live.voiceMode = old then s.reduce p else s.reseat p

/-- One lost key offered once to a new voice (R43), with the note and the velocity of the entry held (DEDUCED, log entry 17). -/
def State.reHomeOne (s : State) (a : Assignment) : State :=
  match (s.part a.part).held.find? fun h => a.carries a.part h with
  | none => s
  | some h =>
    let isChosen := match s.chosen a.part with
      | some e => e.same h
      | none => false
    match (s.part a.part).live.voiceMode with
    | .poly => (s.freeStep a.part h 0 .none (s.limit a.part)).getD s
    | .mono => if isChosen then (s.freeStep a.part h 0 .none 1).getD s else s
    | .unison => if isChosen then (s.freeStep a.part h a.unison .none (s.limit a.part)).getD s else s

/-- The re-homes of one event, in the order of the voices lost (R43). -/
def State.reHome (s : State) (lost : List Assignment) : State := lost.foldl State.reHomeOne s

/-- The assignment a voice loses with a claim to re-home it: SOUNDING or STEAL_GAP (R43). -/
def VoiceRec.lostKey (r : VoiceRec) : Option Assignment := if r.state.counted then r.asg else none

/-- A voice becomes ABSENT (R44). -/
def State.removeVoice (s : State) (v : Voice) : State :=
  (s.loseVoice v).modVoice v fun r => { r.drop with state := .absent, tunePending := false, offlinePending := false }

/-- A slot-down (R44). -/
def State.slotDown (s : State) (k : CardNo) : State :=
  let lost := (voicesOf k).filterMap fun v => (s.voice v).lostKey
  (((voicesOf k).foldl State.removeVoice s).settlePass.arbitrate).reHome lost

/-- A slot-up naming the voices that need tuning (R44, R89). -/
def State.slotUp (s : State) (k : CardNo) (needTuning : List Voice) : State :=
  let s1 := (voicesOf k).foldl (fun (t : State) v =>
    if (t.voice v).state = .absent then t.modVoice v fun r => { r with state := .offline } else t) s
  (voicesOf k).foldl (fun (t : State) v =>
    if t.settings.autoOnline && !needTuning.contains v && (t.voice v).state == .offline then t.enterIdle v else t) s1

/-! ### Foreground claims (R46, R47) -/

/-- The allocator's answer to a foreground claim (R46, R47, R107). -/
inductive Claim where
  | taken
  | pending
  | refused (why : EntryReason)
deriving DecidableEq, Repr

/-- A foreground claim of one voice: the answer, and the key that a forced claim takes from it (R46, R47). `insert` marks a
claim made for auto tune on insert. -/
def State.claim (s : State) (v : Voice) (force insert : Bool) : State × Claim × Option Assignment :=
  let r := s.voice v
  let take (t : State) := t.modVoice v fun q => { q.drop with state := .calibrating, tunePending := false }
  match r.state with
  | .idle => (s.modVoice v fun q => { q with state := .calibrating }, .taken, none)
  | .retuning => ((s.abandonCheck v).modVoice v fun q => { q with state := .calibrating }, .taken, none)
  | .sounding | .releasing | .stealGap =>
    if r.offlinePending then (s, .refused .offlinePending, none)
    else if force then (take s, .taken, r.lostKey)
    else (s.modVoice v fun q => { q with tunePending := true }, .pending, none)
  | .offline =>
    if insert then (s.modVoice v fun q => { q with state := .calibrating }, .taken, none)
    else (s, .refused .offline, none)
  | .absent => (s, .refused .absent, none)
  | .quarantined => (s, .refused .quarantined, none)
  | .calibrating => (s, .refused .none, none)

/-! ### The allocator's events -/

/-- ALLOCATOR_FRAME_EXPIRY (R37 to R40). -/
def execAllocatorFrameExpiry (s : State) : Host.Outcome State Fault Refusal := .next (allVoices.foldl State.frameVoice s)

/-- STEAL_GAP_END: the end of a gap whose count stands at its last frame (R37; log entry 2). -/
def execStealGapEnd (v : Voice) (s : State) : Host.Outcome State Fault Refusal :=
  .next <| if (s.voice v).state = .stealGap ∧ (s.voice v).gap ≤ 1
    then s.modVoice v fun r => { r with gap := 0, state := .sounding } else s

/-- RELEASE_TAIL_END: the end of a tail whose count stands at its last frame (R38; log entry 2). -/
def execReleaseTailEnd (v : Voice) (s : State) : Host.Outcome State Fault Refusal :=
  .next <| if (s.voice v).state = .releasing ∧ (s.voice v).tail ≤ 1 then s.endTail v else s

/-- GLIDE_END: the end of a glide whose count stands at its last frame (R39; log entry 2). -/
def execGlideEnd (v : Voice) (s : State) : Host.Outcome State Fault Refusal :=
  .next <| if (s.voice v).glide = 1 then s.modVoice v fun r => { r with pitch := r.target, glide := 0 } else s

end Sys2Proof.Machine
end

