-- ==== Sys2Proof/Machine/Keys.lean ====
section
/-! DEFINITION. The key path: PLAY and its events, the zone map, the held-key lists and the part table (R1 to R19, R194). -/

namespace Sys2Proof.Machine

/-! ### Reading events (R1, R194) -/

/-- A PLAY event that is applied. A KEY_ON with velocity 0 reads as `keyOff` (R3). -/
inductive PerfEvent where
  | keyOn (channel key velocity : Nat)
  | keyOff (channel key : Nat)
  | sustain (p : PartNo) (down : Bool)
  | bend (p : PartNo) (value : Int)
  | allOff (p : PartNo)
deriving DecidableEq, Repr

/-- Reads an event from its four bytes; none for an event that is ignored (R1, R194). -/
def readEvent (e : RawEvent) : Option PerfEvent :=
  match e.kind.toNat with
  | 1 =>
    if 15 < e.b1.toNat ∨ 127 < e.b2.toNat then none
    else if e.b3 = 0 then some (.keyOff e.b1.toNat e.b2.toNat)
    else some (.keyOn e.b1.toNat e.b2.toNat (min 127 e.b3.toNat))
  | 2 => if 15 < e.b1.toNat ∨ 127 < e.b2.toNat then none else some (.keyOff e.b1.toNat e.b2.toNat)
  | 3 => (part? e.b1).map fun p => .sustain p (e.b2 != 0)
  | 4 => (part? e.b1).map fun p => .bend p (clampInt (-8192) 8191 (word16 e.b2 e.b3).toInt)
  | 5 => (part? e.b1).map .allOff
  | _ => none

/-! ### The zone map (R3) -/

/-- Whether a zone matches a key-on (R3). -/
def Zone.matches (z : Zone) (channel key velocity : Nat) : Bool :=
  z.enabled && (z.source.isNone || z.source == some channel) && decide (z.lowKey ≤ key ∧ key ≤ z.highKey)
    && decide (z.lowVel ≤ velocity ∧ velocity ≤ z.highVel)

/-- The effective note of a key through a zone, none outside 0..127 (R3). -/
def Zone.effective (z : Zone) (key : Nat) : Option Nat :=
  let n := (key : Int) + z.transpose
  if 0 ≤ n ∧ n ≤ 127 then some n.toNat else none

/-! ### Held-key lists (R7 to R10) -/

/-- A part's held-key list replaced. -/
def State.setHeld (s : State) (p : PartNo) (hs : List HeldKey) : State := s.modPart p fun q => { q with held := hs }

/-- The list step of a key-on (R7, R8). -/
def State.hold (s : State) (p : PartNo) (h : HeldKey) : State :=
  let l := (s.part p).held
  if l.any h.same then s.setHeld p ((l.filter fun x => !h.same x) ++ [h])
  else if Config.heldKeyLimit ≤ l.length then
    match l with
    | oldest :: rest =>
      let s1 := (s.setHeld p rest).allocKeyOff p oldest
      s1.setHeld p (rest ++ [h])
    | [] => s.setHeld p [h]
  else s.setHeld p (l ++ [h])

/-- One pair of a key-on: its list step, then its hand-off with the legato indication (R7, R8). -/
def State.keyOnPair (s : State) (p : PartNo) (h : HeldKey) : State :=
  let s1 := s.hold p h
  s1.allocKeyOn p h (decide (2 ≤ (s1.part p).held.length))

/-- A key-on through one zone (R3). -/
def State.keyOnZone (s : State) (channel key velocity : Nat) (z : ZoneNo) : State :=
  let r := s.zone z
  if r.matches channel key velocity then
    match r.effective key with
    | some n => s.keyOnPair r.part ⟨channel, key, n, z, velocity⟩
    | none => s
  else s

/-- A key-on (R3). -/
def State.keyOn (s : State) (channel key velocity : Nat) : State :=
  allZones.foldl (fun (t : State) z => t.keyOnZone channel key velocity z) s

/-- The entry was made by this source channel and key. -/
def HeldKey.isFrom (h : HeldKey) (channel key : Nat) : Bool := h.channel == channel && h.key == key

/-- The entries a key-off removes, in the order of its hand-offs (R9). -/
def State.released (s : State) (channel key : Nat) : List (PartNo × HeldKey) :=
  allParts.flatMap fun p => allZones.flatMap fun z =>
    ((s.part p).held.filter fun h => h.isFrom channel key && h.zone == z).map fun h => (p, h)

/-- The removal step of a key-off (R9). -/
def State.removeKey (s : State) (channel key : Nat) : State :=
  allParts.foldl (fun (t : State) p => t.setHeld p ((t.part p).held.filter fun h => !h.isFrom channel key)) s

/-- A key-off (R9). -/
def State.keyOff (s : State) (channel key : Nat) : State :=
  (s.released channel key).foldl (fun (t : State) x => t.allocKeyOff x.1 x.2) (s.removeKey channel key)

/-- An all-off (R10). -/
def State.partAllOff (s : State) (p : PartNo) : State := (s.setHeld p []).allocAllOff p

/-- A sustain event (R15). -/
def State.setSustain (s : State) (p : PartNo) (down : Bool) : State :=
  let s1 := s.modPart p fun q => { q with sustain := down }
  if (s.part p).sustain && !down then s1.sustainUp p else s1

/-- A part's bend value replaced (R14). -/
def State.setBend (s : State) (p : PartNo) (x : Int) : State := s.modPart p fun q => { q with bend := x }

/-- An event applied (R1). -/
def State.perform (s : State) : PerfEvent → State
  | .keyOn channel key velocity => s.keyOn channel key velocity
  | .keyOff channel key => s.keyOff channel key
  | .sustain p down => s.setSustain p down
  | .bend p x => s.setBend p x
  | .allOff p => s.partAllOff p

/-! ### PLAY (R1) -/

/-- One event of the frame in hand is taken and counted (R1). -/
def State.takeEvent (s : State) (e : RawEvent) : State :=
  match readEvent e with
  | some x =>
    let t := s.perform x
    { t with port := { t.port with taken := s.port.taken + 1, applied := s.port.applied + 1 } }
  | none => { s with port := { s.port with taken := s.port.taken + 1, ignored := s.port.ignored + 1 } }

/-- PLAY's answer when every event of the frame has been taken (R1). -/
def State.endPlay (s : State) : State := s.answer .ok (byte1 s.port.applied ++ byte1 s.port.ignored)

/-- The events of the PLAY in hand that are not yet taken, none with no PLAY in hand. -/
def State.playRest (s : State) : Option (List RawEvent) :=
  match s.inHand with
  | some (.play events) => some (events.drop s.port.taken)
  | _ => none

/-- Takes events one at a time, in order. -/
def State.takeEvents (s : State) (es : List RawEvent) : State := es.foldl State.takeEvent s

/-- An event of the key path (R1). Of a PLAY in hand it is taken in its turn, with the ignored events that stand before it, and
with those after it where nothing else follows; out of its turn it changes nothing. With no PLAY in hand it is applied
alone, uncounted (DESIGN CHOICE, log entry 1). An ignored event changes nothing. -/
def playEvent (e : RawEvent) (s : State) : State :=
  match readEvent e with
  | none => s
  | some x =>
    match s.playRest with
    | none => s.perform x
    | some rest =>
      match rest.dropWhile fun y => (readEvent y).isNone with
      | [] => s
      | y :: more =>
        if readEvent y = some x then
          let s1 := s.takeEvents ((rest.takeWhile fun y => (readEvent y).isNone) ++ [y])
          if more.all fun y => (readEvent y).isNone then (s1.takeEvents more).endPlay else s1
        else s

/-- PLAY (R1): the events not yet taken, then the answer. -/
def execPlay (events : List RawEvent) (s : State) : Host.Outcome State Fault Refusal :=
  .next <| hostCommand (.play events) (fun t => (t.takeEvents (events.drop t.port.taken)).endPlay) s

/-- KEY_ON (R3, R7, R8). -/
def execKeyOn (channel key velocity : Byte) (s : State) : Host.Outcome State Fault Refusal :=
  .next (playEvent ⟨1, channel, key, velocity⟩ s)

/-- KEY_OFF (R9). -/
def execKeyOff (channel key : Byte) (s : State) : Host.Outcome State Fault Refusal :=
  .next (playEvent ⟨2, channel, key, 0⟩ s)

/-- SUSTAIN (R15). -/
def execSustain (part position : Byte) (s : State) : Host.Outcome State Fault Refusal :=
  .next (playEvent ⟨3, part, position, 0⟩ s)

/-- BEND (R14). -/
def execBend (part : Byte) (value : BitVec 16) (s : State) : Host.Outcome State Fault Refusal :=
  .next (playEvent ⟨4, part, value.extractLsb' 8 8, value.extractLsb' 0 8⟩ s)

/-- ALL_OFF (R10). -/
def execAllOff (part : Byte) (s : State) : Host.Outcome State Fault Refusal :=
  .next (playEvent ⟨5, part, 0, 0⟩ s)

/-! ### The part table's timer and the commands of zones and parts (R4, R5, R17 to R19) -/

/-- A part's counts copied into the snapshots and cleared (R17). -/
def Part.snapshot (q : Part) : Part := { q with stealsShown := q.steals, dropsShown := q.drops, steals := 0, drops := 0 }

/-- INTERVAL_TIMER_EXPIRY (R17). -/
def execIntervalTimerExpiry (s : State) : Host.Outcome State Fault Refusal :=
  .next { s with parts := Vector.ofFn fun p : Fin 4 => (s.part p).snapshot }

/-- The record that SET_ZONE's fields make, none where one is out of range (R4). -/
def zoneOf (enabled source lowKey highKey lowVel highVel part transpose : Byte) : Option Zone :=
  match flag? enabled, source? source, part? part with
  | some en, some src, some p =>
    if highKey.toNat ≤ 127 ∧ lowKey.toNat ≤ highKey.toNat ∧ 1 ≤ lowVel.toNat ∧ highVel.toNat ≤ 127
        ∧ lowVel.toNat ≤ highVel.toNat ∧ -48 ≤ transpose.toInt ∧ transpose.toInt ≤ 48 then
      some ⟨en, src, lowKey.toNat, highKey.toNat, lowVel.toNat, highVel.toNat, p, transpose.toInt⟩
    else none
  | _, _, _ => none

/-- SET_ZONE (R4). -/
def execSetZone (zone enabled source lowKey highKey lowVel highVel part transpose : Byte) (s : State) :
    Host.Outcome State Fault Refusal :=
  .next <| hostCommand (.setZone zone enabled source lowKey highKey lowVel highVel part transpose)
    (fun t =>
      match zone? zone, zoneOf enabled source lowKey highKey lowVel highVel part transpose with
      | some z, some r => (t.setZone z r).answer .ok []
      | _, _ => t.refuse .badValue) s

/-- READ_ZONE (R5). -/
def execReadZone (zone : Byte) (s : State) : Host.Outcome State Fault Refusal :=
  .next <| hostCommand (.readZone zone)
    (fun t =>
      match zone? zone with
      | some z => t.answer .ok (t.zone z).bytes
      | none => t.refuse .badValue) s

/-- The sum of the reserves of the parts other than `p` (R18). -/
def State.otherReserves (s : State) (p : PartNo) : Nat :=
  ((allParts.filter fun q => q != p).map fun q => (s.part q).reserve).sum

/-- SET_PART (R18). -/
def execSetPart (part reserve fineTune panelBend : Byte) (s : State) : Host.Outcome State Fault Refusal :=
  .next <| hostCommand (.setPart part reserve fineTune panelBend)
    (fun t =>
      match part? part, flag? panelBend with
      | some p, some b =>
        if reserve.toNat ≤ 16 ∧ -64 ≤ fineTune.toInt ∧ fineTune.toInt ≤ 63
            ∧ reserve.toNat + t.otherReserves p ≤ 16 then
          (t.modPart p fun q =>
            { q with reserve := reserve.toNat, fineTune := fineTune.toInt, panelBend := b }).answer .ok []
        else t.refuse .badValue
      | _, _ => t.refuse .badValue) s

/-- READ_PART (R19). -/
def execReadPart (part : Byte) (s : State) : Host.Outcome State Fault Refusal :=
  .next <| hostCommand (.readPart part)
    (fun t =>
      match part? part with
      | some p => t.answer .ok (partAnswer t p)
      | none => t.refuse .badValue) s

end Sys2Proof.Machine
end

