-- ==== Sys2Proof/Machine/Link.lean ====
section
/-! DEFINITION. The command link's transactions, the device settings and the two resets (R183 to R193). -/

namespace Sys2Proof.Machine

/-! ### Settings (R96, R191, R192) -/

/-- A value in a range. -/
def ranged (lo hi x : Nat) : Option Nat := if lo ≤ x ∧ x ≤ hi then some x else none

/-- A value that is 0 for off or 1 for on. -/
def onOff (x : Nat) : Option Bool :=
  match x with
  | 0 => some false
  | 1 => some true
  | _ => none

/-- The settings with setting `n` at value `x`, none for a number or a value outside its range (R191). -/
def Settings.put (t : Settings) (n x : Nat) : Option Settings :=
  match n with
  | 1 => (ranged 0 15 x).map fun y => { t with stealGap := y }
  | 2 => (ranged 100 60000 x).map fun y => { t with idleDwell := y }
  | 3 => (onOff x).map fun y => { t with backgroundChecks := y }
  | 4 => (ranged 2 9 x).map fun y => { t with checkBreakpoint := y }
  | 5 => (ranged 1 64 x).map fun y => { t with gearStep := y }
  | 6 => (ranged 50 2047 x).map fun y => { t with alarmLevel := y }
  | 7 => (ranged 1 3 x).map fun y => { t with alarmSet := y }
  | 8 => (ranged 1 3 x).map fun y => { t with alarmClear := y }
  | 9 => (ranged 1 255 x).map fun y => { t with failThreshold := y }
  | 10 => (onOff x).map fun y => { t with quarantine := y }
  | 11 => (onOff x).map fun y => { t with autoPower := y }
  | 12 => (onOff x).map fun y => { t with autoOnline := y }
  | 13 => (onOff x).map fun y => { t with autoTune := y }
  | 14 => (ranged 0 8 x).map fun y => { t with windowShift := y }
  | 15 => (ranged 100000 8000000 x).map fun y => { t with tRef := y }
  | 16 => (ranged 4 1024 x).map fun y => { t with tolerance := y }
  | 17 => (ranged 2 16 x).map fun y => { t with maxIterations := y }
  | 18 => (ranged 1 50 x).map fun y => { t with settleFrames := y }
  | 19 => (ranged 0 32767 x).map fun y => { t with nominalBase := y }
  | 20 => (ranged 1000 8000 x).map fun y => { t with nominalCpo := y }
  | 21 => (ranged 0 511 x).map fun y => { t with protectLow := y }
  | 22 => (ranged 0 511 x).map fun y => { t with protectHigh := y }
  | 23 => (onOff x).map fun y => { t with protectOn := y }
  | 24 => (onOff x).map fun y => { t with ackClears := y }
  | _ => none

/-- The settings locked while a pass runs (R122, R191). -/
def lockedSetting (n : Nat) : Bool := decide (14 ≤ n ∧ n ≤ 20)

/-- A NOMINAL entry takes the nominal codes of the settings; others keep theirs (R96). -/
def CalEntry.renominate (e : CalEntry) (codes : Vector Code 12) : CalEntry :=
  if e.status = .nominal then { e with codes := codes } else e

/-- A calibration record after a write of nominal base or nominal CPO (R96). -/
def CalRecord.renominate (r : CalRecord) (codes : Vector Code 12) : CalRecord :=
  ⟨r.a.renominate codes, r.b.renominate codes, r.cutoff.renominate codes⟩

/-- Every NOMINAL entry rewritten from the settings (R96). -/
def State.renominate (s : State) : State :=
  let codes := nominalCodes s.settings.nominalBase s.settings.nominalCpo
  { s with tune := { s.tune with cal := Vector.ofFn fun v : Fin 16 => (s.calRecord v).renominate codes } }

/-- A setting takes its value; nominal base and nominal CPO rewrite the NOMINAL entries (R96, R191). -/
def State.putSettings (s : State) (n : Nat) (x : Settings) : State :=
  let s1 := { s with settings := x }
  if n = 19 ∨ n = 20 then s1.renominate else s1

/-- SET_DEVICE (R191). -/
def execSetDevice (number : Byte) (value : BitVec 32) (s : State) : Host.Outcome State Fault Refusal :=
  .next <| hostCommand (.setDevice number value)
    (fun t =>
      match t.settings.put number.toNat value.toNat with
      | none => t.refuse .badValue
      | some x =>
        if lockedSetting number.toNat && t.passRunning then t.refuse .wrongState
        else (t.putSettings number.toNat x).answer .ok []) s

/-- READ_DEVICE (R192). -/
def execReadDevice (s : State) : Host.Outcome State Fault Refusal :=
  .next <| hostCommand .readDevice (fun t => t.answer .ok (deviceAnswer t)) s

/-! ### Resets (R21, R82, R83, R121, R125, R140, R182, R193) -/

/-- What a soft reset keeps of one destination's drift fields (R125). -/
def Drift.soft (x : Drift) : Drift := { x with overCount := 0, underCount := 0 }

/-- A voice record after a soft reset (R21, R125). -/
def VoiceRec.soft (r : VoiceRec) (powered : Bool) : VoiceRec :=
  { VoiceRec.reset with
    state := if powered then .offline else .absent
    driftA := r.driftA.soft
    driftB := r.driftB.soft
    fails := r.fails }

/-- The refresh engine after a soft reset (R82): the round goes on, the pins hold. -/
def Refresh.soft (r : Refresh) : Refresh :=
  { r with round := 0, overrides := noOverrides, sel := .voice 0 0, facts := none }

/-- The tune controller after a soft reset (R96, R106, R121, R123, R126). The multiplexer's selection stays. The force flag
becomes 0, a value that no rule gives (DESIGN CHOICE, log entry 3). -/
def Tune.soft (t : Tune) : Tune :=
  { Tune.reset with cal := t.cal, plan := t.plan, lineVoice := t.lineVoice, lineDest := t.lineDest }

/-- The flash is busy with an instruction of this step, which the patch manager has given it (R178). -/
def JobStep.leavesBusy : JobStep → Bool
  | .erase _ => true
  | .program _ _ => true
  | .readyWait _ => false
  | .read => false
  | .verify _ => false

/-- The status the flash shows after a soft reset: a cut-off erase or program leaves it busy, so that the next job's ready wait
waits for it (R182; DESIGN CHOICE, log entry 10). -/
def PatchMgr.softStatus (m : PatchMgr) : Byte :=
  match m.head with
  | some x => if x.leavesBusy then m.flashStatus ||| 1 else m.flashStatus
  | none => m.flashStatus

/-- The patch manager after a soft reset: a job in progress has ended, with no outcome and no notice (R182). -/
def PatchMgr.soft (m : PatchMgr) : PatchMgr := { PatchMgr.reset with flashStatus := m.softStatus }

/-- The voice's slot is POWERED. -/
def State.powered (s : State) (v : Voice) : Bool := (s.card (cardOf v)).state == .powered

/-- The soft reset of every block but for the voices that auto online brings back (R193). -/
def State.softBase (s : State) : State where
  zones := Vector.replicate 8 .reset
  parts := Vector.ofFn Part.reset
  voices := Vector.ofFn fun v : Fin 16 => (s.voice v).soft (s.powered v)
  stamp := 0
  freePicks := s.freePicks
  refresh := s.refresh.soft
  tune := s.tune.soft
  cards := s.cards
  panel := .reset
  patches := s.patches.soft
  port := { Port.reset with softCause := true, shifted := s.port.shifted }
  notices := .reset
  settings := s.settings
  pending := s.pending

/-- The soft reset (R193): then, under auto online, each voice of a POWERED slot goes to IDLE in turn (R21). -/
def State.softReset (s : State) : State :=
  if s.settings.autoOnline then (allVoices.filter s.powered).foldl State.enterIdle s.softBase else s.softBase

/-- SOFT_RESET (R193): the answer and the reset request; the reset itself waits for the fetch. -/
def execSoftReset (s : State) : Host.Outcome State Fault Refusal :=
  .next <| hostCommand .softReset
    (fun t =>
      let t1 := t.answer .ok []
      { t1 with port := { t1.port with resetRequest := true } }) s

/-- POWER_ON_RESET (R21, R83, R184); the queue of commands, which is not the part's, is kept, and so is the count of the model's
free choices. -/
def execPowerOnReset (detect : BitVec 8) (s : State) : Host.Outcome State Fault Refusal :=
  .next { State.powerOn detect s.pending with freePicks := s.freePicks }

/-! ### Transactions (R183, R185, R188) -/

/-- A response fetch of `n` bytes, answered from the port state at the fall that opened it; with no fall recorded, from the
state as it stands (R188; DESIGN CHOICE, log entry 12). -/
def State.fetch (s : State) (n : Nat) : State :=
  match s.port.fall.getD s.port.state with
  | .answerPending =>
    let s1 := s.endTransaction (fetchBytes n (s.port.response.getD ⟨.noAnswer, []⟩))
    if s.port.resetRequest then s1.giveUpAnswer.softReset else s1.giveUpAnswer
  | .ready => s.endTransaction (fetchBytes n ⟨.noAnswer, []⟩)
  | .executing => s.endTransaction (fetchBytes n ⟨.noAnswer, []⟩)

/-- The bytes of a transaction taken at the chip-select rise, by its first byte (R183). -/
def State.takeTransaction (s : State) (bytes : List Byte) : State :=
  match bytes with
  | [] => s.endTransaction []
  | b :: _ => if b = 0 then s.fetch bytes.length else s.takeFrame bytes

/-- REQUEST_FRAME (R183, R185, R186). -/
def execRequestFrame (bytes : List Byte) (s : State) : Host.Outcome State Fault Refusal := .next (s.takeTransaction bytes)

/-- EMPTY_TRANSACTION (R183): no whole byte was shifted. -/
def execEmptyTransaction (s : State) : Host.Outcome State Fault Refusal := .next (s.endTransaction [])

/-- RESPONSE_FETCH (R188). -/
def execResponseFetch (clocked : Nat) (s : State) : Host.Outcome State Fault Refusal :=
  .next (s.takeTransaction (List.replicate clocked 0))

/-- CHIP_SELECT_FALL: the transaction opens, and the port state is taken for a fetch (R183, R188). A fall inside an open
transaction is none. -/
def execChipSelectFall (s : State) : Host.Outcome State Fault Refusal :=
  .next { s with port := { s.port with fall := some (s.port.fall.getD s.port.state) } }

end Sys2Proof.Machine
end

