-- ==== Sys2Proof/Machine/Panel.lean ====
section
/-! DEFINITION. The panel scanner: conversions, filter and deadband, pickup, the focus part and the change list (R140 to
R158). -/

namespace Sys2Proof.Machine

/-! ### Pickup arming (R149) -/

/-- The pickup state of a reported value `r` against a parameter value `p` (R149). -/
def pickupOf (r p : Nat) : Pickup := if r = p then .live else if r < p then .waitRise else .waitFall

/-- The record of a PARAMETER channel in PICKUP mode armed against the value `p`: at once where it is initialised, else at its
initialising conversion (R149). -/
def Channel.armed (r : Channel) (p : Nat) : Channel :=
  if r.initialised then { r with pickup := pickupOf r.reported.toNat p, armPending := false } else { r with armPending := true }

/-- A channel's record after an arming event for the focus part's patch; only a PARAMETER channel in PICKUP mode is armed
(R149). -/
def Channel.arm (r : Channel) (live : Patch) : Channel :=
  match r.role, r.pickupMode with
  | .parameter i, true => r.armed (live.param i)
  | _, _ => r

/-- The focus part's live patch (R150). -/
def State.focusPatch (s : State) : Patch := (s.part s.panel.focus).live

/-- The arming of the channels that `pick` picks, against the focus part (R149). -/
def State.armWhere (s : State) (pick : ChannelNo → Bool) : State :=
  let armed (c : ChannelNo) : Channel := if pick c then (s.channel c).arm s.focusPatch else s.channel c
  { s with panel := { s.panel with channels := Vector.ofFn armed } }

/-- The arming of every PICKUP channel with a PARAMETER role (R149). -/
def State.armAll (s : State) : State := s.armWhere fun _ => true

/-! ### Writes (R148, R152, R153) -/

/-- A live patch with parameter `i` set to `v`. -/
def Patch.setParam (p : Patch) (i : Fin 25) (v : Val12) : Patch := { p with params := p.params.set i v }

/-- Parameter `i` of a part's live patch written: the edit count increments, wrapping, and dirty is set (R148, R161). -/
def State.writeLive (s : State) (p : PartNo) (i : Fin 25) (v : Val12) : State :=
  s.modPart p fun q => { q with live := q.live.setParam i v, editCount := q.editCount + 1, dirty := true }

/-- The change list after a write (R152). -/
def noteChangeIn (l : List Change) (e : Change) : List Change :=
  if l.any fun x => x.channel == e.channel then l.map fun x => if x.channel = e.channel then e else x else l ++ [e]

/-- The change list takes an entry; a list that was empty is reported non-empty (R152, R153). -/
def State.addChange (s : State) (e : Change) : State :=
  let s1 := { s with panel := { s.panel with changes := noteChangeIn s.panel.changes e } }
  if s.panel.changes.isEmpty then s1.reportPanel true else s1

/-- A panel write to parameter `i` of the focus part by channel `c` (R148). -/
def State.panelWrite (s : State) (c : ChannelNo) (i : Fin 25) (v : Val12) : State :=
  let p := s.panel.focus
  let s1 := s.writeLive p i v
  let s2 := if (s.channel c).notify then s1.addChange ⟨c, p, i, v⟩ else s1
  s2.armWhere fun x => x != c && (s2.channel x).role == .parameter i

/-! ### Accepted changes (R145 to R147) -/

/-- The bend value of a reported value (R145). -/
def bendOf (r : Nat) : Int := if 2024 ≤ r ∧ r ≤ 2072 then 0 else ((r : Int) - 2048) * 4

/-- A bend written into every part whose panel bend flag is set (R145). -/
def State.panelBend (s : State) (b : Int) : State :=
  let bent (p : PartNo) : Part := if (s.part p).panelBend then { s.part p with bend := b } else s.part p
  { s with parts := Vector.ofFn bent }

/-- Whether an accepted change of a PARAMETER channel writes, `p` being the parameter's value (R147). -/
def Channel.writes (r : Channel) (p : Nat) : Bool :=
  !r.pickupMode ||
    match r.pickup with
    | .live => true
    | .waitRise => decide (p ≤ r.reported.toNat)
    | .waitFall => decide (r.reported.toNat ≤ p)

/-- An accepted change on a channel whose record holds the new reported value (R145 to R147). -/
def State.accept (s : State) (c : ChannelNo) : State :=
  let r := s.channel c
  match r.role with
  | .parameter i =>
    if r.writes (s.focusPatch.param i) then
      (s.setChannel c { r with pickup := if r.pickupMode then .live else r.pickup }).panelWrite c i r.reported
    else s
  | .bend => s.panelBend (bendOf r.reported.toNat)
  | .mod => { s with panel := { s.panel with modValue := r.reported } }
  | .pedal => { s with panel := { s.panel with pedalValue := r.reported } }
  | .parked => s

/-! ### Conversions (R142 to R144) -/

/-- The filtered value after a conversion (R144). -/
def filterStep (f raw shift : Nat) : Nat := ((f : Int) + (16 * (raw : Int) - f) / 2 ^ shift).toNat

/-- An initialising conversion of a channel in use (R143). A pending arm is used up by it; a JUMP channel is not armed (R149;
DEDUCED, log entry 9). -/
def State.initialConversion (s : State) (c : ChannelNo) (raw : Val12) : State :=
  let r := { s.channel c with raw := raw, filtered := 16 * raw.toNat, reported := raw, initialised := true }
  let s1 := s.setChannel c r
  match r.role with
  | .parameter _ => if r.armPending then s1.setChannel c { r.arm s.focusPatch with armPending := false } else s1
  | .bend => s1.accept c
  | .mod => s1.accept c
  | .pedal => s1.accept c
  | .parked => s

/-- A conversion through the filter (R144). -/
def State.filterConversion (s : State) (c : ChannelNo) (raw : Val12) : State :=
  let r := s.channel c
  let f := filterStep r.filtered raw.toNat s.panel.shift
  let candidate := f / 16
  if s.panel.deadband ≤ ((candidate : Int) - r.reported.toNat).natAbs then
    (s.setChannel c { r with raw := raw, filtered := f, reported := BitVec.ofNat 12 candidate }).accept c
  else s.setChannel c { r with raw := raw, filtered := f }

/-- The scan slot of channel `c` ends (R142). -/
def State.convert (s : State) (c : ChannelNo) (raw : Val12) : State :=
  match (s.channel c).role with
  | .parked => s
  | .parameter _ | .bend | .mod | .pedal =>
    if (s.channel c).initialised then s.filterConversion c raw else s.initialConversion c raw

/-- SCAN_SLOT_EXPIRY (R142). -/
def execScanSlotExpiry (adc : Val12) (s : State) : Host.Outcome State Fault Refusal :=
  let s1 := s.convert s.panel.scanPos adc
  .next { s1 with panel := { s1.panel with scanPos := s.panel.scanPos + 1 } }

/-! ### Commands (R151, R154 to R158) -/

/-- The record of an accepted SET_CHANNEL before any arming (R155, R156). -/
def Channel.assign (r : Channel) (role : Role) (pickupMode notify : Bool) : Channel :=
  let r1 := { r with role := role, pickupMode := pickupMode, notify := notify }
  if r.role = role then r1
  else if role = .parked then { r1 with initialised := false, armPending := false }
  else { r1 with initialised := false }

/-- The role is a PARAMETER role. -/
def Role.isParameter : Role → Bool
  | .parameter _ => true
  | .bend | .mod | .pedal | .parked => false

/-- The record of an accepted SET_CHANNEL, armed where R155 asks for it. -/
def Channel.set (r : Channel) (role : Role) (pickupMode notify : Bool) (live : Patch) : Channel :=
  let r1 := r.assign role pickupMode notify
  if !r.pickupMode || !r.role.isParameter then r1.arm live else r1

/-- A mode byte: 0 JUMP, 1 PICKUP (R190). -/
def mode? (b : Byte) : Option Bool := flag? b

/-- SET_CHANNEL (R155, R156). -/
def execSetChannel (channel role mode notify : Byte) (s : State) : Host.Outcome State Fault Refusal :=
  .next <| hostCommand (.setChannel channel role mode notify)
    (fun t =>
      match channel? channel, role? role, mode? mode, flag? notify with
      | some c, some x, some m, some n =>
        let r := t.channel c
        if r.role = x ∨ r.role = .parked ∨ x = .parked then
          (t.setChannel c (r.set x m n t.focusPatch)).answer .ok []
        else t.refuse .wrongState
      | _, _, _, _ => t.refuse .badValue) s

/-- READ_CHANNEL (R158). -/
def execReadChannel (channel : Byte) (s : State) : Host.Outcome State Fault Refusal :=
  .next <| hostCommand (.readChannel channel)
    (fun t =>
      match channel? channel with
      | some c => t.answer .ok (channelAnswer t c)
      | none => t.refuse .badValue) s

/-- SET_FOCUS (R151). -/
def execSetFocus (part : Byte) (s : State) : Host.Outcome State Fault Refusal :=
  .next <| hostCommand (.setFocus part)
    (fun t =>
      match part? part with
      | some p => (State.armAll { t with panel := { t.panel with focus := p } }).answer .ok []
      | none => t.refuse .badValue) s

/-- SET_PANEL (R157). -/
def execSetPanel (shift deadband : Byte) (s : State) : Host.Outcome State Fault Refusal :=
  .next <| hostCommand (.setPanel shift deadband)
    (fun t =>
      if shift.toNat ≤ 4 ∧ 1 ≤ deadband.toNat ∧ deadband.toNat ≤ 64 then
        ({ t with panel := { t.panel with shift := shift.toNat, deadband := deadband.toNat } }).answer .ok []
      else t.refuse .badValue) s

/-- The entries removed from the change list, the list reported empty where these were its last (R153, R154). -/
def State.takeChanges (s : State) (n : Nat) : State :=
  let s1 := { s with panel := { s.panel with changes := s.panel.changes.drop n } }
  if s1.panel.changes.isEmpty && !s.panel.changes.isEmpty then s1.reportPanel false else s1

/-- READ_CHANGES' answer: the entries returned, preceded by their number, and the number left (R154, R195). -/
def changesAnswer (s : State) (n : Nat) : List Byte :=
  let es := s.panel.changes.take n
  byte1 es.length ++ es.flatMap Change.bytes ++ byte1 (s.panel.changes.length - es.length)

/-- READ_CHANGES (R154). -/
def execReadChanges (maximum : Byte) (s : State) : Host.Outcome State Fault Refusal :=
  .next <| hostCommand (.readChanges maximum)
    (fun t =>
      if 1 ≤ maximum.toNat ∧ maximum.toNat ≤ 32 then
        (t.takeChanges maximum.toNat).answer .ok (changesAnswer t maximum.toNat)
      else t.refuse .badValue) s

end Sys2Proof.Machine
end

