-- ==== Sys2Proof/Machine/VoiceCmds.lean ====
section
/-! DEFINITION. The commands that name one voice (R49 to R51, R137, R138). -/

namespace Sys2Proof.Machine

/-- A command whose first field is a voice number: BAD_VALUE above 15 (R49 to R51, R97, R98, R137, R138). -/
def State.withVoice (s : State) (voice : Byte) (f : Voice → State) : State :=
  match voice? voice with
  | some v => f v
  | none => s.refuse .badValue

/-- READ_VOICE (R51). -/
def execReadVoice (voice : Byte) (s : State) : Host.Outcome State Fault Refusal :=
  .next <| hostCommand (.readVoice voice) (fun t => t.withVoice voice fun v => t.answer .ok (voiceAnswer t v)) s

/-- VOICE_ONLINE (R49). -/
def execVoiceOnline (voice : Byte) (s : State) : Host.Outcome State Fault Refusal :=
  .next <| hostCommand (.voiceOnline voice)
    (fun t => t.withVoice voice fun v =>
      if (t.voice v).state = .offline then (t.enterIdle v).answer .ok [] else t.refuse .wrongState) s

/-- The voice is told to leave its pass and marked offline-pending (R50, R109). -/
def State.markOffline (s : State) (v : Voice) : State :=
  (s.modVoice v fun r => { r with tunePending := false, offlinePending := true }).leavePass v

/-- What VOICE_OFFLINE does to a voice, none where it is refused (R50). The pending flags are put right before the release, so
that a tail of 0 frames ends in OFFLINE as a longer one does (DEDUCED, log entry 8). -/
def State.takeOffline (s : State) (v : Voice) : Option State :=
  match (s.voice v).state with
  | .idle => some (s.modVoice v fun r => { r with state := .offline })
  | .retuning => some ((s.abandonCheck v).modVoice v fun r => { r with state := .offline })
  | .sounding => some ((s.markOffline v).releaseClear v)
  | .stealGap => some ((s.markOffline v).releaseClear v)
  | .releasing => some (s.markOffline v)
  | .offline => some s
  | .absent | .calibrating | .quarantined => none

/-- VOICE_OFFLINE (R50). -/
def execVoiceOffline (voice : Byte) (s : State) : Host.Outcome State Fault Refusal :=
  .next <| hostCommand (.voiceOffline voice)
    (fun t => t.withVoice voice fun v =>
      match t.takeOffline v with
      | some u => u.answer .ok []
      | none => t.refuse .wrongState) s

/-- RELEASE_QUARANTINE (R137). -/
def execReleaseQuarantine (voice : Byte) (s : State) : Host.Outcome State Fault Refusal :=
  .next <| hostCommand (.releaseQuarantine voice)
    (fun t => t.withVoice voice fun v =>
      if (t.voice v).state = .quarantined then (t.modVoice v fun r => { r with state := .offline }).answer .ok []
      else t.refuse .wrongState) s

/-- CLEAR_FAILS (R138). -/
def execClearFails (voice : Byte) (s : State) : Host.Outcome State Fault Refusal :=
  .next <| hostCommand (.clearFails voice)
    (fun t => t.withVoice voice fun v => (t.modVoice v fun r => { r with fails := 0 }).answer .ok []) s

end Sys2Proof.Machine
end

