-- ==== Sys2Proof/Machine/TuneCmds.lean ====
section
/-! DEFINITION. The commands of the tune controller and the auto-tune request (R97, R98, R107, R108, R119, R123, R124). -/

namespace Sys2Proof.Machine

/-! ### Passes that begin (R107, R108) -/

/-- A set of tuned destinations: bit 0 A, bit 1 B, bit 2 cutoff (R190). -/
structure DestSet where
  a : Bool
  b : Bool
  cutoff : Bool
deriving DecidableEq, Repr

/-- The destination set of a TUNE, none where it is empty or names a bit above 2 (R107, R190). -/
def destSet? (b : Byte) : Option DestSet :=
  if b = 0 ∨ 7 < b.toNat then none else some ⟨b.getLsbD 0, b.getLsbD 1, b.getLsbD 2⟩

/-- A new entry, its destinations not started (R107, R108). -/
def PassEntry.fresh (x : EntryState) (ds : DestSet) : PassEntry :=
  { PassEntry.reset with state := x, inA := ds.a, inB := ds.b, inCutoff := ds.cutoff }

/-- One voice of a TUNE with the allocator's answer. -/
structure ClaimAnswer where
  voice : Voice
  answer : Claim
deriving DecidableEq, Repr

/-- The entry that the allocator's answer gives a voice (R107, R124). -/
def Claim.entry (ds : DestSet) : Claim → PassEntry
  | .taken => .fresh .waiting ds
  | .pending => .fresh .pending ds
  | .refused why => { PassEntry.reset with state := .skipped, reason := why }

/-- The claims made so far: the state, the answers in the order made, and the keys taken by force. -/
structure Claims where
  state : State
  answers : List ClaimAnswer
  lost : List Assignment

/-- One more claim (R107, R108). -/
def Claims.add (force insert : Bool) (c : Claims) (v : Voice) : Claims :=
  let (s1, x, lost) := c.state.claim v force insert
  ⟨s1, c.answers ++ [⟨v, x⟩], c.lost ++ lost.toList⟩

/-- Claims of these voices, in this order. -/
def State.claimAll (s : State) (vs : List Voice) (force insert : Bool) : Claims :=
  vs.foldl (Claims.add force insert) ⟨s, [], []⟩

/-- The pass begins: its summary is cleared and filled, and service begins (R107, R108, R110). -/
def State.beginPass (s : State) (force : Bool) (answers : List ClaimAnswer) (ds : DestSet) : State :=
  let s1 := { s with tune := { s.tune with
    outcome := .running, force := force, entries := Vector.replicate 16 .reset, service := none, heldQuarantine := false,
    requestWaiting := false } }
  (answers.foldl (fun (t : State) x => t.setEntry x.voice (x.answer.entry ds)) s1).settlePass

/-- The claim was not refused. -/
def Claim.granted : Claim → Bool
  | .taken => true
  | .pending => true
  | .refused _ => false

/-- The set of the voices whose answer satisfies `f`. -/
def claimSet (answers : List ClaimAnswer) (f : Claim → Bool) : List Byte :=
  voiceSet fun v => answers.any fun x => x.voice == v && f x.answer

/-- The skipped set and the sixteen reasons, V0 first (R107, R195). -/
def skippedBytes (answers : List ClaimAnswer) : List Byte :=
  claimSet answers (fun x => !x.granted) ++ allVoices.flatMap fun v =>
    match answers.find? fun x => x.voice == v with
    | some ⟨_, .refused why⟩ => byte1 why.code
    | _ => byte1 EntryReason.none.code

/-- A TUNE whose fields are in range, with no pass running (R107). -/
def State.beginTune (s : State) (voices : BitVec 16) (ds : DestSet) (force : Bool) : State :=
  let c := s.claimAll (allVoices.filter fun v => voices.getLsbD v.val) force false
  let s1 := c.state.reHome c.lost
  if c.answers.any fun x => x.answer.granted then
    (s1.beginPass force c.answers ds).answer .accepted
      (claimSet c.answers (· == .taken) ++ claimSet c.answers (· == .pending) ++ skippedBytes c.answers)
  else s1.answer .ok (skippedBytes c.answers)

/-- TUNE (R107). A pass running is looked for before a field out of range: R107 gives the two refusals no order (DESIGN
CHOICE, log entry 34). -/
def execTune (voices : BitVec 16) (dests force : Byte) (s : State) : Host.Outcome State Fault Refusal :=
  .next <| hostCommand (.tune voices dests force)
    (fun t =>
      if t.passRunning then t.refuse .wrongState
      else match destSet? dests, flag? force with
        | some ds, some f => if voices = 0 then t.refuse .badValue else t.beginTune voices ds f
        | _, _ => t.refuse .badValue) s

/-- An auto-tune request for the voices of a slot that need tuning (R108). -/
def State.autoTune (s : State) (vs : List Voice) : State :=
  let all : DestSet := ⟨true, true, true⟩
  let c := s.claimAll vs false true
  let granted := c.answers.filter fun x => x.answer.granted
  if granted.isEmpty then c.state
  else if s.passRunning then
    (granted.foldl (fun (t : State) x => t.setEntry x.voice (x.answer.entry all)) c.state).settlePass
  else c.state.beginPass false granted all

/-! ### TUNE_ABORT (R119) -/

/-- What the abort does to one voice with its entry (R119, steps 3 and 4). -/
def State.abortVoice (held : Bool) (s : State) (v : Voice) : State :=
  match (s.entry v).state with
  | .inService =>
    (if held then s.enterQuarantine v else s.enterIdle v).markEntry v .done .aborted
  | .waiting => (s.enterIdle v).markEntry v .done .aborted
  | .pending => (s.modVoice v fun r => { r with tunePending := false }).markEntry v .done .aborted
  | .notInPass | .skipped | .done | .left => s

/-- A running pass is aborted (R119). -/
def State.abortPass (s : State) : State :=
  let s1 := allVoices.foldl (State.abortVoice s.tune.heldQuarantine) s.dropService
  ({ s1 with tune := { s1.tune with outcome := .aborted, heldQuarantine := false } }).postTune

/-- TUNE_ABORT (R119). -/
def execTuneAbort (s : State) : Host.Outcome State Fault Refusal :=
  .next <| hostCommand .tuneAbort
    (fun t => if t.passRunning then t.abortPass.answer .ok [] else t.refuse .wrongState) s

/-! ### Reading, and the plan (R123, R124) -/

/-- READ_TUNE (R124). -/
def execReadTune (s : State) : Host.Outcome State Fault Refusal :=
  .next <| hostCommand .readTune (fun t => t.answer .ok (tuneAnswer t)) s

/-- SET_TUNE_PLAN (R123). A pass running is looked for before a value out of range: R123 gives the two refusals no order
(DESIGN CHOICE, log entry 34). -/
def execSetTunePlan (pitchLo pitchHi cutoffLo cutoffHi : Byte) (s : State) : Host.Outcome State Fault Refusal :=
  .next <| hostCommand (.setTunePlan pitchLo pitchHi cutoffLo cutoffHi)
    (fun t =>
      if t.passRunning then t.refuse .wrongState
      else if pitchHi.toNat ≤ 11 ∧ cutoffHi.toNat ≤ 11 ∧ pitchLo.toNat < pitchHi.toNat
          ∧ cutoffLo.toNat < cutoffHi.toNat then
        ({ t with tune := { t.tune with
            plan := ⟨pitchLo.toNat, pitchHi.toNat, cutoffLo.toNat, cutoffHi.toNat⟩ } }).answer .ok []
      else t.refuse .badValue) s

/-! ### Calibration records (R97, R98) -/

/-- READ_CAL (R97). -/
def execReadCal (voice : Byte) (s : State) : Host.Outcome State Fault Refusal :=
  .next <| hostCommand (.readCal voice) (fun t => t.withVoice voice fun v => t.answer .ok (calAnswer t v)) s

/-- Byte `k` of a transfer record. -/
def recordByte (record : List Byte) (k : Nat) : Byte := record.getD k 0

/-- The twelve codes that begin at byte `at0` of a transfer record (10.5). -/
def recordCodes (record : List Byte) (at0 : Nat) : Vector Code 12 :=
  Vector.ofFn fun k : Fin 12 => word16 (recordByte record (at0 + 2 * k.val)) (recordByte record (at0 + 2 * k.val + 1))

/-- The baseline count in the three bytes that begin at `at0` (10.5). -/
def recordBaseline (record : List Byte) (at0 : Nat) : Nat :=
  (recordByte record at0).toNat * 65536 + (recordByte record (at0 + 1)).toNat * 256 + (recordByte record (at0 + 2)).toNat

/-- A destination entry as WRITE_CAL makes it, 0 standing for NONE (R98). -/
def writtenEntry (codes : Vector Code 12) (baseline : Nat) : CalEntry :=
  ⟨codes, Vector.replicate 12 true, .calibrated, if baseline = 0 then none else some baseline⟩

/-- The calibration record of a transfer record (R98, 10.5). -/
def writtenRecord (record : List Byte) : CalRecord where
  a := writtenEntry (recordCodes record 0) (recordBaseline record 72)
  b := writtenEntry (recordCodes record 24) (recordBaseline record 75)
  cutoff := writtenEntry (recordCodes record 48) 0

/-- Highest baseline count (R95). -/
def baselineLimit : Nat := 16000000

/-- WRITE_CAL (R98). A baseline out of range is looked for before the voice's state: R98 gives the two refusals no order
(DESIGN CHOICE, log entry 34). -/
def execWriteCal (voice : Byte) (record : List Byte) (s : State) : Host.Outcome State Fault Refusal :=
  .next <| hostCommand (.writeCal voice record)
    (fun t => t.withVoice voice fun v =>
      if baselineLimit < recordBaseline record 72 ∨ baselineLimit < recordBaseline record 75 then t.refuse .badValue
      else if (t.voice v).state = .offline ∨ (t.voice v).state = .absent then
        ((t.setCalRecord v (writtenRecord record)).modVoice v fun r =>
          (r.zeroDrift .a).zeroDrift .b).answer .ok []
      else t.refuse .wrongState) s

end Sys2Proof.Machine
end

