-- ==== Sys2Proof/Machine/Patches.lean ====
section
/-! DEFINITION. The patch manager: patch records, cache slots, the store-link job queue, recalls and stores (R159 to R182). -/

namespace Sys2Proof.Machine

/-! ### Patch records (R159, R173, 10.5) -/

/-- A name character brought into range (R159). -/
def nameChar (b : Byte) : Byte := if 0x20 ≤ b.toNat ∧ b.toNat ≤ 0x7E then b else 0x20

/-- A continuous parameter brought into range (R159). -/
def paramValue (n : Nat) : Val12 := BitVec.ofNat 12 (min 4095 n)

/-- A code brought into `lo..hi` (R159). -/
def clampNat (lo hi n : Nat) : Nat := max lo (min hi n)

/-- A voice mode from its code, brought into range (R159). -/
def voiceModeOf : Nat → VoiceMode
  | 0 => .poly
  | 1 => .mono
  | _ => .unison

/-- A glide mode from its code, brought into range (R159). -/
def glideModeOf : Nat → GlideMode
  | 0 => .off
  | 1 => .always
  | _ => .legato

/-- A key priority from its code, brought into range (R159). -/
def keyPriorityOf : Nat → KeyPriority
  | 0 => .last
  | 1 => .low
  | _ => .high

/-- A mono trigger from its code, brought into range (R159). -/
def monoTriggerOf : Nat → MonoTrigger
  | 0 => .retrig
  | _ => .legato

/-- The discrete fields of a patch record (R159), in the order of R190. -/
inductive Discrete where
  | voiceMode
  | voiceLimit
  | unisonCount
  | unisonSpread
  | bendRange
  | glideMode
  | keyPriority
  | monoTrigger
deriving DecidableEq, Repr

/-- A discrete field written with a code brought into range (R159, R161). -/
def Patch.setDiscrete (p : Patch) (d : Discrete) (n : Nat) : Patch :=
  match d with
  | .voiceMode => { p with voiceMode := voiceModeOf n }
  | .voiceLimit => { p with voiceLimit := clampNat 1 16 n }
  | .unisonCount => { p with unisonCount := clampNat 1 8 n }
  | .unisonSpread => { p with unisonSpread := clampNat 0 31 n }
  | .bendRange => { p with bendRange := clampNat 0 24 n }
  | .glideMode => { p with glideMode := glideModeOf n }
  | .keyPriority => { p with keyPriority := keyPriorityOf n }
  | .monoTrigger => { p with monoTrigger := monoTriggerOf n }

/-- The patch of a stored record, brought into range (R159, R173; bytes 2..71 of 10.5). -/
def patchOf (bytes : List Byte) : Patch where
  params := Vector.ofFn fun i : Fin 25 =>
    paramValue (word16 (recordByte bytes (2 + 2 * i.val)) (recordByte bytes (3 + 2 * i.val))).toNat
  voiceMode := voiceModeOf (recordByte bytes 52).toNat
  voiceLimit := clampNat 1 16 (recordByte bytes 53).toNat
  unisonCount := clampNat 1 8 (recordByte bytes 54).toNat
  unisonSpread := clampNat 0 31 (recordByte bytes 55).toNat
  bendRange := clampNat 0 24 (recordByte bytes 56).toNat
  glideMode := glideModeOf (recordByte bytes 57).toNat
  keyPriority := keyPriorityOf (recordByte bytes 58).toNat
  monoTrigger := monoTriggerOf (recordByte bytes 59).toNat
  name := Vector.ofFn fun i : Fin 12 => nameChar (recordByte bytes (60 + i.val))

/-- `n` shifts of the CRC register (R173). -/
def crcShift : Nat → BitVec 16 → BitVec 16
  | 0, x => x
  | n + 1, x => crcShift n (if x.msb then (x <<< 1) ^^^ 0x1021 else x <<< 1)

/-- One byte taken into the CRC (R173). -/
def crcByte (x : BitVec 16) (b : Byte) : BitVec 16 := crcShift 8 (x ^^^ (b.setWidth 16 <<< 8))

/-- The CRC of some bytes (R173). -/
def crc (bytes : List Byte) : BitVec 16 := bytes.foldl crcByte 0xFFFF

/-- Bytes 0..71 of a stored record: marker, version, body (10.5). -/
def recordHead (p : Patch) : List Byte := [0xA5, 1] ++ p.body

/-- The stored patch record (10.5). -/
def recordOf (p : Patch) : List Byte := recordHead p ++ bytes16 (crc (recordHead p))

/-- The page that a store programs (R178). -/
def pageOf (p : Patch) : List Byte :=
  recordOf p ++ List.replicate (Config.pageBytes - Config.recordBytes) 0xFF

/-- How a fetch judges its 74 bytes (R173). -/
def judge (bytes : List Byte) : PatchResult :=
  if recordByte bytes 0 = 0xFF then .blank
  else if recordByte bytes 0 ≠ 0xA5 ∨ recordByte bytes 1 ≠ 1 then .damaged
  else if crc (bytes.take 72) ≠ word16 (recordByte bytes 72) (recordByte bytes 73) then .damaged
  else .ok

/-! ### Cache slots (R164 to R167) -/

/-- A slot that becomes EMPTY keeps its rank (R164). -/
def CacheSlot.emptied (c : CacheSlot) : CacheSlot := ⟨.empty, none, none, c.rank, false, 0⟩

/-- A slot becomes EMPTY (R164). -/
def State.emptyCache (s : State) (c : CacheNo) : State := s.setCache c (s.cache c).emptied

/-- A slot is made most recent (R165). -/
def State.touchCache (s : State) (c : CacheNo) : State :=
  let r := (s.cache c).rank
  let ranked (x : CacheNo) : CacheSlot :=
    if x = c then { s.cache x with rank := 0 }
    else if (s.cache x).rank < r then { s.cache x with rank := (s.cache x).rank + 1 }
    else s.cache x
  { s with patches := { s.patches with slots := Vector.ofFn ranked } }

/-- The slot of highest rank of a list. -/
def State.leastRecent (s : State) : List CacheNo → Option CacheNo
  | [] => none
  | x :: xs => some (xs.foldl (fun best y => if (s.cache best).rank < (s.cache y).rank then y else best) x)

/-- A VALID slot that may be replaced (R166). -/
def CacheSlot.replaceable (c : CacheSlot) : Bool := c.state == .valid && !c.lock && c.pin == 0

/-- The slot an allocation chooses (R166). -/
def State.victim (s : State) : Option CacheNo :=
  (s.leastRecent (allCaches.filter fun c => (s.cache c).state == .empty)).or
    (s.leastRecent (allCaches.filter fun c => (s.cache c).replaceable))

/-- A slot allocated for a location, in the state its rule sets (R166). -/
def State.giveSlot (s : State) (c : CacheNo) (location : Nat) (x : CacheState) (contents : Option Patch) : State :=
  (s.setCache c { s.cache c with state := x, location := some location, contents := contents }).touchCache c

/-- The VALID or FILLING slot that holds a location (R166). -/
def State.slotOf (s : State) (location : Nat) : Option CacheNo :=
  allCaches.find? fun c => (s.cache c).state != .empty && (s.cache c).location == some location

/-- The host-locked slots (R166, R167). -/
def State.lockedSlots (s : State) : Nat := (allCaches.filter fun c => (s.cache c).lock).length

/-! ### The store-link (R172) -/

/-- The five instructions of the flash, with what a transaction of each is about (R172). -/
inductive FlashTx where
  | statusRead
  | read (address count : Nat)
  | writeEnable
  | pageErase (address : Nat)
  | pageProgram (address : Nat) (page : List Byte)
deriving DecidableEq, Repr

/-- The bytes of a transaction: the instruction byte, three address bytes where the instruction has an address, high byte first,
and the data of a page program; and how many bytes the part then takes (R172, 10.5). -/
def FlashTx.frame : FlashTx → FlashFrame
  | .statusRead => ⟨[0x05], 1⟩
  | .read address count => ⟨0x03 :: byte3 address, count⟩
  | .writeEnable => ⟨[0x06], 0⟩
  | .pageErase address => ⟨0xDB :: byte3 address, 0⟩
  | .pageProgram address page => ⟨0x02 :: byte3 address ++ page, 0⟩

/-- Transactions made on the store-link by the event being taken. -/
def State.send (s : State) (txs : List FlashTx) : State :=
  { s with patches := { s.patches with sent := s.patches.sent ++ txs.map FlashTx.frame } }

/-- An event that uses the store-link begins. -/
def State.beginLink (s : State) : State := { s with patches := { s.patches with sent := [] } }

/-- The head's step replaced. -/
def State.setHead (s : State) (x : Option JobStep) : State := { s with patches := { s.patches with head := x } }

/-- The queue replaced. -/
def State.setQueue (s : State) (q : List Job) : State := { s with patches := { s.patches with queue := q } }

/-- The byte address of a location's page (R172). -/
def pageAddress (location : Nat) : Nat := 256 * location

/-- Busy of a status byte (R172). -/
def statusBusy (b : Byte) : Bool := b.getLsbD 0

/-- Fail of a status byte (R172). -/
def statusFail (b : Byte) : Bool := b.getLsbD 5

/-- The step after the ready wait: a FETCH reads, a STORE erases (R173, R178). -/
def State.passReady (s : State) (j : Job) : State :=
  match j with
  | .fetch l _ _ _ => (s.send [.read (pageAddress l) Config.recordBytes]).setHead (some .read)
  | .store l _ _ _ _ => (s.send [.writeEnable, .pageErase (pageAddress l)]).setHead (some (.erase 0))

/-- The head of the queue starts, if there is one: a status read, and on with the job where it finds busy clear (R168, R172). The
status read finds the status the flash last showed (DESIGN CHOICE, log entry 10). -/
def State.startHead (s : State) : State :=
  match s.patches.queue with
  | [] => s.setHead none
  | j :: _ =>
    let s1 := s.send [.statusRead]
    if statusBusy s1.patches.flashStatus then s1.setHead (some (.readyWait 0)) else s1.passReady j

/-- A job queued at the newest end; into an empty queue, it becomes the head and starts (R168). -/
def State.queueJob (s : State) (j : Job) : State :=
  let s1 := s.setQueue (s.patches.queue ++ [j])
  if s.patches.queue.isEmpty then s1.beginLink.startHead else s1

/-- The head is removed, and the next job starts (R168). -/
def State.nextJob (s : State) : State := (s.setQueue (s.patches.queue.drop 1)).startHead

/-- The jobs that have not started (R168). -/
def State.waitingJobs (s : State) : List Job := s.patches.queue.drop 1

/-- The job is a FETCH of this location. -/
def Job.fetches (j : Job) (location : Nat) : Bool :=
  match j with
  | .fetch l _ _ _ => l == location
  | .store .. => false

/-- The slot of a job. -/
def Job.slot : Job → CacheNo
  | .fetch _ c _ _ => c
  | .store _ c _ _ _ => c

/-- The jobs that have not started replaced, the head kept. -/
def State.setWaiting (s : State) (js : List Job) : State := s.setQueue (s.patches.queue.take 1 ++ js)

/-- A STORE job unlinked where `f` holds of its slot and part (R179). -/
def Job.unlinkWhere (f : CacheNo → PartNo → Bool) : Job → Job
  | .fetch l c p d => .fetch l c p d
  | .store l c p n linked => .store l c p n (linked && !f c p)

/-- STORE jobs unlinked (R175, R176). -/
def State.unlink (s : State) (f : CacheNo → PartNo → Bool) : State := s.setQueue (s.patches.queue.map (Job.unlinkWhere f))

/-! ### Copies and displacement (R171, R175) -/

/-- Some part wants the location. -/
def State.wantedBy (s : State) (location : Nat) (f : PartNo → Bool) : Bool :=
  allParts.any fun p => f p && (s.part p).wanted == some location

/-- A copy of a slot's contents into a part (R175). -/
def State.copyInto (s : State) (c : CacheNo) (p : PartNo) : State :=
  let old := (s.part p).live.voiceMode
  let patch := (s.cache c).contents.getD .default
  let s1 := s.modPart p fun q =>
    { q with live := patch, origin := (s.cache c).location, dirty := false, wanted := none, lastRecall := .ok }
  let s2 := (s1.unlink fun _ q => q == p).afterPatch p old
  (if s2.panel.focus = p then s2.armAll else s2).postRecall p

/-- A slot's contents copied into every part that wants the location, in ascending order (R174, R177). -/
def State.copyToWanting (s : State) (c : CacheNo) (location : Nat) : State :=
  (allParts.filter fun p => (s.part p).wanted == some location).foldl (fun (t : State) p => t.copyInto c p) s

/-- The FETCH of a location that has not started is removed, and its slot becomes EMPTY (R171). -/
def State.cancelFetch (s : State) (location : Nat) : State :=
  match s.waitingJobs.find? fun j => j.fetches location with
  | some j => (s.setWaiting (s.waitingJobs.filter fun x => !x.fetches location)).emptyCache j.slot
  | none => s

/-- A part's earlier recall displaced by an accepted RECALL of `location` (R171). -/
def State.displace (s : State) (p : PartNo) (location : Nat) : State :=
  match (s.part p).wanted with
  | none => s
  | some m =>
    if m = location then s
    else
      let s1 := s.modPart p fun q => { q with wanted := none, lastRecall := .superseded }
      if s1.wantedBy m fun _ => true then s1 else s1.cancelFetch m

/-- A part's wanted location set. -/
def State.want (s : State) (p : PartNo) (location : Nat) : State := s.modPart p fun q => { q with wanted := some location }

/-! ### RECALL (R169, R170) -/

/-- The FETCH that a miss retargets: not started, for the part's wanted location, which no other part wants (R170). -/
def State.retargetable (s : State) (p : PartNo) : Option Job :=
  match (s.part p).wanted with
  | none => none
  | some m =>
    if s.wantedBy m fun q => q != p then none else s.waitingJobs.find? fun j => j.fetches m

/-- A FETCH given another location and slot; a STORE is kept. -/
def Job.retarget (j : Job) (location : Nat) (c : CacheNo) : Job :=
  match j with
  | .fetch _ _ p d => .fetch location c p d
  | .store l c' p n linked => .store l c' p n linked

/-- A miss that retargets job `j` (R170, case 2). -/
def State.retarget (s : State) (p : PartNo) (location : Nat) (j : Job) : State :=
  let s1 := s.emptyCache j.slot
  match s1.victim with
  | none => s
  | some c =>
    let s2 := s1.giveSlot c location .filling none
    let s3 := s2.setWaiting (s2.waitingJobs.map fun x => if x = j then x.retarget location c else x)
    s3.modPart p fun q => { q with lastRecall := .superseded, wanted := some location }

/-- A miss that no FILLING slot serves (R170, cases 2 and 3). -/
def State.recallMiss (s : State) (p : PartNo) (location : Nat) : State :=
  match s.retargetable p with
  | some j => (s.retarget p location j).answer .accepted []
  | none =>
    if Config.jobLimit ≤ s.patches.queue.length then s.refuse .queueFull
    else match s.victim with
      | none => s.refuse .noSlot
      | some c =>
        let s1 := (s.giveSlot c location .filling none).queueJob (.fetch location c p false)
        ((s1.displace p location).want p location).answer .accepted []

/-- A RECALL whose fields are in range (R169, R170). -/
def State.recallPatch (s : State) (p : PartNo) (location : Nat) : State :=
  match s.slotOf location with
  | some c =>
    match (s.cache c).state with
    | .valid => (((s.displace p location).touchCache c).copyInto c p).answer .ok []
    | .filling => ((s.displace p location).want p location).answer .accepted []
    | .empty => s.recallMiss p location
  | none => s.recallMiss p location

/-- A patch location, none above 511 (1.6). -/
def location? (x : BitVec 16) : Option Nat := if x.toNat ≤ 511 then some x.toNat else none

/-- RECALL (R169, R170). -/
def execRecall (part : Byte) (location : BitVec 16) (s : State) : Host.Outcome State Fault Refusal :=
  .next <| hostCommand (.recallPart part location)
    (fun t =>
      match part? part, location? location with
      | some p, some l => t.recallPatch p l
      | _, _ => t.refuse .badValue) s

/-! ### STORE (R176, R177) -/

/-- A FETCH of the location in progress is detached (R177). -/
def Job.detach (j : Job) (location : Nat) : Job :=
  match j with
  | .fetch l c p d => .fetch l c p (d || l == location)
  | .store l c p n linked => .store l c p n linked

/-- The fetch of a location met by a STORE into its FILLING slot (R177). -/
def State.resolveFetch (s : State) (location : Nat) : State :=
  s.setQueue ((s.patches.queue.take 1).map (fun j => j.detach location)
    ++ s.waitingJobs.filter fun j => !j.fetches location)

/-- The snapshot of a part into a slot (R176, step 2). -/
def State.snapshotInto (s : State) (p : PartNo) (c : CacheNo) (location : Nat) : State :=
  (s.setCache c { s.cache c with
    state := .valid, location := some location, contents := some (s.part p).live, pin := (s.cache c).pin + 1 }).touchCache c

/-- A STORE into slot `c`; `filling` says that a fetch of the location was under way there (R176, R177). -/
def State.storeInto (s : State) (p : PartNo) (location : Nat) (c : CacheNo) (filling : Bool) : State :=
  let s1 := (s.snapshotInto p c location).unlink fun x _ => x == c
  let s2 := if filling then s1.resolveFetch location else s1
  let s3 := s2.queueJob (.store location c p (s.part p).editCount true)
  if filling then s3.copyToWanting c location else s3

/-- The location lies in the enabled protected range (R176). -/
def Settings.protects (x : Settings) (location : Nat) : Bool :=
  x.protectOn && decide (x.protectLow ≤ location ∧ location ≤ x.protectHigh)

/-- A STORE whose fields are in range (R176). -/
def State.storePatch (s : State) (p : PartNo) (location : Nat) : State :=
  if s.settings.protects location then s.refuse .isProtected
  else if Config.jobLimit ≤ s.patches.queue.length then s.refuse .queueFull
  else match s.slotOf location with
    | some c => (s.storeInto p location c ((s.cache c).state == .filling)).answer .accepted []
    | none => match s.victim with
      | some c => (s.storeInto p location c false).answer .accepted []
      | none => s.refuse .noSlot

/-- STORE (R176). -/
def execStore (part : Byte) (location : BitVec 16) (s : State) : Host.Outcome State Fault Refusal :=
  .next <| hostCommand (.store part location)
    (fun t =>
      match part? part, location? location with
      | some p, some l => t.storePatch p l
      | _, _ => t.refuse .badValue) s

/-! ### The end of a job (R174, R179, R180) -/

/-- A part whose fetch failed (R174, step 3). -/
def State.failRecall (s : State) (p : PartNo) (why : PatchResult) : State :=
  (s.modPart p fun q => { q with wanted := none, lastRecall := why }).postRecall p

/-- A FETCH job ends (R174); `record` is the record of an OK. -/
def State.endFetch (s : State) (location : Nat) (c : CacheNo) (detached : Bool) (why : PatchResult) (record : Option Patch) :
    State :=
  if detached then s.nextJob
  else
    match record with
    | some p =>
      let s1 := (s.setCache c { s.cache c with state := .valid, contents := some p }).touchCache c
      (s1.copyToWanting c location).nextJob
    | none =>
      let s1 := s.emptyCache c
      ((allParts.filter fun p => (s.part p).wanted == some location).foldl
        (fun (t : State) p => t.failRecall p why) s1).nextJob

/-- The last store result set, with its notice (R179, R180). -/
def State.storeResult (s : State) (location : Nat) (why : PatchResult) : State :=
  ({ s with patches := { s.patches with lastStore := why, lastStoreLoc := some location } }).postStore

/-- The slot's pin count decremented. -/
def State.unpin (s : State) (c : CacheNo) : State := s.setCache c { s.cache c with pin := (s.cache c).pin - 1 }

/-- A STORE job ends OK (R179). -/
def State.storeDone (s : State) (location : Nat) (c : CacheNo) (p : PartNo) (snapshot : BitVec 16) (linked : Bool) : State :=
  let s1 := s.unpin c
  let s2 := if linked && (s1.part p).editCount == snapshot then
    s1.modPart p fun q => { q with dirty := false, origin := some location } else s1
  (s2.storeResult location .ok).nextJob

/-- A STORE job fails (R180). -/
def State.storeFailed (s : State) (location : Nat) (c : CacheNo) (why : PatchResult) : State :=
  let s1 := s.unpin c
  let s2 := if (s1.cache c).pin = 0 then s1.emptyCache c else s1
  (s2.storeResult location why).nextJob

/-- The head job ends with a failure (R172, R174, R180). -/
def State.failHead (s : State) (why : PatchResult) : State :=
  match s.patches.queue with
  | [] => s
  | .fetch l c _ detached :: _ => s.endFetch l c detached why none
  | .store l c _ _ _ :: _ => s.storeFailed l c why

/-! ### The frame timer and the flash's answers (R172, R173, R178) -/

/-- The erase is done: the page is built and programmed (R178, step 2). -/
def State.programPage (s : State) (j : Job) : State :=
  match j with
  | .fetch .. => s
  | .store l c _ _ _ =>
    let page := pageOf ((s.cache c).contents.getD .default)
    (s.send [.writeEnable, .pageProgram (pageAddress l) page]).setHead (some (.program 0 page))

/-- The program is done: the page is read back (R178, step 3). -/
def State.verifyPage (s : State) (j : Job) (page : List Byte) : State :=
  match j with
  | .fetch .. => s
  | .store l _ _ _ _ => (s.send [.read (pageAddress l) Config.pageBytes]).setHead (some (.verify page))

/-- A status read at the expiry that makes the step's count `n`, its limit `limit`: on with the job, a failure, TIMEOUT, or the
step with its count (R172, R178). -/
def State.pollFlash (s : State) (n limit : Nat) (again : JobStep) (fail : Option PatchResult) (go : State → State) : State :=
  let s1 := s.send [.statusRead]
  if statusBusy s1.patches.flashStatus then
    if limit ≤ n then s1.failHead .timeout else s1.setHead (some again)
  else
    match fail with
    | some why => if statusFail s1.patches.flashStatus then s1.failHead why else go s1
    | none => go s1

/-- One expiry of the patch manager's frame timer, with the status the flash shows (R172, R178). -/
def State.linkFrame (s : State) : State :=
  match s.patches.queue, s.patches.head with
  | j :: _, some step =>
    match step with
    | .readyWait n => s.beginLink.pollFlash (n + 1) 10 (.readyWait (n + 1)) none fun t => t.passReady j
    | .erase n => s.beginLink.pollFlash (n + 1) 40 (.erase (n + 1)) (some .eraseFail) fun t => t.programPage j
    | .program n page =>
      s.beginLink.pollFlash (n + 1) 10 (.program (n + 1) page) (some .programFail) fun t => t.verifyPage j page
    | .read => s
    | .verify _ => s
  | _, _ => s

/-- The flash's status output changes. -/
def State.setFlash (s : State) (status : Byte) : State := { s with patches := { s.patches with flashStatus := status } }

/-- STORELINK_FRAME_EXPIRY (R172). -/
def execStorelinkFrameExpiry (status : Byte) (s : State) : Host.Outcome State Fault Refusal :=
  .next (s.setFlash status).linkFrame

/-- The step's next expiry is its last (R172, R178). -/
def JobStep.atLimit : JobStep → Bool
  | .readyWait n => decide (9 ≤ n)
  | .erase n => decide (39 ≤ n)
  | .program n _ => decide (9 ≤ n)
  | .read => false
  | .verify _ => false

/-- FLASH_TIMEOUT: the last expiry of a step, at which the flash still shows busy (R172, R178; log entry 2). -/
def execFlashTimeout (s : State) : Host.Outcome State Fault Refusal :=
  .next <| match s.patches.head with
    | some x => if x.atLimit then (s.setFlash (s.patches.flashStatus ||| 1)).linkFrame else s
    | none => s

/-- FETCH_READ_COMPLETE: the read of a FETCH's 74 bytes (R173, R174). -/
def execFetchReadComplete (bytes : List Byte) (s : State) : Host.Outcome State Fault Refusal :=
  match s.patches.queue, s.patches.head with
  | .fetch l c _ detached :: _, some .read =>
    if bytes.length = Config.recordBytes then
      .next (s.beginLink.endFetch l c detached (judge bytes) (if judge bytes = .ok then some (patchOf bytes) else none))
    else .fault .malformedTransfer
  | _, _ => .next s

/-- VERIFY_COMPLETE: the read of a STORE's page (R178 to R180). -/
def execVerifyComplete (bytes : List Byte) (s : State) : Host.Outcome State Fault Refusal :=
  match s.patches.queue, s.patches.head with
  | .store l c p snapshot linked :: _, some (.verify page) =>
    if bytes.length = Config.pageBytes then
      .next (if bytes = page then s.beginLink.storeDone l c p snapshot linked
        else s.beginLink.storeFailed l c .verifyFail)
    else .fault .malformedTransfer
  | _, _ => .next s

/-! ### WRITE_PARAM and READ_LIVE (R161 to R163) -/

/-- The field a WRITE_PARAM names (R190). -/
inductive Field where
  | param (i : Fin 25)
  | discrete (d : Discrete)
  | name
deriving DecidableEq, Repr

/-- The discrete field of a WRITE_PARAM field number less 32 (R190). -/
def discreteOf : Nat → Option Discrete
  | 0 => some .voiceMode
  | 1 => some .voiceLimit
  | 2 => some .unisonCount
  | 3 => some .unisonSpread
  | 4 => some .bendRange
  | 5 => some .glideMode
  | 6 => some .keyPriority
  | 7 => some .monoTrigger
  | _ => none

/-- A WRITE_PARAM field, none for a number that names none (R190). -/
def field? (b : Byte) : Option Field :=
  match index? 25 b.toNat with
  | some i => some (.param i)
  | none =>
    if b = 48 then some .name
    else if 32 ≤ b.toNat then (discreteOf (b.toNat - 32)).map .discrete else none

/-- The live patch replaced by a live-parameter write (R160). -/
def State.editLive (s : State) (p : PartNo) (f : Patch → Patch) : State :=
  s.modPart p fun q => { q with live := f q.live, editCount := q.editCount + 1, dirty := true }

/-- A WRITE_PARAM of a continuous parameter: in the focus part it arms (R149, R161). -/
def State.writeContinuous (s : State) (p : PartNo) (i : Fin 25) (v : Val12) : State :=
  let s1 := s.writeLive p i v
  if s1.panel.focus = p then s1.armWhere fun c => (s1.channel c).role == .parameter i else s1

/-- A WRITE_PARAM of a discrete field (R162). -/
def State.writeDiscrete (s : State) (p : PartNo) (d : Discrete) (n : Nat) : State :=
  let old := (s.part p).live.voiceMode
  let s1 := s.editLive p fun q => q.setDiscrete d n
  match d with
  | .voiceMode => if (s1.part p).live.voiceMode = old then s1 else s1.reseat p
  | .voiceLimit | .unisonCount => s1.reduce p
  | .unisonSpread | .bendRange | .glideMode | .keyPriority | .monoTrigger => s1

/-- A name of twelve characters, brought into range (R159). -/
def nameOf (value : List Byte) : Vector Byte 12 := Vector.ofFn fun i : Fin 12 => nameChar (recordByte value i.val)

/-- A WRITE_PARAM of a known field: a numeric field takes two bytes, the name twelve (R161, R190). -/
def State.writeField (s : State) (p : PartNo) (f : Field) (value : List Byte) : State :=
  match f, value with
  | .param i, [hi, lo] => (s.writeContinuous p i (paramValue (word16 hi lo).toNat)).answer .ok []
  | .discrete d, [hi, lo] => (s.writeDiscrete p d (word16 hi lo).toNat).answer .ok []
  | .name, _ =>
    if value.length = 12 then (s.editLive p fun q => { q with name := nameOf value }).answer .ok []
    else s.refuse .badLength
  | _, _ => s.refuse .badLength

/-- WRITE_PARAM (R161, R162, R190). A part or field out of range is looked for before the length (DESIGN CHOICE, log
entry 11). -/
def execWriteParam (part field : Byte) (value : List Byte) (s : State) : Host.Outcome State Fault Refusal :=
  .next <| hostCommand (.writeParam part field value)
    (fun t =>
      match part? part, field? field with
      | some p, some f => t.writeField p f value
      | _, _ => t.refuse .badValue) s

/-- READ_LIVE (R163). -/
def execReadLive (part : Byte) (s : State) : Host.Outcome State Fault Refusal :=
  .next <| hostCommand (.readLive part)
    (fun t =>
      match part? part with
      | some p => t.answer .ok (liveAnswer (t.part p))
      | none => t.refuse .badValue) s

/-! ### Locks and READ_CACHE (R167, R181) -/

/-- CACHE_LOCK of a location in range (R167). -/
def State.lockLocation (s : State) (location : Nat) : State :=
  match s.slotOf location with
  | none => s.refuse .wrongState
  | some c =>
    if (s.cache c).lock then s.answer .ok []
    else if s.lockedSlots < Config.lockLimit then (s.setCache c { s.cache c with lock := true }).answer .ok []
    else s.refuse .noSlot

/-- CACHE_LOCK (R167, R190): a mode byte other than 1 is refused here, 0 being CACHE_UNLOCK. -/
def execCacheLock (mode : Byte) (location : BitVec 16) (s : State) : Host.Outcome State Fault Refusal :=
  .next <| hostCommand (.cacheLock mode location)
    (fun t =>
      match location? location with
      | some l => if mode = 1 then t.lockLocation l else t.refuse .badValue
      | none => t.refuse .badValue) s

/-- CACHE_UNLOCK (R167). -/
def execCacheUnlock (location : BitVec 16) (s : State) : Host.Outcome State Fault Refusal :=
  .next <| hostCommand (.cacheUnlock location)
    (fun t =>
      match location? location with
      | some l =>
        match t.slotOf l with
        | some c => (t.setCache c { t.cache c with lock := false }).answer .ok []
        | none => t.answer .ok []
      | none => t.refuse .badValue) s

/-- READ_CACHE (R181). -/
def execReadCache (s : State) : Host.Outcome State Fault Refusal :=
  .next <| hostCommand .readCache (fun t => t.answer .ok (cacheAnswer t)) s

end Sys2Proof.Machine
end

