-- ==== Sys2Proof/Machine/Pitch.lean ====
section
/-! DEFINITION. The pitch engine: it keeps no state, and computes a channel's code from the records as they stand at the
write (R52 to R67). -/

namespace Sys2Proof.Machine

/-- What the pitch engine hands the refresh engine: the code, the trace of R54, and whether the drift sum was clamped (R64). -/
structure Computed where
  code : Code
  input : Nat
  segment : Option Nat
  fraction : Option Nat
  clamped : Bool
deriving DecidableEq, Repr

/-- The voice's part: its assignment's, else its last part, else part 0 (R53). -/
def VoiceRec.partNo (r : VoiceRec) : PartNo :=
  match r.asg with
  | some a => a.part
  | none => r.lastPart.getD 0

/-- Bend offset (R55). -/
def bendOffset (bend : Int) (range : Nat) : Int := (bend * range * 64).tdiv 8192

/-- Unison offset of index `j` in a stack of `u` voices (R33). -/
def unisonOffset (j u spread : Nat) : Int := j * spread - ((u : Int) - 1) * spread / 2

/-- The unison offset that applies to a voice: only with an assignment, and only while its part is in UNISON (R56). -/
def VoiceRec.unisonPitch (r : VoiceRec) (live : Patch) : Int :=
  match r.asg, live.voiceMode with
  | some a, .unison => unisonOffset a.unison live.unisonCount live.unisonSpread
  | _, _ => 0

/-- A pitch clamped to 0..8191 (R57, R59, R60). -/
def clampPitch (x : Int) : Nat := (clampInt 0 8191 x).toNat

/-- Pitch A (R57). -/
def pitchA (r : VoiceRec) (p : Part) : Nat :=
  clampPitch (r.pitch + bendOffset p.bend p.live.bendRange + p.fineTune + r.unisonPitch p.live)

/-- VCO-B interval in semitones, from P1 (R58). -/
def interval (p1 : Nat) : Int := min 48 (p1 / 84) - 24

/-- VCO-B detune in pu, from P2 (R58). -/
def detune (p2 : Nat) : Int := ((p2 : Int) - 2048) / 32

/-- Pitch B, built on the clamped pitch A (R59). -/
def pitchB (r : VoiceRec) (p : Part) : Nat :=
  clampPitch (pitchA r p + 64 * interval (p.live.param 1) + detune (p.live.param 2))

/-- Key tracking of the cutoff (R60). -/
def track (p4 g : Nat) : Int := ((p4 : Int) * ((g : Int) - 3840) + 2048) / 4096

/-- Cutoff pitch (R60). -/
def cutoffPitch (r : VoiceRec) (p : Part) : Nat :=
  clampPitch (2 * p.live.param 3 + track (p.live.param 4) r.pitch)

/-- The code interpolated for a pitch over twelve breakpoint codes (R62). -/
def interpolate (codes : Vector Code 12) (pitch : Nat) : Int :=
  let i := pitch / 768
  let f := pitch % 768
  let c0 : Int := (tableAt codes i 0).toNat
  let c1 : Int := (tableAt codes (i + 1) 0).toNat
  c0 + ((c1 - c0) * f + 384) / 768

/-- A tuned destination's code: interpolated, with drift added and the sum clamped (R61 to R64). -/
def tunedCode (codes : Vector Code 12) (pitch : Nat) (drift : Int) : Computed :=
  let sum := interpolate codes pitch + drift
  { code := toCode sum, input := pitch, segment := some (pitch / 768), fraction := some (pitch % 768),
    clamped := decide (sum < 0 ∨ 65535 < sum) }

/-- A value 0..4095 scaled to a code (R65, R67). -/
def scaled (v : Nat) : Computed := ⟨toCode (16 * v + v / 256), v, none, none, false⟩

/-- The velocity channel (R66). -/
def velocityCode (asg : Option Assignment) : Computed :=
  match asg with
  | some a => ⟨toCode (a.velocity * 516), a.velocity, none, none, false⟩
  | none => ⟨0, 0, none, none, false⟩

/-- The parameter P(2 + d) that direct destination d = 3..22 carries (R65). -/
def directParam (d : DestNo) : Fin 25 := ⟨(2 + d.val) % 25, Nat.mod_lt _ (by decide)⟩

/-- The code of destination `d` of voice `v` from the state as it stands (R52). Destination 2 takes the interpolated code as
it is: no drift is added (R60, R63). -/
def voiceCode (s : State) (v : Voice) (d : DestNo) : Computed :=
  let r := s.voice v
  let p := s.part r.partNo
  if d = 0 then tunedCode (s.cal v .a).codes (pitchA r p) r.driftA.applied
  else if d = 1 then tunedCode (s.cal v .b).codes (pitchB r p) r.driftB.applied
  else if d = 2 then tunedCode (s.cal v .cutoff).codes (cutoffPitch r p) 0
  else if d = 23 then velocityCode r.asg
  else scaled (p.live.param (directParam d))

end Sys2Proof.Machine
end

