-- ==== Sys2Proof/Machine/Refresh.lean ====
section
/-! DEFINITION. The refresh engine: channel writes, round completion with drift gearing, and the monitor (R70 to R82). -/

namespace Sys2Proof.Machine

/-! ### Channels (1.6, R70) -/

/-- What a channel number stands for: 24 destinations of each voice, then MOD and PEDAL. -/
def channelOf (c : Fin 386) : MonSel :=
  if h : c.val < 384 then .voice ⟨c.val / 24, by omega⟩ ⟨c.val % 24, Nat.mod_lt _ (by decide)⟩
  else if c.val = 384 then .mod else .pedal

/-- The override code of a channel; the global channels have none (R72). -/
def State.overrideOf (s : State) : MonSel → Option Code
  | .voice v d => s.overrideAt v d
  | .mod => none
  | .pedal => none

/-- What the pitch engine computes for a channel (R52, R67). -/
def State.computed (s : State) : MonSel → Computed
  | .voice v d => voiceCode s v d
  | .mod => scaled s.panel.modValue.toNat
  | .pedal => scaled s.panel.pedalValue.toNat

/-- The facts of a write (R80). -/
def State.factsOf (s : State) (m : MonSel) : MonFacts :=
  match s.overrideOf m with
  | some code => ⟨code, .override, none, none, none, s.refresh.round⟩
  | none =>
    let x := s.computed m
    ⟨x.code, .computed, some x.input, x.segment, x.fraction, s.refresh.round⟩

/-- What a write tells the other blocks: the channel-written report, or a CLAMP post (R64, R73). -/
def State.reportWrite (s : State) (m : MonSel) : State :=
  match m with
  | .voice v d =>
    match s.overrideAt v d with
    | some code => s.channelWritten v d code
    | none => if (voiceCode s v d).clamped then s.postClamp v else s
  | .mod => s
  | .pedal => s

/-- The write of a channel (R71, R73, R80). -/
def State.writeChannel (s : State) (c : Fin 386) : State :=
  let m := channelOf c
  let f := s.factsOf m
  let s1 := { s with refresh := { s.refresh with
    outChannel := c, outCode := f.code, facts := if s.refresh.sel = m then some f else s.refresh.facts } }
  s1.reportWrite m

/-- The round position after `c` (R70). -/
def nextPos (c : Fin 386) : Fin 386 := if h : c.val + 1 < 386 then ⟨c.val + 1, h⟩ else 0

/-! ### Round completion (R74, R75) -/

/-- One gearing step of an applied drift, for a voice that is SOUNDING or not (R75). -/
def Drift.gear (x : Drift) (sounding : Bool) (step : Nat) : Drift :=
  if sounding && decide ((step : Int) < (x.target - x.applied).natAbs) then
    { x with applied := x.applied + signOf (x.target - x.applied) * step }
  else { x with applied := x.target }

/-- A voice record after a round completion (R75). -/
def VoiceRec.gear (r : VoiceRec) (step : Nat) : VoiceRec :=
  { r with driftA := r.driftA.gear (r.state == .sounding) step, driftB := r.driftB.gear (r.state == .sounding) step }

/-- A round completion (R74). -/
def State.completeRound (s : State) : State :=
  { s with
    voices := Vector.ofFn fun v : Fin 16 => (s.voice v).gear s.settings.gearStep
    refresh := { s.refresh with round := s.refresh.round + 1, completionDue := false } }

/-- The completion still due, if any, is taken (R74). -/
def State.settleRound (s : State) : State := if s.refresh.completionDue then s.completeRound else s

/-! ### Events and commands -/

/-- CHANNEL_SLOT_EXPIRY (R70, R71): a completion still due comes before the write of channel 0. -/
def execChannelSlotExpiry (s : State) : Host.Outcome State Fault Refusal :=
  let s1 := s.settleRound
  let c := s1.refresh.pos
  let s2 := s1.writeChannel c
  .next { s2 with refresh := { s2.refresh with pos := nextPos c, completionDue := decide (c.val = 385) } }

/-- ROUND_COMPLETION (R74, R75), where the write of channel 385 has made it due (log entry 2). -/
def execRoundCompletion (s : State) : Host.Outcome State Fault Refusal := .next s.settleRound

/-- SET_MONITOR (R79). -/
def execSetMonitor (selector dest : Byte) (s : State) : Host.Outcome State Fault Refusal :=
  .next <| hostCommand (.setMonitor selector dest)
    (fun t =>
      match monSel? selector dest with
      | some m => ({ t with refresh := { t.refresh with sel := m, facts := none } }).answer .ok []
      | none => t.refuse .badValue) s

/-- READ_MONITOR (R81). -/
def execReadMonitor (s : State) : Host.Outcome State Fault Refusal :=
  .next <| hostCommand .readMonitor (fun t => t.answer .ok (monitorAnswer t)) s

end Sys2Proof.Machine
end

