-- ==== Sys2Proof/Machine/Slots.lean ====
section
/-! DEFINITION. The slot monitor: detect lines and debounce, removal, card power and readiness (R83 to R94). -/

namespace Sys2Proof.Machine

/-! ### Power (R88 to R91) -/

/-- The slot enters POWERING (R88). -/
def State.enterPowering (s : State) (k : CardNo) : State :=
  s.modCard k fun c =>
    { c with state := .powering, power := true, readyTimer := Config.readyFrames, cause := .none }

/-- A destination of the voice is STALE or NOMINAL (R89). -/
def State.needsTuning (s : State) (v : Voice) : Bool :=
  tunedAll.any fun d => (s.cal v d).status == .stale || (s.cal v d).status == .nominal

/-- The slot becomes POWERED (R89). -/
def State.enterPowered (s : State) (k : CardNo) : State :=
  let s1 := (s.modCard k fun c => { c with state := .powered }).postCard k
  let vs := if s1.settings.autoTune then (voicesOf k).filter s1.needsTuning else []
  (s1.slotUp k vs).autoTune vs

/-- The slot enters POWER_FAULT (R90). -/
def State.enterFault (s : State) (k : CardNo) (why : FaultCause) : State :=
  let s1 := s.modCard k fun c => { c with power := false, cause := why }
  let s2 := if (s.card k).state = .powered then s1.slotDown k else s1
  (s2.modCard k fun c => { c with state := .powerFault }).postCard k

/-- A CALIBRATED or PARTIAL destination becomes STALE (R91). -/
def CalEntry.markStale (e : CalEntry) : CalEntry :=
  { e with status := if e.status.checkable then .stale else e.status }

/-- The card-gone of a slot, as the tune controller takes it (R91). -/
def State.cardGone (s : State) (k : CardNo) : State :=
  (voicesOf k).foldl
    (fun (t : State) v =>
      let r := t.calRecord v
      t.setCalRecord v ⟨r.a.markStale, r.b.markStale, r.cutoff.markStale⟩) s

/-! ### Detect lines (R84 to R87) -/

/-- An insertion taken (R85). -/
def State.insertion (s : State) (k : CardNo) : State :=
  let s1 := (s.modCard k fun c => { c with state := .seated, removalPending := false }).postCard k
  if s1.settings.autoPower then s1.enterPowering k else s1

/-- The detect lines closed in the settled reading. -/
def Card.closed (c : Card) : Nat := c.settledLeft.toNat + c.settledRight.toNat

/-- A debounce is taken: the raw reading settles and the slot moves (R84, R85, R87). -/
def State.takeDebounce (s : State) (k : CardNo) : State :=
  let s1 := s.modCard k fun c => { c with settledLeft := c.rawLeft, settledRight := c.rawRight, debounce := 0 }
  let c := s1.card k
  if c.removalPending then
    match c.closed with
    | 0 => s1.modCard k fun c => { c with state := .empty, removalPending := false }
    | 1 => s1.modCard k fun c => { c with state := .half, removalPending := false }
    | _ => s1.insertion k
  else
    match c.state with
    | .empty | .half =>
      match c.closed with
      | 0 => s1.modCard k fun c => { c with state := .empty }
      | 1 => s1.modCard k fun c => { c with state := .half }
      | _ => s1.insertion k
    | .seated | .powering | .powered | .powerFault => s1

/-- The states from which an opening edge removes the card (R86). -/
def CardState.seatedOrLater : CardState → Bool
  | .seated | .powering | .powered | .powerFault => true
  | .empty | .half => false

/-- A removal (R86). -/
def State.removeCard (s : State) (k : CardNo) : State :=
  let s1 := s.modCard k fun c => { c with power := false, readyTimer := 0 }
  let s2 := if (s.card k).state = .powered then s1.slotDown k else s1
  ((s2.cardGone k).modCard k fun c => { c with state := .seated, removalPending := true }).postCard k

/-- A detect line as last changed. -/
def Card.raw (c : Card) : DetectLine → Bool
  | .left => c.rawLeft
  | .right => c.rawRight

/-- The raw reading after an edge, with the debounce restarted (R84). -/
def Card.edge (c : Card) (line : DetectLine) (closed : Bool) : Card :=
  match line with
  | .left => { c with rawLeft := closed, debounce := Config.debounceFrames }
  | .right => { c with rawRight := closed, debounce := Config.debounceFrames }

/-! ### Events -/

/-- DETECT_EDGE (R84, R86). A level that the line already has is no edge. -/
def execDetectEdge (slot : CardNo) (line : DetectLine) (closed : Bool) (s : State) : Host.Outcome State Fault Refusal :=
  .next <|
    if (s.card slot).raw line = closed then s
    else
      let s1 := s.modCard slot fun c => c.edge line closed
      if !closed && (s.card slot).state.seatedOrLater && !(s.card slot).removalPending then s1.removeCard slot else s1

/-- One slot's debounce frame (R84). -/
def State.debounceFrame (s : State) (k : CardNo) : State :=
  match (s.card k).debounce with
  | 0 => s
  | 1 => s.takeDebounce k
  | n => s.modCard k fun c => { c with debounce := n - 1 }

/-- The ready input of a slot that is POWERING or POWERED at this expiry is read (R88, R90). -/
def State.readReady (s : State) (k : CardNo) (level : Bool) : State :=
  let s1 := s.modCard k fun c => { c with readySeen := level }
  match (s.card k).state with
  | .powering =>
    if level then s1.enterPowered k
    else
      let s2 := s1.modCard k fun c => { c with readyTimer := c.readyTimer - 1 }
      if (s2.card k).readyTimer = 0 then s2.enterFault k .readyTimeout else s2
  | .powered => if level then s1 else s1.enterFault k .readyLost
  | .empty | .half | .seated | .powerFault => s

/-- One slot's share of an expiry (R84, R88). A slot that enters POWERING in it has its ready input first read at the next. -/
def State.slotFrame (ready : BitVec 4) (s : State) (k : CardNo) : State :=
  let s1 := s.debounceFrame k
  match (s.card k).state with
  | .powering | .powered => s1.readReady k (ready.getLsbD k.val)
  | .empty | .half | .seated | .powerFault => s1

/-- SLOT_FRAME_EXPIRY (R84, R88). -/
def execSlotFrameExpiry (ready : BitVec 4) (s : State) : Host.Outcome State Fault Refusal :=
  .next (allCards.foldl (State.slotFrame ready) s)

/-- DEBOUNCE_TAKEN: the end of a debounce whose count stands at its last frame (R85, R87; log entry 2). -/
def execDebounceTaken (slot : CardNo) (s : State) : Host.Outcome State Fault Refusal :=
  .next (if (s.card slot).debounce = 1 then s.takeDebounce slot else s)

/-- READY_TIMEOUT: the ready input read low with the ready timer at its last frame (R88, R90; log entry 2). -/
def execReadyTimeout (slot : CardNo) (s : State) : Host.Outcome State Fault Refusal :=
  .next <|
    if (s.card slot).state = .powering ∧ (s.card slot).readyTimer ≤ 1 then s.readReady slot false else s

/-! ### Commands (R92, R94) -/

/-- CARD_POWER on, none where it is refused (R92). -/
def State.cardOn (s : State) (k : CardNo) : Option State :=
  match (s.card k).state with
  | .empty | .half => none
  | .seated => if (s.card k).removalPending then none else some (s.enterPowering k)
  | .powering | .powered => some s
  | .powerFault => some (s.enterPowering k)

/-- CARD_POWER off (R92). -/
def State.cardOff (s : State) (k : CardNo) : State :=
  match (s.card k).state with
  | .empty | .half | .seated => s
  | .powering => s.modCard k fun c => { c with power := false, readyTimer := 0, state := .seated }
  | .powered =>
    ((s.modCard k fun c => { c with power := false }).slotDown k).modCard k fun c => { c with state := .seated }
  | .powerFault => s.modCard k fun c => { c with state := .seated }

/-- CARD_POWER (R92). -/
def execCardPower (slot power : Byte) (s : State) : Host.Outcome State Fault Refusal :=
  .next <| hostCommand (.cardPower slot power)
    (fun t =>
      match card? slot, flag? power with
      | some k, some true =>
        match t.cardOn k with
        | some u => u.answer .ok []
        | none => t.refuse .wrongState
      | some k, some false => (t.cardOff k).answer .ok []
      | _, _ => t.refuse .badValue) s

/-- READ_CARDS (R94). -/
def execReadCards (s : State) : Host.Outcome State Fault Refusal :=
  .next <| hostCommand .readCards (fun t => t.answer .ok (cardsAnswer t)) s

end Sys2Proof.Machine
end

