-- ==== Sys2Proof/Machine/Dispatch.lean ====
section
/-! DEFINITION. The meaning of every command, arm by arm. -/

namespace Sys2Proof.Machine

/-- A command's effect on everything but the queue. -/
def exec (i : Instr) (s : State) : Host.Outcome State Fault Refusal :=
  match i with
  | .powerOnReset detect => Sys2Proof.Machine.execPowerOnReset detect s
  | .requestFrame bytes => Sys2Proof.Machine.execRequestFrame bytes s
  | .emptyTransaction => Sys2Proof.Machine.execEmptyTransaction s
  | .responseFetch clocked => Sys2Proof.Machine.execResponseFetch clocked s
  | .play events => Sys2Proof.Machine.execPlay events s
  | .keyOn channel key velocity => Sys2Proof.Machine.execKeyOn channel key velocity s
  | .keyOff channel key => Sys2Proof.Machine.execKeyOff channel key s
  | .sustain part position => Sys2Proof.Machine.execSustain part position s
  | .bend part value => Sys2Proof.Machine.execBend part value s
  | .allOff part => Sys2Proof.Machine.execAllOff part s
  | .allocatorFrameExpiry => Sys2Proof.Machine.execAllocatorFrameExpiry s
  | .stealGapEnd v => Sys2Proof.Machine.execStealGapEnd v s
  | .releaseTailEnd v => Sys2Proof.Machine.execReleaseTailEnd v s
  | .glideEnd v => Sys2Proof.Machine.execGlideEnd v s
  | .intervalTimerExpiry => Sys2Proof.Machine.execIntervalTimerExpiry s
  | .setZone zone enabled source lowKey highKey lowVel highVel part transpose => Sys2Proof.Machine.execSetZone zone enabled source lowKey highKey lowVel highVel part transpose s
  | .readZone zone => Sys2Proof.Machine.execReadZone zone s
  | .setPart part reserve fineTune panelBend => Sys2Proof.Machine.execSetPart part reserve fineTune panelBend s
  | .readPart part => Sys2Proof.Machine.execReadPart part s
  | .readVoice voice => Sys2Proof.Machine.execReadVoice voice s
  | .voiceOnline voice => Sys2Proof.Machine.execVoiceOnline voice s
  | .voiceOffline voice => Sys2Proof.Machine.execVoiceOffline voice s
  | .releaseQuarantine voice => Sys2Proof.Machine.execReleaseQuarantine voice s
  | .clearFails voice => Sys2Proof.Machine.execClearFails voice s
  | .tune voices dests force => Sys2Proof.Machine.execTune voices dests force s
  | .tuneAbort => Sys2Proof.Machine.execTuneAbort s
  | .readTune => Sys2Proof.Machine.execReadTune s
  | .setTunePlan pitchLo pitchHi cutoffLo cutoffHi => Sys2Proof.Machine.execSetTunePlan pitchLo pitchHi cutoffLo cutoffHi s
  | .readCal voice => Sys2Proof.Machine.execReadCal voice s
  | .writeCal voice record => Sys2Proof.Machine.execWriteCal voice record s
  | .setMonitor selector dest => Sys2Proof.Machine.execSetMonitor selector dest s
  | .readMonitor => Sys2Proof.Machine.execReadMonitor s
  | .cardPower slot power => Sys2Proof.Machine.execCardPower slot power s
  | .readCards => Sys2Proof.Machine.execReadCards s
  | .setChannel channel role mode notify => Sys2Proof.Machine.execSetChannel channel role mode notify s
  | .readChannel channel => Sys2Proof.Machine.execReadChannel channel s
  | .setFocus part => Sys2Proof.Machine.execSetFocus part s
  | .setPanel shift deadband => Sys2Proof.Machine.execSetPanel shift deadband s
  | .readChanges maximum => Sys2Proof.Machine.execReadChanges maximum s
  | .recallPart part location => Sys2Proof.Machine.execRecall part location s
  | .store part location => Sys2Proof.Machine.execStore part location s
  | .writeParam part field value => Sys2Proof.Machine.execWriteParam part field value s
  | .readLive part => Sys2Proof.Machine.execReadLive part s
  | .cacheLock mode location => Sys2Proof.Machine.execCacheLock mode location s
  | .cacheUnlock location => Sys2Proof.Machine.execCacheUnlock location s
  | .readCache => Sys2Proof.Machine.execReadCache s
  | .readNotices => Sys2Proof.Machine.execReadNotices s
  | .ackNotices mode fields => Sys2Proof.Machine.execAckNotices mode fields s
  | .ackNoticesSetEnables kinds => Sys2Proof.Machine.execAckNoticesSetEnables kinds s
  | .readDevice => Sys2Proof.Machine.execReadDevice s
  | .setDevice number value => Sys2Proof.Machine.execSetDevice number value s
  | .softReset => Sys2Proof.Machine.execSoftReset s
  | .channelSlotExpiry => Sys2Proof.Machine.execChannelSlotExpiry s
  | .roundCompletion => Sys2Proof.Machine.execRoundCompletion s
  | .detectEdge slot line closed => Sys2Proof.Machine.execDetectEdge slot line closed s
  | .slotFrameExpiry ready => Sys2Proof.Machine.execSlotFrameExpiry ready s
  | .debounceTaken slot => Sys2Proof.Machine.execDebounceTaken slot s
  | .readyTimeout slot => Sys2Proof.Machine.execReadyTimeout slot s
  | .tuneFrameExpiry => Sys2Proof.Machine.execTuneFrameExpiry s
  | .settleEnd => Sys2Proof.Machine.execSettleEnd s
  | .tuneLineEdge elapsed => Sys2Proof.Machine.execTuneLineEdge elapsed s
  | .measurementComplete m => Sys2Proof.Machine.execMeasurementComplete m s
  | .noSignal => Sys2Proof.Machine.execNoSignal s
  | .tooSlow => Sys2Proof.Machine.execTooSlow s
  | .scanSlotExpiry adc => Sys2Proof.Machine.execScanSlotExpiry adc s
  | .storelinkFrameExpiry status => Sys2Proof.Machine.execStorelinkFrameExpiry status s
  | .flashTimeout => Sys2Proof.Machine.execFlashTimeout s
  | .fetchReadComplete bytes => Sys2Proof.Machine.execFetchReadComplete bytes s
  | .verifyComplete bytes => Sys2Proof.Machine.execVerifyComplete bytes s
  | .chipSelectFall => Sys2Proof.Machine.execChipSelectFall s

end Sys2Proof.Machine
end

