-- ==== Sys2Proof/Machine/Step.lean ====
section
/-! DEFINITION. One step of the block: the command at the front of the queue, or one REFCLK tick on an empty queue. -/

namespace Sys2Proof.Machine

/-- A state whose queue's front has been taken. -/
def State.withPending (s : State) (cs : List Instr) : State := { s with pending := cs }

/-- One step: the command at the front of the queue runs on the state with the queue's rest. On an empty queue the block idles,
and the one clock it keeps outside its expiries, the measurement unit's, ticks once (DESIGN CHOICE, log entry 6). -/
def step (s : State) : Host.Outcome State Fault Refusal :=
  match s.pending with
  | [] => .next s.tick
  | c :: cs => exec c (s.withPending cs)

/-- The state with the command that a word spells put at the front of its queue; no row of the table gives bits, so no word
spells one. -/
def State.withFetchWord (s : State) (nbits w : Nat) : State :=
  match decodeTableWord nbits w with
  | some c => s.withPending (c :: s.pending)
  | none => s

end Sys2Proof.Machine
end

