-- ==== Sys2Proof/Safety.lean ====
section
/-! DEFINITION. The terms that the statements use: completion, the answer placed at the port, and what holds in every state
that a run reaches. -/

namespace Sys2Proof.Machine

/-! ### Outcomes -/

/-- The command answers a next state, and `f` holds of it. -/
def ends (c : Instr) (s : State) (f : State → Prop) : Prop := ∃ t, exec c s = .next t ∧ f t

/-- The port of `s` with an answer placed (R187). -/
def State.answered (s : State) (status : Status) (payload : List Byte) : Port :=
  { s.port with
    state := .answerPending, request := [], taken := 0, applied := 0, ignored := 0, response := some ⟨status, payload⟩ }

/-- `s` with an answer placed and nothing else changed: what a refusal does (R189). -/
def State.onlyAnswered (s : State) (status : Status) (payload : List Byte) : State :=
  { s with port := s.answered status payload }

/-- A state with no PLAY in hand: a key event then acts alone (log entry 1). -/
def State.noPlay (s : State) : Prop := s.playRest = none

/-! ### The choice of a voice (R28, R29) -/

/-- The age of a voice's last-free stamp. -/
def State.freeAge (s : State) (v : Voice) : Nat := (s.stamp - (s.voice v).lastFree).toNat

/-- The age of a voice's assignment stamp. -/
def State.keyAge (s : State) (v : Voice) : Nat := (s.stamp - (s.voice v).asgStamp).toNat

/-- The stamps that a choice of voices compares lie within half the counter's range, so that R22's comparison orders them. -/
def State.stampsClose (s : State) : Prop :=
  (∀ v : Voice, (s.voice v).state = .idle ∨ (s.voice v).state = .retuning → s.freeAge v < 2 ^ 31)
    ∧ ∀ v : Voice, (s.voice v).asg.isSome → s.keyAge v < 2 ^ 31

/-- A voice that is neither tune-pending nor offline-pending. -/
def VoiceRec.unmarked (r : VoiceRec) : Prop := r.tunePending = false ∧ r.offlinePending = false

/-- A RELEASING voice of R28's third tier. -/
def VoiceRec.tailing (r : VoiceRec) : Prop := r.state = .releasing ∧ r.unmarked

/-- A candidate of the free-voice step, in whichever tier (R28). -/
def VoiceRec.free (r : VoiceRec) : Prop := r.state = .idle ∨ r.tailing ∨ r.state = .retuning

/-- Voice `v` is the one that R28 chooses for a note: the first tier that holds a candidate, and the oldest stamp in it. -/
def State.choosesFree (s : State) (note : Nat) (v : Voice) : Prop :=
  ((s.voice v).state = .idle
      ∧ ((∃ w, (s.voice w).state = .idle ∧ (s.voice w).lastNote = some note) → (s.voice v).lastNote = some note)
      ∧ ∀ w, (s.voice w).state = .idle → ((s.voice w).lastNote = some note ↔ (s.voice v).lastNote = some note) →
        s.freeAge w ≤ s.freeAge v)
    ∨ ((∀ w, (s.voice w).state ≠ .idle) ∧ (s.voice v).tailing ∧ ∀ w, (s.voice w).tailing → s.keyAge w ≤ s.keyAge v)
    ∨ ((∀ w, (s.voice w).state ≠ .idle) ∧ (∀ w, ¬ (s.voice w).tailing) ∧ (s.voice v).state = .retuning
      ∧ ∀ w, (s.voice w).state = .retuning → s.freeAge w ≤ s.freeAge v)

/-- A candidate of the steal step for part `p` (R29): a SOUNDING voice, of a part above its reserve while `p` is below its limit,
else of `p` itself. -/
def State.stealable (s : State) (p : PartNo) (limit : Nat) (v : Voice) : Prop :=
  (s.voice v).state = .sounding ∧ (s.voice v).unmarked
    ∧ ∃ a, (s.voice v).asg = some a ∧ (s.count p < limit → (s.part a.part).reserve < s.count a.part)
      ∧ (limit ≤ s.count p → a.part = p)

/-- Voice `v` is the one that R29 steals: a sustained voice before the others, then the oldest assignment stamp. -/
def State.choosesSteal (s : State) (p : PartNo) (limit : Nat) (v : Voice) : Prop :=
  s.stealable p limit v
    ∧ ((∃ w, s.stealable p limit w ∧ (s.voice w).isSustained = true) → (s.voice v).isSustained = true)
    ∧ ∀ w, s.stealable p limit w → (s.voice w).isSustained = (s.voice v).isSustained → s.keyAge w ≤ s.keyAge v

/-- From `s` to `t`, voice `v` takes the key `h` of part `p` by R25, with a unison index, the next stamp and a glide start (R26): by
the assignment that AssignmentFillsTheVoice describes, but for the part's counts and the count of free choices, and no other
voice changes. -/
def State.keyTaken (s t : State) (v : Voice) (p : PartNo) (h : HeldKey) (j : Nat) (g : GlideStart) : Prop :=
  t = { s.assign v p h j g with parts := t.parts, freePicks := t.freePicks }
    ∧ t.stamp = s.stamp + 1
    ∧ (t.voice v).asg = some ⟨p, h.zone, h.channel, h.key, h.note, h.velocity, s.stamp + 1, false, j⟩
    ∧ (t.voice v).target = 64 * h.note
    ∧ (if (s.voice v).state.counted = true ∧ s.settings.stealGap ≠ 0 then
        (t.voice v).state = .stealGap ∧ (t.voice v).gap = s.settings.stealGap
      else (t.voice v).state = .sounding)
    ∧ (∀ w, w ≠ v → t.voice w = s.voice w)
    ∧ (∀ q, q ≠ p → t.part q = s.part q) ∧ t.settings = s.settings

/-- From `s` to `t`, a key of part `p` is dropped: its drop count increments and nothing else changes (R30). -/
def State.keyDropped (s t : State) (p : PartNo) : Prop :=
  t = { s with parts := t.parts } ∧ (∀ q, q ≠ p → t.part q = s.part q)
    ∧ t.part p = { s.part p with drops := min 65535 ((s.part p).drops + 1) }

/-- From `s` to `t`, the steal step of R29 serves the key `h` of part `p`, or drops it where it finds no candidate (R30). -/
def State.keyStolen (s t : State) (p : PartNo) (h : HeldKey) (limit : Nat) (g : GlideStart) : Prop :=
  ((∃ v, s.stealable p limit v) → ∃ v, s.choosesSteal p limit v ∧ s.keyTaken t v p h 0 g
    ∧ t.part p = { s.part p with lastPitch := 64 * h.note, steals := min 65535 ((s.part p).steals + 1) })
    ∧ ((∀ v, ¬ s.stealable p limit v) → s.keyDropped t p)

/-- From `s` to `t`, the free-voice and steal steps serve the key `h` of part `p` under an effective limit (R28 to R30). -/
def State.keyServed (s t : State) (p : PartNo) (h : HeldKey) (limit : Nat) (g : GlideStart) : Prop :=
  (s.count p < limit → (∃ v, (s.voice v).free) → ∃ v, s.choosesFree h.note v ∧ s.keyTaken t v p h 0 g
    ∧ t.part p = { s.part p with lastPitch := 64 * h.note }
    ∧ ∀ c, s.tune.check = some c → c.voice = v → (s.voice v).state = .retuning → t.tune.check = none)
    ∧ (limit ≤ s.count p ∨ (∀ v, ¬ (s.voice v).free) → s.keyStolen t p h limit g)

/-- The voice is one of a part's voices (R24). -/
def State.serves (s : State) (p : PartNo) (v : Voice) : Prop :=
  ((s.voice v).state = .sounding ∨ (s.voice v).state = .stealGap) ∧ (s.voice v).asgPart = some p

/-! ### A UNISON stack (R33) -/

/-- A candidate of the steal step at a UNISON acquisition of part `p`, which leaves out the part's own voices (R29, R33). -/
def State.stealableOther (s : State) (p : PartNo) (u : Nat) (v : Voice) : Prop :=
  s.stealable p u v ∧ (s.voice v).asgPart ≠ some p

/-- The free-voice step finds a voice for part `p` under the limit `u` (R28). -/
def State.findsFree (s : State) (p : PartNo) (u : Nat) : Prop := s.count p < u ∧ ∃ v, (s.voice v).free

/-- From `s` to `t`, unison index `j` of part `p` is acquired for the key `e`: by the free-voice step, else by the steal step, which
counts as a steal of the part (R28, R29, R33). -/
def State.indexTaken (s t : State) (p : PartNo) (e : HeldKey) (j u : Nat) (g : GlideStart) : Prop :=
  (s.findsFree p u → ∃ v, s.choosesFree e.note v ∧ s.keyTaken t v p e j g
    ∧ t.part p = { s.part p with lastPitch := 64 * e.note })
    ∧ (¬ s.findsFree p u → ∃ v, s.stealableOther p u v
      ∧ ((∃ w, s.stealableOther p u w ∧ (s.voice w).isSustained = true) → (s.voice v).isSustained = true)
      ∧ (∀ w, s.stealableOther p u w → (s.voice w).isSustained = (s.voice v).isSustained → s.keyAge w ≤ s.keyAge v)
      ∧ s.keyTaken t v p e j g
      ∧ t.part p = { s.part p with lastPitch := 64 * e.note, steals := min 65535 ((s.part p).steals + 1) })

/-- From `s` to `t`, part `p` acquires voices for those of the unison indices listed that it does not hold, one after another,
until one finds no candidate (R33). -/
def State.stackFilled (p : PartNo) (e : HeldKey) (u : Nat) (g : GlideStart) : List Nat → State → State → Prop
  | [], s, t => t = s
  | j :: js, s, t =>
    let held : Prop := ∃ v, s.serves p v ∧ (s.voice v).unisonIndex = j
    let candidate : Prop := s.findsFree p u ∨ ∃ v, s.stealableOther p u v
    (held → State.stackFilled p e u g js s t)
      ∧ (¬ held → candidate → ∃ r, s.indexTaken r p e j u g ∧ State.stackFilled p e u g js r t)
      ∧ (¬ held → ¬ candidate → t = s)

/-! ### Key-ons and key-offs (R3, R7 to R9) -/

/-- `s` with the held-key list of part `p` replaced and nothing else changed. -/
def State.withKeys (s : State) (p : PartNo) (keys : List HeldKey) : State :=
  { s with parts := s.parts.set p { s.part p with held := keys } }

/-- From `s` to `t`, the list step of a key-on's pair (R7, R8): a present entry of the same source channel, key and zone moves to the
newest end with the new note and velocity; a list of sixteen first loses its oldest entry, whose key-off the allocator takes
before the new entry comes. -/
def State.keyListed (s t : State) (p : PartNo) (h : HeldKey) : Prop :=
  let mine (x : HeldKey) : Bool := x.channel == h.channel && x.key == h.key && x.zone == h.zone
  let keys := (s.part p).held
  (keys.any mine = true → t = s.withKeys p (keys.filter (fun x => !mine x) ++ [h]))
    ∧ (keys.any mine = false → keys.length < 16 → t = s.withKeys p (keys ++ [h]))
    ∧ ∀ oldest rest, keys.any mine = false → 16 ≤ keys.length → keys = oldest :: rest →
      t = ((s.withKeys p rest).allocKeyOff p oldest).withKeys p (rest ++ [h])

/-- From `s` to `t`, zone `z` takes a key-on: where it matches and the effective note lies in 0..127, its pair goes through the list
step and then the allocator's, the legato indication saying whether the list then holds another entry; else nothing changes
(R3, R7, R8). -/
def State.zoneTakes (channel key velocity : Nat) (z : ZoneNo) (s t : State) : Prop :=
  let r := s.zone z
  let note : Int := key + r.transpose
  let h : HeldKey := ⟨channel, key, note.toNat, z, velocity⟩
  let sends : Prop := r.enabled = true ∧ (r.source = none ∨ r.source = some channel) ∧ (r.lowKey ≤ key ∧ key ≤ r.highKey)
    ∧ (r.lowVel ≤ velocity ∧ velocity ≤ r.highVel) ∧ 0 ≤ note ∧ note ≤ 127
  (sends → ∃ u : State, s.keyListed u r.part h
    ∧ t = u.allocKeyOn r.part h (decide (2 ≤ (u.part r.part).held.length)))
    ∧ (¬ sends → t = s)

/-- From `s` to `t`, zones take a key-on one after another, each pair whole before the next (R3). -/
def State.zonesTake (channel key velocity : Nat) : List ZoneNo → State → State → Prop
  | [], s, t => t = s
  | z :: zs, s, t => ∃ u : State, State.zoneTakes channel key velocity z s u ∧ State.zonesTake channel key velocity zs u t

/-- `s` without the entries of a source channel and key, in all four held-key lists (R9). -/
def State.withoutKey (s : State) (channel key : Nat) : State :=
  { s with parts := Vector.ofFn fun p : Fin 4 =>
      { s.part p with held := (s.part p).held.filter fun h => !(h.channel == channel && h.key == key) } }

/-- The entries of a source channel and key with their parts, in ascending part order and within a part in ascending zone order
(R9). -/
def State.keyEntries (s : State) (channel key : Nat) : List (PartNo × HeldKey) :=
  ([0, 1, 2, 3] : List PartNo).flatMap fun p => ([0, 1, 2, 3, 4, 5, 6, 7] : List ZoneNo).flatMap fun z =>
    ((s.part p).held.filter fun h => h.channel == channel && h.key == key && h.zone == z).map fun h => (p, h)

/-! ### Arming (R149) -/

/-- From `s` to `t`, the PICKUP channels with a PARAMETER role among those picked are armed against a patch, and no other
channel's record changes (R149). -/
def State.armedIn (s t : State) (pick : ChannelNo → Prop) (live : Patch) : Prop :=
  ∀ c : ChannelNo,
    let r := s.channel c
    (∀ i, pick c → r.role = .parameter i → r.pickupMode = true →
      (r.initialised = true → t.channel c = { r with
        armPending := false
        pickup := if r.reported = live.params[i] then .live
          else if r.reported.toNat < (live.params[i]).toNat then .waitRise else .waitFall }) ∧
      (r.initialised = false → t.channel c = { r with armPending := true }))
    ∧ (¬ pick c ∨ (∀ i, r.role ≠ .parameter i) ∨ r.pickupMode = false → t.channel c = r)

/-! ### Re-seat, limit and re-home (R41 to R43) -/

/-- The stamps that a choice of voices compares stay within half the counter's range for `n` more stamps (R22). -/
def State.stampsWithin (s : State) (n : Nat) : Prop :=
  (∀ v : Voice, (s.voice v).state = .idle ∨ (s.voice v).state = .retuning → s.freeAge v + n < 2 ^ 31)
    ∧ ∀ v : Voice, (s.voice v).asg.isSome → s.keyAge v + n < 2 ^ 31

/-- From `s` to `t`, every voice that changes is at its target without a glide, as R26 gives for a re-seat and a re-home. -/
def State.withoutGlide (s t : State) : Prop :=
  ∀ v, t.voice v ≠ s.voice v → (t.voice v).pitch = (t.voice v).target ∧ (t.voice v).glide = 0

/-- In `t`, the voices of a set became IDLE one after another, in ascending voice number, from the stamp `n` on: each has the next
stamp as its last-free stamp, and the counter stands at the last one taken (R22). -/
def State.stampedFrom (t : State) (n : Stamp) (freed : Voice → Bool) : Prop :=
  t.stamp = n + BitVec.ofNat 32 (allVoices.filter freed).length
    ∧ ∀ v, freed v = true →
      (t.voice v).lastFree = n + 1 + BitVec.ofNat 32 (allVoices.filter fun w => freed w && decide (w.val < v.val)).length

/-- Voice `v` would be IDLE at its release: its part's tail is 0 frames, and neither pending flag is set (R34, R38). -/
def State.freedAtOnce (s : State) (v : Voice) : Bool :=
  match (s.voice v).asgPart with
  | some p => decide (((s.part p).live.params[(6 : Fin 25)]).toNat < 2) && !(s.voice v).tunePending && !(s.voice v).offlinePending
  | none => false

/-- Voice `v` is one of part `p`'s and would be IDLE at its release. -/
def State.servesBriefly (s : State) (p : PartNo) (v : Voice) : Bool :=
  (s.voice v).state.counted && decide ((s.voice v).asgPart = some p) && s.freedAtOnce v

/-- From `s` to `t`, voice `v` is released without regard to sustain, with a tail of its part's P6 (R34, R36). -/
def State.letGo (s t : State) (v : Voice) : Prop :=
  ∃ a, (s.voice v).asg = some a ∧ t.voice v = { s.voice v with
    state := .releasing, gap := 0, tail := ((s.part a.part).live.params[(6 : Fin 25)]).toNat / 2
    asg := some { a with sustained := false } }

/-- From `s` to `t`, voice `v`, which was RELEASING or became so with a tail of 0, drops its assignment and goes where its pending
flags say, a new last-free stamp coming with IDLE (R34, R38). Its gap count is then 0 (log entry 5). -/
def State.tailOver (s t : State) (v : Voice) : Prop :=
  let r := s.voice v
  let gone : VoiceRec := { r with asg := none, glide := 0, tail := 0, gap := 0 }
  (r.tunePending = true → t.voice v = { gone with state := .calibrating, tunePending := false })
    ∧ (r.tunePending = false → r.offlinePending = true →
      t.voice v = { gone with state := .offline, offlinePending := false })
    ∧ (r.tunePending = false → r.offlinePending = false →
      t.voice v = { gone with state := .idle, idle := 0, lastFree := (t.voice v).lastFree })

/-- From `s` to `t`, voice `v` is released without regard to sustain: it is RELEASING with its tail, or its tail of 0 frames is over
at once (R34, R36). -/
def State.noteEnded (s t : State) (v : Voice) : Prop :=
  ∀ a, (s.voice v).asg = some a →
    (2 ≤ ((s.part a.part).live.params[(6 : Fin 25)]).toNat → s.letGo t v)
      ∧ (((s.part a.part).live.params[(6 : Fin 25)]).toNat < 2 → s.tailOver t v)

/-- From `s` to `t`, a key-off reaches voice `v`, whose assignment is `a`, as it does a voice that carries the key in POLY and each
voice of the part at the last key-off of a MONO or UNISON part: with the sustain down a SOUNDING voice is marked sustained; else
it, and a STEAL_GAP voice in either case, is released; a RELEASING voice is unchanged (R34, R35). -/
def State.keyLetGo (s t : State) (v : Voice) (a : Assignment) : Prop :=
  let r := s.voice v
  let frames := ((s.part a.part).live.params[(6 : Fin 25)]).toNat / 2
  let down : Prop := (s.part a.part).sustain = true
  let goes : Prop := r.state = .stealGap ∨ r.state = .sounding ∧ ¬ down
  (r.state = .sounding → down → t.voice v = { r with asg := some { a with sustained := true } })
    ∧ (r.state ≠ .sounding → r.state ≠ .stealGap → t.voice v = r)
    ∧ (goes → frames ≠ 0 → t.voice v = { r with state := .releasing, gap := 0, tail := frames })
    ∧ (goes → frames = 0 → s.tailOver t v)

/-- From `s` to `t`, whose voices of part `p` were to be released, nothing but voices and stamps changes, and with a tail nothing but
voices; a tune-pending voice whose tail is 0 frames joins its pass, so the tune controller may change too (R34, R38, R109). -/
def State.onlyReleased (s t : State) (p : PartNo) : Prop :=
  let tailed : Prop := 2 ≤ ((s.part p).live.params[(6 : Fin 25)]).toNat
  t.parts = s.parts ∧ t.settings = s.settings ∧ t.tune.check = s.tune.check
    ∧ (tailed → t = { s with voices := t.voices })
    ∧ ((∀ v, s.serves p v → (s.voice v).tunePending = false) → t = { s with voices := t.voices, stamp := t.stamp })

/-- From `s` to `t`, the oldest of the voices of part `p` are released, oldest first, until its count is within its effective
limit, and nothing else changes (R22, R34, R36, R38, R42). -/
def State.excessReleased (s t : State) (p : PartNo) : Prop :=
  let released (v : Voice) : Prop := s.serves p v ∧ t.voice v ≠ s.voice v
  s.onlyReleased t p ∧ t.count p = min (s.count p) (s.limit p)
    ∧ (∀ v, t.voice v = s.voice v ∨ s.serves p v ∧ s.noteEnded t v)
    ∧ (∀ v w, released v → s.serves p w → t.voice w = s.voice w → s.keyAge w ≤ s.keyAge v)
    ∧ t.stamp = s.stamp + BitVec.ofNat 32 (allVoices.filter fun v =>
      s.servesBriefly p v && decide (t.voice v ≠ s.voice v)).length
    ∧ ∀ v w, released v → released w → s.servesBriefly p v = true → s.servesBriefly p w = true → s.keyAge w < s.keyAge v →
      ((t.voice v).lastFree - s.stamp).toNat < ((t.voice w).lastFree - s.stamp).toNat

/-- From `s` to `t`, held keys of part `p` are served one after another, without glide and without re-strike (R41). -/
def State.keysReplayed (p : PartNo) : List HeldKey → State → State → Prop
  | [], s, t => t = s
  | h :: hs, s, t => ∃ u, s.keyServed u p h (s.limit p) .none ∧ s.withoutGlide u ∧ State.keysReplayed p hs u t

/-- From `s` to `t`, part `p`, which has no voice, takes a stack of up to `u` voices for the key `e`, without glide: all of them
where enough voices are IDLE; none, and a drop, where no voice can be had (R33, R41). -/
def State.stackTaken (s t : State) (p : PartNo) (e : HeldKey) (u : Nat) : Prop :=
  (∀ v, t.voice v ≠ s.voice v → ∃ j stamp, j < u
      ∧ (t.voice v).asg = some ⟨p, e.zone, e.channel, e.key, e.note, e.velocity, stamp, false, j⟩
      ∧ (t.voice v).target = 64 * e.note)
    ∧ s.withoutGlide t
    ∧ (∀ v w, t.voice v ≠ s.voice v → t.voice w ≠ s.voice w → (t.voice v).unisonIndex = (t.voice w).unisonIndex → v = w)
    ∧ (u ≤ (allVoices.filter fun v => (s.voice v).state == .idle).length →
      t.count p = u ∧ ∀ v, t.voice v ≠ s.voice v → (s.voice v).state = .idle)
    ∧ ((∀ v, ¬ (s.voice v).free) → (∀ v, ¬ s.stealable p u v) → s.keyDropped t p)

/-- From `s`, which has the part's new patch, to `t`, part `p` is re-seated: its voices are released as for an all-off, in ascending
voice number, and its held keys are replayed in the new mode, without glide; a UNISON stack is taken index by index
(R33, R36, R38, R41). -/
def State.reseated (s t : State) (p : PartNo) : Prop :=
  ∃ r : State, s.onlyReleased r p
    ∧ (∀ v, (s.serves p v → s.noteEnded r v) ∧ (¬ s.serves p v → r.voice v = s.voice v))
    ∧ r.stampedFrom s.stamp (s.servesBriefly p)
    ∧ match (s.part p).live.voiceMode with
      | .poly => State.keysReplayed p (s.part p).held r t
      | .mono => (s.chosen p = none → t = r) ∧ ∀ e, s.chosen p = some e → r.keyServed t p e 1 .none ∧ r.withoutGlide t
      | .unison => (s.chosen p = none → t = r)
        ∧ ∀ e, s.chosen p = some e →
          let u := (s.part p).live.unisonCount
          r.stackTaken t p e u ∧ ∃ filled : State, State.stackFilled p e u .none (List.range u) r filled
            ∧ (filled.count p = 0 → filled.keyDropped t p) ∧ (filled.count p ≠ 0 → t = filled)

/-- From `s` to `t`, part `p` has taken the patch in its new record `q`: its record and the voices are as the allocator's hand-off
leaves them, which is a re-seat for another voice mode and else the release of the excess (R41, R42, R162, R175). -/
def State.patchTaken (s t : State) (p : PartNo) (q : Part) : Prop :=
  ∃ u : State, u.voices = s.voices ∧ u.stamp = s.stamp ∧ u.settings = s.settings ∧ u.part p = q
    ∧ (∀ r, r ≠ p → u.part r = s.part r)
    ∧ t.voices = (u.afterPatch p (s.part p).live.voiceMode).voices
    ∧ t.stamp = (u.afterPatch p (s.part p).live.voiceMode).stamp
    ∧ t.parts = (u.afterPatch p (s.part p).live.voiceMode).parts

/-- From `s` to `t`, the parts of a list take the patch `x` of location `l` one after another, each with what the patch does to its
voices (R174, R175, R177). -/
def State.patchesTaken (x : Patch) (l : Nat) : List PartNo → State → State → Prop
  | [], s, t => t.voices = s.voices ∧ t.stamp = s.stamp ∧ t.parts = s.parts
  | p :: ps, s, t => ∃ r : State, r.settings = s.settings
    ∧ s.patchTaken r p { s.part p with live := x, origin := some l, dirty := false, wanted := none, lastRecall := .ok }
    ∧ State.patchesTaken x l ps r t

/-- The parts whose wanted location is `l`, in ascending order. -/
def State.wanting (s : State) (l : Nat) : List PartNo := allParts.filter fun p => (s.part p).wanted == some l

/-- From `s` to `t`, the parts that want location `l` take the patch `x`: their records and voices, and the arming of the panel where
one of them has the focus (R149, R175). -/
def State.copiesMade (s t : State) (x : Patch) (l : Nat) : Prop :=
  State.patchesTaken x l (s.wanting l) s t
    ∧ ((s.part s.panel.focus).wanted = some l →
      t.panel = { s.panel with channels := t.panel.channels } ∧ s.armedIn t (fun _ => True) x)
    ∧ ((s.part s.panel.focus).wanted ≠ some l → t.panel = s.panel)

/-- From `s` to `t`, the key `h` of part `p` is offered once to the free-voice step, without glide: a voice takes it, or nothing
changes (R28, R43). -/
def State.keyOffered (s t : State) (p : PartNo) (h : HeldKey) (j limit : Nat) : Prop :=
  (s.count p < limit → (∃ v, (s.voice v).free) → ∃ v, s.choosesFree h.note v ∧ s.keyTaken t v p h j .none
    ∧ t.part p = { s.part p with lastPitch := 64 * h.note } ∧ s.withoutGlide t)
    ∧ (limit ≤ s.count p ∨ (∀ v, ¬ (s.voice v).free) → t = s)

/-- From `s` to `t`, the key of a lost assignment is re-homed: where its part's list still holds it, and in MONO and UNISON it is
the chosen key, it is offered once; else nothing changes (R43). -/
def State.keyReHomed (s t : State) (a : Assignment) : Prop :=
  let mine (h : HeldKey) : Prop :=
    h ∈ (s.part a.part).held ∧ h.zone = a.zone ∧ h.channel = a.channel ∧ h.key = a.key
  let chosen (h : HeldKey) : Prop := ∃ e, s.chosen a.part = some e ∧ e.same h = true
  let live := (s.part a.part).live
  ((∀ h, ¬ mine h) → t = s)
    ∧ ((∃ h, mine h) → ∃ h, mine h ∧ match live.voiceMode with
      | .poly => s.keyOffered t a.part h 0 live.voiceLimit
      | .mono => (chosen h → s.keyOffered t a.part h 0 1) ∧ (¬ chosen h → t = s)
      | .unison => (chosen h → s.keyOffered t a.part h a.unison live.unisonCount) ∧ (¬ chosen h → t = s))

/-- From `s` to `t`, lost keys are re-homed one after another (R43). -/
def State.keysReHomed : List Assignment → State → State → Prop
  | [], s, t => t = s
  | a :: as, s, t => ∃ u, s.keyReHomed u a ∧ State.keysReHomed as u t

/-- The assignments that the voices of a set lose with a claim to re-home them: of those in SOUNDING and STEAL_GAP, in ascending
voice number (R43). -/
def State.keysLost (s : State) (lost : Voice → Bool) : List Assignment :=
  (allVoices.filter lost).filterMap fun v => if (s.voice v).state.counted then (s.voice v).asg else none

/-! ### One slot's share of an expiry (R84) -/

/-- `s` with every slot but `k` EMPTY, its lines open and no debounce running. -/
def State.onlySlot (s : State) (k : CardNo) : State :=
  { s with cards := (Vector.replicate 4
      ⟨.empty, false, false, false, false, 0, false, false, 0, false, .none⟩).set k (s.card k) }

/-- From `s` to `t`, slot `k` has its share of an expiry: what the expiry does where no other slot has anything to do, the other
slots' records being kept (R84). -/
def State.slotShare (ready : BitVec 4) (s t : State) (k : CardNo) : Prop :=
  exec (.slotFrameExpiry ready) (s.onlySlot k) = .next (t.onlySlot k) ∧ ∀ j, j ≠ k → t.card j = s.card j

/-! ### The measurement unit (R99, R103, R104, R110, R111) -/

/-- From `s` to `t`, the measurement `m` begins: its window, its target count and its settle frames are those of the settings as they
stand, its code is on its channel as an override, and the tune line is its voice's output (R72, R99). -/
def State.measures (s t : State) (m : Measurement) : Prop :=
  let cycles : Nat := if s.settings.windowShift ≤ m.bp then 2 ^ (m.bp - s.settings.windowShift) else 1
  t.tune.unit = some m ∧ m.phase = .waitWrite ∧ m.window = cycles ∧ m.tg = s.settings.tRef * cycles / 2 ^ m.bp
    ∧ m.settle = s.settings.settleFrames ∧ t.overrideAt m.voice m.dest.number = some m.code
    ∧ t.tune.lineVoice = m.voice ∧ t.tune.lineDest = m.dest

/-- From `s` to `t`, the unit is granted to the pass, and the measurement of the trial of the destination in progress `x` begins
(R99, R104). -/
def State.grants (s t : State) (x : InService) : Prop :=
  t.tune.requestWaiting = false
    ∧ ∃ m, s.measures t m ∧ m.requester = .pass ∧ m.voice = x.voice ∧ m.dest = x.dest ∧ m.bp = x.work.bp
      ∧ m.code = x.work.trial

/-- From `s`, whose unit is `free` once its measurement has ended or been discarded, to `t`, the pass requests the unit for the trial
of the destination in progress `x`: granted at once where the unit is free, else waiting (R104). -/
def State.requests (s t : State) (x : InService) (free : Prop) : Prop :=
  t.tune.service = some x ∧ (free → s.grants t x) ∧ (¬ free → t.tune.unit = s.tune.unit ∧ t.tune.requestWaiting = true)

/-- From `s` to `t`, destination `d` of voice `v` begins in a pass, and its first trial requests the unit (R104, R110, R111). The
iteration is 1 from here on (the model's choice, log entry 36). -/
def State.destBegins (s t : State) (v : Voice) (d : Tuned) (free : Prop) : Prop :=
  let lo := match d with | .cutoff => s.tune.plan.cutoffLo | .a | .b => s.tune.plan.pitchLo
  let hi := match d with | .cutoff => s.tune.plan.cutoffHi | .a | .b => s.tune.plan.pitchHi
  s.requests t ⟨v, d, ⟨(s.cal v d).codes, Vector.replicate 12 none, lo, hi, lo, 1, tableAt (s.cal v d).codes lo 0⟩⟩ free
    ∧ (t.entry v).sum d = ⟨.inProgress, .none, 0⟩ ∧ (d = .cutoff → t.overrideAt v 3 = some 0xFFFF)

/-- From `s` to `t`, the check in hand of voice `v`, if it is its, is abandoned with its measurement and its override, and the unit
goes to a pass request that waits; else the tune controller and the overrides stay as they are (R25, R103, R104, R133). -/
def State.abandons (s t : State) (v : Voice) : Prop :=
  (∀ c, s.tune.check = some c → c.voice = v → t.tune.check = none
    ∧ (s.tune.requestWaiting = false ∨ s.tune.service = none →
      t.tune = { s.tune with check := none, unit := none } ∧ t.overrideAt v c.dest.tuned.number = none)
    ∧ ∀ x, s.tune.requestWaiting = true → s.tune.service = some x → s.grants t x ∧ t.tune.service = some x
      ∧ (x.voice ≠ v ∨ x.dest ≠ c.dest.tuned → t.overrideAt v c.dest.tuned.number = none))
    ∧ ((∀ c, s.tune.check = some c → c.voice ≠ v) →
      s.tune.requestWaiting = false ∨ s.tune.service = none ∨ s.tune.unit ≠ none → t.tune = s.tune ∧ t.refresh = s.refresh)

/-! ### Entries and reasons of a TUNE (R107) -/

/-- In `t`, voice `v` has an entry with the destination set of a TUNE, none of its destinations started but, where it is in service, the
first (R107, R110). -/
def State.entered (t : State) (v : Voice) (x : EntryState) (dests : Byte) (first : Tuned) : Prop :=
  let e := t.entry v
  e.state = x ∧ e.reason = .none
    ∧ e.inA = dests.getLsbD 0 ∧ e.inB = dests.getLsbD 1 ∧ e.inCutoff = dests.getLsbD 2
    ∧ ∀ d, x ≠ .inService ∨ d ≠ first → e.sum d = ⟨.notStarted, .none, 0⟩

/-- Why a TUNE skips a voice: its state, and at a key the offline-pending flag (R46, R107). -/
def State.skipReason (s : State) (v : Voice) : EntryReason :=
  match (s.voice v).state with
  | .absent => .absent
  | .offline => .offline
  | .quarantined => .quarantined
  | .idle | .retuning | .calibrating | .sounding | .releasing | .stealGap => .offlinePending

/-- The sixteen reasons of a TUNE's answer, V0 first: 1 for ABSENT, 2 for OFFLINE, 3 for QUARANTINED and 4 for OFFLINE_PENDING, and 0
for a voice that is not skipped (R107, 10.5). That there are sixteen is the model's reading (log entry 14). -/
def State.skipReasons (s : State) (skipped : BitVec 16) : List Byte :=
  allVoices.map fun v => if skipped.getLsbD v.val then
    (match s.skipReason v with
      | .absent => 1
      | .offline => 2
      | .quarantined => 3
      | .offlinePending => 4
      | .none | .lost | .aborted => 0)
    else 0

/-! ### Voices that join and leave a pass (R109, R110, R118) -/

/-- An entry that names a destination. -/
def PassEntry.named (e : PassEntry) : Prop := e.inA = true ∨ e.inB = true ∨ e.inCutoff = true

/-- An entry of a voice still to be served (R106). -/
def PassEntry.toServe (e : PassEntry) : Prop := e.state = .pending ∨ e.state = .waiting ∨ e.state = .inService

/-- From `s` to `t`, the pass, which has no voice in service, takes the lowest-numbered of the voices that wait into service, with the
first destination of its set (R110). -/
def State.nextServed (s t : State) (waits : Voice → Prop) : Prop :=
  t.tune.outcome = .running ∧ ∃ x, t.tune.service = some x ∧ waits x.voice ∧ (∀ u, waits u → x.voice.val ≤ u.val)
    ∧ (t.entry x.voice).state = .inService
    ∧ x.dest = (if (s.entry x.voice).inA then .a else if (s.entry x.voice).inB then .b else .cutoff)
    ∧ ∀ u, u ≠ x.voice → waits u → (t.entry u).state = .waiting

/-- From `s` to `t`, the destination of the voice that is now in service begins, and its first trial requests the unit, which is `free`
once what the event ends or discards has left it (R104, R110, R111). -/
def State.serviceBegins (s t : State) (free : Prop) : Prop :=
  ∀ x, t.tune.service = some x → s.destBegins t x.voice x.dest free

/-- From `s` to `t`, the entry of voice `v` becomes WAITING; a running pass with no voice in service takes its next (R109, R110). -/
def State.joinsPass (s t : State) (v : Voice) : Prop :=
  let waits (u : Voice) : Prop := u = v ∨ (s.entry u).state = .waiting
  (s.passRunning = false ∨ s.tune.service.isSome = true →
    t.tune = (s.setEntry v { s.entry v with state := .waiting, reason := .none }).tune)
    ∧ (s.passRunning = true → s.tune.service = none → (∀ u, waits u → (s.entry u).named) →
      s.nextServed t waits ∧ s.serviceBegins t (s.tune.unit = none) ∧ (∀ u, ¬ waits u → t.entry u = s.entry u)
        ∧ (s.tune.unit = none → ∃ m, t.tune.unit = some m ∧ m.requester = .pass ∧ waits m.voice)
        ∧ ∀ m, s.tune.unit = some m → t.tune.unit = some m ∧ t.tune.requestWaiting = true)

/-- From `s` to `t`, the entry of voice `v` becomes LEFT with the reason OFFLINE; a running pass with no voice in service and no
entry still to be served ends (R109, R118). -/
def State.leavesPass (s t : State) (v : Voice) : Prop :=
  let left := s.setEntry v { s.entry v with state := .left, reason := .offline }
  t.entry v = left.entry v
    ∧ (s.passRunning = false ∨ s.tune.service.isSome = true → t.tune = left.tune ∧ t.notices = s.notices)
    ∧ (s.passRunning = true → s.tune.service = none → (∀ u, u ≠ v → (s.entry u).state ≠ .waiting) →
      (∃ u, u ≠ v ∧ (s.entry u).state = .pending) → t.tune = left.tune ∧ t.notices = s.notices)
    ∧ (s.passRunning = true → s.tune.service = none → (∀ u, u ≠ v → ¬ (s.entry u).toServe) →
      t.tune = { left.tune with outcome := .completed } ∧ t.notices = { s.notices with tune := true })

/-! ### Corrections (R105) -/

/-- The step Δ towards the target for an estimate of codes per octave: rounded half away, at least 1 and at most half the
estimate, with the sign of `m − tg` (R105). -/
def codeStep (cpo : Int) (m tg : Nat) : Int :=
  let raw := (2 * (cpo * 1477 * ((m : Int) - tg)).natAbs + 1024 * tg) / (2048 * tg)
  if tg < m then max 1 (min (raw : Int) (cpo / 2)) else -max 1 (min (raw : Int) (cpo / 2))

/-! ### Cache slots and jobs (R165, R166, R171, R177, R179) -/

/-- Slot `c` is the one that R166 allocates: the EMPTY slot of highest rank, or with none EMPTY the replaceable one. -/
def State.choosesSlot (s : State) (c : CacheNo) : Prop :=
  let replaceable (d : CacheNo) : Prop := (s.cache d).state = .valid ∧ (s.cache d).lock = false ∧ (s.cache d).pin = 0
  ((s.cache c).state = .empty ∧ ∀ d, (s.cache d).state = .empty → (s.cache d).rank ≤ (s.cache c).rank)
    ∨ (∀ d, (s.cache d).state ≠ .empty) ∧ replaceable c ∧ ∀ d, replaceable d → (s.cache d).rank ≤ (s.cache c).rank

/-- The rank of slot `d` once slot `c` is made most recent (R165). -/
def State.rankAfter (s : State) (c d : CacheNo) : Nat :=
  if d = c then 0 else if (s.cache d).rank < (s.cache c).rank then (s.cache d).rank + 1 else (s.cache d).rank

/-- An accepted RECALL of `l` for part `p` cancels the FETCH of `m` into slot `d`: `p` wanted `m`, no other part does, and the job
has not started (R171). -/
def State.cancels (s : State) (p : PartNo) (l m : Nat) (d : CacheNo) : Prop :=
  (s.part p).wanted = some m ∧ m ≠ l ∧ (∀ q, q ≠ p → (s.part q).wanted ≠ some m)
    ∧ ∃ q x, Job.fetch m d q x ∈ s.patches.queue.drop 1

/-- The job is a FETCH of location `l`. -/
def Job.reads (l : Nat) : Job → Bool
  | .fetch m _ _ _ => m == l
  | .store .. => false

/-- The address bytes of a location's page: 256 times its number, high byte first (R172, 10.5). -/
def pageBytes (l : Nat) : List Byte := [BitVec.ofNat 8 (l / 256), BitVec.ofNat 8 l, 0]

/-- In `t`, the oldest job, if there is one, has become the head and has started, at an event that made the transactions `made`
before (R168): a status read, and where it finds busy clear the read of a FETCH, or the write enable and the page erase of a
STORE (R172, R173, R178). That this read finds the status the flash last showed is the model's choice (log entry 10). -/
def State.headStarts (t : State) (made : List FlashFrame) : Prop :=
  let busy : Prop := t.patches.flashStatus.getLsbD 0 = true
  let sent (step : JobStep) (txs : List FlashFrame) : Prop :=
    t.patches.head = some step ∧ t.patches.sent = made ++ [⟨[0x05], 1⟩] ++ txs
  match t.patches.queue with
  | [] => t.patches.head = none ∧ t.patches.sent = made
  | .fetch l _ _ _ :: _ =>
    (busy → sent (.readyWait 0) []) ∧ (¬ busy → sent .read [⟨0x03 :: pageBytes l, 74⟩])
  | .store l _ _ _ _ :: _ =>
    (busy → sent (.readyWait 0) []) ∧ (¬ busy → sent (.erase 0) [⟨[0x06], 0⟩, ⟨0xDB :: pageBytes l, 0⟩])

/-- The queue without the FETCHes of location `l` that have not started. -/
def State.queueWithout (s : State) (l : Nat) : List Job :=
  s.patches.queue.take 1 ++ (s.patches.queue.drop 1).filter fun j => !j.reads l

/-- A STORE job unlinked where `f` says so of its slot and part; a FETCH as it is (R179). -/
def Job.unlinkedBy (f : CacheNo → PartNo → Bool) : Job → Job
  | .fetch l c p d => .fetch l c p d
  | .store l c p n linked => .store l c p n (linked && !f c p)

/-- A FETCH of location `l` detached; any other job as it is (R177). -/
def Job.detachedFrom (l : Nat) : Job → Job
  | .fetch m c p d => .fetch m c p (d || m == l)
  | .store m c p n linked => .store m c p n linked

/-! ### The answers of the reading commands, field by field (R187, R192, R195, 10.5)

Fields come in the order of the rule that lists them, each in the fewest whole bytes that hold its range (R187); a field without a
value has every byte 0xFF (R195). What is the model's own reading is named where it stands. -/

/-- A field of one byte. -/
def inOne (n : Nat) : List Byte := [BitVec.ofNat 8 n]

/-- A field of two bytes, high byte first. -/
def inTwo (n : Nat) : List Byte := [BitVec.ofNat 8 (n / 256), BitVec.ofNat 8 n]

/-- A field of three bytes. -/
def inThree (n : Nat) : List Byte := BitVec.ofNat 8 (n / 65536) :: inTwo n

/-- A field of four bytes. -/
def inFour (n : Nat) : List Byte := BitVec.ofNat 8 (n / 16777216) :: inThree n

/-- A signed field of one byte. -/
def signedOne (x : Int) : List Byte := inOne (x % 256).toNat

/-- A signed field of two bytes. -/
def signedTwo (x : Int) : List Byte := inTwo (x % 65536).toNat

/-- A field of two values: 1 for yes, set, on, high, closed and down (R195). -/
def yesNo (b : Bool) : List Byte := [if b = true then 1 else 0]

/-- A field of one byte that may hold NONE (R195). -/
def oneOrNone : Option Nat → List Byte
  | some n => inOne n
  | none => [0xFF]

/-- A field of two bytes that may hold NONE (R195). -/
def twoOrNone : Option Nat → List Byte
  | some n => inTwo n
  | none => [0xFF, 0xFF]

/-- `n` bytes of fields whose condition does not hold (R195). -/
def noValue (n : Nat) : List Byte := List.replicate n 0xFF

/-- The sixteen voices, V0 first. -/
def inVoiceOrder : List Voice := [0, 1, 2, 3, 4, 5, 6, 7, 8, 9, 10, 11, 12, 13, 14, 15]

/-- The service states' codes (R195). -/
def serviceByte : Service → Byte
  | .absent => 0 | .offline => 1 | .idle => 2 | .sounding => 3 | .releasing => 4 | .stealGap => 5 | .calibrating => 6
  | .retuning => 7 | .quarantined => 8

/-- The result codes (R192). -/
def resultByte : PatchResult → Byte
  | .ok => 0 | .blank => 1 | .damaged => 2 | .eraseFail => 4 | .programFail => 5 | .verifyFail => 6 | .timeout => 7
  | .superseded => 8

/-- The destinations' codes (R195). -/
def destByte : Tuned → Byte
  | .a => 0 | .b => 1 | .cutoff => 2

/-- The codes of the next check destination (R195). -/
def oscByte : Osc → Byte
  | .a => 0 | .b => 1

/-- The pass entry states' codes (R195). -/
def entryByte : EntryState → Byte
  | .notInPass => 0 | .skipped => 1 | .pending => 2 | .waiting => 3 | .inService => 4 | .done => 5 | .left => 6

/-- The entry reasons' codes (R195). -/
def reasonByte : EntryReason → Byte
  | .none => 0 | .absent => 1 | .offline => 2 | .quarantined => 3 | .offlinePending => 4 | .lost => 5 | .aborted => 6

/-- The destination pass states' codes (R195). -/
def destStateByte : DestState → Byte
  | .notStarted => 0 | .inProgress => 1 | .calibrated => 2 | .part => 3 | .failed => 4 | .restored => 5

/-- The failure causes' codes (R195). -/
def failByte : FailCause → Byte
  | .none => 0 | .noSignal => 1 | .fewConverged => 2

/-- The pass outcomes' codes (R195). -/
def outcomeByte : PassOutcome → Byte
  | .none => 0 | .running => 1 | .completed => 2 | .aborted => 3

/-- The measurement requesters' codes (R195). -/
def requesterByte : Requester → Byte
  | .pass => 0 | .check => 1

/-- The measurement phases' codes (R195). -/
def phaseByte : Phase → Byte
  | .waitWrite => 0 | .settling _ => 1 | .waitEdge _ => 2 | .counting _ _ => 3

/-- The calibration statuses' codes (R195). -/
def statusByte : CalStatus → Byte
  | .nominal => 0 | .calibrated => 1 | .part => 2 | .stale => 3 | .failed => 4

/-- The monitor sources' codes (R195). -/
def sourceByte : MonSource → Byte
  | .computed => 0 | .override => 1

/-- The slot states' codes (R195). -/
def slotByte : CardState → Byte
  | .empty => 0 | .half => 1 | .seated => 2 | .powering => 3 | .powered => 4 | .powerFault => 5

/-- The fault causes' codes (R195). -/
def causeByte : FaultCause → Byte
  | .none => 0 | .readyTimeout => 1 | .readyLost => 2

/-- The channel roles' codes (R190). -/
def roleByte : Role → Byte
  | .parameter i => BitVec.ofNat 8 i.val | .bend => 32 | .mod => 33 | .pedal => 34 | .parked => 35

/-- The pickup states' codes (R195). -/
def pickupByte : Pickup → Byte
  | .live => 0 | .waitRise => 1 | .waitFall => 2

/-- The voice modes' codes (R159). -/
def modeByte : VoiceMode → Byte
  | .poly => 0 | .mono => 1 | .unison => 2

/-- The glide modes' codes (R159). -/
def glideByte : GlideMode → Byte
  | .off => 0 | .always => 1 | .legato => 2

/-- The key priorities' codes (R159). -/
def priorityByte : KeyPriority → Byte
  | .last => 0 | .low => 1 | .high => 2

/-- The mono triggers' codes (R159). -/
def triggerByte : MonoTrigger → Byte
  | .retrig => 0 | .legato => 1

/-- The cache slot states' codes (R195). -/
def cacheByte : CacheState → Byte
  | .empty => 0 | .filling => 1 | .valid => 2

/-- A last check: its code, and its count in three bytes where one was taken (R125, R195; three bytes: log entry 13). -/
def checkFields : LastCheck → List Byte
  | .none => [0, 0xFF, 0xFF, 0xFF]
  | .within m => 1 :: inThree m
  | .corrected m => 2 :: inThree m
  | .limited m => 3 :: inThree m
  | .atRail m => 4 :: inThree m
  | .noSignal => [5, 0xFF, 0xFF, 0xFF]

/-- READ_PART (R6, R19). -/
def State.partFields (s : State) (p : PartNo) : List Byte :=
  let r := s.part p
  inOne r.reserve ++ signedOne r.fineTune ++ yesNo r.panelBend ++ signedTwo r.bend ++ yesNo r.sustain ++ inTwo r.lastPitch
    ++ inTwo r.stealsShown ++ inTwo r.dropsShown
    ++ twoOrNone r.origin ++ yesNo r.dirty ++ inTwo r.editCount.toNat ++ twoOrNone r.wanted ++ [resultByte r.lastRecall]
    ++ inOne (inVoiceOrder.filter fun v => ((s.voice v).state == .sounding || (s.voice v).state == .stealGap)
        && (s.voice v).asgPart == some p).length
    ++ inOne r.held.length
    ++ r.held.flatMap fun h => inOne h.channel ++ inOne h.key ++ inOne h.note ++ inOne h.zone.val ++ inOne h.velocity

/-- The first six drift fields, which READ_VOICE sends for A and then for B (R125; that order: log entry 13). -/
def Drift.fields (d : Drift) : List Byte :=
  signedTwo d.target ++ signedTwo d.applied ++ yesNo d.alarm ++ inOne d.overCount ++ inOne d.underCount ++ checkFields d.lastCheck

/-- READ_VOICE (R20, R51, R125). -/
def State.voiceFields (s : State) (v : Voice) : List Byte :=
  let r := s.voice v
  [serviceByte r.state] ++ yesNo r.tunePending ++ yesNo r.offlinePending
    ++ (match r.asg with
        | some a => [1] ++ inOne a.part.val ++ inOne a.zone.val ++ inOne a.channel ++ inOne a.key ++ inOne a.note
            ++ inOne a.velocity ++ inFour a.stamp.toNat ++ yesNo a.sustained ++ inOne a.unison
        | none => [0] ++ noValue 12)
    ++ inTwo r.pitch ++ inTwo r.target ++ inTwo r.glide ++ inTwo r.tail ++ inOne r.gap ++ inTwo r.idle
    ++ oneOrNone (r.lastPart.map Fin.val) ++ oneOrNone r.lastNote ++ inFour r.lastFree.toNat ++ inFour r.lastCheckStamp.toNat
    ++ inFour s.stamp.toNat ++ r.driftA.fields ++ r.driftB.fields
    ++ [oscByte r.nextCheck] ++ inOne r.fails

/-- One voice's entry in READ_TUNE: state, reason and destination set (R124, R195; bit 0 A, bit 1 B and bit 2 cutoff as in TUNE,
R190; the set of a voice without an entry is sent as 0: log entry 33). -/
def PassEntry.fields (e : PassEntry) : List Byte :=
  [entryByte e.state, reasonByte e.reason]
    ++ inOne ((if e.inA then 1 else 0) + (if e.inB then 2 else 0) + (if e.inCutoff then 4 else 0))

/-- One destination of READ_TUNE: its state, its failure cause and its converged breakpoints, for a destination in the set (R124;
the number beside RESTORED: log entry 35). -/
def DestSummary.fields (x : DestSummary) (inSet : Bool) : List Byte :=
  if inSet then [destStateByte x.state, failByte x.cause] ++ inOne x.converged else noValue 3

/-- READ_TUNE (R124, R195). That every voice's entry comes before the destinations of all voices is the model's (log entry 15), as
is the code 1 of a busy unit and 0 of a free one (log entry 32), and the iteration while a trial is asked for (log entry 36). -/
def State.tuneFields (s : State) : List Byte :=
  yesNo (s.tune.outcome == .running) ++ yesNo s.tune.force
    ++ [outcomeByte s.tune.outcome] ++ (inVoiceOrder.flatMap fun v => (s.entry v).fields)
    ++ (inVoiceOrder.flatMap fun v => (s.entry v).sumA.fields (s.entry v).inA ++ (s.entry v).sumB.fields (s.entry v).inB
        ++ (s.entry v).sumCutoff.fields (s.entry v).inCutoff)
    ++ (match s.tune.service with
        | some x => [destByte x.dest] ++ inOne x.work.bp ++ inOne x.work.iter ++ inTwo x.work.trial.toNat
        | none => noValue 5)
    ++ match s.tune.unit with
        | some m => [1, requesterByte m.requester] ++ inOne m.voice.val ++ [destByte m.dest] ++ inOne m.bp
            ++ inTwo m.code.toNat ++ [phaseByte m.phase]
        | none => [0] ++ noValue 7

/-- READ_CAL, with the measured flags in three words of which breakpoint `k` is bit `k` (R97, 10.5). -/
def State.calFields (s : State) (v : Voice) (a b cutoff : BitVec 16) : List Byte :=
  let codes (d : Tuned) : List Byte := (s.cal v d).codes.toList.flatMap fun x => inTwo x.toNat
  let status (d : Tuned) : Byte := statusByte (s.cal v d).status
  codes .a ++ codes .b ++ codes .cutoff
    ++ inThree ((s.cal v .a).baseline.getD 0) ++ inThree ((s.cal v .b).baseline.getD 0)
    ++ [status .a, status .b, status .cutoff] ++ inTwo a.toNat ++ inTwo b.toNat ++ inTwo cutoff.toNat
    ++ [match s.tune.service with | some x => if x.voice = v then destByte x.dest else 0xFF | none => 0xFF]

/-- The measured flags of an entry stand in a word, breakpoint `k` in bit `k` (10.5). -/
def CalEntry.flagged (e : CalEntry) (w : BitVec 16) : Prop :=
  (∀ k : Fin 12, w.getLsbD k.val = e.measured[k]) ∧ ∀ k, 12 ≤ k → w.getLsbD k = false

/-- READ_MONITOR (R79, R81). The destination byte of MOD and PEDAL, which has no value, is sent as 0xFF (log entry 15). -/
def State.monitorFields (s : State) : List Byte :=
  (match s.refresh.sel with
    | .voice v d => inOne v.val ++ inOne d.val
    | .mod => [0x40, 0xFF]
    | .pedal => [0x41, 0xFF])
    ++ (match s.refresh.facts with
        | some f => [1] ++ inTwo f.code.toNat ++ [sourceByte f.source] ++ twoOrNone f.input
            ++ oneOrNone f.segment ++ twoOrNone f.fraction ++ inTwo f.round.toNat
        | none => [0] ++ noValue 10)
    ++ inTwo s.refresh.round.toNat
    ++ match s.refresh.sel with
        | .voice v d => yesNo (s.overrideAt v d).isSome
        | .mod | .pedal => [0]

/-- READ_CARDS (R94). The order of the four readings and of the three settings is the model's (log entry 15). -/
def State.cardFields (s : State) : List Byte :=
  let one (c : Card) : List Byte :=
    [slotByte c.state] ++ yesNo c.removalPending ++ yesNo c.rawLeft ++ yesNo c.rawRight ++ yesNo c.settledLeft ++ yesNo c.settledRight
    ++ inOne c.debounce ++ yesNo c.power ++ yesNo c.readySeen ++ inOne c.readyTimer
    ++ [causeByte c.cause]
  one (s.card 0) ++ one (s.card 1) ++ one (s.card 2) ++ one (s.card 3)
    ++ yesNo s.settings.autoPower ++ yesNo s.settings.autoOnline ++ yesNo s.settings.autoTune

/-- READ_CHANNEL (R140, R158). -/
def State.channelFields (s : State) (c : ChannelNo) : List Byte :=
  let r := s.channel c
  [roleByte r.role] ++ yesNo r.pickupMode ++ yesNo r.initialised ++ inTwo r.raw.toNat ++ inTwo r.filtered ++ inTwo r.reported.toNat
    ++ [pickupByte r.pickup] ++ yesNo r.armPending ++ yesNo r.notify
    ++ (match r.role with
        | .parameter i => inTwo ((s.part s.panel.focus).live.params[i]).toNat
        | .bend | .mod | .pedal | .parked => noValue 2)
    ++ inOne s.panel.focus.val ++ inOne s.panel.shift ++ inOne s.panel.deadband ++ inTwo s.panel.modValue.toNat
    ++ inTwo s.panel.pedalValue.toNat ++ inOne s.panel.changes.length
    ++ yesNo (s.panel.changes.any fun e => e.channel == c)

/-- READ_LIVE (R159, R163). -/
def State.liveFields (s : State) (p : PartNo) : List Byte :=
  let r := s.part p
  let x := r.live
  x.params.toList.flatMap (fun i => inTwo i.toNat)
    ++ [modeByte x.voiceMode] ++ inOne x.voiceLimit ++ inOne x.unisonCount
    ++ inOne x.unisonSpread ++ inOne x.bendRange
    ++ [glideByte x.glideMode, priorityByte x.keyPriority, triggerByte x.monoTrigger]
    ++ x.name.toList ++ twoOrNone r.origin ++ yesNo r.dirty ++ inTwo r.editCount.toNat ++ twoOrNone r.wanted

/-- READ_CACHE (R164, R168, R181). The expiries shown in the read and verify steps, 0, are the model's (log entry 20). -/
def State.cacheFields (s : State) : List Byte :=
  let slot (c : CacheSlot) : List Byte :=
    [cacheByte c.state] ++ twoOrNone c.location ++ inOne c.rank ++ yesNo c.lock
    ++ inOne c.pin ++ match c.state, c.contents with
        | .valid, some x => x.name.toList
        | _, _ => noValue 12
  let job : Job → List Byte
    | .fetch l c p detached => [0] ++ inTwo l ++ inOne c.val ++ inOne p.val ++ yesNo detached ++ noValue 2
    | .store l c p snapshot linked => [1] ++ inTwo l ++ inOne c.val ++ inOne p.val ++ yesNo linked ++ inTwo snapshot.toNat
  ([0, 1, 2, 3, 4, 5, 6, 7] : List CacheNo).flatMap (fun c => slot (s.cache c))
    ++ inOne s.patches.queue.length ++ s.patches.queue.flatMap job
    ++ (match s.patches.head with
        | some (.readyWait n) => 0 :: inOne n
        | some .read => [1, 0]
        | some (.erase n) => 2 :: inOne n
        | some (.program n _) => 3 :: inOne n
        | some (.verify _) => [4, 0]
        | none => noValue 2)
    ++ [resultByte s.patches.lastStore] ++ twoOrNone s.patches.lastStoreLoc
    ++ inTwo s.settings.protectLow ++ inTwo s.settings.protectHigh ++ yesNo s.settings.protectOn

/-- READ_DEVICE: family code 0x53, part code 2416, revision 2, the reset cause, the results, and the settings in the order of their
numbers (R191, R192). -/
def State.deviceFields (s : State) : List Byte :=
  let x := s.settings
  let flag (b : Bool) : Nat := if b = true then 1 else 0
  [0x53, 0x09, 0x70, 2] ++ yesNo s.port.softCause ++ [resultByte s.patches.lastStore] ++ twoOrNone s.patches.lastStoreLoc
    ++ [resultByte (s.part 0).lastRecall, resultByte (s.part 1).lastRecall, resultByte (s.part 2).lastRecall,
        resultByte (s.part 3).lastRecall]
    ++ inFour x.stealGap ++ inFour x.idleDwell ++ inFour (flag x.backgroundChecks) ++ inFour x.checkBreakpoint
    ++ inFour x.gearStep ++ inFour x.alarmLevel ++ inFour x.alarmSet ++ inFour x.alarmClear ++ inFour x.failThreshold
    ++ inFour (flag x.quarantine) ++ inFour (flag x.autoPower) ++ inFour (flag x.autoOnline) ++ inFour (flag x.autoTune)
    ++ inFour x.windowShift ++ inFour x.tRef ++ inFour x.tolerance ++ inFour x.maxIterations ++ inFour x.settleFrames
    ++ inFour x.nominalBase ++ inFour x.nominalCpo ++ inFour x.protectLow ++ inFour x.protectHigh
    ++ inFour (flag x.protectOn) ++ inFour (flag x.ackClears)

/-- READ_NOTICES: the pending kinds, the enables, the clear mode, and the source set block (R200, 10.5). -/
def State.noticeFields (s : State) : List Byte :=
  let n := s.notices
  inOne ((if n.card = 0 then 0 else 1) + (if n.tune then 2 else 0) + (if n.health = 0 then 0 else 4)
      + (if n.clamp = 0 then 0 else 8) + (if n.recalls = 0 then 0 else 16) + (if n.store then 32 else 0)
      + (if n.panel then 64 else 0) + (if n.link then 128 else 0))
    ++ [n.enables] ++ yesNo s.settings.ackClears ++ inOne n.card.toNat ++ yesNo n.tune ++ inTwo n.health.toNat ++ inTwo n.clamp.toNat
    ++ inOne n.recalls.toNat ++ yesNo n.store ++ yesNo n.panel ++ yesNo n.link

/-! ### What every reachable state keeps -/

/-- The sum of the four reserves does not exceed 16 (R12). -/
def State.reservesFit (s : State) : Prop := (allParts.map fun p => (s.part p).reserve).sum ≤ 16

/-- Every held-key list holds at most sixteen entries, no two with the same source channel, key and zone (R6). -/
def State.heldFit (s : State) : Prop :=
  ∀ p : PartNo, (s.part p).held.length ≤ 16 ∧ (s.part p).held.Pairwise fun a b => ¬ a.same b

/-- A voice holds an assignment exactly while it is SOUNDING, RELEASING or STEAL_GAP (R23). -/
def VoiceRec.assignedRight (r : VoiceRec) : Prop :=
  r.asg.isSome ↔ r.state = .sounding ∨ r.state = .releasing ∨ r.state = .stealGap

/-- R23 of every voice, with what the claims of the tune controller rest on: the voice in service, and every voice with an
entry WAITING or IN_SERVICE, is CALIBRATING (R106), and the voice of the check in hand is RETUNING (R126). -/
def State.voicesRight (s : State) : Prop :=
  (∀ v : Voice, (s.voice v).assignedRight)
    ∧ (∀ x, s.tune.service = some x → (s.voice x.voice).state = .calibrating)
    ∧ (∀ v : Voice, (s.entry v).state = .waiting ∨ (s.entry v).state = .inService → (s.voice v).state = .calibrating)
    ∧ ∀ c, s.tune.check = some c → (s.voice c.voice).state = .retuning

/-- No part's count exceeds its effective limit (R24). -/
def State.countsFit (s : State) : Prop := ∀ p : PartNo, s.count p ≤ s.limit p

/-- The recency ranks are 0..7, one to each slot (R165). -/
def State.ranksRight (s : State) : Prop :=
  (∀ c : CacheNo, (s.cache c).rank ≤ 7) ∧ ∀ c d : CacheNo, (s.cache c).rank = (s.cache d).rank → c = d

/-- The store-link queue holds at most eight jobs, and its head has a step exactly while there is a head (R168). -/
def State.queueFit (s : State) : Prop :=
  s.patches.queue.length ≤ 8 ∧ (s.patches.head.isSome ↔ s.patches.queue ≠ [])

/-- The job is a FETCH that is not detached, into slot `c`. -/
def Job.fills (c : CacheNo) : Job → Bool
  | .fetch _ x _ detached => x == c && !detached
  | .store .. => false

/-- The job is a STORE from slot `c`. -/
def Job.pins (c : CacheNo) : Job → Bool
  | .fetch .. => false
  | .store _ x _ _ _ => x == c

/-- Slots and jobs agree: a slot's pin count is the number of STORE jobs of it (R164, R166), a pinned slot is VALID and has
contents, a slot is FILLING exactly while one FETCH that is not detached fills it, from its location (R170), no two slots hold one
location (R166), a waiting FETCH is not detached (R177), and at most six slots are locked (R167). -/
def State.jobsRight (s : State) : Prop :=
  (∀ c : CacheNo, (s.cache c).pin = (s.patches.queue.filter (Job.pins c)).length)
    ∧ (∀ c : CacheNo, (s.cache c).pin ≠ 0 → (s.cache c).state = .valid)
    ∧ (∀ c : CacheNo, (s.cache c).state = .valid ↔ (s.cache c).contents.isSome)
    ∧ (∀ c : CacheNo, (s.cache c).state = .empty ↔ (s.cache c).location = none)
    ∧ (∀ c : CacheNo, (s.patches.queue.filter (Job.fills c)).length = if (s.cache c).state = .filling then 1 else 0)
    ∧ (∀ l c p, Job.fetch l c p false ∈ s.patches.queue → (s.cache c).location = some l)
    ∧ (∀ c d : CacheNo, (s.cache c).location ≠ none → (s.cache c).location = (s.cache d).location → c = d)
    ∧ (∀ l c p, Job.fetch l c p true ∉ s.patches.queue.drop 1)
    ∧ s.lockedSlots ≤ 6

/-- The change list holds at most one entry per channel, and the PANEL source is pending exactly while the list holds entries
(R152, R198). -/
def State.changesRight (s : State) : Prop :=
  (s.panel.changes.Pairwise fun a b => a.channel ≠ b.channel) ∧ (s.notices.panel = true ↔ s.panel.changes ≠ [])

/-- The port holds an answer exactly while it is ANSWER_PENDING, and a request that passes the form checks exactly while it is
EXECUTING (R184, R185); a transaction that opened on a held answer still finds it (R188). -/
def State.portRight (s : State) : Prop :=
  (match s.port.state with
    | .ready => s.port.response = none ∧ s.port.request = []
    | .executing => s.port.response = none ∧ formCheck s.port.request = none
    | .answerPending => s.port.response.isSome ∧ s.port.request = [])
    ∧ (s.port.fall = some .answerPending → s.port.state = .answerPending)

/-- Every failure count is at most 255 (R125, R135). -/
def State.failsFit (s : State) : Prop := ∀ v : Voice, (s.voice v).fails ≤ 255

/-- The tune plan's breakpoints, and those the destination in progress took from it, lie in 0..11 with low below high (R110,
R123). -/
def State.tuneFit (s : State) : Prop :=
  s.tune.plan.pitchHi ≤ 11 ∧ s.tune.plan.pitchLo < s.tune.plan.pitchHi ∧ s.tune.plan.cutoffHi ≤ 11
    ∧ s.tune.plan.cutoffLo < s.tune.plan.cutoffHi
    ∧ ∀ x, s.tune.service = some x → x.work.hi ≤ 11 ∧ x.work.lo ≤ x.work.bp ∧ x.work.bp ≤ x.work.hi

/-- Every filtered value lies in 0..65520 (R140). -/
def State.filtersFit (s : State) : Prop := ∀ c : ChannelNo, (s.channel c).filtered ≤ 65520

/-- Every field of a patch record is in its range (R159). -/
def Patch.inRange (p : Patch) : Prop :=
  (1 ≤ p.voiceLimit ∧ p.voiceLimit ≤ 16) ∧ (1 ≤ p.unisonCount ∧ p.unisonCount ≤ 8) ∧ p.unisonSpread ≤ 31
    ∧ p.bendRange ≤ 24 ∧ ∀ i : Fin 12, 0x20 ≤ (p.name[i]).toNat ∧ (p.name[i]).toNat ≤ 0x7E

/-- Every live patch, and every patch that a cache slot holds, is in range (R159). -/
def State.patchesFit (s : State) : Prop :=
  (∀ p : PartNo, (s.part p).live.inRange) ∧ ∀ (c : CacheNo) (x : Patch), (s.cache c).contents = some x → x.inRange

/-- Every step from a state with a property leads to a state with it. -/
def KeptByStep (inv : State → Prop) : Prop := ∀ s t : State, inv s → step s = .next t → inv t

end Sys2Proof.Machine
end

