-- ==== Sys2Proof/Certificates/Slice0/Obligations.lean ====
section
/-! DEFINITION. The statements about the model that the provers settle. -/

open Sys2Proof Sys2Proof.Machine

/-! ### Steps, frames and the command port (R183 to R195) -/

/-- The block takes the command at the front of its queue: a step runs it on the state with the queue's rest. -/
def Obligations.StepRunsTheFrontCommand : Prop :=
  ∀ (c : Instr) (cs : List Instr) (s : State), s.pending = c :: cs → step s = exec c { s with pending := cs }

/-- With no command waiting, a step is one REFCLK tick of a measurement that waits for an edge or counts, the tick that reaches
its limit being NO_SIGNAL or TOO_SLOW (R101, R102), and nothing else (the model's choice, log entry 6). -/
def Obligations.IdleStepTicksTheMeasurement : Prop :=
  ∀ s : State, s.pending = [] →
    (s.tune.unit = none → step s = .next s) ∧
    ∀ m : Measurement, s.tune.unit = some m →
      (m.phase = .waitWrite → step s = .next s) ∧
      (∀ n, m.phase = .settling n → step s = .next s) ∧
      (∀ n, m.phase = .waitEdge n → n + 1 < 4 * m.tg →
        step s = .next { s with tune := { s.tune with unit := some { m with phase := .waitEdge (n + 1) } } }) ∧
      (∀ n, m.phase = .waitEdge n → 4 * m.tg ≤ n + 1 → step s = exec .noSignal s) ∧
      (∀ n k, m.phase = .counting n k → 2 * m.tg ≤ n + 1 → step s = exec .tooSlow s) ∧
      ∀ n k, m.phase = .counting n k → n + 1 < 2 * m.tg →
        step s = .next { s with tune := { s.tune with unit := some { m with phase := .counting (n + 1) k } } }

/-- The request frame of a host command passes the port's form checks and reads back as that command, with every operand at
every value (R185, R190). -/
def Obligations.RequestFrameReadsBack : Prop :=
  ∀ (c : Instr) (bytes : List Byte), c.wellFormed = true → c.frame = some bytes →
    commandOfFrame bytes = some c ∧ formCheck bytes = none

/-- The form checks of R185 pass exactly the frames of the catalogue's commands (R190). -/
def Obligations.FormChecksPassExactlyTheCatalogue : Prop :=
  ∀ bytes : List Byte, frameShape bytes = true →
    (formCheck bytes = none ↔ ∃ c : Instr, c.wellFormed = true ∧ c.frame = some bytes)

/-- A request frame at a READY port is answered BAD_COMMAND or BAD_LENGTH by the first check it fails, or kept (R185); at a busy
port it is an overrun, which posts LINK and leaves request and answer as they are (R186). 0xFF is shifted out on every byte
(R183). -/
def Obligations.RequestFrameIsCheckedOrOverrun : Prop :=
  ∀ (code : Byte) (rest : List Byte) (s : State), code ≠ 0 →
    let out : List Byte := List.replicate (rest.length + 1) 0xFF
    let formed := ∃ n payload, rest = n :: payload ∧ n.toNat ≤ 240 ∧ payload.length = n.toNat
      ∧ lengthAllowed code.toNat payload.length = true
    ends (.requestFrame (code :: rest)) s fun t =>
      (s.port.state = .ready → 37 ≤ code.toNat →
        t = { s with port := { s.answered .badCommand [] with fall := none, shifted := out } }) ∧
      (s.port.state = .ready → code.toNat < 37 → ¬ formed →
        t = { s with port := { s.answered .badLength [] with fall := none, shifted := out } }) ∧
      (s.port.state = .ready → code.toNat < 37 → formed →
        t = { s with port := { s.port with
          state := .executing, request := code :: rest, taken := 0, applied := 0, ignored := 0, fall := none,
          shifted := out } }) ∧
      (s.port.state ≠ .ready →
        t = { s with
          port := { s.port with fall := none, shifted := out }
          notices := { s.notices with link := true } })

/-- A host command that is not in hand sends its frame: at a READY port the frame is kept and its block then takes the request;
a busy port meets an overrun (R185, R186; the model's reading of those rows, log entry 1). -/
def Obligations.HostCommandNotInHandSendsItsFrame : Prop :=
  (∀ (c : Instr) (bytes : List Byte) (s : State), c.wellFormed = true → c.frame = some bytes → s.port.state = .ready →
    (s.takeFrame bytes).inHand = some c ∧ exec c s = exec c (s.takeFrame bytes)) ∧
  (∀ (c : Instr) (bytes : List Byte) (s : State), c.frame = some bytes → s.port.state ≠ .ready → s.inHand ≠ some c →
    exec c s = .next { s with
      port := { s.port with fall := none, shifted := List.replicate bytes.length 0xFF }
      notices := { s.notices with link := true } })

/-- Every request in hand is answered at the event that takes it: the port becomes ANSWER_PENDING, RDY rises, and the request
buffer is emptied (R184, R187). -/
def Obligations.EveryRequestInHandIsAnswered : Prop :=
  ∀ (c : Instr) (s : State), s.inHand = some c →
    ends c s fun t => t.port.state = .answerPending ∧ t.rdy = true ∧ t.port.request = []
      ∧ ∃ a, t.port.response = some a ∧ a.status ≠ .noAnswer

/-- "A command refused with any status from 2 to 8 has changed nothing, whatever the refusal" (R189). -/
def Obligations.RefusedCommandChangesNothing : Prop :=
  ∀ (c : Instr) (s t : State) (a : Answer), s.inHand = some c → exec c s = .next t → t.port.response = some a →
    2 ≤ a.status.code.toNat → a.status.code.toNat ≤ 8 → a.payload = [] ∧ t = s.onlyAnswered a.status []

/-- "each answer has the same layout in every state" (R195): the lengths of the record answers; and every answer fits the length
byte of its frame (10.5, Frames), in the states that runs reach. Where the length of a field is the model's reading it rests on
a log entry: the three bytes of a last check's count in READ_VOICE on log entry 13, the bytes of READ_MONITOR and READ_CARDS on
log entry 15, the sets and reasons of TUNE on log entry 14. -/
def Obligations.AnswersHaveOneLayout : Prop :=
  (∀ (c : Instr) (s t : State) (a : Answer), s.heldFit → s.queueFit → s.changesRight →
    s.inHand = some c → exec c s = .next t → t.port.response = some a → a.payload.length ≤ 240) ∧
  (∀ s : State,
    (∀ z, (s.zone z).bytes.length = 8) ∧ (∀ p, (partAnswer s p).length = 22 + 5 * (s.part p).held.length) ∧
    (∀ v, (voiceAnswer s v).length = 65) ∧ (tuneAnswer s).length = 208 ∧ (∀ v, (calAnswer s v).length = 88) ∧
    (monitorAnswer s).length = 16 ∧ (cardsAnswer s).length = 47 ∧ (∀ c, (channelAnswer s c).length = 23) ∧
    (∀ r, (liveAnswer r).length = 77) ∧ (cacheAnswer s).length = 155 + 8 * s.patches.queue.length ∧
    (deviceAnswer s).length = 108 ∧ (noticesAnswer s).length = 13)

/-- A response fetch by the port state at the fall that opened it: a held answer is shifted out after 0xFF and given up, else
NO_ANSWER is shifted out and nothing but the pins changes (R188). The fall takes the port state for a fetch, and a transaction
without a whole byte leaves port state, buffers and RDY unchanged (R183). A fetch without a recorded fall, and a fall inside an
open transaction, are the model's choice (log entry 12). -/
def Obligations.FetchesAndEmptyTransactions : Prop :=
  (∀ (n : Nat) (s : State), 1 ≤ n →
    (∀ a, s.port.fall.getD s.port.state = .answerPending → s.port.response = some a → s.port.resetRequest = false →
      exec (.responseFetch n) s = .next { s with port := { s.port with
        state := .ready, response := none, fall := none,
        shifted := ([0xFF, a.status.code, BitVec.ofNat 8 a.payload.length] ++ a.payload
          ++ List.replicate n 0xFF).take n } }) ∧
    (s.port.fall.getD s.port.state ≠ .answerPending →
      exec (.responseFetch n) s = .next { s with port := { s.port with
        fall := none, shifted := ([0xFF, 9, 0] ++ List.replicate n 0xFF).take n } })) ∧
  (∀ s : State,
    (s.port.fall = none → exec .chipSelectFall s = .next { s with port := { s.port with fall := some s.port.state } }) ∧
    (∀ x, s.port.fall = some x → exec .chipSelectFall s = .next s) ∧
    exec .emptyTransaction s = .next { s with port := { s.port with fall := none, shifted := [] } })

/-! ### Resets and settings (R21, R83, R191 to R193) -/

/-- Power-on reset gives every field of every record, and every setting, its power-on value, whatever the detect lines read
(R2, R11, R21, R82, R83, R96, R106, R123, R125, R140, R141, R164, R182, R184, R191, R196); the model's reset state is that of
a power-on reset with open detect lines (log entry 3). The values of the tune-line selection, the force flag, the pins, the
flash's status and the bytes shifted out or sent are the model's choice (log entry 3), and so are the pending commands kept
and the count of free choices (log entry 26). -/
def Obligations.PowerOnResetValues : Prop :=
  (∀ (detect : BitVec 8) (s : State),
    ends (.powerOnReset detect) s fun t =>
      t.pending = s.pending ∧ t.freePicks = s.freePicks ∧ t.stamp = 0
      ∧ t.port = ⟨.ready, [], 0, 0, 0, none, false, false, none, []⟩
      ∧ t.notices = ⟨0, false, 0, 0, 0, false, false, false, 0xFF⟩
      ∧ t.settings = ⟨2, 2000, true, 5, 4, 400, 3, 3, 4, true, true, true, false, 4, 1956995, 38, 8, 5, 0, 5461, 0, 127, true, true⟩
      ∧ (∀ z, t.zone z = ⟨false, none, 0, 127, 1, 127, 0, 0⟩)
      ∧ (∀ p : PartNo,
        (∀ i : Fin 25, (t.part p).live.params[i] = if i = 0 then 0 else 2048)
        ∧ t.part p = {
          live := ⟨(t.part p).live.params, .poly, 16, 4, 6, 2, .off, .last, .retrig, Vector.replicate 12 0x20⟩
          origin := none, dirty := false, editCount := 0, wanted := none, lastRecall := .ok
          reserve := if p = 0 then 4 else 0, fineTune := 0, panelBend := decide (p = 0), bend := 0, sustain := false
          held := [], lastPitch := 3840, steals := 0, stealsShown := 0, drops := 0, dropsShown := 0 })
      ∧ (∀ v, t.gate v = false ∧ t.voice v = {
          state := .absent, asg := none, pitch := 0, target := 0, glide := 0, tail := 0, gap := 0, idle := 0
          lastPart := none, lastNote := none, lastFree := 0, lastCheckStamp := 0, tunePending := false
          offlinePending := false, driftA := ⟨0, 0, false, 0, 0, .none⟩, driftB := ⟨0, 0, false, 0, 0, .none⟩
          nextCheck := .a, fails := 0 })
      ∧ (t.refresh = ⟨0, false, 0, t.refresh.overrides, .voice 0 0, none, 0, 0⟩ ∧ ∀ v d, t.overrideAt v d = none)
      ∧ (t.tune = {
          cal := t.tune.cal, plan := ⟨1, 9, 3, 9⟩, outcome := .none, force := false, entries := t.tune.entries
          service := none, heldQuarantine := false, requestWaiting := false, unit := none, check := none
          lineVoice := 0, lineDest := .a }
        ∧ (∀ v, t.entry v =
          ⟨.notInPass, .none, false, false, false, ⟨.notStarted, .none, 0⟩, ⟨.notStarted, .none, 0⟩, ⟨.notStarted, .none, 0⟩⟩)
        ∧ ∀ v d, (t.cal v d).status = .nominal ∧ (t.cal v d).baseline = none
          ∧ ∀ k : Fin 12, (t.cal v d).measured[k] = false ∧ (t.cal v d).codes[k] = BitVec.ofNat 16 (5461 * k.val))
      ∧ (∀ k : CardNo,
        let left := detect.getLsbD (2 * k.val)
        let right := detect.getLsbD (2 * k.val + 1)
        t.card k = {
          state := .empty, settledLeft := false, settledRight := false, rawLeft := left, rawRight := right
          debounce := if left = true ∨ right = true then 20 else 0, removalPending := false, power := false, readyTimer := 0
          readySeen := false, cause := .none })
      ∧ (t.panel = ⟨t.panel.channels, 0, 2, 8, 0, 0, 0, []⟩
        ∧ ∀ c : ChannelNo, t.channel c = ⟨(t.channel c).role, true, false, 0, 0, 0, .live, false, true⟩
          ∧ (∀ i : Fin 25, c.val = i.val → (t.channel c).role = .parameter i) ∧ (c.val = 25 → (t.channel c).role = .bend)
          ∧ (c.val = 26 → (t.channel c).role = .mod) ∧ (c.val = 27 → (t.channel c).role = .pedal)
          ∧ (28 ≤ c.val → (t.channel c).role = .parked))
      ∧ t.patches = ⟨t.patches.slots, [], none, .ok, none, 0, []⟩ ∧ t.rdy = false
      ∧ (∀ c : CacheNo, t.cache c = ⟨.empty, none, none, c.val, false, 0⟩)) ∧
  ((∀ s : State, s.pending = [] → s.freePicks = 0 → exec (.powerOnReset 0) s = .next State.reset)
    ∧ State.reset.attn = false ∧ State.reset.rdy = false ∧ ∀ v, State.reset.gate v = false)

/-- SOFT_RESET answers OK and sets the reset request, and nothing else is reset yet; the reset is taken at the fetch that
collects the answer: what every block takes and what it keeps, the cache slots and the monitor's selection among them, and
the voices that auto online brings back, in ascending voice number by their last-free stamps (R21, R22, R82, R83, R96, R106,
R125, R164, R182, R193, R196). A flash left busy by an erase or program that the reset cut off shows busy to the next job's
ready wait (R182; the status byte kept in State is the model's, log entries 10 and 28). The fetch shifts out 0xFF and then the
answer, whatever number of bytes it clocks (R188), and the pass record takes its reset values (R121), of which the force flag's
is the model's choice (log entry 3). That the pending commands are kept is
the model's choice (log entry 26), and so is a fetch without a recorded fall (log entry 12). -/
def Obligations.SoftResetTakenAtTheFetch : Prop :=
  (∀ s : State, s.inHand = some .softReset →
    exec .softReset s = .next { s with port := { s.answered .ok [] with resetRequest := true } }) ∧
  (∀ (n : Nat) (s : State), 1 ≤ n → s.port.fall.getD s.port.state = .answerPending → s.port.resetRequest = true →
    ends (.responseFetch n) s fun t =>
      t.port.state = .ready ∧ t.port.response = none ∧ t.port.resetRequest = false ∧ t.port.softCause = true
      ∧ t.port = { Port.reset with softCause := true, shifted := t.port.shifted }
      ∧ (∀ a, s.port.response = some a → t.port.shifted =
        ([0xFF, a.status.code, BitVec.ofNat 8 a.payload.length] ++ a.payload ++ List.replicate n 0xFF).take n)
      ∧ (s.port.response = some ⟨.ok, []⟩ → t.port.shifted = ([0xFF, 0, 0] ++ List.replicate n 0xFF).take n)
      ∧ t.tune.heldQuarantine = false ∧ t.tune.requestWaiting = false ∧ t.tune.force = false
      ∧ (∀ v, t.entry v = ⟨.notInPass, .none, false, false, false, ⟨.notStarted, .none, 0⟩, ⟨.notStarted, .none, 0⟩,
        ⟨.notStarted, .none, 0⟩⟩)
      ∧ t.zones = Vector.replicate 8 ⟨false, none, 0, 127, 1, 127, 0, 0⟩ ∧ (∀ p, t.part p = Part.reset p)
      ∧ t.notices = ⟨0, false, 0, 0, 0, false, false, false, 0xFF⟩ ∧ t.panel = .reset ∧ t.cards = s.cards
      ∧ t.settings = s.settings ∧ t.tune.cal = s.tune.cal ∧ t.tune.plan = s.tune.plan ∧ t.tune.outcome = .none
      ∧ t.tune.unit = none ∧ t.tune.check = none ∧ t.tune.service = none ∧ t.refresh.pos = s.refresh.pos
      ∧ t.refresh.round = 0 ∧ (∀ v d, t.overrideAt v d = none) ∧ t.patches.queue = []
      ∧ t.patches.lastStore = .ok ∧ t.patches.lastStoreLoc = none ∧ t.pending = s.pending
      ∧ (∀ c : CacheNo, t.cache c = ⟨.empty, none, none, c.val, false, 0⟩) ∧ t.patches.head = none
      ∧ t.patches.sent = [] ∧ t.patches.flashStatus = (match s.patches.head with
        | some (.erase _) | some (.program _ _) => s.patches.flashStatus ||| 1
        | _ => s.patches.flashStatus)
      ∧ t.refresh.sel = .voice 0 0 ∧ t.refresh.facts = none ∧ (∀ v, t.gate v = false)
      ∧ (let online (v : Voice) : Bool := decide ((s.card (cardOf v)).state = .powered) && s.settings.autoOnline
         t.stampedFrom 0 online ∧ ∀ v, online v = false → (t.voice v).lastFree = 0)
      ∧ (∀ v, (t.voice v).asg = none ∧ (t.voice v).fails = (s.voice v).fails
        ∧ ((t.voice v).state = if (s.card (cardOf v)).state = .powered then
            (if s.settings.autoOnline then .idle else .offline) else .absent)
        ∧ t.voice v = ⟨(t.voice v).state, none, 0, 0, 0, 0, 0, 0, none, none, (t.voice v).lastFree, 0, false, false,
          { (s.voice v).driftA with overCount := 0, underCount := 0 },
          { (s.voice v).driftB with overCount := 0, underCount := 0 }, .a, (s.voice v).fails⟩
        ∧ ∀ d, ((t.voice v).drift d).target = ((s.voice v).drift d).target
          ∧ ((t.voice v).drift d).applied = ((s.voice v).drift d).applied
          ∧ ((t.voice v).drift d).alarm = ((s.voice v).drift d).alarm
          ∧ ((t.voice v).drift d).lastCheck = ((s.voice v).drift d).lastCheck
          ∧ ((t.voice v).drift d).overCount = 0 ∧ ((t.voice v).drift d).underCount = 0))

/-- SET_DEVICE: the range of each setting first, then the lock of a running pass, then the setting takes the value; only the
written setting changes, and a write of nominal base or CPO rewrites exactly the NOMINAL entries (R96, R122, R191). -/
def Obligations.SetDeviceWritesOneSetting : Prop :=
  ∀ (number : Byte) (value : BitVec 32) (s : State), s.inHand = some (.setDevice number value) →
    let ranges : List (Nat × Nat) :=
      [(0, 15), (100, 60000), (0, 1), (2, 9), (1, 64), (50, 2047), (1, 3), (1, 3), (1, 255), (0, 1), (0, 1), (0, 1), (0, 1),
        (0, 8), (100000, 8000000), (4, 1024), (2, 16), (1, 50), (0, 32767), (1000, 8000), (0, 511), (0, 511), (0, 1), (0, 1)]
    let admitted := 1 ≤ number.toNat ∧
      ∃ r, ranges[number.toNat - 1]? = some r ∧ r.1 ≤ value.toNat ∧ value.toNat ≤ r.2
    (s.settings.put number.toNat value.toNat = none ↔ ¬ admitted) ∧
    (¬ admitted → exec (.setDevice number value) s = .next (s.onlyAnswered .badValue [])) ∧
    ends (.setDevice number value) s fun t =>
      (s.settings.put number.toNat value.toNat = none → t = s.onlyAnswered .badValue []) ∧
      (∀ x, s.settings.put number.toNat value.toNat = some x → 14 ≤ number.toNat → number.toNat ≤ 20 →
        s.passRunning = true → t = s.onlyAnswered .wrongState []) ∧
      ∀ x, s.settings.put number.toNat value.toNat = some x →
        (number.toNat < 14 ∨ 20 < number.toNat ∨ s.passRunning = false) →
        t = { s with settings := x, port := s.answered .ok [], tune := { s.tune with cal := t.tune.cal } }
        ∧ (number.toNat ≠ 19 → number.toNat ≠ 20 → t.tune.cal = s.tune.cal)
        ∧ (∀ i : Fin 24, i.val + 1 ≠ number.toNat →
          (x.bytes.drop (4 * i.val)).take 4 = (s.settings.bytes.drop (4 * i.val)).take 4)
        ∧ (x.bytes.drop (4 * (number.toNat - 1))).take 4 = byte4 value.toNat
        ∧ ∀ v d, (t.cal v d).status = (s.cal v d).status ∧ ((s.cal v d).status ≠ .nominal → t.cal v d = s.cal v d)
          ∧ (number.toNat = 19 ∨ number.toNat = 20 → (s.cal v d).status = .nominal → ∀ k : Fin 12,
            ((t.cal v d).codes[k]).toNat = min 65535 (x.nominalBase + k.val * x.nominalCpo))

/-! ### Keys, zones and parts (R1 to R19, R194) -/

/-- SET_ZONE replaces the whole record, or is refused with BAD_VALUE and changes nothing; voices and held keys keep what they
were given (R4). READ_ZONE answers OK with the zone's eight fields, whether or not the zone is enabled; a zone number above 7 is
refused with BAD_VALUE; nothing changes (R5). SET_PART replaces reserve, fine tune and panel bend of one part together and
leaves the rest of the record, or is refused with BAD_VALUE, among others where the reserves would pass 16 (R18). The part
table's interval timer copies the current counts of all four parts into the snapshots and clears them, and changes nothing else
(R17). -/
def Obligations.ZoneAndPartRecordsAreSet : Prop :=
  (∀ (zone en src lk hk lv hv part tr : Byte) (s : State), s.inHand = some (.setZone zone en src lk hk lv hv part tr) →
    ends (.setZone zone en src lk hk lv hv part tr) s fun t =>
      if zone.toNat ≤ 7 ∧ en.toNat ≤ 1 ∧ (src.toNat ≤ 15 ∨ src = 0xFF) ∧ hk.toNat ≤ 127 ∧ lk.toNat ≤ hk.toNat
          ∧ 1 ≤ lv.toNat ∧ hv.toNat ≤ 127 ∧ lv.toNat ≤ hv.toNat ∧ part.toNat ≤ 3 ∧ -48 ≤ tr.toInt ∧ tr.toInt ≤ 48 then
        t = { s with zones := t.zones, port := s.answered .ok [] } ∧
        ∀ z : ZoneNo,
          if z.val = zone.toNat then
            (t.zone z).enabled = decide (en = 1) ∧ (t.zone z).source = (if src = 0xFF then none else some src.toNat)
            ∧ (t.zone z).lowKey = lk.toNat ∧ (t.zone z).highKey = hk.toNat ∧ (t.zone z).lowVel = lv.toNat
            ∧ (t.zone z).highVel = hv.toNat ∧ (t.zone z).part.val = part.toNat ∧ (t.zone z).transpose = tr.toInt
          else t.zone z = s.zone z
      else t = s.onlyAnswered .badValue []) ∧
  (∀ (zone : Byte) (s : State), s.inHand = some (.readZone zone) →
    (∀ z : ZoneNo, zone.toNat = z.val →
      exec (.readZone zone) s = .next (s.onlyAnswered .ok
        ([if (s.zone z).enabled then 1 else 0, match (s.zone z).source with | some c => BitVec.ofNat 8 c | none => 0xFF,
          BitVec.ofNat 8 (s.zone z).lowKey, BitVec.ofNat 8 (s.zone z).highKey, BitVec.ofNat 8 (s.zone z).lowVel,
          BitVec.ofNat 8 (s.zone z).highVel, BitVec.ofNat 8 (s.zone z).part.val,
          BitVec.ofInt 8 (s.zone z).transpose]))) ∧
    (7 < zone.toNat → exec (.readZone zone) s = .next (s.onlyAnswered .badValue []))) ∧
  (∀ (part reserve fine panelBend : Byte) (s : State), s.inHand = some (.setPart part reserve fine panelBend) →
    ends (.setPart part reserve fine panelBend) s fun t =>
      (∀ p : PartNo, part.toNat = p.val →
        if panelBend.toNat ≤ 1 ∧ -64 ≤ fine.toInt ∧ fine.toInt ≤ 63
            ∧ reserve.toNat + ((allParts.filter fun q => q != p).map fun q => (s.part q).reserve).sum ≤ 16 then
          t = { s with parts := t.parts, port := s.answered .ok [] }
          ∧ t.part p = { s.part p with
              reserve := reserve.toNat, fineTune := fine.toInt, panelBend := decide (panelBend = 1) }
          ∧ ∀ q, q ≠ p → t.part q = s.part q
        else t = s.onlyAnswered .badValue []) ∧
      (3 < part.toNat → t = s.onlyAnswered .badValue [])) ∧
  (∀ s : State, ends .intervalTimerExpiry s fun t =>
    t = { s with parts := t.parts } ∧
    ∀ p, t.part p = { s.part p with
      steals := 0, drops := 0, stealsShown := (s.part p).steals, dropsShown := (s.part p).drops })

/-- The reading commands answer OK with the record they name and change nothing; a number out of range is refused with BAD_VALUE
(R19, R51, R81, R94, R97, R124, R158, R163, R181, R192). The answers are spelled field by field in Safety.lean, by the order of
those rules and the codes of R192 and R195 (`State.partFields` and those after it). The model's own in them: the drift
fields of A before those of B and the three bytes of a count (log entry 13); the order of READ_TUNE's blocks, of READ_CARDS'
readings and settings, and the destination byte of MOD and PEDAL (log entry 15); no expiries in the read and verify steps (log
entry 20); the code of a busy unit (log entry 32), the set of a voice without an entry (log entry 33), the number beside
RESTORED (log entry 35) and the iteration while a first trial is asked for (log entry 36). -/
def Obligations.ReadsAnswerAndChangeNothing : Prop :=
  ∀ (b : Byte) (s : State),
    (s.inHand = some (.readPart b) →
      (∀ p : PartNo, b.toNat = p.val → exec (.readPart b) s = .next (s.onlyAnswered .ok (s.partFields p))) ∧
      (3 < b.toNat → exec (.readPart b) s = .next (s.onlyAnswered .badValue []))) ∧
    (s.inHand = some (.readVoice b) →
      (∀ v : Voice, b.toNat = v.val → exec (.readVoice b) s = .next (s.onlyAnswered .ok (s.voiceFields v))) ∧
      (15 < b.toNat → exec (.readVoice b) s = .next (s.onlyAnswered .badValue []))) ∧
    (s.inHand = some (.readCal b) →
      (∀ v : Voice, b.toNat = v.val → ∃ flagsA flagsB flagsCutoff : BitVec 16,
        (s.cal v .a).flagged flagsA ∧ (s.cal v .b).flagged flagsB ∧ (s.cal v .cutoff).flagged flagsCutoff ∧
        exec (.readCal b) s = .next (s.onlyAnswered .ok (s.calFields v flagsA flagsB flagsCutoff))) ∧
      (15 < b.toNat → exec (.readCal b) s = .next (s.onlyAnswered .badValue []))) ∧
    (s.inHand = some (.readChannel b) →
      (∀ c : ChannelNo, b.toNat = c.val → exec (.readChannel b) s = .next (s.onlyAnswered .ok (s.channelFields c))) ∧
      (31 < b.toNat → exec (.readChannel b) s = .next (s.onlyAnswered .badValue []))) ∧
    (s.inHand = some (.readLive b) →
      (∀ p : PartNo, b.toNat = p.val → exec (.readLive b) s = .next (s.onlyAnswered .ok (s.liveFields p))) ∧
      (3 < b.toNat → exec (.readLive b) s = .next (s.onlyAnswered .badValue []))) ∧
    (s.inHand = some .readTune → exec .readTune s = .next (s.onlyAnswered .ok s.tuneFields)) ∧
    (s.inHand = some .readMonitor → exec .readMonitor s = .next (s.onlyAnswered .ok s.monitorFields)) ∧
    (s.inHand = some .readCards → exec .readCards s = .next (s.onlyAnswered .ok s.cardFields)) ∧
    (s.inHand = some .readCache → exec .readCache s = .next (s.onlyAnswered .ok s.cacheFields)) ∧
    (s.inHand = some .readDevice → exec .readDevice s = .next (s.onlyAnswered .ok s.deviceFields))

/-- PLAY decodes each event from its four bytes as R194 gives, bytes marked "not read" changing nothing. -/
def Obligations.PlayEventsAreRead : Prop :=
  (∀ e : RawEvent, e.kind.toNat = 0 ∨ 5 < e.kind.toNat → readEvent e = none) ∧
  (∀ ch key vel : Byte, ch.toNat ≤ 15 → key.toNat ≤ 127 →
    readEvent ⟨1, ch, key, vel⟩ =
      (if vel.toNat = 0 then some (.keyOff ch.toNat key.toNat)
       else if vel.toNat ≤ 127 then some (.keyOn ch.toNat key.toNat vel.toNat)
       else some (.keyOn ch.toNat key.toNat 127)) ∧
    readEvent ⟨2, ch, key, vel⟩ = some (.keyOff ch.toNat key.toNat)) ∧
  (∀ ch key vel : Byte, 15 < ch.toNat ∨ 127 < key.toNat →
    readEvent ⟨1, ch, key, vel⟩ = none ∧ readEvent ⟨2, ch, key, vel⟩ = none) ∧
  (∀ (p : PartNo) (b2 b3 : Byte),
    readEvent ⟨3, BitVec.ofNat 8 p.val, b2, b3⟩ = some (.sustain p (decide (b2.toNat ≠ 0))) ∧
    readEvent ⟨5, BitVec.ofNat 8 p.val, b2, b3⟩ = some (.allOff p) ∧
    readEvent ⟨4, BitVec.ofNat 8 p.val, b2, b3⟩ =
      some (.bend p (max (-8192) (min 8191 (BitVec.toInt (b2 ++ b3)))))) ∧
  ∀ b1 b2 b3 : Byte, 3 < b1.toNat →
    readEvent ⟨3, b1, b2, b3⟩ = none ∧ readEvent ⟨4, b1, b2, b3⟩ = none ∧ readEvent ⟨5, b1, b2, b3⟩ = none

/-- PLAY takes every event and answers OK with the counts of applied and ignored events, whose sum is the number of events; an
ignored event changes nothing but its count; and the events do to the part what they do one after another (R1). A row of the key
path that is the next applied event of the PLAY in hand is performed, and counted with the ignored events around it; the last
one brings PLAY's answer; a row out of its turn changes nothing, and with no PLAY in hand a row is performed alone, uncounted
(the rows are the table's; when one is taken is the model's choice, log entry 1). -/
def Obligations.PlayTakesItsEventsInOrder : Prop :=
  ((∀ (es : List RawEvent) (s : State), s.inHand = some (.play es) → s.port.taken = 0 → s.port.applied = 0 →
      s.port.ignored = 0 →
    ends (.play es) s fun t => ∃ applied ignored : Nat, applied + ignored = es.length ∧ applied ≤ 16 ∧ ignored ≤ 16 ∧
      applied = (es.filter fun e => (readEvent e).isSome).length ∧
      t.port = s.answered .ok [BitVec.ofNat 8 applied, BitVec.ofNat 8 ignored]) ∧
  ∀ (e : RawEvent) (s : State), readEvent e = none →
    s.takeEvent e = { s with port := { s.port with taken := s.port.taken + 1, ignored := s.port.ignored + 1 } }) ∧
  (∀ (es : List RawEvent) (s t : State), s.inHand = some (.play es) → s.port.taken = 0 →
    exec (.play es) s = .next t →
    { t with port := s.port } = { (es.filterMap readEvent).foldl State.perform s with port := s.port }) ∧
  ∀ (c : Instr) (e : RawEvent) (s : State),
    (∃ ch key vel, c = .keyOn ch key vel ∧ e = ⟨1, ch, key, vel⟩) ∨ (∃ ch key, c = .keyOff ch key ∧ e = ⟨2, ch, key, 0⟩)
      ∨ (∃ p x, c = .sustain p x ∧ e = ⟨3, p, x, 0⟩)
      ∨ (∃ p x, c = .bend p x ∧ e = ⟨4, p, x.extractLsb' 8 8, x.extractLsb' 0 8⟩) ∨ (∃ p, c = .allOff p ∧ e = ⟨5, p, 0, 0⟩) →
    (readEvent e = none → exec c s = .next s) ∧
    ∀ x, readEvent e = some x →
      (s.noPlay → exec c s = .next (s.perform x)) ∧
      ∀ (es before after : List RawEvent) (y : RawEvent) (x' : PerfEvent), s.inHand = some (.play es) →
        es.drop s.port.taken = before ++ y :: after → (∀ z ∈ before, readEvent z = none) → readEvent y = some x' →
        (x' ≠ x → exec c s = .next s) ∧
        (x' = x → (∃ z ∈ after, readEvent z ≠ none) → exec c s = .next { s.perform x with port := { s.port with
          taken := s.port.taken + before.length + 1, applied := s.port.applied + 1,
          ignored := s.port.ignored + before.length } }) ∧
        (x' = x → (∀ z ∈ after, readEvent z = none) →
          let counts : List Byte := [BitVec.ofNat 8 (s.port.applied + 1),
            BitVec.ofNat 8 (s.port.ignored + before.length + after.length)]
          exec c s = .next { s.perform x with port := s.answered .ok counts })

/-- A key event outside PLAY always completes, and touches only the held lists, sustain, bend, last pitch and interval counts of
the parts, the voices, the stamps, and the tune controller's hold on voices it loses or gains (R3, R9, R10, R14, R15). A key
event that no frame carried acts as one of a PLAY does (the model's choice, log entry 1); of a PLAY in hand it does the same in
its turn (PlayTakesItsEventsInOrder). -/
def Obligations.KeyEventsFrame : Prop :=
  ∀ (c : Instr) (s : State), s.noPlay →
    (∃ ch key vel, c = .keyOn ch key vel) ∨ (∃ ch key, c = .keyOff ch key) ∨ (∃ p x, c = .sustain p x)
      ∨ (∃ p x, c = .bend p x) ∨ (∃ p, c = .allOff p) →
    ends c s fun t =>
      t = { s with
        parts := t.parts, voices := t.voices, stamp := t.stamp, freePicks := t.freePicks
        refresh := { s.refresh with overrides := t.refresh.overrides }
        tune := { s.tune with
          entries := t.tune.entries, service := t.tune.service, requestWaiting := t.tune.requestWaiting,
          unit := t.tune.unit, check := t.tune.check, lineVoice := t.tune.lineVoice, lineDest := t.tune.lineDest } } ∧
      ∀ p, t.part p = { s.part p with
        held := (t.part p).held, sustain := (t.part p).sustain, bend := (t.part p).bend, lastPitch := (t.part p).lastPitch,
        steals := (t.part p).steals, drops := (t.part p).drops }

/-- A zone matches a key-on exactly by the four conditions of R3, and its effective note is the key plus its transpose where
that lies in 0..127. A key-on enters the held-key list of every part that a zone sends it to, with the pair's effective note
and the event's velocity, clamped to 127 (R1, R3, R7, R8); with no such zone it changes nothing. Where one zone alone sends
it to a part, the entry goes to the newest end of the part's list: a present entry of the same channel, key and zone moves
there, a list of sixteen loses its oldest, and the other entries keep their order (R7, R8). The zones are taken in ascending
zone number, each pair through its list step, at which the key-off of an entry pushed out is handed on
(KeyOffRemovesItsEntries, MonoAndUnisonFollowTheChosenKey), and then through its allocator step with the legato indication
(PolyKeyOnTakesItsVoice, MonoAndUnisonFollowTheChosenKey), before the next pair, and nothing else happens (R3, R7, R8). A key
event that no frame carried acts as one of a PLAY does (the model's choice, log entry 1); of a PLAY in hand it does the same
in its turn (PlayTakesItsEventsInOrder). -/
def Obligations.KeyOnEntersHeldLists : Prop :=
  (∀ (ch key vel : Byte) (s : State), s.noPlay → ch.toNat ≤ 15 → key.toNat ≤ 127 → 1 ≤ vel.toNat →
    ends (.keyOn ch key vel) s fun t =>
      (∀ (z : ZoneNo) (n : Nat), (s.zone z).matches ch.toNat key.toNat (min 127 vel.toNat) = true →
        (s.zone z).effective key.toNat = some n →
        (⟨ch.toNat, key.toNat, n, z, min 127 vel.toNat⟩ : HeldKey) ∈ (t.part (s.zone z).part).held) ∧
      ((∀ z : ZoneNo, (s.zone z).matches ch.toNat key.toNat (min 127 vel.toNat) = true →
        (s.zone z).effective key.toNat = none) → t = s) ∧
      (∀ (z : ZoneNo) (n : Nat), (s.zone z).matches ch.toNat key.toNat (min 127 vel.toNat) = true →
        (s.zone z).effective key.toNat = some n →
        (∀ y, y ≠ z → (s.zone y).part = (s.zone z).part →
          (s.zone y).matches ch.toNat key.toNat (min 127 vel.toNat) = true → (s.zone y).effective key.toNat = none) →
        let h : HeldKey := ⟨ch.toNat, key.toNat, n, z, min 127 vel.toNat⟩
        let held := (s.part (s.zone z).part).held
        let mine (x : HeldKey) : Bool := x.channel == ch.toNat && x.key == key.toNat && x.zone == z
        (t.part (s.zone z).part).held = if held.any mine then held.filter (fun x => !mine x) ++ [h]
          else if held.length < 16 then held ++ [h] else held.drop 1 ++ [h]) ∧
      State.zonesTake ch.toNat key.toNat (min 127 vel.toNat) [0, 1, 2, 3, 4, 5, 6, 7] s t ∧
      ∀ p, (∀ z, (s.zone z).matches ch.toNat key.toNat (min 127 vel.toNat) = true → (s.zone z).part = p →
        (s.zone z).effective key.toNat = none) → (t.part p).held = (s.part p).held) ∧
  (∀ (z : Zone) (ch key vel : Nat),
    (z.matches ch key vel = true ↔ z.enabled = true ∧ (z.source = none ∨ z.source = some ch)
      ∧ (z.lowKey ≤ key ∧ key ≤ z.highKey) ∧ (z.lowVel ≤ vel ∧ vel ≤ z.highVel)) ∧
    (∀ n : Nat, z.effective key = some n ↔ (n : Int) = key + z.transpose ∧ n ≤ 127) ∧
    (z.effective key = none ↔ key + z.transpose < 0 ∨ 127 < key + z.transpose))

/-- A key-off removes exactly the entries of its source channel and key, from all four lists, whatever their zone, and the
rest keep their order; a KEY_ON with velocity 0 does the same (R3, R9). All removals come before the first hand-off; then the
key-off of each entry removed is handed to the allocator, in ascending part order and within a part in ascending zone order,
and nothing else happens (R9); what a hand-off does to a POLY part stands here, and what one does to a MONO or UNISON part
in MonoAndUnisonFollowTheChosenKey (R34, R35). Of the voices of POLY parts, each that carries the
key of an entry removed is released with a tail of P6 div 2, marked sustained, or left, as R34 gives, and no other changes;
that a released voice's gap count is 0 is the model's reading (log entry 5). A key event that no frame carried acts as one of
a PLAY does (the model's choice, log entry 1); of a PLAY in hand it does the same in its turn (PlayTakesItsEventsInOrder). -/
def Obligations.KeyOffRemovesItsEntries : Prop :=
  (∀ (ch key : Byte) (s : State), s.noPlay → ch.toNat ≤ 15 → key.toNat ≤ 127 →
    ends (.keyOff ch key) s fun t =>
      exec (.keyOn ch key 0) s = .next t ∧
      t = (s.keyEntries ch.toNat key.toNat).foldl (fun (u : State) x => u.allocKeyOff x.1 x.2)
        (s.withoutKey ch.toNat key.toNat) ∧
      (∀ p, (t.part p).held = (s.part p).held.filter fun h => !(h.channel == ch.toNat && h.key == key.toNat)) ∧
      ((∀ p, ∀ h ∈ (s.part p).held, ¬ (h.channel = ch.toNat ∧ h.key = key.toNat)) → t = s) ∧
      (∀ v, (s.voice v).asg = none → t.voice v = s.voice v) ∧
      ∀ v a, (s.voice v).asg = some a → (s.part a.part).live.voiceMode = .poly →
        let off : Prop := a.channel = ch.toNat ∧ a.key = key.toNat ∧
          ∃ h ∈ (s.part a.part).held, h.channel = a.channel ∧ h.key = a.key ∧ h.zone = a.zone
        (off → s.keyLetGo t v a) ∧ (¬ off → t.voice v = s.voice v)) ∧
  ∀ (s : State) (p : PartNo) (h : HeldKey), (s.part p).live.voiceMode = .poly →
    let t := s.allocKeyOff p h
    let carries (a : Assignment) : Prop := a.part = p ∧ a.zone = h.zone ∧ a.channel = h.channel ∧ a.key = h.key
    t.parts = s.parts ∧ t.settings = s.settings ∧
    ((∀ v a, (s.voice v).asg = some a → ¬ carries a) → t = s) ∧
    (∀ v, (s.voice v).asg = none → t.voice v = s.voice v) ∧
    ∀ v a, (s.voice v).asg = some a → (carries a → s.keyLetGo t v a) ∧ (¬ carries a → t.voice v = s.voice v)

/-- SUSTAIN sets the part's position; to the position it already has it changes nothing; from down to up no sustained voice
of the part is left SOUNDING (R15, R36). BEND replaces the part's bend value, clamped into −8192..+8191, and changes nothing
else (R1, R14). ALL_OFF empties the part's held-key list and leaves no voice of the part in SOUNDING or STEAL_GAP, without
regard to sustain (R10, R36). Each voice released is RELEASING with a tail of P6 div 2, or past a tail of 0, in ascending
voice number, and no other voice changes (R22, R34, R36, R38); that its gap count is 0 is the model's reading (log entry 5).
A part above 3 is ignored (R194). A key event that no frame carried acts as one of a PLAY does (the model's choice, log entry
1); of a PLAY in hand it does the same in its turn (PlayTakesItsEventsInOrder). -/
def Obligations.SustainBendAndAllOff : Prop :=
  (∀ (part position : Byte) (s : State), s.noPlay →
    ends (.sustain part position) s fun t =>
      (3 < part.toNat → t = s) ∧
      ∀ p : PartNo, part.toNat = p.val →
        (t.part p).sustain = decide (position.toNat ≠ 0) ∧
        ((s.part p).sustain = decide (position.toNat ≠ 0) → t = s) ∧
        ((s.part p).sustain = false → position.toNat ≠ 0 →
          t = { s with parts := t.parts } ∧ ∀ q, t.part q = { s.part q with sustain := (t.part q).sustain }) ∧
        ((s.part p).sustain = true → position.toNat = 0 →
          (∀ q, (t.part q).held = (s.part q).held) ∧
          (∀ v, (t.voice v).state = .sounding → (t.voice v).asgPart = some p → (t.voice v).isSustained = false) ∧
          (∀ v, (s.voice v).asgPart ≠ some p → (t.voice v).state = (s.voice v).state) ∧
          let up (v : Voice) : Prop :=
            (s.voice v).state = .sounding ∧ (s.voice v).asgPart = some p ∧ (s.voice v).isSustained = true
          t.stampedFrom s.stamp (fun v => (s.voice v).state == .sounding && (s.voice v).isSustained && s.servesBriefly p v) ∧
          ∀ v, (up v → s.noteEnded t v) ∧ (¬ up v → t.voice v = s.voice v))) ∧
  (∀ (part : Byte) (value : BitVec 16) (s : State), s.noPlay →
    ends (.bend part value) s fun t =>
      (3 < part.toNat → t = s) ∧
      ∀ p : PartNo, part.toNat = p.val →
        t = { s with parts := t.parts } ∧ (∀ q, q ≠ p → t.part q = s.part q) ∧
        t.part p = { s.part p with bend := max (-8192) (min 8191 value.toInt) }) ∧
  (∀ (part : Byte) (s : State), s.noPlay →
    ends (.allOff part) s fun t =>
      (3 < part.toNat → t = s) ∧
      ∀ p : PartNo, part.toNat = p.val →
        t.part p = { s.part p with held := [] } ∧ (∀ q, q ≠ p → t.part q = s.part q) ∧ t.count p = 0 ∧
        (∀ v, s.serves p v → s.noteEnded t v) ∧ t.stampedFrom s.stamp (s.servesBriefly p) ∧
        (∀ v, (s.voice v).state.counted = false ∨ (s.voice v).asgPart ≠ some p → t.voice v = s.voice v))

/-! ### Voice allocation (R20 to R51) -/

/-- A POLY key-on (R27 to R30). A voice in SOUNDING or STEAL_GAP that carries the key is renewed (which, where several carry it,
is a free choice: log entry 4); else, below the limit, the RELEASING carrier with the newest stamp; else, where a tail carries
it, the steal step serves it; a key that no voice carries goes to the free-voice step and its four tiers, and then to the steal
step, or is dropped. A tune-pending or offline-pending voice is passed over throughout. The voice takes the key by the
assignment of AssignmentFillsTheVoice, with the glide start of a key-on and the hand-off's legato indication (R25, R26). -/
def Obligations.PolyKeyOnTakesItsVoice : Prop :=
  ∀ (s : State) (p : PartNo) (h : HeldKey) (legato : Bool),
    (s.part p).live.voiceMode = .poly → (∀ v, (s.voice v).assignedRight) → s.stampsClose →
    let t := s.allocKeyOn p h legato
    let carrier (v : Voice) : Prop := (s.voice v).carries p h = true ∧ (s.voice v).unmarked
    let live (v : Voice) : Prop := carrier v ∧ ((s.voice v).state = .sounding ∨ (s.voice v).state = .stealGap)
    let tail (v : Voice) : Prop := carrier v ∧ (s.voice v).state = .releasing
    let lastPitch : Part := { s.part p with lastPitch := 64 * h.note }
    let g : GlideStart := .fromLast legato
    ((∃ v, live v) → ∃ v, live v ∧ s.keyTaken t v p h 0 g ∧ t.part p = lastPitch) ∧
    ((∀ v, ¬ live v) → (∃ v, tail v) →
      (s.count p < s.limit p →
        ∃ v, tail v ∧ (∀ w, tail w → s.keyAge v ≤ s.keyAge w) ∧ s.keyTaken t v p h 0 g ∧ t.part p = lastPitch) ∧
      (s.limit p ≤ s.count p → s.keyStolen t p h (s.limit p) g)) ∧
    ((∀ v, ¬ live v) → (∀ v, ¬ tail v) → s.keyServed t p h (s.limit p) g)

/-- "A part's count is not reduced by a key-on of another part while that count is at or below the part's reserve" (R29): a
key-on leaves every part that none of its pairs names with at least the smaller of its count and its reserve. A key event that
no frame carried acts as one of a PLAY does (the model's choice, log entry 1); of a PLAY in hand it does the same in its turn
(PlayTakesItsEventsInOrder). -/
def Obligations.ReserveProtectsAPart : Prop :=
  ∀ (ch key vel : Byte) (s t : State) (q : PartNo), s.noPlay → 1 ≤ vel.toNat →
    (∀ z, (s.zone z).matches ch.toNat key.toNat (min 127 vel.toNat) = true → (s.zone z).part ≠ q) →
    exec (.keyOn ch key vel) s = .next t → min (s.count q) (s.part q).reserve ≤ t.count q ∧ t.count q ≤ s.count q

/-- An assignment, whatever path makes it (R22, R25, R26, R32): the stamp, the fields filled, STEAL_GAP from a counted state
unless the steal gap is 0, the glide start of a key-on, of a note change, and of a re-seat or re-home, the part's last
pitch, and the abandon of a RETUNING voice's check, at which a pass request that waits is granted the unit (R25, R104,
R133). -/
def Obligations.AssignmentFillsTheVoice : Prop :=
  ∀ (s : State) (v : Voice) (p : PartNo) (h : HeldKey) (j : Nat) (g : GlideStart),
    let t := s.assign v p h j g
    let r := t.voice v
    let frames := ((s.part p).live.params[(0 : Fin 25)]).toNat / 4
    let mode := (s.part p).live.glideMode
    t.stamp = s.stamp + 1
    ∧ r.asg = some ⟨p, h.zone, h.channel, h.key, h.note, h.velocity, s.stamp + 1, false, j⟩
    ∧ r.lastPart = some p ∧ r.lastNote = some h.note ∧ r.idle = 0 ∧ r.tail = 0 ∧ r.target = 64 * h.note
    ∧ r.lastFree = (s.voice v).lastFree ∧ r.tunePending = (s.voice v).tunePending
    ∧ r.driftA = (s.voice v).driftA ∧ r.driftB = (s.voice v).driftB ∧ r.fails = (s.voice v).fails
    ∧ (((s.voice v).state = .sounding ∨ (s.voice v).state = .stealGap) → s.settings.stealGap ≠ 0 →
      r.state = .stealGap ∧ r.gap = s.settings.stealGap)
    ∧ (¬ (((s.voice v).state = .sounding ∨ (s.voice v).state = .stealGap) ∧ s.settings.stealGap ≠ 0) →
      r.state = .sounding)
    ∧ (∀ legato, g = .fromLast legato →
      (0 < frames → mode = .always ∨ mode = .legato ∧ legato = true → r.pitch = (s.part p).lastPitch ∧ r.glide = frames) ∧
      (frames = 0 ∨ mode = .off ∨ mode = .legato ∧ legato = false → r.pitch = 64 * h.note ∧ r.glide = 0))
    ∧ (g = .none → r.pitch = 64 * h.note ∧ r.glide = 0)
    ∧ (g = .fromCurrent →
      (0 < frames → mode ≠ .off → r.pitch = (s.voice v).pitch ∧ r.glide = frames) ∧
      (frames = 0 ∨ mode = .off → r.pitch = 64 * h.note ∧ r.glide = 0))
    ∧ t.part p = { s.part p with lastPitch := 64 * h.note } ∧ (∀ q, q ≠ p → t.part q = s.part q)
    ∧ (∀ w, w ≠ v → t.voice w = s.voice w)
    ∧ ((s.voice v).state = .retuning → s.abandons t v)
    ∧ ((s.voice v).state ≠ .retuning → t.tune = s.tune ∧ t.refresh = s.refresh)
    ∧ t = { s with parts := t.parts, voices := t.voices, stamp := t.stamp, tune := t.tune, refresh := t.refresh }

/-- MONO and UNISON (R31 to R33, R35): the chosen key by the key priority; what a note change does under each mono trigger; a
MONO key-on, which serves the chosen key from no voice by the free-voice and steal steps under a limit of 1, and from a voice
makes a note change where the chosen key is another or was struck again; a UNISON key-on, which makes the same note change
and then acquires voices for the missing indices, lowest first, until one finds no candidate, a part left with no voice
counting a drop; and a key-off, which changes to the key then chosen or, with no key left, releases the voices or marks them
sustained; with a tail of 0 frames a voice released is past it at once (R34, R38). That a released voice's gap count is 0 is
the model's reading (log entry 5). A voice that takes the chosen key takes it by the assignment of AssignmentFillsTheVoice,
with the glide start of a key-on and the hand-off's legato indication (R25, R26); that the second and later voices of a stack
start at the last pitch that the first has already made the new target is the model's reading (log entry 22). -/
def Obligations.MonoAndUnisonFollowTheChosenKey : Prop :=
  (∀ (keys : List HeldKey) (e : HeldKey),
    (chosenKey .last keys = some e ↔ keys.getLast? = some e) ∧
    (chosenKey .low keys = some e ↔ ∃ older newer, keys = older ++ e :: newer ∧ (∀ x ∈ older, e.note ≤ x.note) ∧
      ∀ x ∈ newer, e.note < x.note) ∧
    (chosenKey .high keys = some e ↔ ∃ older newer, keys = older ++ e :: newer ∧ (∀ x ∈ older, x.note ≤ e.note) ∧
      ∀ x ∈ newer, x.note < e.note)) ∧
  (∀ (s : State) (p : PartNo) (e : HeldKey),
    let t := s.noteChange p e
    let frames := ((s.part p).live.params[(0 : Fin 25)]).toNat / 4
    let slides := 0 < frames ∧ (s.part p).live.glideMode ≠ .off
    let retrig := (s.part p).live.monoTrigger = .retrig
    let lower (v : Voice) : List Voice := (s.partVoices p).filter fun w => (s.voice w).unisonIndex < (s.voice v).unisonIndex
    t.part p = { s.part p with lastPitch := 64 * e.note } ∧ (∀ q, q ≠ p → t.part q = s.part q) ∧
    (t.stamp = if retrig then s.stamp + BitVec.ofNat 32 (s.count p) else s.stamp) ∧
    (∀ v, ¬ s.serves p v → t.voice v = s.voice v) ∧
    ∀ v a, s.serves p v → (s.voice v).asg = some a →
      let r := t.voice v
      r.target = 64 * e.note ∧ (slides → r.pitch = (s.voice v).pitch ∧ r.glide = frames) ∧
      (¬ slides → r.pitch = 64 * e.note ∧ r.glide = 0) ∧
      (¬ retrig → r.state = (s.voice v).state ∧ r.gap = (s.voice v).gap ∧ r.asg = some { a with
        zone := e.zone, channel := e.channel, key := e.key, note := e.note, velocity := e.velocity, sustained := false }) ∧
      (retrig →
        (if s.settings.stealGap = 0 then r.state = .sounding else r.state = .stealGap ∧ r.gap = s.settings.stealGap) ∧
        (∃ stamp, r.asg = some ⟨p, e.zone, e.channel, e.key, e.note, e.velocity, stamp, false, a.unison⟩) ∧
        ((∀ w w', s.serves p w → s.serves p w' → (s.voice w).unisonIndex = (s.voice w').unisonIndex → w = w') →
          r.asgStamp = s.stamp + 1 + BitVec.ofNat 32 (lower v).length))) ∧
  (∀ (s : State) (p : PartNo) (h e : HeldKey) (legato : Bool), (∀ v, (s.voice v).assignedRight) → s.stampsClose →
    s.chosen p = some e →
    let t := s.allocKeyOn p h legato
    let changes (v : Voice) : Prop := (s.voice v).carries p e = false ∨ h.same e = true
    let u := (s.part p).live.unisonCount
    ((s.part p).live.voiceMode = .mono →
      (s.partVoices p = [] → s.keyServed t p e 1 (.fromLast legato)) ∧
      ∀ v rest, s.partVoices p = v :: rest → (changes v → t = s.noteChange p e) ∧ (¬ changes v → t = s)) ∧
    ((s.part p).live.voiceMode = .unison → 1 ≤ u →
      (∀ v rest, s.partVoices p = v :: rest → u ≤ s.count p →
        (changes v → t = s.noteChange p e) ∧ (¬ changes v → t = s)) ∧
      (s.partVoices p = [] → u ≤ (allVoices.filter fun v => (s.voice v).state == .idle).length →
        t.count p = u ∧ t.part p = { s.part p with lastPitch := 64 * e.note } ∧ t.stamp = s.stamp + BitVec.ofNat 32 u ∧
        (∀ v, (s.voice v).state ≠ .idle → t.voice v = s.voice v) ∧
        ∀ j, j < u → ∃ v, (s.voice v).state = .idle ∧ (t.voice v).state = .sounding ∧ (t.voice v).target = 64 * e.note ∧
          (t.voice v).asg = some ⟨p, e.zone, e.channel, e.key, e.note, e.velocity, s.stamp + 1 + BitVec.ofNat 32 j, false, j⟩) ∧
      (s.partVoices p = [] → (∀ v, ¬ (s.voice v).free) → (∀ v, ¬ s.stealable p u v) → s.keyDropped t p) ∧
      (s.stampsWithin 32 → s.count p < u → ∃ changed filled : State,
        (s.partVoices p = [] → changed = s) ∧
        (∀ v rest, s.partVoices p = v :: rest →
          (changes v → changed = s.noteChange p e) ∧ (¬ changes v → changed = s)) ∧
        State.stackFilled p e u (.fromLast legato) (List.range u) changed filled ∧
        (filled.count p = 0 → filled.keyDropped t p) ∧ (filled.count p ≠ 0 → t = filled)))) ∧
  ∀ (s : State) (p : PartNo) (h : HeldKey), (s.part p).live.voiceMode ≠ .poly →
    let t := s.allocKeyOff p h
    let carried := ∃ v, s.serves p v ∧ (s.voice v).carries p h = true
    (¬ carried → t = s) ∧
    (∀ e, carried → s.chosen p = some e → t = s.noteChange p e) ∧
    (carried → s.chosen p = none → t.parts = s.parts ∧ (∀ v, ¬ s.serves p v → t.voice v = s.voice v) ∧
      ∀ v a, s.serves p v → (s.voice v).asg = some a → s.keyLetGo t v a)

/-- One expiry of the allocator's frame timer, voice by voice: glide, gap, tail and idle count (R37 to R40). With no
tune-pending voice, nothing but voices and stamps changes. Voices whose tails end at it become IDLE in ascending voice number
(R22, R38). The order of one voice's counts within one expiry, and so the glide and the idle count of a voice whose tail ends
at it, are the model's choice (log entry 7). A tune-pending voice whose tail ends joins its pass: its entry becomes WAITING,
and with no voice in service the pass takes the lowest-numbered that waits (R38, R109, R110). That the gap count is 0 at a
tail's end is the model's reading (log entry 5). The rows for the ends of a gap, of a tail and of a glide do the same where
the count stands at its last frame (R37 to R39), and elsewhere change nothing (the model's choice, log entry 2). That the
iteration is 1 from the event that asks for a first trial is the model's choice (log entry 36). -/
def Obligations.AllocatorFramesAndCountEnds : Prop :=
  (∀ s : State,
    ends .allocatorFrameExpiry s fun t =>
      t.parts = s.parts ∧ t.port = s.port ∧ t.tune.cal = s.tune.cal ∧
      ((∀ v, (s.voice v).tunePending = false) → t = { s with voices := t.voices, stamp := t.stamp }) ∧
      t.stampedFrom s.stamp (fun v => (s.voice v).state == .releasing && decide ((s.voice v).tail ≤ 1)
        && !(s.voice v).tunePending && !(s.voice v).offlinePending) ∧
      ∀ v : Voice,
        let r := s.voice v
        let r' := t.voice v
        (r.glide = 0 → r'.pitch = r.pitch ∧ r'.glide = 0) ∧ (r.glide = 1 → r'.pitch = r.target ∧ r'.glide = 0) ∧
        (2 ≤ r.glide → (r'.pitch = ((r.pitch : Int) + ((r.target : Int) - r.pitch).tdiv r.glide).toNat) ∧
          (r'.glide = r.glide - 1 ∨ r.state = .releasing ∧ r.tail ≤ 1)) ∧
        (r.state = .idle → r'.state = .idle ∧ r'.idle = min 65535 (r.idle + 1) ∧ r'.lastFree = r.lastFree) ∧
        (r.state = .stealGap → r'.asg = r.asg ∧
          (2 ≤ r.gap → r'.state = .stealGap ∧ r'.gap = r.gap - 1) ∧ (r.gap = 1 → r'.state = .sounding ∧ r'.gap = 0)) ∧
        (r.state = .releasing →
          (2 ≤ r.tail → r'.state = .releasing ∧ r'.tail = r.tail - 1 ∧ r'.asg = r.asg) ∧
          (r.tail = 1 → r.tunePending = true → r'.state = .calibrating ∧ r'.asg = none ∧ r'.tunePending = false ∧
            ((s.entry v).state = .pending → (t.entry v).reason = .none ∧
              ((t.entry v).state = .waiting ∨ s.tune.service = none ∧ (t.entry v).state = .inService))) ∧
          (r.tail = 1 → r.tunePending = false → r.offlinePending = false → r'.state = .idle ∧ r'.asg = none ∧ r'.idle = 0
            ∧ r'.lastNote = r.lastNote ∧ r'.lastPart = r.lastPart) ∧
          (r.tail = 1 → r.tunePending = false → r.offlinePending = true →
            r'.state = .offline ∧ r'.asg = none ∧ r'.offlinePending = false)) ∧
        (r.state ≠ .idle → r.state ≠ .stealGap → r.state ≠ .releasing →
          r' = { r with pitch := r'.pitch, glide := r'.glide })) ∧
  ∀ (v : Voice) (s : State),
    ((s.voice v).state = .stealGap → (s.voice v).gap = 1 →
      exec (.stealGapEnd v) s = .next (s.setVoice v { s.voice v with state := .sounding, gap := 0 })) ∧
    ((s.voice v).state ≠ .stealGap ∨ 2 ≤ (s.voice v).gap → exec (.stealGapEnd v) s = .next s) ∧
    ((s.voice v).state = .releasing → (s.voice v).tail = 1 → (s.voice v).tunePending = false →
      (s.voice v).offlinePending = false →
      exec (.releaseTailEnd v) s = .next ({ s with stamp := s.stamp + 1 }.setVoice v { s.voice v with
        state := .idle, asg := none, glide := 0, tail := 0, gap := 0, idle := 0, lastFree := s.stamp + 1 })) ∧
    ((s.voice v).state = .releasing → (s.voice v).tail = 1 → (s.voice v).tunePending = false →
      (s.voice v).offlinePending = true →
      exec (.releaseTailEnd v) s = .next (s.setVoice v { s.voice v with
        state := .offline, asg := none, glide := 0, tail := 0, gap := 0, offlinePending := false })) ∧
    ((s.voice v).state = .releasing → (s.voice v).tail = 1 → (s.voice v).tunePending = true →
      ends (.releaseTailEnd v) s fun t =>
        t.voice v = { s.voice v with
          state := .calibrating, asg := none, glide := 0, tail := 0, gap := 0, tunePending := false } ∧
        (∀ w, w ≠ v → t.voice w = s.voice w) ∧ t.parts = s.parts ∧ t.stamp = s.stamp ∧ t.notices = s.notices ∧
        ((s.entry v).state ≠ .pending → t.tune = s.tune) ∧ ((s.entry v).state = .pending → s.joinsPass t v)) ∧
    ((s.voice v).state ≠ .releasing ∨ 2 ≤ (s.voice v).tail → exec (.releaseTailEnd v) s = .next s) ∧
    ((s.voice v).glide = 1 →
      exec (.glideEnd v) s = .next (s.setVoice v { s.voice v with pitch := (s.voice v).target, glide := 0 })) ∧
    ((s.voice v).glide ≠ 1 → exec (.glideEnd v) s = .next s)

/-- What a part's new patch does to its voices, and what becomes of lost keys. In the same voice mode the oldest voices above
the effective limit are released and no other voice changes (R42); in another, every voice of the part is released, and the
held keys are replayed, oldest first, in POLY, or the chosen key is given its voice or its stack, index by index, without
glide (R33, R41). A voice released is RELEASING with its tail, or past a tail of 0 at once, with its last-free stamp (R34,
R36, R38). A lost key that is still held, and in MONO and UNISON is the chosen one, is offered once to the free-voice step,
without glide (R43). At a slot-down all four voices leave before the keys of those in SOUNDING and STEAL_GAP are offered, in
ascending voice number (R43, R44), and the tune controller gives them up: a check with its measurement and override (R133),
the voice in service with its measurement, overrides, summary and held quarantine request (R120), and each entry still to be
served, which becomes LEFT with LOST (R109); then the pass takes its next voice, or ends (R110, R118). That a released
voice's gap count, and a removed one's gap and tail counts, are 0 is the model's reading (log entry 5), as it is that a
re-homed voice takes the note and velocity of the entry held (log entry 17), and that the four leave before the pass chooses
(log entry 19). That the iteration is 1 from the event that asks for a first trial is the model's choice (log entry 36). -/
def Obligations.PatchChangesAndLostKeys : Prop :=
  (∀ (s : State) (p : PartNo) (old : VoiceMode), (∀ v, (s.voice v).assignedRight) → s.stampsWithin 32 →
    let t := s.afterPatch p old
    ((s.part p).live.voiceMode = old → t.count p = min (s.count p) (s.limit p) ∧
      ∀ v, ¬ s.serves p v → t.voice v = s.voice v) ∧
    ((s.part p).live.voiceMode = old → s.excessReleased t p) ∧
    ((s.part p).live.voiceMode ≠ old → 1 ≤ (s.part p).live.unisonCount → (s.part p).held.length ≤ 16 → s.reseated t p)) ∧
  (∀ (s : State) (a : Assignment), (∀ v, (s.voice v).assignedRight) → s.stampsClose → s.keyReHomed (s.reHomeOne a) a) ∧
  (∀ (s : State) (k : CardNo), (∀ v, (s.voice v).assignedRight) → s.stampsWithin 4 →
    ∃ r : State, r.parts = s.parts ∧ r.stamp = s.stamp ∧ r.settings = s.settings ∧
      (∀ v : Voice, r.voice v = if v.val / 4 = k.val then { s.voice v with
          state := .absent, asg := none, glide := 0, tail := 0, gap := 0, tunePending := false, offlinePending := false }
        else s.voice v) ∧
      State.keysReHomed (s.keysLost fun v => v.val / 4 == k.val) r (s.slotDown k) ∧
      let waits (v : Voice) : Prop := v.val / 4 ≠ k.val ∧ (s.entry v).state = .waiting
      (s.passRunning = true → (∀ x, s.tune.service = some x → x.voice.val / 4 = k.val) → (∃ v, waits v) →
        (∀ v, waits v → (s.entry v).named) → s.nextServed r waits ∧ s.serviceBegins r (s.tune.unit = none
          ∨ (∃ c, s.tune.check = some c ∧ c.voice.val / 4 = k.val)
          ∨ ∃ x m, s.tune.service = some x ∧ s.tune.unit = some m ∧ m.requester = .pass))) ∧
  ∀ (s : State) (k : CardNo),
    let t := s.slotDown k
    let lost (v : Voice) : Prop := v.val / 4 = k.val
    let waits (v : Voice) : Prop := ¬ lost v ∧ (s.entry v).state = .waiting
    let free := ∀ x, s.tune.service = some x → lost x.voice
    t.tune.cal = s.tune.cal ∧ t.tune.plan = s.tune.plan ∧
    (∀ v, lost v →
      ((s.entry v).toServe → (t.entry v).state = .left ∧ (t.entry v).reason = .lost) ∧
      (¬ (s.entry v).toServe → (t.entry v).state = (s.entry v).state ∧ (t.entry v).reason = (s.entry v).reason)) ∧
    (∀ v, ¬ lost v → t.entry v = s.entry v ∨ free ∧ waits v ∧ (t.entry v).state = .inService) ∧
    (∀ c, s.tune.check = some c → lost c.voice →
      t.tune.check = none ∧ t.overrideAt c.voice c.dest.tuned.number = none ∧
      ∀ x, s.tune.service = some x → ¬ lost x.voice → s.tune.requestWaiting = true → s.grants t x) ∧
    (∀ m, s.tune.unit = some m → lost m.voice →
      (m.requester = .check → ∃ c, s.tune.check = some c ∧ c.voice = m.voice) →
      (m.requester = .pass → ∃ x, s.tune.service = some x ∧ x.voice = m.voice) →
      ∀ m', t.tune.unit = some m' → m'.requester = .pass ∧ ¬ lost m'.voice) ∧
    (∀ x, s.tune.service = some x → lost x.voice →
      t.tune.heldQuarantine = false ∧ ((t.entry x.voice).sum x.dest).state = .restored ∧
      t.overrideAt x.voice x.dest.number = none ∧ (x.dest = .cutoff → t.overrideAt x.voice 3 = none)) ∧
    (∀ x, s.tune.service = some x → ¬ lost x.voice → t.tune.service = some x ∧
      t.tune.heldQuarantine = s.tune.heldQuarantine ∧ t.tune.outcome = s.tune.outcome ∧ t.notices = s.notices) ∧
    (s.passRunning = true → free →
      ((∃ v, waits v) → (∀ v, waits v → (s.entry v).named) → s.nextServed t waits) ∧
      ((∀ v, ¬ waits v) → t.tune.service = none ∧
        ((∃ v, ¬ lost v ∧ (s.entry v).state = .pending) → t.tune.outcome = .running ∧ t.notices = s.notices) ∧
        ((∀ v, ¬ lost v → ¬ (s.entry v).toServe) →
          t.tune.outcome = .completed ∧ t.notices = { s.notices with tune := true })))

/-- VOICE_ONLINE brings an OFFLINE voice into service and is refused in any other state and above voice 15 (R49). -/
def Obligations.VoiceOnlineFromOffline : Prop :=
  ∀ (voice : Byte) (s : State), s.inHand = some (.voiceOnline voice) →
    (∀ v : Voice, voice.toNat = v.val → (s.voice v).state = .offline →
      ends (.voiceOnline voice) s fun t =>
        t = { s with voices := t.voices, stamp := s.stamp + 1, port := s.answered .ok [] } ∧
        t.voice v = { s.voice v with state := .idle, lastFree := s.stamp + 1, idle := 0 } ∧
        ∀ w, w ≠ v → t.voice w = s.voice w) ∧
    (∀ v : Voice, voice.toNat = v.val → (s.voice v).state ≠ .offline →
      exec (.voiceOnline voice) s = .next (s.onlyAnswered .wrongState [])) ∧
    (15 < voice.toNat → exec (.voiceOnline voice) s = .next (s.onlyAnswered .badValue []))

/-- VOICE_OFFLINE by the voice's state (R50): at once, by release with offline-pending, or refused. The entry of a
tune-pending voice becomes LEFT, and the pass may end by it (R109, R118). That a voice whose tail is 0 frames is then OFFLINE
at once (R34, R38), its pending flags being put right before the release, is the model's reading (log entry 8), as it is that
its gap count is 0 (log entry 5). The check in hand of a RETUNING voice is abandoned, and a pass request that waits is
granted the unit (R104, R133). -/
def Obligations.VoiceOfflineByState : Prop :=
  ∀ (voice : Byte) (s : State), s.inHand = some (.voiceOffline voice) →
    (15 < voice.toNat → exec (.voiceOffline voice) s = .next (s.onlyAnswered .badValue [])) ∧
    ∀ v : Voice, voice.toNat = v.val →
      ((s.voice v).state = .absent ∨ (s.voice v).state = .calibrating ∨ (s.voice v).state = .quarantined →
        exec (.voiceOffline voice) s = .next (s.onlyAnswered .wrongState [])) ∧
      ((s.voice v).state = .offline → exec (.voiceOffline voice) s = .next (s.onlyAnswered .ok [])) ∧
      ((s.voice v).state = .idle →
        exec (.voiceOffline voice) s =
          .next ((s.setVoice v { s.voice v with state := .offline }).onlyAnswered .ok [])) ∧
      ((s.voice v).state = .retuning → ends (.voiceOffline voice) s fun t =>
        t.voice v = { s.voice v with state := .offline } ∧ t.port = s.answered .ok [] ∧ s.abandons t v ∧
        ∀ c, s.tune.check = some c → c.voice = v → t.tune.check = none) ∧
      ((s.voice v).state = .releasing → ends (.voiceOffline voice) s fun t =>
        t.voice v = { s.voice v with offlinePending := true, tunePending := false } ∧ t.port = s.answered .ok []) ∧
      ((s.voice v).state = .sounding ∨ (s.voice v).state = .stealGap ∨ (s.voice v).state = .releasing →
        (s.voice v).tunePending = true → (s.entry v).state = .pending →
        ends (.voiceOffline voice) s fun t => t.port = s.answered .ok [] ∧ s.leavesPass t v) ∧
      ((s.voice v).state = .sounding ∨ (s.voice v).state = .stealGap →
        ∀ a, (s.voice v).asg = some a → 2 ≤ ((s.part a.part).live.params[(6 : Fin 25)]).toNat →
        ends (.voiceOffline voice) s fun t =>
          (t.voice v).state = .releasing ∧ (t.voice v).offlinePending = true ∧ (t.voice v).tunePending = false ∧
          (t.voice v).tail = ((s.part a.part).live.params[(6 : Fin 25)]).toNat / 2 ∧
          (t.voice v).asg = some { a with sustained := false } ∧ t.port = s.answered .ok [] ∧
          (∀ p, t.part p = s.part p) ∧ ∀ w, w ≠ v → t.voice w = s.voice w) ∧
      ((s.voice v).state = .sounding ∨ (s.voice v).state = .stealGap →
        ∀ a, (s.voice v).asg = some a → ((s.part a.part).live.params[(6 : Fin 25)]).toNat < 2 →
        ends (.voiceOffline voice) s fun t =>
          t.voice v = { s.voice v with
            state := .offline, asg := none, glide := 0, tail := 0, gap := 0, tunePending := false, offlinePending := false } ∧
          t.port = s.answered .ok [] ∧ t.parts = s.parts ∧ t.stamp = s.stamp ∧ ∀ w, w ≠ v → t.voice w = s.voice w)

/-- RELEASE_QUARANTINE makes a QUARANTINED voice OFFLINE and keeps its record of trouble (R137). CLEAR_FAILS sets the failure
count to 0 in every service state and changes nothing else (R138). -/
def Obligations.QuarantineReleasedAndFailsCleared : Prop :=
  (∀ (voice : Byte) (s : State), s.inHand = some (.releaseQuarantine voice) →
    (∀ v : Voice, voice.toNat = v.val → (s.voice v).state = .quarantined →
      exec (.releaseQuarantine voice) s =
        .next ((s.setVoice v { s.voice v with state := .offline }).onlyAnswered .ok [])) ∧
    (∀ v : Voice, voice.toNat = v.val → (s.voice v).state ≠ .quarantined →
      exec (.releaseQuarantine voice) s = .next (s.onlyAnswered .wrongState [])) ∧
    (15 < voice.toNat → exec (.releaseQuarantine voice) s = .next (s.onlyAnswered .badValue []))) ∧
  ∀ (voice : Byte) (s : State), s.inHand = some (.clearFails voice) →
    (∀ v : Voice, voice.toNat = v.val →
      exec (.clearFails voice) s = .next ((s.setVoice v { s.voice v with fails := 0 }).onlyAnswered .ok [])) ∧
    (15 < voice.toNat → exec (.clearFails voice) s = .next (s.onlyAnswered .badValue []))

/-! ### Tuning (R95 to R139) -/

/-- TUNE (R107, R46, R110): its refusals; with every named voice IDLE, each becomes CALIBRATING with an entry, the
lowest-numbered one is taken into service, and the answer names them all as taken; with every named voice at a key and no
force, each becomes tune-pending with an entry PENDING and keeps its key (R47); of any voices of which one is granted, with
and without force, each named voice by its state, its entry with the TUNE's destination set or its reason, the voice taken
into service, and the answer's three sets and reasons; with force, the voices at a key leave it at once, all of them before
the first of their keys is re-homed (R43, R47); with every named voice refused, no pass begins, and the answer gives their
set and reasons. That an answer carries sixteen reasons is the model's reading (log entry 14), as it is that a re-homed voice
takes the note and velocity of the entry held (log entry 17), and that a pass running is looked for before a field out of
range its choice (log entry 34). That the iteration is 1 from the event that asks for a first trial is the model's choice
(log entry 36). -/
def Obligations.TuneClaimsItsVoices : Prop :=
  ∀ (voices : BitVec 16) (dests force : Byte) (s : State), s.inHand = some (.tune voices dests force) →
    let named (v : Voice) : Prop := voices.getLsbD v.val = true
    let first : Tuned := if dests.getLsbD 0 then .a else if dests.getLsbD 1 then .b else .cutoff
    (s.passRunning = true → exec (.tune voices dests force) s = .next (s.onlyAnswered .wrongState [])) ∧
    (s.passRunning = false → voices = 0 ∨ dests = 0 ∨ 7 < dests.toNat ∨ 1 < force.toNat →
      exec (.tune voices dests force) s = .next (s.onlyAnswered .badValue [])) ∧
    (s.passRunning = false → voices ≠ 0 → dests ≠ 0 → dests.toNat ≤ 7 → force.toNat ≤ 1 →
      ((∀ v, named v → (s.voice v).state = .idle) →
        ends (.tune voices dests force) s fun t =>
          t.port = s.answered .accepted (bytes16 voices ++ List.replicate 20 0) ∧
          t.tune.outcome = .running ∧ t.tune.force = decide (force.toNat = 1) ∧ t.tune.cal = s.tune.cal ∧
          (∃ x, t.tune.service = some x ∧ named x.voice ∧ x.dest = first ∧
            s.destBegins t x.voice x.dest (s.tune.unit = none) ∧ t.entered x.voice .inService dests first ∧
            ∀ v : Voice, (v.val < x.voice.val → ¬ named v) ∧
              (v ≠ x.voice → named v → t.entered v .waiting dests first)) ∧
          ∀ v, (named v → t.voice v = { s.voice v with state := .calibrating }) ∧
            (¬ named v → t.voice v = s.voice v ∧ (t.entry v).state = .notInPass)) ∧
      (force = 0 → (∀ v, named v → (s.voice v).offlinePending = false ∧
          ((s.voice v).state = .sounding ∨ (s.voice v).state = .releasing ∨ (s.voice v).state = .stealGap)) →
        ends (.tune voices dests force) s fun t =>
          t.port = s.answered .accepted ([0, 0] ++ bytes16 voices ++ List.replicate 18 0) ∧
          t.tune.outcome = .running ∧ t.tune.service = none ∧
          ∀ v, (named v → t.voice v = { s.voice v with tunePending := true } ∧ t.entered v .pending dests first) ∧
            (¬ named v → t.voice v = s.voice v ∧ (t.entry v).state = .notInPass)) ∧
      ((∀ v, named v → (s.voice v).state = .absent ∨ (s.voice v).state = .offline ∨ (s.voice v).state = .quarantined ∨
          (s.voice v).offlinePending = true ∧
            ((s.voice v).state = .sounding ∨ (s.voice v).state = .releasing ∨ (s.voice v).state = .stealGap)) →
        exec (.tune voices dests force) s = .next (s.onlyAnswered .ok (bytes16 voices ++ s.skipReasons voices))) ∧
      (let spare (v : Voice) : Prop := (s.voice v).state = .idle ∨ (s.voice v).state = .retuning
       let keyed (v : Voice) : Prop := (s.voice v).offlinePending = false ∧
         ((s.voice v).state = .sounding ∨ (s.voice v).state = .releasing ∨ (s.voice v).state = .stealGap)
       let takes (v : Voice) : Prop := named v ∧ (spare v ∨ force = 1 ∧ keyed v)
       let waits (v : Voice) : Prop := named v ∧ force = 0 ∧ keyed v
       let skips (v : Voice) : Prop := named v ∧ ¬ spare v ∧ ¬ keyed v
       (∃ v, takes v ∨ waits v) → (∀ v, named v → (s.voice v).state ≠ .calibrating) →
        (ends (.tune voices dests force) s fun t =>
          t = { s with
            voices := t.voices, parts := t.parts, stamp := t.stamp, freePicks := t.freePicks, tune := t.tune
            refresh := t.refresh, port := t.port } ∧
          t.tune.outcome = .running ∧ t.tune.force = decide (force = 1) ∧ t.tune.cal = s.tune.cal ∧
          t.tune.plan = s.tune.plan ∧ t.tune.heldQuarantine = false ∧
          (∃ taken pending skipped : BitVec 16,
            t.port = s.answered .accepted (bytes16 taken ++ bytes16 pending ++ bytes16 skipped ++ s.skipReasons skipped) ∧
            ∀ v : Voice, (taken.getLsbD v.val = true ↔ takes v) ∧ (pending.getLsbD v.val = true ↔ waits v) ∧
              (skipped.getLsbD v.val = true ↔ skips v)) ∧
          ((∀ v, ¬ takes v) → t.tune.service = none) ∧
          ((∃ v, takes v) → ∃ x, t.tune.service = some x ∧ takes x.voice ∧ (∀ v, takes v → x.voice.val ≤ v.val) ∧
            x.dest = first ∧ t.entered x.voice .inService dests first ∧
            (∀ v, v ≠ x.voice → takes v → t.entered v .waiting dests first) ∧
            (s.tune.requestWaiting = false → s.destBegins t x.voice x.dest (s.tune.unit = none
              ∨ ∃ c, s.tune.check = some c ∧ t.tune.check = none))) ∧
          (∀ c, s.tune.check = some c → named c.voice → (s.voice c.voice).state = .retuning → t.tune.check = none) ∧
          ∀ v, (¬ named v → (t.entry v).state = .notInPass) ∧
            (takes v → (t.voice v).state = .calibrating ∧ t.gate v = false) ∧
            (named v → spare v → t.voice v = { s.voice v with state := .calibrating }) ∧
            (takes v → keyed v → (t.voice v).asg = none ∧ (t.voice v).tunePending = false) ∧
            (waits v → t.entered v .pending dests first) ∧
            (skips v → t.voice v = s.voice v ∧ (t.entry v).state = .skipped ∧ (t.entry v).reason = s.skipReason v)) ∧
        (force = 0 → ends (.tune voices dests force) s fun t =>
          t.parts = s.parts ∧ t.stamp = s.stamp ∧ t.freePicks = s.freePicks ∧
          (∀ c, s.tune.check = some c → ¬ (named c.voice ∧ (s.voice c.voice).state = .retuning) → t.tune.check = some c) ∧
          ∀ v, (¬ named v → t.voice v = s.voice v) ∧ (waits v → t.voice v = { s.voice v with tunePending := true })) ∧
        (force = 1 → (∀ v, (s.voice v).assignedRight) → s.stampsWithin 16 → ends (.tune voices dests force) s fun t =>
          ∃ r u : State, r.parts = s.parts ∧ r.stamp = s.stamp ∧ r.settings = s.settings ∧
            (∀ v, (takes v → (r.voice v).state = .calibrating ∧ (r.voice v).asg = none) ∧
              (¬ takes v → r.voice v = s.voice v)) ∧
            ((∀ c, s.tune.check = some c → ¬ (named c.voice ∧ (s.voice c.voice).state = .retuning)) →
              r.tune = s.tune ∧ r.refresh = s.refresh) ∧
            State.keysReHomed (s.keysLost fun v => voices.getLsbD v.val && !(s.voice v).offlinePending) r u ∧
            t.voices = u.voices ∧ t.parts = u.parts ∧ t.stamp = u.stamp ∧ t.tune.check = u.tune.check)))


/-- TUNE_ABORT (R119): refused with no pass running; else the destination in progress is discarded with its overrides, a cutoff's
resonance among them, and shows RESTORED; every voice still to be served is given back, in ascending voice number with a new
last-free stamp each (R22), or goes to QUARANTINED where a request is held, or keeps its key; the entries become DONE with
ABORTED, committed calibration stays, and TUNE is posted. -/
def Obligations.TuneAbortEndsThePass : Prop :=
  ∀ s : State, s.inHand = some .tuneAbort →
    (s.passRunning = false → exec .tuneAbort s = .next (s.onlyAnswered .wrongState [])) ∧
    (s.passRunning = true → ends .tuneAbort s fun t =>
      t.port = s.answered .ok [] ∧ t.tune.outcome = .aborted ∧ t.notices = { s.notices with
        tune := true, health := t.notices.health } ∧ t.tune.cal = s.tune.cal ∧ t.tune.service = none ∧
      (∀ x, s.tune.service = some x → t.tune.requestWaiting = false ∧
        (∀ m, s.tune.unit = some m → m.requester = .pass → t.tune.unit = none) ∧
        t.overrideAt x.voice x.dest.number = none ∧ (x.dest = .cutoff → t.overrideAt x.voice 3 = none) ∧
        ((t.entry x.voice).sum x.dest).state = .restored) ∧
      (∀ m, s.tune.unit = some m → m.requester = .check → t.tune.unit = some m) ∧
      let freed (v : Voice) : Bool :=
        (s.entry v).state == .waiting || (s.entry v).state == .inService && !s.tune.heldQuarantine
      t.stampedFrom s.stamp freed ∧ t.parts = s.parts ∧ t.tune.check = s.tune.check ∧ t.tune.heldQuarantine = false ∧
      ∀ v : Voice,
        (freed v = true → t.voice v = { s.voice v with state := .idle, idle := 0, lastFree := (t.voice v).lastFree }) ∧
        ((s.entry v).state = .inService → s.tune.heldQuarantine = true →
          t.voice v = { s.voice v with state := .quarantined } ∧ t.notices.health.getLsbD v.val = true) ∧
        ((s.entry v).state = .pending → t.voice v = { s.voice v with tunePending := false }) ∧
        ((s.entry v).state = .waiting ∨ (s.entry v).state = .inService ∨ (s.entry v).state = .pending →
          (t.entry v).state = .done ∧ (t.entry v).reason = .aborted) ∧
        ((s.entry v).state = .done ∨ (s.entry v).state = .left ∨ (s.entry v).state = .skipped
            ∨ (s.entry v).state = .notInPass →
          t.voice v = s.voice v ∧ (t.entry v).state = (s.entry v).state ∧ (t.entry v).reason = (s.entry v).reason))

/-- SET_TUNE_PLAN (R123), SET_MONITOR (R79) and SET_PANEL (R157): the fields are replaced together, or the command is refused
and changes nothing. That SET_TUNE_PLAN looks for a pass running before a value out of range is the model's choice (log
entry 34). -/
def Obligations.PlanMonitorAndPanelAreSet : Prop :=
  (∀ (a b c d : Byte) (s : State), s.inHand = some (.setTunePlan a b c d) →
    exec (.setTunePlan a b c d) s = .next (
      if s.passRunning then s.onlyAnswered .wrongState []
      else if a.toNat ≤ 11 ∧ b.toNat ≤ 11 ∧ c.toNat ≤ 11 ∧ d.toNat ≤ 11 ∧ a.toNat < b.toNat ∧ c.toNat < d.toNat then
        State.onlyAnswered { s with tune := { s.tune with plan := ⟨a.toNat, b.toNat, c.toNat, d.toNat⟩ } } .ok []
      else s.onlyAnswered .badValue [])) ∧
  (∀ (x d : Byte) (s : State), s.inHand = some (.setMonitor x d) →
    (∀ (v : Voice) (k : DestNo), x.toNat = v.val → d.toNat = k.val →
      exec (.setMonitor x d) s = .next
        (State.onlyAnswered { s with refresh := { s.refresh with sel := .voice v k, facts := none } } .ok [])) ∧
    (x = 0x40 → exec (.setMonitor x d) s = .next
      (State.onlyAnswered { s with refresh := { s.refresh with sel := .mod, facts := none } } .ok [])) ∧
    (x = 0x41 → exec (.setMonitor x d) s = .next
      (State.onlyAnswered { s with refresh := { s.refresh with sel := .pedal, facts := none } } .ok [])) ∧
    ((15 < x.toNat ∧ x ≠ 0x40 ∧ x ≠ 0x41) ∨ (x.toNat ≤ 15 ∧ 23 < d.toNat) →
      exec (.setMonitor x d) s = .next (s.onlyAnswered .badValue []))) ∧
  ∀ (shift deadband : Byte) (s : State), s.inHand = some (.setPanel shift deadband) →
    exec (.setPanel shift deadband) s = .next (
      if shift.toNat ≤ 4 ∧ 1 ≤ deadband.toNat ∧ deadband.toNat ≤ 64 then
        State.onlyAnswered { s with panel := { s.panel with shift := shift.toNat, deadband := deadband.toNat } } .ok []
      else s.onlyAnswered .badValue [])

/-- WRITE_CAL (R98): its refusals; else the three entries take the codes carried and become CALIBRATED, both drifts become 0,
nothing else changes, and READ_CAL gives the same 78 bytes back (R97, 10.5). That a baseline out of range is looked for
before the voice's state is the model's choice (log entry 34). -/
def Obligations.WriteCalReadsBack : Prop :=
  ∀ (voice : Byte) (record : List Byte) (s : State), s.inHand = some (.writeCal voice record) →
    (15 < voice.toNat → exec (.writeCal voice record) s = .next (s.onlyAnswered .badValue [])) ∧
    ∀ v : Voice, voice.toNat = v.val →
      (16000000 < recordBaseline record 72 ∨ 16000000 < recordBaseline record 75 →
        exec (.writeCal voice record) s = .next (s.onlyAnswered .badValue [])) ∧
      (recordBaseline record 72 ≤ 16000000 → recordBaseline record 75 ≤ 16000000 →
        ((s.voice v).state ≠ .offline → (s.voice v).state ≠ .absent →
          exec (.writeCal voice record) s = .next (s.onlyAnswered .wrongState [])) ∧
        ((s.voice v).state = .offline ∨ (s.voice v).state = .absent → ends (.writeCal voice record) s fun t =>
          t = { s with
            voices := t.voices, tune := { s.tune with cal := t.tune.cal }, port := s.answered .ok [] } ∧
          (calAnswer t v).take 78 = record ∧
          (∀ d, (t.cal v d).status = .calibrated ∧ ∀ k : Fin 12, (t.cal v d).measured[k] = true) ∧
          t.voice v = { s.voice v with
            driftA := { (s.voice v).driftA with target := 0, applied := 0 }
            driftB := { (s.voice v).driftB with target := 0, applied := 0 } } ∧
          ∀ w, w ≠ v → t.voice w = s.voice w ∧ t.calRecord w = s.calRecord w))

/-- The phases of a measurement (R100 to R102): settle frames, the wait for an edge, the count of ticks and edges, and the
limits at four and at two target counts; an edge of the tune line in WAIT_WRITE or SETTLING changes nothing. That SETTLE_END
changes nothing with two or more frames left is the model's choice (log entry 2), and so is the operand of TUNE_LINE_EDGE,
the ticks since the unit's last event (log entries 6 and 29). -/
def Obligations.MeasurementPhasesAdvance : Prop :=
  ∀ (s : State) (m : Measurement), s.tune.unit = some m →
    let moved (x : Phase) : State := { s with tune := { s.tune with unit := some { m with phase := x } } }
    (∀ n, m.phase = .settling n → 2 ≤ n →
      exec .tuneFrameExpiry s = .next (moved (.settling (n - 1))) ∧ exec .settleEnd s = .next s) ∧
    (m.phase = .settling 1 →
      exec .tuneFrameExpiry s = .next (moved (.waitEdge 0)) ∧ exec .settleEnd s = .next (moved (.waitEdge 0))) ∧
    (∀ n k, m.phase = .waitEdge n →
      (n + k < 4 * m.tg → exec (.tuneLineEdge k) s = .next (moved (.counting 0 0))) ∧
      (4 * m.tg ≤ n + k → exec (.tuneLineEdge k) s = exec .noSignal s)) ∧
    ((m.phase = .waitWrite ∨ ∃ n, m.phase = .settling n) → ∀ k, exec (.tuneLineEdge k) s = .next s) ∧
    ∀ n c k, m.phase = .counting n c →
      (2 * m.tg ≤ n + k → exec (.tuneLineEdge k) s = exec .tooSlow s) ∧
      (n + k < 2 * m.tg → c + 1 < m.window →
        exec (.tuneLineEdge k) s = .next (moved (.counting (n + k) (c + 1)))) ∧
      (n + k < 2 * m.tg → m.window ≤ c + 1 → exec (.tuneLineEdge k) s = exec (.measurementComplete (n + k)) s)

/-- A background check completes at its measurement's end (R130 to R132): override withdrawn, the finding applied to the
checked destination alone, with the step of R105 added to the drift target and the target clamped, or the code at its rail,
the drift alarm evaluated after a COUNT or TOO_SLOW and its change posted (R134), the failure count incremented and posted
(R135), QUARANTINED where the increment lands on the threshold (R136), the other destination next, a new last-check stamp,
and the voice returned. A pass request that waits is granted the unit at once (R104). The measurement granted has the window
and the target count of R99. -/
def Obligations.CheckCompletesAtItsMeasurement : Prop :=
  ∀ (s : State) (m : Measurement) (c : Check) (e : Instr) (count : Option Nat),
    s.tune.unit = some m → m.requester = .check → s.tune.check = some c → s.failsFit →
    (∃ n k i, m.phase = .counting n k ∧ e = .measurementComplete i ∧ n ≤ i ∧ i < 2 * m.tg ∧ count = some i)
      ∨ (∃ n k, m.phase = .counting n k ∧ e = .tooSlow ∧ count = some (2 * c.tg))
      ∨ (∃ n, m.phase = .waitEdge n ∧ e = .noSignal ∧ count = none) →
    ends e s fun t =>
      let r := s.voice c.voice
      let r' := t.voice c.voice
      let x := r.drift c.dest
      let x' := r'.drift c.dest
      t.tune.check = none ∧
      (s.tune.requestWaiting = false ∨ s.tune.service = none →
        t.tune.unit = none ∧ t.overrideAt c.voice c.dest.tuned.number = none) ∧
      (∀ y, s.tune.requestWaiting = true → s.tune.service = some y → t.tune.requestWaiting = false ∧
        (y.voice ≠ c.voice ∨ y.dest ≠ c.dest.tuned → t.overrideAt c.voice c.dest.tuned.number = none) ∧
        t.overrideAt y.voice y.dest.number = some y.work.trial ∧ s.grants t y) ∧
      t.stamp = s.stamp + 1 ∧ r'.lastCheckStamp = s.stamp + 1 ∧ r'.nextCheck = c.dest.other ∧
      (r'.state = .idle ∨ r'.state = .quarantined) ∧ r'.lastFree = r.lastFree ∧ r'.idle = r.idle ∧
      r'.drift c.dest.other = r.drift c.dest.other ∧ x'.applied = x.applied ∧
      (s.settings.quarantine = false → r'.state = .idle) ∧ (∀ w, w ≠ c.voice → t.voice w = s.voice w) ∧
      (count = none → x' = { x with lastCheck := .noSignal } ∧ r'.fails = min 255 (r.fails + 1)) ∧
      (∀ i, count = some i → ((i : Int) - c.tg).natAbs * 65536 ≤ c.tg * s.settings.tolerance →
        x'.target = x.target ∧ x'.lastCheck = .within i ∧ r'.fails = r.fails) ∧
      (∀ i, count = some i → ¬ ((i : Int) - c.tg).natAbs * 65536 ≤ c.tg * s.settings.tolerance →
        (x'.lastCheck = .corrected i ∧ r'.fails = r.fails
          ∨ (x'.lastCheck = .limited i ∨ x'.lastCheck = .atRail i) ∧ r'.fails = min 255 (r.fails + 1)) ∧
        (-2047 ≤ x.target → x.target ≤ 2047 → -2047 ≤ x'.target ∧ x'.target ≤ 2047) ∧
        let difference : Int := (tableAt (s.cal c.voice c.dest.tuned).codes c.bp 0).toNat
          - (tableAt (s.cal c.voice c.dest.tuned).codes (c.bp - 1) 0).toNat
        let sum := x.target + codeStep (if 2 ≤ difference then difference else s.settings.nominalCpo) i c.tg
        let railed := c.code = 0 ∧ i < c.tg ∨ c.code = 0xFFFF ∧ c.tg < i
        (railed → x'.lastCheck = .atRail i ∧ x'.target = x.target) ∧
        (¬ railed → -2047 ≤ sum → sum ≤ 2047 → x'.lastCheck = .corrected i ∧ x'.target = sum) ∧
        (¬ railed → sum < -2047 → x'.lastCheck = .limited i ∧ x'.target = -2047) ∧
        (¬ railed → 2047 < sum → x'.lastCheck = .limited i ∧ x'.target = 2047)) ∧
      (∀ i, count = some i →
        let large := (s.settings.alarmLevel : Int) < x'.target.natAbs
        x'.overCount = (if large then min 3 (x.overCount + 1) else 0) ∧
        x'.underCount = (if large then 0 else min 3 (x.underCount + 1)) ∧
        (x.alarm = false → 1 ≤ s.settings.alarmSet → 1 ≤ s.settings.alarmClear →
          (x'.alarm = true ↔ s.settings.alarmSet ≤ x'.overCount)) ∧
        (x.alarm = true → (x'.alarm = false ↔ s.settings.alarmClear ≤ x'.underCount))) ∧
      (r'.state = .quarantined ↔
        s.settings.quarantine = true ∧ r'.fails = r.fails + 1 ∧ r'.fails = s.settings.failThreshold) ∧
      (x'.alarm ≠ x.alarm ∨ r'.fails ≠ r.fails ∨ r'.state = .quarantined →
        t.notices.health.getLsbD c.voice.val = true) ∧
      (x'.alarm = x.alarm → r'.fails = r.fails → t.notices = s.notices) ∧
      (∀ v d, t.cal v d = s.cal v d) ∧ t.parts = s.parts

/-- A TUNE_FRAME expiry with the unit free and no check in hand (R127 to R129): with no eligible voice it changes nothing;
else the eligible voice with the oldest last-check stamp, and of those with one stamp the lowest-numbered (R22), becomes
RETUNING, and the measurement of its check begins at its committed code plus its drift target, with the window and the target
count of R99. The stamps compared lie within
half the counter's range. -/
def Obligations.CheckBeginsOnTheVoiceCheckedLongestAgo : Prop :=
  ∀ s : State, s.tune.unit = none → s.tune.check = none → s.tune.requestWaiting = false →
    let tuned (v : Voice) (d : Osc) : Prop :=
      (s.cal v d.tuned).status = .calibrated ∨ (s.cal v d.tuned).status = .part
    let ready (v : Voice) : Prop :=
      s.settings.backgroundChecks = true ∧ s.passRunning = false ∧ (s.voice v).state = .idle
        ∧ s.settings.idleDwell ≤ (s.voice v).idle ∧ (tuned v .a ∨ tuned v .b)
    ((∀ v, ¬ ready v) → exec .tuneFrameExpiry s = .next s) ∧
    ((∃ v, ready v) → (∀ v, (s.stamp - (s.voice v).lastCheckStamp).toNat < 2 ^ 31) →
      ends .tuneFrameExpiry s fun t => ∃ c m,
        t.tune.check = some c ∧ ready c.voice ∧
        (∀ w, ready w → (s.stamp - (s.voice w).lastCheckStamp).toNat
          ≤ (s.stamp - (s.voice c.voice).lastCheckStamp).toNat) ∧
        (∀ w, ready w → (s.voice w).lastCheckStamp = (s.voice c.voice).lastCheckStamp → c.voice.val ≤ w.val) ∧
        tuned c.voice c.dest ∧ (tuned c.voice (s.voice c.voice).nextCheck → c.dest = (s.voice c.voice).nextCheck) ∧
        c.bp = s.settings.checkBreakpoint ∧
        (c.code.toNat : Int) = max 0 (min 65535
          ((tableAt (s.cal c.voice c.dest.tuned).codes c.bp 0).toNat + ((s.voice c.voice).drift c.dest).target)) ∧
        s.measures t m ∧ m.requester = .check ∧ m.voice = c.voice ∧ m.dest = c.dest.tuned ∧ m.bp = c.bp ∧
        m.code = c.code ∧ m.tg = c.tg ∧
        t.overrideAt c.voice c.dest.tuned.number = some c.code ∧ t.tune.cal = s.tune.cal ∧ t.stamp = s.stamp ∧
        t.voice c.voice = { s.voice c.voice with state := .retuning } ∧ ∀ w, w ≠ c.voice → t.voice w = s.voice w)

/-- A count in a pass, or a TOO_SLOW, which counts as twice the target (R102). Within tolerance, below the plan's high
breakpoint (R112, R113, R104): the trial becomes the breakpoint's working code, and the next breakpoint's first trial is put
on the channel and measured at once. Outside it, with the iterations not used up and the trial off its rail: the next trial
is the old one with R105's step added, clamped, and so lies on the side that the count asks for (R105, R112, R113). With the
iterations used up, or the trial at its rail in the direction of the step: the breakpoint fails, keeps its code, and the next
one begins (R113). Each measurement has the window and the target count of R99. NO_SIGNAL fails the destination and keeps
what was committed (R114). That the iteration is 1 from the event that asks for a first trial is the model's choice (log
entry 36). -/
def Obligations.PassTakesAnOutcome : Prop :=
  ∀ (s : State) (m : Measurement) (x : InService),
    s.tune.unit = some m → m.requester = .pass → s.tune.service = some x →
    (∀ (n k i : Nat) (e : Instr), m.phase = .counting n k →
      (e = .measurementComplete i ∧ n ≤ i ∧ i < 2 * m.tg ∨ e = .tooSlow ∧ i = 2 * m.tg) →
      let w := x.work
      let near := ((i : Int) - m.tg).natAbs * 65536 ≤ m.tg * s.settings.tolerance
      let railed := w.trial = 0 ∧ i < m.tg ∨ w.trial = 0xFFFF ∧ m.tg < i
      let measures (t : State) (y : Working) (m' : Measurement) : Prop :=
        t.tune.service = some { x with work := y } ∧ t.tune.requestWaiting = false ∧ s.measures t m' ∧ m'.requester = .pass ∧
        m'.voice = x.voice ∧ m'.dest = x.dest ∧ m'.bp = y.bp ∧ m'.code = y.trial ∧ t.tune.cal = s.tune.cal ∧
        t.voices = s.voices
      (near → w.bp < w.hi → s.tuneFit → ends e s fun t => ∃ y m', measures t y m' ∧
        y.bp = w.bp + 1 ∧ y.iter = 1 ∧ y.lo = w.lo ∧ y.hi = w.hi ∧
        tableAt y.codes w.bp 0 = w.trial ∧ tableAt y.counts w.bp none = some i ∧
        (∀ j, j ≠ w.bp → tableAt y.codes j 0 = tableAt w.codes j 0 ∧ tableAt y.counts j none = tableAt w.counts j none) ∧
        let rise : Int := (w.trial.toNat : Int) - (tableAt w.codes (w.bp - 1) 0).toNat
        let cpo : Int := if 1 ≤ w.bp ∧ tableAt w.counts (w.bp - 1) none ≠ none ∧ 2 ≤ rise then rise else s.settings.nominalCpo
        (y.trial.toNat : Int) = max 0 (min 65535 (w.trial.toNat + cpo))) ∧
      (¬ near → w.iter < s.settings.maxIterations → ¬ railed → ends e s fun t => ∃ y m', measures t y m' ∧
        y = { w with iter := w.iter + 1, trial := y.trial } ∧
        (m.tg < i → w.trial.toNat < y.trial.toNat) ∧ (i < m.tg → y.trial.toNat < w.trial.toNat) ∧
        let rise : Int := (tableAt w.codes (w.bp - 1) 0).toNat - (tableAt w.codes (w.bp - 2) 0).toNat
        let cpo : Int := if 2 ≤ w.bp ∧ tableAt w.counts (w.bp - 1) none ≠ none ∧ tableAt w.counts (w.bp - 2) none ≠ none
          ∧ 2 ≤ rise then rise else s.settings.nominalCpo
        (y.trial.toNat : Int) = max 0 (min 65535 (w.trial.toNat + codeStep cpo i m.tg))) ∧
      (¬ near → s.settings.maxIterations ≤ w.iter ∨ railed → w.bp < w.hi → ends e s fun t => ∃ y m', measures t y m' ∧
        y = { w with bp := w.bp + 1, iter := 1, trial := y.trial } ∧
        (tableAt w.counts w.bp none = none → y.trial = tableAt w.codes (w.bp + 1) 0))) ∧
    (∀ n, m.phase = .waitEdge n → ends .noSignal s fun t =>
      t.cal x.voice x.dest = { s.cal x.voice x.dest with status := .failed } ∧
      (∀ v d, v ≠ x.voice ∨ d ≠ x.dest → t.cal v d = s.cal v d) ∧
      ((s.voice x.voice).fails < 255 → (t.voice x.voice).fails = (s.voice x.voice).fails + 1 ∧
        t.notices.health.getLsbD x.voice.val = true) ∧
      ((t.entry x.voice).sum x.dest).state = .failed ∧ ((t.entry x.voice).sum x.dest).cause = .noSignal)

/-- The end of a destination in a pass: at the plan's high breakpoint it is committed where two breakpoints or more converged
(R116), and fails with FEW_CONVERGED where fewer did; NO_SIGNAL fails it anywhere (R114). The voice's next destination then
begins (R110, R111), or its service ends: it is returned, to QUARANTINED with a request held (R117, R136), and the pass takes
its lowest-numbered waiting voice into service, waits for a pending one, or ends with a TUNE event (R110, R118). Of the codes
committed (R115), a converged breakpoint keeps its own, one between converged neighbours lies on the line between them, and
one below or above them all on the line through the nearest two, floor-divided and clamped. That the iteration is 1 from the
event that asks for a first trial is the model's choice (log entry 36). Each measurement that begins has the window and the
target count of R99. -/
def Obligations.DestinationEndsAndThePassGoesOn : Prop :=
  (∀ (w : Working) (d : Tuned) (check : Nat),
    let e := w.commit d check
    let met (k : Nat) : Prop := tableAt w.counts k none ≠ none
    let code (k : Nat) : Int := (tableAt w.codes k 0).toNat
    let line (base p q k : Nat) : Int := code base + (code q - code p) * ((k : Int) - base) / ((q : Int) - p)
    (∀ k : Fin 12, e.measured[k] = true ↔ met k.val) ∧
    (∀ k : Fin 12, met k.val → e.codes[k] = w.codes[k]) ∧
    (∀ (k : Fin 12) (j l : Nat), met j → met l → j < k.val → k.val < l → (∀ i, j < i → i < l → ¬ met i) →
      ((e.codes[k]).toNat : Int) = line j j l k.val) ∧
    (∀ (k : Fin 12) (l l' : Nat), met l → met l' → k.val < l → l < l' → (∀ i, i < l' → met i → i = l) →
      ((e.codes[k]).toNat : Int) = max 0 (min 65535 (line l l l' k.val))) ∧
    (∀ (k : Fin 12) (h' h : Nat), met h' → met h → h' < h → h < k.val → (∀ i, h' < i → met i → i = h) →
      ((e.codes[k]).toNat : Int) = max 0 (min 65535 (line h h' h k.val))) ∧
    (e.status = if ∀ k : Fin 12, w.lo ≤ k.val → k.val ≤ w.hi → (tableAt w.counts k.val none).isSome = true
      then .calibrated else .part) ∧
    (d ≠ .cutoff → e.baseline = tableAt w.counts check none) ∧ (d = .cutoff → e.baseline = none)) ∧
  ∀ (s : State) (m : Measurement) (x : InService) (e : Instr) (w : Working) (cause : FailCause),
    s.tune.unit = some m → m.requester = .pass → s.tune.service = some x → s.passRunning = true → s.tuneFit →
    (∃ n k i, m.phase = .counting n k ∧
        (e = .measurementComplete i ∧ n ≤ i ∧ i < 2 * m.tg ∨ e = .tooSlow ∧ i = 2 * m.tg) ∧ x.work.bp = x.work.hi ∧
        (if ((i : Int) - m.tg).natAbs * 65536 ≤ m.tg * s.settings.tolerance then
          w = { x.work with
            codes := tablePut x.work.codes x.work.bp x.work.trial, counts := tablePut x.work.counts x.work.bp (some i) }
        else w = x.work ∧ (s.settings.maxIterations ≤ x.work.iter ∨ x.work.trial = 0 ∧ i < m.tg
          ∨ x.work.trial = 0xFFFF ∧ m.tg < i)) ∧ cause = .fewConverged)
      ∨ (∃ n, m.phase = .waitEdge n ∧ e = .noSignal ∧ w = x.work ∧ cause = .noSignal) →
    let v := x.voice
    let r := s.voice v
    let converged := (w.counts.toList.filter Option.isSome).length
    let commits := cause = .fewConverged ∧ 2 ≤ converged
    let request := ¬ commits ∧ r.fails < 255 ∧ s.settings.quarantine = true ∧ r.fails + 1 = s.settings.failThreshold
    let quarantines := s.tune.heldQuarantine = true ∨ request
    let next := x.dest.after.find? (s.entry v).has
    let waits (u : Voice) : Prop := u ≠ v ∧ (s.entry u).state = .waiting
    ends e s fun t =>
      (∀ u d, u ≠ v ∨ d ≠ x.dest → t.cal u d = s.cal u d) ∧ t.overrideAt v x.dest.number = none ∧ t.parts = s.parts ∧
      (x.dest = .cutoff → t.overrideAt v 3 = none) ∧ (∀ u, u ≠ v → t.voice u = s.voice u) ∧
      (commits →
        t.cal v x.dest = w.commit x.dest s.settings.checkBreakpoint ∧ (t.voice v).fails = r.fails ∧
        ((t.entry v).sum x.dest).state =
          (if (w.commit x.dest s.settings.checkBreakpoint).status = .calibrated then .calibrated else .part) ∧
        ∀ d : Osc, (t.voice v).drift d = if d.tuned = x.dest then { r.drift d with target := 0, applied := 0 } else r.drift d) ∧
      (¬ commits →
        t.cal v x.dest = { s.cal v x.dest with status := .failed } ∧
        (r.fails < 255 → (t.voice v).fails = r.fails + 1 ∧ t.notices.health.getLsbD v.val = true) ∧
        (255 ≤ r.fails → (t.voice v).fails = r.fails) ∧ (∀ d : Osc, (t.voice v).drift d = r.drift d) ∧
        ((t.entry v).sum x.dest).state = .failed ∧ ((t.entry v).sum x.dest).cause = cause) ∧
      ((t.entry v).sum x.dest).converged = converged ∧
      (∀ d, next = some d →
        (t.voice v).state = r.state ∧ (t.tune.heldQuarantine = true ↔ quarantines) ∧ ∃ y m',
          t.tune.service = some y ∧ y.voice = v ∧ y.dest = d ∧ y.work.codes = (s.cal v d).codes ∧
          y.work.counts = Vector.replicate 12 none ∧ y.work.iter = 1 ∧
          y.work.lo = (match d with | .cutoff => s.tune.plan.cutoffLo | _ => s.tune.plan.pitchLo) ∧
          y.work.hi = (match d with | .cutoff => s.tune.plan.cutoffHi | _ => s.tune.plan.pitchHi) ∧
          y.work.bp = y.work.lo ∧ y.work.trial = tableAt (s.cal v d).codes y.work.lo 0 ∧ s.destBegins t v d True ∧
          s.measures t m' ∧ m'.requester = .pass ∧ m'.voice = v ∧ m'.dest = d ∧ m'.bp = y.work.lo ∧
          m'.code = y.work.trial ∧
          (d = .cutoff → t.overrideAt v 3 = some 0xFFFF)) ∧
      (next = none →
        (t.entry v).state = .done ∧ t.tune.heldQuarantine = false ∧
        (quarantines → (t.voice v).state = .quarantined ∧ t.notices.health.getLsbD v.val = true) ∧
        (¬ quarantines → (t.voice v).state = .idle ∧ (t.voice v).idle = 0 ∧ (t.voice v).lastFree = s.stamp + 1 ∧
          t.stamp = s.stamp + 1) ∧
        ((∃ u, waits u) → (∀ u, waits u → (s.entry u).inA ∨ (s.entry u).inB ∨ (s.entry u).inCutoff) →
          s.nextServed t waits ∧ s.serviceBegins t True ∧ ∃ y, t.tune.service = some y ∧ waits y.voice ∧ (∀ u, waits u → y.voice.val ≤ u.val) ∧
            (t.entry y.voice).state = .inService ∧ t.tune.outcome = .running) ∧
        ((∀ u, ¬ waits u) → t.tune.service = none ∧ t.tune.unit = none ∧
          ((∃ u, u ≠ v ∧ (s.entry u).state = .pending) → t.tune.outcome = .running) ∧
          ((∀ u, u ≠ v → (s.entry u).state ≠ .pending) → t.tune.outcome = .completed ∧ t.notices.tune = true)))

/-! ### Control voltages and refresh (R52 to R82) -/

/-- The write of a channel (R70, R71, R73, R80): the position advances, the pins carry the channel and its code, and the only
other effects are the monitor's record with its trace (R54), the report to a waiting measurement, and CLAMP. A report of another
channel or another code, or in another phase, leaves the measurement as it is (R100). The code computed
where no override is active is that of EachDestinationHasItsCode. -/
def Obligations.ChannelSlotWritesItsChannel : Prop :=
  ∀ s : State, s.refresh.completionDue = false →
    ends .channelSlotExpiry s fun t =>
      t = { s with
        refresh := { s.refresh with
          pos := t.refresh.pos, completionDue := t.refresh.completionDue, facts := t.refresh.facts,
          outChannel := s.refresh.pos, outCode := t.refresh.outCode }
        tune := { s.tune with unit := t.tune.unit }
        notices := { s.notices with clamp := t.notices.clamp } } ∧
      t.refresh.pos.val = (s.refresh.pos.val + 1) % 386 ∧
      t.refresh.completionDue = decide (s.refresh.pos.val = 385) ∧
      (∀ (v : Voice) (d : DestNo), s.refresh.pos.val = 24 * v.val + d.val →
        (∀ code, s.overrideAt v d = some code → t.refresh.outCode = code ∧ t.notices = s.notices ∧
          (∀ m, s.tune.unit = some m → m.phase = .waitWrite → m.voice = v → m.dest.number = d → m.code = code →
            t.tune.unit = some { m with phase := .settling m.settle }) ∧
          (s.tune.unit = none → t.tune = s.tune) ∧
          (∀ m, s.tune.unit = some m → m.phase ≠ .waitWrite ∨ m.voice ≠ v ∨ m.dest.number ≠ d ∨ m.code ≠ code →
            t.tune = s.tune)) ∧
        (s.overrideAt v d = none → t.refresh.outCode = (voiceCode s v d).code ∧ t.tune = s.tune ∧
          ((voiceCode s v d).clamped = true → t.notices.clamp.getLsbD v.val = true) ∧
          ((voiceCode s v d).clamped = false → t.notices = s.notices)) ∧
        (s.refresh.sel ≠ .voice v d → t.refresh.facts = s.refresh.facts) ∧
        (s.refresh.sel = .voice v d → ∃ f, t.refresh.facts = some f ∧ f.code = t.refresh.outCode
          ∧ f.round = s.refresh.round ∧ (f.source = .override ↔ (s.overrideAt v d).isSome)
          ∧ ((s.overrideAt v d).isSome → f.input = none ∧ f.segment = none ∧ f.fraction = none)
          ∧ (s.overrideAt v d = none → f.input = some (voiceCode s v d).input ∧ f.segment = (voiceCode s v d).segment
            ∧ f.fraction = (voiceCode s v d).fraction))) ∧
      (s.refresh.pos.val = 384 → t.tune = s.tune ∧ t.notices = s.notices ∧
        t.refresh.facts = (if s.refresh.sel = .mod then
          some ⟨t.refresh.outCode, .computed, some s.panel.modValue.toNat, none, none, s.refresh.round⟩
          else s.refresh.facts) ∧
        t.refresh.outCode.toNat = 16 * s.panel.modValue.toNat + s.panel.modValue.toNat / 256) ∧
      (s.refresh.pos.val = 385 → t.tune = s.tune ∧ t.notices = s.notices ∧
        t.refresh.facts = (if s.refresh.sel = .pedal then
          some ⟨t.refresh.outCode, .computed, some s.panel.pedalValue.toNat, none, none, s.refresh.round⟩
          else s.refresh.facts) ∧
        t.refresh.outCode.toNat = 16 * s.panel.pedalValue.toNat + s.panel.pedalValue.toNat / 256)

/-- Round completion (R74, R75): the round count increments, and each applied drift is set to its target, or moved by one gear
step while the voice is SOUNDING and farther than that. Where the write of channel 385 has not made it due it changes nothing,
and a completion still due comes before the next write (the model's choice, log entry 2). -/
def Obligations.RoundCompletionGearsDrift : Prop :=
  ∀ s : State,
    (s.refresh.completionDue = false → exec .roundCompletion s = .next s) ∧
    (s.refresh.completionDue = true → ends .roundCompletion s fun t =>
      exec .channelSlotExpiry s = exec .channelSlotExpiry t ∧
      t = { s with
        voices := t.voices, refresh := { s.refresh with round := s.refresh.round + 1, completionDue := false } } ∧
      ∀ (v : Voice) (d : Osc),
        let x := (s.voice v).drift d
        let far := (s.settings.gearStep : Int) < (x.target - x.applied).natAbs
        (t.voice v).drift d = { x with applied := ((t.voice v).drift d).applied } ∧
        ((t.voice v).state = (s.voice v).state ∧ (t.voice v).asg = (s.voice v).asg
          ∧ (t.voice v).pitch = (s.voice v).pitch ∧ (t.voice v).fails = (s.voice v).fails) ∧
        (¬ ((s.voice v).state = .sounding ∧ far) → ((t.voice v).drift d).applied = x.target) ∧
        ((s.voice v).state = .sounding → far → x.applied < x.target →
          ((t.voice v).drift d).applied = x.applied + s.settings.gearStep) ∧
        ((s.voice v).state = .sounding → far → x.target < x.applied →
          ((t.voice v).drift d).applied = x.applied - s.settings.gearStep))

/-- The code, the trace and the clamp of every destination of a voice, from the part of its assignment, of its last part or
part 0 (R53, R69): pitch A with bend, fine tune and unison offset (R33, R55 to R57), pitch B with interval and detune (R58,
R59), the cutoff with its tracking (R60), each interpolated over its own codes (R61, R62), the first two with drift, CLAMP
where the sum is clamped (R63, R64); the direct destinations (R65) and velocity (R66). At a breakpoint the interpolated code
is that breakpoint's, and between two it lies between theirs, so a tuned destination without drift never needs its sum
clamped (R62). -/
def Obligations.EachDestinationHasItsCode : Prop :=
  (∀ (s : State) (v : Voice),
    let r := s.voice v
    let part := s.part (match r.asg with | some a => a.part | none => r.lastPart.getD 0)
    let live := part.live
    let param (i : Fin 25) : Nat := (live.params[i]).toNat
    let pitch (x : Int) : Nat := (max 0 (min 8191 x)).toNat
    let offset : Int := match r.asg, live.voiceMode with
      | some a, .unison => a.unison * live.unisonSpread - ((live.unisonCount : Int) - 1) * live.unisonSpread / 2
      | _, _ => 0
    let pitchA := pitch (r.pitch + (part.bend * live.bendRange * 64).tdiv 8192 + part.fineTune + offset)
    let pitchB := pitch (pitchA + 64 * (min 48 (param 1 / 84 : Nat) - 24) + ((param 2 : Int) - 2048) / 32)
    let cutoff := pitch (2 * param 3 + ((param 4 : Int) * ((r.pitch : Int) - 3840) + 2048) / 4096)
    let line (d : Tuned) (x : Nat) : Int :=
      let c0 : Int := (tableAt (s.cal v d).codes (x / 768) 0).toNat
      let c1 : Int := (tableAt (s.cal v d).codes (x / 768 + 1) 0).toNat
      c0 + ((c1 - c0) * (x % 768 : Nat) + 384) / 768
    let tuned (y : Computed) (x : Nat) (sum : Int) : Prop :=
      (y.code.toNat : Int) = max 0 (min 65535 sum) ∧ (y.clamped = true ↔ sum < 0 ∨ 65535 < sum) ∧ y.input = x
        ∧ y.segment = some (x / 768) ∧ y.fraction = some (x % 768)
    let plain (y : Computed) (x code : Nat) : Prop :=
      y.code.toNat = code ∧ y.clamped = false ∧ y.input = x ∧ y.segment = none ∧ y.fraction = none
    tuned (voiceCode s v 0) pitchA (line .a pitchA + r.driftA.applied) ∧
    tuned (voiceCode s v 1) pitchB (line .b pitchB + r.driftB.applied) ∧
    tuned (voiceCode s v 2) cutoff (line .cutoff cutoff) ∧ (voiceCode s v 2).clamped = false ∧
    (∀ (d : DestNo) (i : Fin 25), 3 ≤ d.val → i.val = d.val + 2 →
      plain (voiceCode s v d) (param i) (16 * param i + param i / 256)) ∧
    (∀ a, r.asg = some a → a.velocity ≤ 127 → plain (voiceCode s v 23) a.velocity (a.velocity * 516)) ∧
    (r.asg = none → plain (voiceCode s v 23) 0 0)) ∧
  ∀ (codes : Vector Code 12) (pitch : Nat), pitch ≤ 8191 →
    (∀ k : Nat, k ≤ 10 → interpolate codes (768 * k) = (tableAt codes k 0).toNat) ∧
    (min (tableAt codes (pitch / 768) 0).toNat (tableAt codes (pitch / 768 + 1) 0).toNat : Int)
      ≤ interpolate codes pitch ∧
    interpolate codes pitch
      ≤ (max (tableAt codes (pitch / 768) 0).toNat (tableAt codes (pitch / 768 + 1) 0).toNat : Int) ∧
    (tunedCode codes pitch 0).clamped = false

/-! ### Card slots (R83 to R94) -/

/-- An edge of a detect line updates the raw reading and restarts the debounce (R84); an opening edge of a seated card is a
removal: power off, voices ABSENT, calibration STALE, removal pending, and a CARD event (R44, R86, R91), the keys lost
re-homed and the tune controller's work given up by the slot-down of PatchChangesAndLostKeys (R43, R44). That a level the
line already has is no edge and changes nothing is the model's choice (log entry 29). -/
def Obligations.DetectEdgeAndRemoval : Prop :=
  ∀ (k : CardNo) (line : DetectLine) (closed : Bool) (s : State),
    let c := s.card k
    let edged : Card := match line with
      | .left => { c with rawLeft := closed, debounce := 20 }
      | .right => { c with rawRight := closed, debounce := 20 }
    (c.raw line = closed → exec (.detectEdge k line closed) s = .next s) ∧
    (c.raw line ≠ closed → closed = true ∨ c.state = .empty ∨ c.state = .half ∨ c.removalPending = true →
      exec (.detectEdge k line closed) s = .next (s.setCard k edged)) ∧
    (c.raw line = true → closed = false → c.removalPending = false → c.state ≠ .empty → c.state ≠ .half →
      ends (.detectEdge k line closed) s fun t =>
        t.card k = { edged with power := false, readyTimer := 0, state := .seated, removalPending := true } ∧
        (∀ j, j ≠ k → t.card j = s.card j) ∧ t.notices.card.getLsbD k.val = true ∧
        (c.state = .powered → ∀ v : Voice, v.val / 4 = k.val →
          (t.voice v).state = .absent ∧ (t.voice v).asg = none ∧ (t.voice v).tunePending = false
          ∧ (t.voice v).offlinePending = false ∧ t.gate v = false ∧ (t.voice v).pitch = (s.voice v).pitch) ∧
        (c.state = .powered →
          let u := (s.setCard k { edged with power := false, readyTimer := 0 }).slotDown k
          t.voices = u.voices ∧ t.parts = u.parts ∧ t.stamp = u.stamp ∧ t.tune = { u.tune with cal := t.tune.cal } ∧
          t.refresh = u.refresh ∧ t.notices = { u.notices with card := t.notices.card }) ∧
        (c.state ≠ .powered → t.voices = s.voices ∧ t.parts = s.parts ∧ t.stamp = s.stamp ∧
          t.tune = { s.tune with cal := t.tune.cal } ∧ t.refresh = s.refresh) ∧
        ∀ (v : Voice) (d : Tuned),
          if v.val / 4 = k.val ∧ ((s.cal v d).status = .calibrated ∨ (s.cal v d).status = .part) then
            t.cal v d = { s.cal v d with status := .stale }
          else t.cal v d = s.cal v d)

/-- Debounce and readiness: an expiry counts debounces down (R84); a debounce taken moves the slot by the lines closed (R85,
R87); a slot whose ready input reads high becomes POWERED and its voices come back, in ascending voice number (R22, R44, R88,
R89); one that shows ready at no expiry goes to POWER_FAULT, and so does a POWERED one whose ready input reads low, its
voices ABSENT, their keys re-homed by the slot-down of PatchChangesAndLostKeys (R43) and its calibration as it was (R90,
R44). An expiry that finds a debounce at its last frame takes it, one that finds ready low in POWERING decrements the ready
timer, and the one that finds it at 1 is the READY_TIMEOUT (R84, R88, R90); a slot with a debounce running and ready to read
has the debounce first. Several slots at one expiry are taken in order, slot A first and slot D last, each as it is where the
others have nothing to do, and all of it before the next (R84). The rows that end a count change nothing elsewhere (the
model's choice, log entry 2). -/
def Obligations.SlotFramesDebounceAndReady : Prop :=
  (∀ (ready : BitVec 4) (s : State),
    (∀ k, (s.card k).debounce ≠ 1 ∧ (s.card k).state ≠ .powering ∧ (s.card k).state ≠ .powered) →
    ends (.slotFrameExpiry ready) s fun t => t = { s with cards := t.cards } ∧
      ∀ k, t.card k = { s.card k with debounce := (s.card k).debounce - 1 }) ∧
  (∀ (k : CardNo) (s : State), (s.card k).debounce ≠ 1 → exec (.debounceTaken k) s = .next s) ∧
  (∀ (k : CardNo) (s : State), (s.card k).debounce = 1 →
    (s.card k).state = .empty ∨ (s.card k).state = .half ∨ (s.card k).removalPending = true →
    let c := s.card k
    let settled : Card := { c with settledLeft := c.rawLeft, settledRight := c.rawRight, debounce := 0 }
    (c.rawLeft = false → c.rawRight = false → exec (.debounceTaken k) s =
      .next (s.setCard k { settled with state := .empty, removalPending := false })) ∧
    (c.rawLeft ≠ c.rawRight → ends (.debounceTaken k) s fun t => t = { s with cards := t.cards } ∧
      (t.card k).state = .half ∧ (t.card k).settledLeft = c.rawLeft ∧ (t.card k).settledRight = c.rawRight ∧
      (t.card k).removalPending = false) ∧
    (c.rawLeft = true → c.rawRight = true → ends (.debounceTaken k) s fun t =>
      t = { s with cards := t.cards, notices := { s.notices with card := t.notices.card } } ∧
      t.notices.card.getLsbD k.val = true ∧ (∀ j, j ≠ k → t.card j = s.card j) ∧
      t.card k = (if s.settings.autoPower then
          { settled with state := .powering, power := true, readyTimer := 100, cause := .none, removalPending := false }
        else { settled with state := .seated, removalPending := false }))) ∧
  (∀ (k : CardNo) (s : State), (s.card k).debounce = 1 → (s.card k).rawLeft = true → (s.card k).rawRight = true →
    (s.card k).state ≠ .empty → (s.card k).state ≠ .half → (s.card k).removalPending = false →
    exec (.debounceTaken k) s =
      .next (s.setCard k { s.card k with settledLeft := true, settledRight := true, debounce := 0 })) ∧
  (∀ (k : CardNo) (ready : BitVec 4) (s : State), (s.card k).state = .powering → (s.card k).debounce = 0 →
    ready.getLsbD k.val = true → s.settings.autoTune = false →
    (∀ j, j ≠ k → (s.card j).debounce = 0 ∧ (s.card j).state ≠ .powering ∧ (s.card j).state ≠ .powered) →
    ends (.slotFrameExpiry ready) s fun t =>
      t = { s with
        cards := t.cards, voices := t.voices, stamp := t.stamp
        notices := { s.notices with card := t.notices.card } } ∧
      t.card k = { s.card k with state := .powered, readySeen := true } ∧ t.notices.card.getLsbD k.val = true ∧
      ((∀ v : Voice, v.val / 4 = k.val → (s.voice v).state = .absent) →
        t.stampedFrom s.stamp fun v => decide (v.val / 4 = k.val) && s.settings.autoOnline) ∧
      (∀ j, j ≠ k → t.card j = s.card j) ∧
      ∀ v : Voice,
        (v.val / 4 = k.val → (s.voice v).state = .absent → t.voice v =
          if s.settings.autoOnline then { s.voice v with state := .idle, idle := 0, lastFree := (t.voice v).lastFree }
          else { s.voice v with state := .offline }) ∧
        (v.val / 4 ≠ k.val → t.voice v = s.voice v)) ∧
  (∀ (k : CardNo) (s : State),
    ((s.card k).state ≠ .powering ∨ 2 ≤ (s.card k).readyTimer → exec (.readyTimeout k) s = .next s) ∧
    ((s.card k).state = .powering → (s.card k).readyTimer = 1 → ends (.readyTimeout k) s fun t =>
      t = { s with cards := t.cards, notices := { s.notices with card := t.notices.card } } ∧
      t.card k = { s.card k with
        state := .powerFault, power := false, readyTimer := 0, readySeen := false, cause := .readyTimeout } ∧
      (∀ j, j ≠ k → t.card j = s.card j) ∧ t.notices.card.getLsbD k.val = true)) ∧
  (∀ (k : CardNo) (ready : BitVec 4) (s : State), (s.card k).state = .powered → (s.card k).debounce = 0 →
    (∀ j, j ≠ k → (s.card j).debounce = 0 ∧ (s.card j).state ≠ .powering ∧ (s.card j).state ≠ .powered) →
    (ready.getLsbD k.val = true → exec (.slotFrameExpiry ready) s = .next (s.setCard k { s.card k with readySeen := true })) ∧
    (ready.getLsbD k.val = false → ends (.slotFrameExpiry ready) s fun t =>
      t.card k = { s.card k with state := .powerFault, power := false, readySeen := false, cause := .readyLost } ∧
      (∀ j, j ≠ k → t.card j = s.card j) ∧ t.notices.card.getLsbD k.val = true ∧ t.tune.cal = s.tune.cal ∧
      ∀ v : Voice, v.val / 4 = k.val → (t.voice v).state = .absent ∧ (t.voice v).asg = none ∧
        (t.voice v).tunePending = false ∧ (t.voice v).offlinePending = false ∧ t.gate v = false) ∧
    (ready.getLsbD k.val = false → ends (.slotFrameExpiry ready) s fun t =>
      let u := (s.setCard k { s.card k with power := false, readySeen := false, cause := .readyLost }).slotDown k
      t.voices = u.voices ∧ t.parts = u.parts ∧ t.stamp = u.stamp ∧ t.tune = u.tune ∧ t.refresh = u.refresh ∧
      t.notices = { u.notices with card := t.notices.card })) ∧
  (∀ (k : CardNo) (ready : BitVec 4) (s : State),
    (∀ j, j ≠ k → (s.card j).debounce = 0 ∧ (s.card j).state ≠ .powering ∧ (s.card j).state ≠ .powered) →
    ((s.card k).debounce = 1 → (s.card k).state ≠ .powering → (s.card k).state ≠ .powered →
      exec (.slotFrameExpiry ready) s = exec (.debounceTaken k) s) ∧
    ((s.card k).debounce = 0 → (s.card k).state = .powering → ready.getLsbD k.val = false →
      (2 ≤ (s.card k).readyTimer → exec (.slotFrameExpiry ready) s =
        .next (s.setCard k { s.card k with readySeen := false, readyTimer := (s.card k).readyTimer - 1 })) ∧
      ((s.card k).readyTimer = 1 → exec (.slotFrameExpiry ready) s = exec (.readyTimeout k) s)) ∧
    ((s.card k).state = .powering ∨ (s.card k).state = .powered → (s.card k).removalPending = false →
      ((s.card k).debounce = 1 → (s.card k).rawLeft = true → (s.card k).rawRight = true →
        exec (.slotFrameExpiry ready) s = exec (.slotFrameExpiry ready)
          (s.setCard k { s.card k with settledLeft := true, settledRight := true, debounce := 0 })) ∧
      (2 ≤ (s.card k).debounce → ends (.slotFrameExpiry ready) s fun t =>
        ∃ u, exec (.slotFrameExpiry ready) (s.setCard k { s.card k with debounce := 0 }) = .next u ∧
          t = u.setCard k { u.card k with debounce := (s.card k).debounce - 1 }))) ∧
  ∀ (ready : BitVec 4) (s : State), ∃ a b c : State,
    s.slotShare ready a 0 ∧ a.slotShare ready b 1 ∧ b.slotShare ready c 2 ∧
      ends (.slotFrameExpiry ready) s fun t => c.slotShare ready t 3

/-- Auto tune on insert (R89, R108): when a slot becomes POWERED with the setting on, its voices with a destination STALE or
NOMINAL become CALIBRATING (R46), the others IDLE, in ascending voice number (R22), or OFFLINE by auto online (R44); the
first are taken into a pass over all three destinations. Where none runs it begins, and where one runs they join it as
WAITING; with no voice in service and no other WAITING the lowest-numbered of them is taken into service at once, and its
first destination requests the unit (R104, R110). That the iteration is 1 from the event that asks for a first trial is the
model's choice (log entry 36). Its measurement has the window and the target count of R99. -/
def Obligations.PoweredSlotTunesItsVoices : Prop :=
  ∀ (k : CardNo) (ready : BitVec 4) (s : State), (s.card k).state = .powering → (s.card k).debounce = 0 →
    ready.getLsbD k.val = true → s.settings.autoTune = true →
    (∀ j, j ≠ k → (s.card j).debounce = 0 ∧ (s.card j).state ≠ .powering ∧ (s.card j).state ≠ .powered) →
    (∀ v : Voice, v.val / 4 = k.val → (s.voice v).state = .absent) →
    let stale (v : Voice) : Bool :=
      [Tuned.a, .b, .cutoff].any fun d => (s.cal v d).status == .stale || (s.cal v d).status == .nominal
    let named (v : Voice) : Prop := v.val / 4 = k.val ∧ stale v = true
    let entered : PassEntry := ⟨.waiting, .none, true, true, true, .fresh, .fresh, .fresh⟩
    let serves (t : State) (x : InService) : Prop :=
      t.tune.service = some x ∧ x.dest = .a ∧ named x.voice ∧ (∀ v, named v → x.voice.val ≤ v.val) ∧
      t.entry x.voice = { entered with state := .inService, sumA := ⟨.inProgress, .none, 0⟩ } ∧
      (∀ v, named v → v ≠ x.voice → t.entry v = entered) ∧ x.work.trial = tableAt (s.cal x.voice .a).codes s.tune.plan.pitchLo 0 ∧
      s.destBegins t x.voice .a (s.tune.unit = none)
    ends (.slotFrameExpiry ready) s fun t =>
      t.card k = { s.card k with state := .powered, readySeen := true } ∧ (∀ j, j ≠ k → t.card j = s.card j) ∧
      t.notices.card.getLsbD k.val = true ∧ t.parts = s.parts ∧ t.tune.cal = s.tune.cal ∧ t.tune.check = s.tune.check ∧
      (let freed (v : Voice) : Bool := decide (v.val / 4 = k.val) && !stale v && s.settings.autoOnline
       t.stampedFrom s.stamp freed ∧
        ∀ v, freed v = true → t.voice v = { s.voice v with state := .idle, idle := 0, lastFree := (t.voice v).lastFree }) ∧
      (∀ v, (named v → t.voice v = { s.voice v with state := .calibrating }) ∧
        (v.val / 4 = k.val → stale v = false → s.settings.autoOnline = false →
          t.voice v = { s.voice v with state := .offline }) ∧
        (v.val / 4 ≠ k.val → t.voice v = s.voice v)) ∧
      ((∀ v, ¬ named v) → t.tune = s.tune) ∧
      ((∃ v, named v) → s.passRunning = false → t.tune.outcome = .running ∧ t.tune.force = false ∧
        (∃ x, serves t x) ∧
        ∀ v, ¬ named v → t.entry v = ⟨.notInPass, .none, false, false, false, .fresh, .fresh, .fresh⟩) ∧
      ((∃ v, named v) → s.passRunning = true → s.tune.service = none → (∀ v, ¬ named v → (s.entry v).state ≠ .waiting) →
        t.tune.outcome = .running ∧ t.tune.force = s.tune.force ∧ (∃ x, serves t x) ∧
        ∀ v, ¬ named v → t.entry v = s.entry v) ∧
      (∀ x, (∃ v, named v) → s.passRunning = true → s.tune.service = some x →
        t.tune = { s.tune with entries := t.tune.entries } ∧ (∀ v, named v → t.entry v = entered) ∧
        ∀ v, ¬ named v → t.entry v = s.entry v)

/-- CARD_POWER by the slot's state (R92); off from POWERED is the slot-down of PatchChangesAndLostKeys (R43, R44). -/
def Obligations.CardPowerByState : Prop :=
  ∀ (slot power : Byte) (s : State), s.inHand = some (.cardPower slot power) →
    (3 < slot.toNat ∨ 1 < power.toNat → exec (.cardPower slot power) s = .next (s.onlyAnswered .badValue [])) ∧
    ∀ k : CardNo, slot.toNat = k.val →
      let c := s.card k
      (power = 1 →
        (c.state = .empty ∨ c.state = .half ∨ (c.state = .seated ∧ c.removalPending = true) →
          exec (.cardPower slot power) s = .next (s.onlyAnswered .wrongState [])) ∧
        (c.state = .powerFault ∨ (c.state = .seated ∧ c.removalPending = false) →
          exec (.cardPower slot power) s = .next ((s.setCard k { c with
            state := .powering, power := true, readyTimer := 100, cause := .none }).onlyAnswered .ok [])) ∧
        (c.state = .powering ∨ c.state = .powered →
          exec (.cardPower slot power) s = .next (s.onlyAnswered .ok []))) ∧
      (power = 0 →
        (c.state = .empty ∨ c.state = .half ∨ c.state = .seated →
          exec (.cardPower slot power) s = .next (s.onlyAnswered .ok [])) ∧
        (c.state = .powering → exec (.cardPower slot power) s = .next ((s.setCard k { c with
          state := .seated, power := false, readyTimer := 0 }).onlyAnswered .ok [])) ∧
        (c.state = .powerFault →
          exec (.cardPower slot power) s = .next ((s.setCard k { c with state := .seated }).onlyAnswered .ok [])) ∧
        (c.state = .powered → ends (.cardPower slot power) s fun t =>
          t.card k = { c with state := .seated, power := false } ∧ t.port = s.answered .ok [] ∧
          t.notices.card = s.notices.card ∧ t.tune.cal = s.tune.cal ∧ (∀ j, j ≠ k → t.card j = s.card j) ∧
          (let u := (s.setCard k { c with power := false }).slotDown k
           t.voices = u.voices ∧ t.parts = u.parts ∧ t.stamp = u.stamp ∧ t.tune = u.tune ∧ t.refresh = u.refresh ∧
           t.notices = u.notices) ∧
          ∀ v : Voice, v.val / 4 = k.val → (t.voice v).state = .absent ∧ (t.voice v).asg = none))

/-! ### Panel (R140 to R158) -/

/-- A scan slot's end (R142 to R148, R152): the position advances; a PARKED channel changes nothing else; an initialising
conversion takes the result whole and writes no parameter; a later one goes through filter and deadband, and an accepted
change acts by role, a PARAMETER channel in PICKUP mode writing only once it is picked up; a write arms the other PICKUP
channels of the same parameter (R148, R149) and goes into the change list, in the place of the channel's entry or at the
newest end (R152); no other channel's record changes, and nothing else of the panel's. That a pending arm is used up by an
initialising conversion in JUMP mode, which leaves the pickup state as it is, is the model's reading (log entry 9). -/
def Obligations.ScanSlotConvertsItsChannel : Prop :=
  ∀ (adc : Val12) (s : State), s.filtersFit →
    ends (.scanSlotExpiry adc) s fun t =>
      let c := s.panel.scanPos
      let r := s.channel c
      let r' := t.channel c
      let focus := s.panel.focus
      let f := ((r.filtered : Int) + (16 * (adc.toNat : Int) - r.filtered) / 2 ^ s.panel.shift).toNat
      let accepted := r.initialised = true ∧ (s.panel.deadband : Int) ≤ (((f / 16 : Nat) : Int) - r.reported.toNat).natAbs
      let value : Val12 := if r.initialised then BitVec.ofNat 12 (f / 16) else adc
      let takes := accepted ∨ r.initialised = false
      t = { s with panel := t.panel, parts := t.parts, notices := { s.notices with panel := t.notices.panel } } ∧
      t.panel = { s.panel with
        channels := t.panel.channels, changes := t.panel.changes, scanPos := c + 1
        modValue := t.panel.modValue, pedalValue := t.panel.pedalValue } ∧
      (r.role ≠ .mod → t.panel.modValue = s.panel.modValue) ∧ (r.role ≠ .pedal → t.panel.pedalValue = s.panel.pedalValue) ∧
      t.panel.scanPos = c + 1 ∧ t.panel.focus = focus ∧ f / 16 ≤ 4095 ∧
      (r.role ≠ .parked → r' = { r with
        initialised := true, raw := adc, filtered := r'.filtered, reported := r'.reported
        pickup := r'.pickup, armPending := r'.armPending }) ∧
      ((∀ i, r.role ≠ .parameter i) ∨ r.initialised = true → r'.armPending = r.armPending) ∧
      ((∀ i, r.role ≠ .parameter i) ∨ (r.initialised = true ∧ ¬ accepted) → r'.pickup = r.pickup) ∧
      (r.role = .parked → t = { s with panel := { s.panel with scanPos := c + 1 } }) ∧
      (r.role ≠ .parked → r'.initialised = true ∧ r'.raw = adc ∧ r'.role = r.role ∧
        (r.initialised = false → r'.filtered = 16 * adc.toNat ∧ r'.reported = adc) ∧
        (r.initialised = true → r'.filtered = f ∧ (accepted → r'.reported = value) ∧
          (¬ accepted → r'.reported = r.reported))) ∧
      (r.initialised = true → ¬ accepted → t.parts = s.parts ∧ t.notices = s.notices ∧ t.panel.changes = s.panel.changes
        ∧ t.panel.modValue = s.panel.modValue ∧ t.panel.pedalValue = s.panel.pedalValue) ∧
      (r.role = .mod → takes → t.panel.modValue = value ∧ t.parts = s.parts) ∧
      (r.role = .pedal → takes → t.panel.pedalValue = value ∧ t.parts = s.parts) ∧
      (r.role = .bend → takes → ∀ p, t.part p =
        if (s.part p).panelBend then
          { s.part p with bend := if 2024 ≤ value.toNat ∧ value.toNat ≤ 2072 then 0 else ((value.toNat : Int) - 2048) * 4 }
        else s.part p) ∧
      ((∀ i, r.role ≠ .parameter i) →
        (∀ d, d ≠ c → t.channel d = s.channel d) ∧ t.panel.changes = s.panel.changes ∧ t.notices = s.notices) ∧
      ∀ i : Fin 25, r.role = .parameter i →
        let p := ((s.part focus).live.params[i]).toNat
        let writes := r.pickupMode = false ∨ r.pickup = .live ∨ (r.pickup = .waitRise ∧ p ≤ value.toNat)
          ∨ (r.pickup = .waitFall ∧ value.toNat ≤ p)
        (r.initialised = false → t.parts = s.parts ∧ t.panel.changes = s.panel.changes ∧ t.notices = s.notices ∧
          r'.armPending = false ∧ (r.armPending = false ∨ r.pickupMode = false → r'.pickup = r.pickup) ∧
          (r.armPending = true → r.pickupMode = true →
            r'.pickup = if adc.toNat = p then .live else if adc.toNat < p then .waitRise else .waitFall)) ∧
        (accepted → ¬ writes → t.parts = s.parts ∧ r'.pickup = r.pickup ∧ t.panel.changes = s.panel.changes ∧
          t.notices = s.notices) ∧
        (accepted → writes →
          t.part focus = { s.part focus with
            live := { (s.part focus).live with params := (s.part focus).live.params.set i value }
            editCount := (s.part focus).editCount + 1, dirty := true } ∧
          (∀ q, q ≠ focus → t.part q = s.part q) ∧ (r.pickupMode = true → r'.pickup = .live) ∧
          (r.notify = true → ⟨c, focus, i, value⟩ ∈ t.panel.changes) ∧
          (r.pickupMode = false → r'.pickup = r.pickup) ∧
          (r.notify = false → t.panel.changes = s.panel.changes ∧ t.notices = s.notices) ∧
          (r.notify = true → (∀ x ∈ s.panel.changes, x.channel ≠ c) →
            t.panel.changes = s.panel.changes ++ [⟨c, focus, i, value⟩]) ∧
          (r.notify = true → s.changesRight → ∀ older x newer, s.panel.changes = older ++ x :: newer → x.channel = c →
            t.panel.changes = older ++ ⟨c, focus, i, value⟩ :: newer) ∧
          (r.notify = true → s.changesRight → t.notices.panel = true) ∧
          (s.setChannel c r').armedIn t (fun d => d ≠ c ∧ (s.channel d).role = .parameter i) (t.part focus).live) ∧
        (¬ (accepted ∧ writes) → ∀ d, d ≠ c → t.channel d = s.channel d)

/-- SET_CHANNEL writes role, mode and notice enable of one channel together, or is refused and changes nothing (R155, R156); a
change to PARKED ends an arm that is pending, and only that and an arming touch it (R155, R156);
SET_FOCUS names the focus part and arms every PICKUP channel with a PARAMETER role against it (R149, R151). READ_CHANGES
returns and removes the oldest entries, up to the number asked for, preceded by their number and followed by the number left,
and reports the list empty when it takes the last (R152 to R154). -/
def Obligations.ChannelsFocusAndChangeList : Prop :=
  ((∀ (channel role mode notify : Byte) (s : State), s.inHand = some (.setChannel channel role mode notify) →
    (31 < channel.toNat ∨ (∀ x : Role, role.toNat ≠ x.code) ∨ 1 < mode.toNat ∨ 1 < notify.toNat →
      exec (.setChannel channel role mode notify) s = .next (s.onlyAnswered .badValue [])) ∧
    ∀ (c : ChannelNo) (x : Role), channel.toNat = c.val → role.toNat = x.code → mode.toNat ≤ 1 → notify.toNat ≤ 1 →
      let r := s.channel c
      ((r.role ≠ x ∧ r.role ≠ .parked ∧ x ≠ .parked) →
        exec (.setChannel channel role mode notify) s = .next (s.onlyAnswered .wrongState [])) ∧
      (r.role = x ∨ r.role = .parked ∨ x = .parked → ends (.setChannel channel role mode notify) s fun t =>
        let r' := t.channel c
        let armed := mode.toNat = 1 ∧ ∃ i, x = .parameter i ∧ (r.pickupMode = false ∨ ∀ j, r.role ≠ .parameter j)
        t = { s with panel := { s.panel with channels := t.panel.channels }, port := s.answered .ok [] } ∧
        (∀ d, d ≠ c → t.channel d = s.channel d) ∧
        r' = { r with
          role := x, pickupMode := decide (mode.toNat = 1), notify := decide (notify.toNat = 1)
          initialised := r'.initialised, armPending := r'.armPending, pickup := r'.pickup } ∧
        (r'.initialised = true ↔ r.initialised = true ∧ r.role = x) ∧
        (armed → (r'.initialised = false → r'.armPending = true ∧ r'.pickup = r.pickup) ∧
          (r'.initialised = true → r'.armPending = false ∧ ∀ i, x = .parameter i →
            r'.pickup = pickupOf r.reported.toNat ((s.part s.panel.focus).live.params[i]).toNat)) ∧
        (¬ armed → r'.pickup = r.pickup) ∧
        (x = .parked → r.role ≠ .parked → r'.armPending = false) ∧
        (¬ armed → x ≠ .parked ∨ r.role = .parked → r'.armPending = r.armPending))) ∧
  ∀ (part : Byte) (s : State), s.inHand = some (.setFocus part) →
    (3 < part.toNat → exec (.setFocus part) s = .next (s.onlyAnswered .badValue [])) ∧
    ∀ p : PartNo, part.toNat = p.val → ends (.setFocus part) s fun t =>
      t = { s with panel := { s.panel with focus := p, channels := t.panel.channels }, port := s.answered .ok [] } ∧
      ∀ c : ChannelNo,
        let r := s.channel c
        (∀ i, r.role = .parameter i → r.pickupMode = true → r.initialised = true → t.channel c = { r with
          pickup := pickupOf r.reported.toNat ((s.part p).live.params[i]).toNat, armPending := false }) ∧
        (∀ i, r.role = .parameter i → r.pickupMode = true → r.initialised = false →
          t.channel c = { r with armPending := true }) ∧
        ((∀ i, r.role ≠ .parameter i) ∨ r.pickupMode = false → t.channel c = r)) ∧
  ∀ (maximum : Byte) (s : State), s.inHand = some (.readChanges maximum) →
    (maximum = 0 ∨ 32 < maximum.toNat → exec (.readChanges maximum) s = .next (s.onlyAnswered .badValue [])) ∧
    (1 ≤ maximum.toNat → maximum.toNat ≤ 32 → s.changesRight → ends (.readChanges maximum) s fun t =>
      let given := s.panel.changes.take maximum.toNat
      let kept := s.panel.changes.drop maximum.toNat
      t = { s with
        panel := { s.panel with changes := kept }
        notices := { s.notices with panel := !kept.isEmpty }
        port := s.answered .ok ([BitVec.ofNat 8 given.length]
          ++ given.flatMap (fun e => [BitVec.ofNat 8 e.channel.val, BitVec.ofNat 8 e.part.val, BitVec.ofNat 8 e.param.val]
            ++ bytes16 (e.value.setWidth 16))
          ++ [BitVec.ofNat 8 kept.length]) } ∧
      given.length + kept.length = s.panel.changes.length)

/-! ### Patches, cache and store (R159 to R182) -/

/-- A stored patch record is 74 bytes at the start of its page, a fetch judges it OK and reads the same patch back, and with
one byte other than its marker changed it is judged DAMAGED (R159, R173, R178, 10.5). Of any 74 bytes, those that begin with
0xFF are BLANK; else those with another marker than 0xA5 or another version than 1 are DAMAGED, and so are those whose last
two are not the CRC of the others, high byte first; the rest are OK; over the characters 1 to 9 the CRC is 0x29B1 (R173). Of
74 bytes a patch is made field by field, each brought into its range: a value above 4095 becomes 4095, a code below or above
its field's codes the lowest or the highest, and a name character outside 0x20..0x7E becomes 0x20 (R159, 10.5). -/
def Obligations.StoredRecordReadsBack : Prop :=
  (∀ p : Patch, p.inRange →
    (recordOf p).length = 74 ∧ (pageOf p).length = 256 ∧ (pageOf p).take 74 = recordOf p ∧
    judge (recordOf p) = .ok ∧ patchOf (recordOf p) = p ∧
    ∀ (i : Nat) (b : Byte), 1 ≤ i → i < 74 → (recordOf p)[i]? ≠ some b → judge ((recordOf p).set i b) = .damaged) ∧
  (∀ bytes : List Byte, bytes.length = 74 →
    let marked := bytes[0]? = some 0xA5 ∧ bytes[1]? = some 1
    let checked := bytes.drop 72 = bytes16 (crc (bytes.take 72))
    (bytes[0]? = some 0xFF → judge bytes = .blank) ∧
    (bytes[0]? ≠ some 0xFF → ¬ marked → judge bytes = .damaged) ∧
    (marked → ¬ checked → judge bytes = .damaged) ∧ (marked → checked → judge bytes = .ok)) ∧
  (∀ bytes : List Byte, bytes.length = 74 →
    let p := patchOf bytes
    let at_ (i : Nat) : Nat := (bytes.getD i 0).toNat
    (∀ i : Fin 25, (p.params[i]).toNat = min 4095 (256 * at_ (2 + 2 * i.val) + at_ (3 + 2 * i.val))) ∧
    p.voiceMode = (if at_ 52 = 0 then .poly else if at_ 52 = 1 then .mono else .unison) ∧
    p.voiceLimit = max 1 (min 16 (at_ 53)) ∧ p.unisonCount = max 1 (min 8 (at_ 54)) ∧
    p.unisonSpread = min 31 (at_ 55) ∧ p.bendRange = min 24 (at_ 56) ∧
    p.glideMode = (if at_ 57 = 0 then .off else if at_ 57 = 1 then .always else .legato) ∧
    p.keyPriority = (if at_ 58 = 0 then .last else if at_ 58 = 1 then .low else .high) ∧
    p.monoTrigger = (if at_ 59 = 0 then .retrig else .legato) ∧
    ∀ i : Fin 12, p.name[i] =
      if 0x20 ≤ at_ (60 + i.val) ∧ at_ (60 + i.val) ≤ 0x7E then bytes.getD (60 + i.val) 0 else 0x20) ∧
  crc [0x31, 0x32, 0x33, 0x34, 0x35, 0x36, 0x37, 0x38, 0x39] = 0x29B1

/-- RECALL (R165, R169, R170): a hit copies the slot into the part at once, with what the patch does to its voices (R41, R42,
as PatchChangesAndLostKeys has it) and the arming of the panel at a copy into the focus part (R149, R175); a location on its
way is wanted; a miss takes over the waiting FETCH of the location the part wants, where no other part wants that, or
else gets the slot that R166 chooses and a FETCH, or is refused (R170). An earlier recall displaced by a hit, a join or a new
FETCH is SUPERSEDED, and takes its waiting FETCH with it where no other part wants it (R171), and the ranks of all slots are as
R165 gives. A job that starts at once reads the status the flash last
showed (the model's choice, log entry 10). -/
def Obligations.RecallHitsWaitsOrFetches : Prop :=
  ∀ (part : Byte) (location : BitVec 16) (s : State), s.inHand = some (.recallPart part location) →
    (3 < part.toNat ∨ 511 < location.toNat →
      exec (.recallPart part location) s = .next (s.onlyAnswered .badValue [])) ∧
    ∀ p : PartNo, part.toNat = p.val → location.toNat ≤ 511 → s.jobsRight →
      let l := location.toNat
      (∀ (c : CacheNo) (x : Patch), (s.cache c).state = .valid → (s.cache c).location = some l →
        (s.cache c).contents = some x → ends (.recallPart part location) s fun t =>
          t.port = s.answered .ok [] ∧ (t.part p).live = x ∧ (t.part p).origin = some l ∧ (t.part p).dirty = false ∧
          (t.part p).wanted = none ∧ (t.part p).lastRecall = .ok ∧ (t.part p).editCount = (s.part p).editCount ∧
          (t.part p).held = (s.part p).held ∧ (∀ q, q ≠ p → t.part q = s.part q) ∧
          (t.cache c).rank = 0 ∧ t.notices.recalls.getLsbD p.val = true ∧ t.count p ≤ t.limit p ∧
          (∀ m d e, Job.store m d p e true ∉ t.patches.queue) ∧
          s.patchTaken t p { s.part p with live := x, origin := some l, dirty := false, wanted := none, lastRecall := .ok } ∧
          (s.panel.focus = p → t.panel = { s.panel with channels := t.panel.channels } ∧ s.armedIn t (fun _ => True) x) ∧
          (s.panel.focus ≠ p → t.panel = s.panel) ∧
          (∀ m d, s.cancels p l m d →
            t.patches.queue = (s.queueWithout m).map (Job.unlinkedBy fun _ q => q == p) ∧
            t.cache d = ⟨.empty, none, none, s.rankAfter c d, false, 0⟩ ∧
            ∀ e, e ≠ d → t.cache e = { s.cache e with rank := s.rankAfter c e }) ∧
          ((∀ m d, ¬ s.cancels p l m d) → t.patches.queue = s.patches.queue.map (Job.unlinkedBy fun _ q => q == p) ∧
            ∀ e, t.cache e = { s.cache e with rank := s.rankAfter c e })) ∧
      (∀ c : CacheNo, (s.cache c).state = .filling → (s.cache c).location = some l → ends (.recallPart part location) s fun t =>
        t.port = s.answered .accepted [] ∧ (∀ q, q ≠ p → t.part q = s.part q) ∧
        t.part p = { s.part p with wanted := some l, lastRecall := (t.part p).lastRecall } ∧
        ((t.part p).lastRecall = if (s.part p).wanted = none ∨ (s.part p).wanted = some l then (s.part p).lastRecall
          else .superseded) ∧ t.voices = s.voices ∧ t.notices = s.notices ∧
        (∀ m d, s.cancels p l m d → t.patches = { s.patches with
          queue := s.queueWithout m, slots := s.patches.slots.set d ⟨.empty, none, none, (s.cache d).rank, false, 0⟩ }) ∧
        ((∀ m d, ¬ s.cancels p l m d) → t.patches = s.patches)) ∧
      ((∀ c, (s.cache c).location ≠ some l) → (∀ m d, ¬ s.cancels p l m d) →
        (8 ≤ s.patches.queue.length → exec (.recallPart part location) s = .next (s.onlyAnswered .queueFull [])) ∧
        (s.patches.queue.length < 8 → (∀ c, (s.cache c).state ≠ .empty ∧ (s.cache c).replaceable = false) →
          exec (.recallPart part location) s = .next (s.onlyAnswered .noSlot [])) ∧
        (s.patches.queue.length < 8 → (∃ c, (s.cache c).state = .empty ∨ (s.cache c).replaceable = true) →
          ends (.recallPart part location) s fun t => ∃ c,
            ((s.cache c).state = .empty ∨ (∀ d, (s.cache d).state ≠ .empty) ∧ (s.cache c).replaceable = true) ∧
            (t.cache c).state = .filling ∧ (t.cache c).location = some l ∧ (t.cache c).rank = 0 ∧
            s.choosesSlot c ∧ (t.cache c).contents = none ∧
            (∀ d, d ≠ c → t.cache d = { s.cache d with rank := s.rankAfter c d }) ∧
            t.patches.queue = s.patches.queue ++ [.fetch l c p false] ∧ t.port = s.answered .accepted [] ∧
            t.part p = { s.part p with wanted := some l, lastRecall := (t.part p).lastRecall } ∧
            ((t.part p).lastRecall = if (s.part p).wanted = none ∨ (s.part p).wanted = some l then (s.part p).lastRecall
              else .superseded) ∧
            (∀ q, q ≠ p → t.part q = s.part q) ∧ t.voices = s.voices ∧ t.notices = s.notices ∧
            (s.patches.queue = [] → t.headStarts [] ∧
              t.patches.head = some (if s.patches.flashStatus.getLsbD 0 then .readyWait 0 else .read)) ∧
            t.patches.flashStatus = s.patches.flashStatus ∧
            (s.patches.queue ≠ [] → t.patches.head = s.patches.head ∧ t.patches.sent = s.patches.sent))) ∧
      ∀ m d q x, (∀ c, (s.cache c).location ≠ some l) → (s.part p).wanted = some m →
        (∀ r, r ≠ p → (s.part r).wanted ≠ some m) → Job.fetch m d q x ∈ s.patches.queue.drop 1 →
        ends (.recallPart part location) s fun t =>
          let emptied := s.setCache d ⟨.empty, none, none, (s.cache d).rank, false, 0⟩
          t.port = s.answered .accepted [] ∧ t.patches.queue.length = s.patches.queue.length ∧
          t.part p = { s.part p with wanted := some l, lastRecall := .superseded } ∧
          (∀ r, r ≠ p → t.part r = s.part r) ∧ t.voices = s.voices ∧ t.notices = s.notices ∧
          ∃ c, emptied.choosesSlot c ∧ (t.cache c).state = .filling ∧ (t.cache c).location = some l ∧
            (t.cache c).contents = none ∧ (t.cache c).rank = 0 ∧
            (∀ e, e ≠ c → t.cache e = { emptied.cache e with rank := s.rankAfter c e }) ∧
            t.patches.queue = s.patches.queue.take 1
              ++ (s.patches.queue.drop 1).map (fun i => if i = .fetch m d q x then .fetch l c q x else i) ∧
            t.patches.head = s.patches.head ∧ t.patches.sent = s.patches.sent

/-- STORE (R176, R177): its refusals in order; else the live patch is snapshot into a slot of the location, pinned and most
recent, and a STORE job is queued, earlier STORE jobs of the slot being unlinked (R179); the slot is the one that holds the
location or the one that R166 chooses, and the ranks are as R165 gives. A fetch of the location under way is met by the
snapshot, which the parts that want it take at once, with what it does to their voices and to the panel's arming (R41, R42,
R149, R175): waiting, it leaves the queue; in progress, it is detached (R177). That the job is queued before these copies, so
that one into the storing part unlinks it and leaves that part with the copy's origin, is the model's reading (log entry 21).
A job that starts at once reads the status the flash last showed (the model's choice, log entry 10). -/
def Obligations.StoreSnapshotsAndQueues : Prop :=
  ∀ (part : Byte) (location : BitVec 16) (s : State), s.inHand = some (.store part location) →
    (3 < part.toNat ∨ 511 < location.toNat → exec (.store part location) s = .next (s.onlyAnswered .badValue [])) ∧
    ∀ p : PartNo, part.toNat = p.val → location.toNat ≤ 511 → s.jobsRight →
      let l := location.toNat
      let guarded := s.settings.protectOn = true ∧ s.settings.protectLow ≤ l ∧ l ≤ s.settings.protectHigh
      let open_ := ¬ guarded ∧ s.patches.queue.length < 8
      (guarded → exec (.store part location) s = .next (s.onlyAnswered .isProtected [])) ∧
      (¬ guarded → 8 ≤ s.patches.queue.length →
        exec (.store part location) s = .next (s.onlyAnswered .queueFull [])) ∧
      (open_ → (∀ c, (s.cache c).location ≠ some l) →
        (∀ c, (s.cache c).state ≠ .empty ∧ (s.cache c).replaceable = false) →
        exec (.store part location) s = .next (s.onlyAnswered .noSlot [])) ∧
      (open_ → (∃ c, (s.cache c).location = some l ∨ (s.cache c).state = .empty ∨ (s.cache c).replaceable = true) →
        ends (.store part location) s fun t => ∃ c,
          (∀ d, (s.cache d).location = some l → d = c) ∧
          ((∀ d, (s.cache d).location ≠ some l) → (s.cache c).state = .empty ∨ (s.cache c).replaceable = true) ∧
          ((∀ d, (s.cache d).location ≠ some l) → s.choosesSlot c) ∧
          (∀ d, d ≠ c → t.cache d = { s.cache d with rank := s.rankAfter c d }) ∧
          ((s.cache c).state ≠ .filling → t.patches.queue =
            s.patches.queue.map (Job.unlinkedBy fun x _ => x == c) ++ [.store l c p (s.part p).editCount true]) ∧
          ((s.cache c).state = .filling → t.patches.queue =
            ((s.patches.queue.take 1).map (Job.detachedFrom l) ++ (s.patches.queue.drop 1).filter (fun j => !j.reads l)).map
              (Job.unlinkedBy fun x q => x == c || (s.part q).wanted == some l)
            ++ [.store l c p (s.part p).editCount (decide ((s.part p).wanted ≠ some l))]) ∧
          (s.patches.queue = [] → t.headStarts [] ∧
            t.patches.head = some (if s.patches.flashStatus.getLsbD 0 then .readyWait 0 else .erase 0)) ∧
          t.patches.flashStatus = s.patches.flashStatus ∧
          (s.patches.queue ≠ [] → t.patches.head = s.patches.head ∧ t.patches.sent = s.patches.sent) ∧
          t.cache c = { s.cache c with
            state := .valid, location := some l, contents := some (s.part p).live, pin := (s.cache c).pin + 1, rank := 0 } ∧
          t.port = s.answered .accepted [] ∧
          (∃ linked, t.patches.queue.getLast? = some (.store l c p (s.part p).editCount linked)) ∧
          ((s.cache c).state ≠ .filling → t.parts = s.parts ∧ t.voices = s.voices ∧
            t.patches.queue.getLast? = some (.store l c p (s.part p).editCount true)) ∧
          ((s.cache c).state = .filling → ∀ q, (s.part q).wanted = some l →
            (t.part q).live = (s.part p).live ∧ (t.part q).origin = some l ∧ (t.part q).wanted = none ∧
            (t.part q).lastRecall = .ok ∧ t.notices.recalls.getLsbD q.val = true) ∧
          ((s.cache c).state = .filling → s.copiesMade t (s.part p).live l) ∧
          ((s.cache c).state ≠ .filling → t.panel = s.panel ∧ t.notices = s.notices) ∧
          (∀ q, (s.part q).wanted ≠ some l → t.part q = s.part q))

/-- WRITE_PARAM (R159, R161, R162, R190): a field of the live patch takes the value brought into its range, the edit count
increments and dirty is set; other parts keep their records; a lower voice limit or unison count, or another voice mode,
leaves no more voices than the part's limit, by the release or re-seat of PatchChangesAndLostKeys (R41, R42, R162); a
parameter of the focus part arms the PICKUP channels that have it (R149). A part or field out of range is looked for before a
length that does not fit (the model's choice, log entry 11). -/
def Obligations.WriteParamWritesOneField : Prop :=
  ∀ (part field : Byte) (value : List Byte) (s : State), s.inHand = some (.writeParam part field value) →
    let n := field.toNat
    let known := n ≤ 24 ∨ (32 ≤ n ∧ n ≤ 39) ∨ n = 48
    (3 < part.toNat ∨ ¬ known → exec (.writeParam part field value) s = .next (s.onlyAnswered .badValue [])) ∧
    (part.toNat ≤ 3 → known → (n = 48 ↔ value.length = 2) →
      exec (.writeParam part field value) s = .next (s.onlyAnswered .badLength [])) ∧
    ∀ p : PartNo, part.toNat = p.val → known → (n = 48 ↔ value.length = 12) → s.countsFit →
      ends (.writeParam part field value) s fun t =>
        let x := (word16 (recordByte value 0) (recordByte value 1)).toNat
        let old := (s.part p).live
        let new := (t.part p).live
        t.port = s.answered .ok [] ∧ (∀ q, q ≠ p → t.part q = s.part q) ∧ t.countsFit ∧
        t.part p = { s.part p with
          live := new, editCount := (s.part p).editCount + 1, dirty := true
          lastPitch := (t.part p).lastPitch, steals := (t.part p).steals, drops := (t.part p).drops } ∧
        (∀ i : Fin 25, new.params[i] = if n = i.val then BitVec.ofNat 12 (min 4095 x) else old.params[i]) ∧
        new.voiceMode = (if n = 32 then (if x = 0 then .poly else if x = 1 then .mono else .unison) else old.voiceMode) ∧
        new.voiceLimit = (if n = 33 then max 1 (min 16 x) else old.voiceLimit) ∧
        new.unisonCount = (if n = 34 then max 1 (min 8 x) else old.unisonCount) ∧
        new.unisonSpread = (if n = 35 then min 31 x else old.unisonSpread) ∧
        new.bendRange = (if n = 36 then min 24 x else old.bendRange) ∧
        new.glideMode = (if n = 37 then (if x = 0 then .off else if x = 1 then .always else .legato) else old.glideMode) ∧
        new.keyPriority = (if n = 38 then (if x = 0 then .last else if x = 1 then .low else .high) else old.keyPriority) ∧
        new.monoTrigger = (if n = 39 then (if x = 0 then .retrig else .legato) else old.monoTrigger) ∧
        (∀ i : Fin 12, new.name[i] = if n = 48 then
            (if 0x20 ≤ (recordByte value i.val).toNat ∧ (recordByte value i.val).toNat ≤ 0x7E then recordByte value i.val
              else 0x20) else old.name[i]) ∧
        (n ≠ 32 → n ≠ 33 → n ≠ 34 → t.voices = s.voices) ∧
        (n = 32 ∨ n = 33 ∨ n = 34 → s.patchTaken t p { s.part p with
          live := new, editCount := (s.part p).editCount + 1, dirty := true }) ∧
        (n ≤ 24 → s.panel.focus ≠ p → t.panel = s.panel) ∧ (24 < n → t.panel = s.panel) ∧
        (n ≤ 24 → s.panel.focus = p → t.panel = { s.panel with channels := t.panel.channels } ∧
          s.armedIn t (fun c => ∃ i : Fin 25, i.val = n ∧ (s.channel c).role = .parameter i) new)

/-- CACHE_LOCK and CACHE_UNLOCK (R166, R167, R190): a lock holds the slot of its location, at most six at once; an unlock frees
it; nothing else changes. -/
def Obligations.CacheSlotsAreLockedAndUnlocked : Prop :=
  (∀ (mode : Byte) (location : BitVec 16) (s : State), s.inHand = some (.cacheLock mode location) →
    (mode ≠ 1 ∨ 511 < location.toNat →
      exec (.cacheLock mode location) s = .next (s.onlyAnswered .badValue [])) ∧
    (mode = 1 → location.toNat ≤ 511 →
      ((∀ c, (s.cache c).state = .empty ∨ (s.cache c).location ≠ some location.toNat) →
        exec (.cacheLock mode location) s = .next (s.onlyAnswered .wrongState [])) ∧
      ∀ c, s.jobsRight → (s.cache c).location = some location.toNat →
        ((s.cache c).lock = true → exec (.cacheLock mode location) s = .next (s.onlyAnswered .ok [])) ∧
        ((s.cache c).lock = false → s.lockedSlots = 6 →
          exec (.cacheLock mode location) s = .next (s.onlyAnswered .noSlot [])) ∧
        ((s.cache c).lock = false → s.lockedSlots ≠ 6 →
          exec (.cacheLock mode location) s =
            .next ((s.setCache c { s.cache c with lock := true }).onlyAnswered .ok [])))) ∧
  ∀ (location : BitVec 16) (s : State), s.inHand = some (.cacheUnlock location) →
    (511 < location.toNat → exec (.cacheUnlock location) s = .next (s.onlyAnswered .badValue [])) ∧
    (location.toNat ≤ 511 → s.jobsRight →
      ((∀ c, (s.cache c).location ≠ some location.toNat) →
        exec (.cacheUnlock location) s = .next (s.onlyAnswered .ok [])) ∧
      ∀ c, (s.cache c).location = some location.toNat → exec (.cacheUnlock location) s =
        .next ((s.setCache c { s.cache c with lock := false }).onlyAnswered .ok []))

/-- The patch manager's frame timer polls the flash for the head job (R172, R173, R178), in the bytes of its transactions
(10.5): busy keeps the step and counts the expiry below its limit of ten, forty or ten expiries; at the limit the job ends
with TIMEOUT (R174, R180); clear takes the job on, or ends it with the step's failure. A slot that a failed fetch or the last
pin of a failed store makes EMPTY takes no location, lock no and pin 0, and keeps its rank (R164). Where a job ends, the next
one becomes the head and starts at the same event (R168, R172), its status read finding the status just shown (the model's
choice, log entry 10). FLASH_TIMEOUT is the expiry at the limit, the flash then showing busy (the model's choice, log entry
10), and elsewhere changes nothing (log entry 2); no expiries are counted in the read and verify steps (log entry 20). -/
def Obligations.StoreLinkFramesAdvanceTheHead : Prop :=
  ∀ (status : Byte) (s : State),
    let busy := status.getLsbD 0 = true
    let fail := status.getLsbD 5 = true
    let poll : FlashFrame := ⟨[0x05], 1⟩
    let enable : FlashFrame := ⟨[0x06], 0⟩
    let moved (x : JobStep) (sent : List FlashFrame) : State :=
      { s with patches := { s.patches with flashStatus := status, head := some x, sent := sent } }
    let late (e : Instr) (st : Byte) : Prop :=
      e = .storelinkFrameExpiry status ∧ busy ∧ st = status ∨ e = .flashTimeout ∧ st = s.patches.flashStatus ||| 1
    let storeEnds (t : State) (why : PatchResult) (st : Byte) (l : Nat) (c : CacheNo) (rest : List Job) : Prop :=
      t.patches.lastStore = why ∧ t.patches.lastStoreLoc = some l ∧ t.notices = { s.notices with store := true } ∧
      t.patches.queue = rest ∧ t.headStarts [poll] ∧ t.parts = s.parts ∧ t.voices = s.voices ∧ t.patches.flashStatus = st ∧
      ((s.cache c).pin = 1 → t.cache c = ⟨.empty, none, none, (s.cache c).rank, false, 0⟩) ∧
      (2 ≤ (s.cache c).pin → t.cache c = { s.cache c with pin := (s.cache c).pin - 1 }) ∧
      ∀ d, d ≠ c → t.cache d = s.cache d
    (s.patches.head = none ∨ s.patches.head = some .read ∨ (∃ page, s.patches.head = some (.verify page)) →
      exec (.storelinkFrameExpiry status) s =
        .next { s with patches := { s.patches with flashStatus := status } } ∧ exec .flashTimeout s = .next s) ∧
    (∀ (j : Job) (rest : List Job) (n : Nat), s.patches.queue = j :: rest → s.patches.head = some (.readyWait n) →
      (n + 1 < 10 → exec .flashTimeout s = .next s ∧
        (busy → exec (.storelinkFrameExpiry status) s = .next (moved (.readyWait (n + 1)) [poll]))) ∧
      (¬ busy → ∀ l c p d, j = .fetch l c p d → exec (.storelinkFrameExpiry status) s =
        .next (moved .read [poll, ⟨0x03 :: pageBytes l, 74⟩])) ∧
      (¬ busy → ∀ l c p e k, j = .store l c p e k → exec (.storelinkFrameExpiry status) s =
        .next (moved (.erase 0) [poll, enable, ⟨0xDB :: pageBytes l, 0⟩])) ∧
      (10 ≤ n + 1 → ∀ e st, late e st → ends e s fun t =>
        (∀ l c p d, j = .fetch l c p d → t.patches.queue = rest ∧ t.headStarts [poll] ∧ t.patches.flashStatus = st ∧
          t.voices = s.voices ∧
          (d = true → t.parts = s.parts ∧ t.patches.slots = s.patches.slots ∧ t.notices = s.notices) ∧
          (d = false → t.cache c = ⟨.empty, none, none, (s.cache c).rank, false, 0⟩ ∧
            (∀ x, x ≠ c → t.cache x = s.cache x) ∧ ∀ q,
            ((s.part q).wanted = some l → t.part q = { s.part q with wanted := none, lastRecall := .timeout } ∧
              t.notices.recalls.getLsbD q.val = true) ∧
            ((s.part q).wanted ≠ some l → t.part q = s.part q))) ∧
        (∀ l c p snap linked, j = .store l c p snap linked → storeEnds t .timeout st l c rest))) ∧
    ∀ (rest : List Job) (l : Nat) (c : CacheNo) (p : PartNo) (snap : BitVec 16) (linked : Bool),
      s.patches.queue = .store l c p snap linked :: rest →
      let page := pageOf ((s.cache c).contents.getD .default)
      (∀ n, s.patches.head = some (.erase n) →
        (n + 1 < 40 → exec .flashTimeout s = .next s ∧
          (busy → exec (.storelinkFrameExpiry status) s = .next (moved (.erase (n + 1)) [poll]))) ∧
        (40 ≤ n + 1 → ∀ e st, late e st → ends e s fun t => storeEnds t .timeout st l c rest) ∧
        (¬ busy → ¬ fail → exec (.storelinkFrameExpiry status) s =
          .next (moved (.program 0 page) [poll, enable, ⟨0x02 :: pageBytes l ++ page, 0⟩])) ∧
        (¬ busy → fail → ends (.storelinkFrameExpiry status) s fun t => storeEnds t .eraseFail status l c rest)) ∧
      ∀ n image, s.patches.head = some (.program n image) →
        (n + 1 < 10 → exec .flashTimeout s = .next s ∧
          (busy → exec (.storelinkFrameExpiry status) s = .next (moved (.program (n + 1) image) [poll]))) ∧
        (10 ≤ n + 1 → ∀ e st, late e st → ends e s fun t => storeEnds t .timeout st l c rest) ∧
        (¬ busy → ¬ fail → exec (.storelinkFrameExpiry status) s =
          .next (moved (.verify image) [poll, ⟨0x03 :: pageBytes l, 256⟩])) ∧
        (¬ busy → fail → ends (.storelinkFrameExpiry status) s fun t => storeEnds t .programFail status l c rest)

/-- A FETCH that reads its record, and a STORE that reads its page back, end their jobs (R173, R174, R177 to R180). A record
that reads OK makes its slot VALID and most recent (R165) and is copied into the parts that want it, in ascending order, with
what the copy does to their voices, to the panel's arming and to their STORE jobs (R41, R42, R149, R175, R179). A slot that a
failed fetch or the last pin of a failed store makes EMPTY takes no location, lock no and pin 0, and keeps its rank (R164).
The next job becomes the head and starts at the same event (R168, R172), its status read finding the status the flash last
showed (the model's choice, log entry 10). A transfer of another length is a fault (1.5); with no such read under way the
rows change nothing (the model's choice, log entry 2). -/
def Obligations.TransfersEndTheirJobs : Prop :=
  ∀ (bytes : List Byte) (s : State),
    (s.patches.head ≠ some .read → exec (.fetchReadComplete bytes) s = .next s) ∧
    ((∀ page, s.patches.head ≠ some (.verify page)) → exec (.verifyComplete bytes) s = .next s) ∧
    (∀ (l : Nat) (c : CacheNo) (p : PartNo) (d : Bool) (rest : List Job),
      s.patches.queue = .fetch l c p d :: rest → s.patches.head = some .read →
      (bytes.length ≠ 74 → exec (.fetchReadComplete bytes) s = .fault .malformedTransfer) ∧
      (bytes.length = 74 → ends (.fetchReadComplete bytes) s fun t =>
        t.patches.queue.map Job.slot = rest.map Job.slot ∧ (t.patches.head = none ↔ rest = []) ∧
        t.headStarts [] ∧ t.patches.flashStatus = s.patches.flashStatus ∧
        (d = true → t.parts = s.parts ∧ t.patches.slots = s.patches.slots ∧ t.notices = s.notices ∧
          t.patches.queue = rest ∧ t.voices = s.voices ∧ t.panel = s.panel) ∧
        (d = false → judge bytes = .ok → (s.cache c).location = some l →
          s.copiesMade t (patchOf bytes) l ∧
          t.patches.queue = rest.map (Job.unlinkedBy fun _ q => (s.part q).wanted == some l) ∧
          t.cache c = { s.cache c with state := .valid, contents := some (patchOf bytes), rank := 0 } ∧
          ∀ e, e ≠ c → t.cache e = { s.cache e with rank := s.rankAfter c e }) ∧
        (d = false → judge bytes ≠ .ok → t.patches.queue = rest ∧ t.panel = s.panel ∧
          ∀ e, e ≠ c → t.cache e = s.cache e) ∧
        (d = false → ∀ q, (s.part q).wanted ≠ some l → t.part q = s.part q) ∧
        (d = false → judge bytes = .ok → (t.cache c).state = .valid ∧ (t.cache c).contents = some (patchOf bytes) ∧
          (t.cache c).rank = 0 ∧ ((s.cache c).location = some l → ∀ q, (s.part q).wanted = some l →
            (t.part q).live = patchOf bytes ∧ (t.part q).origin = some l ∧ (t.part q).dirty = false ∧
            (t.part q).wanted = none ∧ (t.part q).lastRecall = .ok ∧ t.notices.recalls.getLsbD q.val = true)) ∧
        (d = false → judge bytes ≠ .ok → t.cache c = ⟨.empty, none, none, (s.cache c).rank, false, 0⟩ ∧
          t.voices = s.voices ∧ ∀ q, (s.part q).wanted = some l →
            t.part q = { s.part q with wanted := none, lastRecall := judge bytes } ∧
            t.notices.recalls.getLsbD q.val = true))) ∧
    ∀ (l : Nat) (c : CacheNo) (p : PartNo) (e : BitVec 16) (linked : Bool) (rest : List Job) (page : List Byte),
      s.patches.queue = .store l c p e linked :: rest → s.patches.head = some (.verify page) →
      (bytes.length ≠ 256 → exec (.verifyComplete bytes) s = .fault .malformedTransfer) ∧
      (bytes.length = 256 → ends (.verifyComplete bytes) s fun t =>
        t.patches.queue = rest ∧ (t.patches.head = none ↔ rest = []) ∧ t.patches.lastStoreLoc = some l ∧
        t.headStarts [] ∧ t.patches.flashStatus = s.patches.flashStatus ∧
        t.notices = { s.notices with store := true } ∧ (∀ q, q ≠ p → t.part q = s.part q) ∧
        (∀ x, x ≠ c → t.cache x = s.cache x) ∧ t.voices = s.voices ∧ t.panel = s.panel ∧
        (bytes = page → t.patches.lastStore = .ok ∧
          t.cache c = { s.cache c with pin := (s.cache c).pin - 1 } ∧
          t.part p = if linked ∧ (s.part p).editCount = e then { s.part p with dirty := false, origin := some l }
            else s.part p) ∧
        (bytes ≠ page → t.patches.lastStore = .verifyFail ∧ t.parts = s.parts ∧
          ((s.cache c).pin = 1 → t.cache c = ⟨.empty, none, none, (s.cache c).rank, false, 0⟩) ∧
          (2 ≤ (s.cache c).pin → t.cache c = { s.cache c with pin := (s.cache c).pin - 1 })))

/-! ### Notices (R196 to R203) -/

/-- READ_NOTICES answers with the kinds pending, the enables, the clear mode and the sets as they stand (R200, 10.5, field by
field in `State.noticeFields`) and, in READ_CLEARS mode, clears all but PANEL (R198, R200); ACK_NOTICES with mode 0 clears
the sources named of the kinds named, PANEL apart, or is refused where a bit lies outside its kind's sources (R201); with
mode 1 it sets the enables (R202). A posting adds its source to its kind's set and nothing else, whatever the enable (R197,
R198), and ATTN is high exactly while a kind whose enable is on has a non-empty set (R199), so a posting of an enabled kind
leaves it high. -/
def Obligations.NoticesAreReadAcknowledgedAndEnabled : Prop :=
  (∀ s : State, s.inHand = some .readNotices → ends .readNotices s fun t =>
    t = { s with notices := t.notices, port := s.answered .ok s.noticeFields } ∧
    (s.settings.ackClears = true → t.notices = s.notices) ∧
    (s.settings.ackClears = false →
      t.notices = ⟨0, false, 0, 0, 0, false, s.notices.panel, false, s.notices.enables⟩)) ∧
  (∀ (mode : Byte) (fields : List Byte) (s : State), s.inHand = some (.ackNotices mode fields) →
    (1 < mode.toNat → exec (.ackNotices mode fields) s = .next (s.onlyAnswered .badValue [])) ∧
    ((mode = 0 ∧ fields.length = 1) ∨ mode = 1 →
      exec (.ackNotices mode fields) s = .next (s.onlyAnswered .badLength [])) ∧
    ∀ kinds card tune h1 h0 c1 c0 recalls store panel link : Byte, mode = 0 →
      fields = [kinds, card, tune, h1, h0, c1, c0, recalls, store, panel, link] →
      let fits := card.toNat < 16 ∧ tune.toNat < 2 ∧ recalls.toNat < 16 ∧ store.toNat < 2 ∧ panel.toNat < 2
        ∧ link.toNat < 2
      (¬ fits → exec (.ackNotices mode fields) s = .next (s.onlyAnswered .badValue [])) ∧
      (fits → ends (.ackNotices mode fields) s fun t =>
        t = { s with notices := t.notices, port := s.answered .ok [] } ∧
        t.notices.panel = s.notices.panel ∧ t.notices.enables = s.notices.enables ∧
        (t.notices.tune = (s.notices.tune && !(kinds.getLsbD 1 && tune.getLsbD 0))) ∧
        (t.notices.store = (s.notices.store && !(kinds.getLsbD 5 && store.getLsbD 0))) ∧
        (t.notices.link = (s.notices.link && !(kinds.getLsbD 7 && link.getLsbD 0))) ∧
        (∀ i, t.notices.card.getLsbD i = (s.notices.card.getLsbD i && !(kinds.getLsbD 0 && card.getLsbD i))) ∧
        (∀ i, t.notices.recalls.getLsbD i =
          (s.notices.recalls.getLsbD i && !(kinds.getLsbD 4 && recalls.getLsbD i))) ∧
        (∀ i, t.notices.health.getLsbD i =
          (s.notices.health.getLsbD i && !(kinds.getLsbD 2 && (h1 ++ h0 : BitVec 16).getLsbD i))) ∧
        (∀ i, t.notices.clamp.getLsbD i =
          (s.notices.clamp.getLsbD i && !(kinds.getLsbD 3 && (c1 ++ c0 : BitVec 16).getLsbD i))))) ∧
  (∀ (kinds : Byte) (s : State), s.inHand = some (.ackNoticesSetEnables kinds) →
    exec (.ackNoticesSetEnables kinds) s =
      .next (State.onlyAnswered { s with notices := { s.notices with enables := kinds } } .ok [])) ∧
  ∀ s : State,
    let on (kind : Nat) : Prop := s.notices.enables.getLsbD kind = true
    (s.attn = true ↔ on 0 ∧ s.notices.card ≠ 0 ∨ on 1 ∧ s.notices.tune = true ∨ on 2 ∧ s.notices.health ≠ 0
      ∨ on 3 ∧ s.notices.clamp ≠ 0 ∨ on 4 ∧ s.notices.recalls ≠ 0 ∨ on 5 ∧ s.notices.store = true
      ∨ on 6 ∧ s.notices.panel = true ∨ on 7 ∧ s.notices.link = true) ∧
    (∀ k : CardNo, (on 0 → (s.postCard k).attn = true) ∧ ∃ x, s.postCard k = { s with notices := { s.notices with card := x } } ∧
      ∀ i, x.getLsbD i = (s.notices.card.getLsbD i || i == k.val)) ∧
    (∀ v : Voice, (on 2 → (s.postHealth v).attn = true) ∧ (on 3 → (s.postClamp v).attn = true) ∧
      (∃ x, s.postHealth v = { s with notices := { s.notices with health := x } } ∧
        ∀ i, x.getLsbD i = (s.notices.health.getLsbD i || i == v.val)) ∧
      ∃ x, s.postClamp v = { s with notices := { s.notices with clamp := x } } ∧
        ∀ i, x.getLsbD i = (s.notices.clamp.getLsbD i || i == v.val)) ∧
    (∀ p : PartNo, (on 4 → (s.postRecall p).attn = true) ∧ ∃ x, s.postRecall p = { s with notices := { s.notices with recalls := x } } ∧
      ∀ i, x.getLsbD i = (s.notices.recalls.getLsbD i || i == p.val)) ∧
    (s.postTune = { s with notices := { s.notices with tune := true } } ∧ (on 1 → s.postTune.attn = true)) ∧
    (s.postStore = { s with notices := { s.notices with store := true } } ∧ (on 5 → s.postStore.attn = true)) ∧
    (s.postLink = { s with notices := { s.notices with link := true } } ∧ (on 7 → s.postLink.attn = true)) ∧
    ∀ b, s.reportPanel b = { s with notices := { s.notices with panel := b } } ∧ (on 6 → b = true → (s.reportPanel b).attn = true)

/-! ### What every step keeps -/

/-- The part table, the panel and the port keep their invariants: the reserves fit in sixteen voices (R12), the held-key lists
hold at most sixteen different keys (R6), every patch is in range (R159), filtered values are in range (R140), the change list
agrees with its notice (R152, R198), and port state, buffers and open transaction agree (R184, R185, R188). -/
def Obligations.EveryStepKeepsTables : Prop :=
  KeptByStep fun s => s.reservesFit ∧ s.heldFit ∧ s.patchesFit ∧ s.filtersFit ∧ s.changesRight ∧ s.portRight

/-- The voices keep their invariant: an assignment exactly in SOUNDING, RELEASING and STEAL_GAP (R23), no part above its
effective limit (R24), the pass's and the check's voices in their claimed states (R106, R126), failure counts at most 255
(R135), and the plan in range (R110, R123). -/
def Obligations.EveryStepKeepsVoices : Prop :=
  KeptByStep fun s => s.voicesRight ∧ s.countsFit ∧ s.failsFit ∧ s.tuneFit ∧ s.patchesFit

/-- The patch manager keeps its invariant: recency ranks are a permutation (R165), the queue holds at most eight jobs and a head
with its step (R168), and slots and jobs agree (R164, R166, R167, R170, R177). -/
def Obligations.EveryStepKeepsStore : Prop :=
  KeptByStep fun s => s.ranksRight ∧ s.queueFit ∧ s.jobsRight

/-- The state after reset has every invariant. -/
def Obligations.ResetHasTheInvariants : Prop :=
  State.reset.reservesFit ∧ State.reset.heldFit ∧ State.reset.patchesFit ∧ State.reset.filtersFit
    ∧ State.reset.changesRight ∧ State.reset.portRight ∧ State.reset.voicesRight ∧ State.reset.countsFit
    ∧ State.reset.failsFit ∧ State.reset.tuneFit ∧ State.reset.ranksRight ∧ State.reset.queueFit
    ∧ State.reset.jobsRight
end

