-- ==== Sys2Proof/Laws/State.lean ====
section
/-! SUPPORT. What each update of the state leaves as it was, field by field, and what a record reads back as after it was
replaced. Every lemma holds by the definition of the update, so that no later proof unfolds one. -/

namespace Sys2Proof.Machine

/-! ### Records -/

@[simp] theorem State.setZone_parts (s : State) (z : ZoneNo) (r : Zone) : (s.setZone z r).parts = s.parts := rfl
@[simp] theorem State.setZone_voices (s : State) (z : ZoneNo) (r : Zone) : (s.setZone z r).voices = s.voices := rfl
@[simp] theorem State.setZone_stamp (s : State) (z : ZoneNo) (r : Zone) : (s.setZone z r).stamp = s.stamp := rfl
@[simp] theorem State.setZone_freePicks (s : State) (z : ZoneNo) (r : Zone) : (s.setZone z r).freePicks = s.freePicks := rfl
@[simp] theorem State.setZone_refresh (s : State) (z : ZoneNo) (r : Zone) : (s.setZone z r).refresh = s.refresh := rfl
@[simp] theorem State.setZone_tune (s : State) (z : ZoneNo) (r : Zone) : (s.setZone z r).tune = s.tune := rfl
@[simp] theorem State.setZone_cards (s : State) (z : ZoneNo) (r : Zone) : (s.setZone z r).cards = s.cards := rfl
@[simp] theorem State.setZone_panel (s : State) (z : ZoneNo) (r : Zone) : (s.setZone z r).panel = s.panel := rfl
@[simp] theorem State.setZone_patches (s : State) (z : ZoneNo) (r : Zone) : (s.setZone z r).patches = s.patches := rfl
@[simp] theorem State.setZone_port (s : State) (z : ZoneNo) (r : Zone) : (s.setZone z r).port = s.port := rfl
@[simp] theorem State.setZone_notices (s : State) (z : ZoneNo) (r : Zone) : (s.setZone z r).notices = s.notices := rfl
@[simp] theorem State.setZone_settings (s : State) (z : ZoneNo) (r : Zone) : (s.setZone z r).settings = s.settings := rfl
@[simp] theorem State.setZone_pending (s : State) (z : ZoneNo) (r : Zone) : (s.setZone z r).pending = s.pending := rfl

@[simp] theorem State.setPart_zones (s : State) (p : PartNo) (r : Part) : (s.setPart p r).zones = s.zones := rfl
@[simp] theorem State.setPart_voices (s : State) (p : PartNo) (r : Part) : (s.setPart p r).voices = s.voices := rfl
@[simp] theorem State.setPart_stamp (s : State) (p : PartNo) (r : Part) : (s.setPart p r).stamp = s.stamp := rfl
@[simp] theorem State.setPart_freePicks (s : State) (p : PartNo) (r : Part) : (s.setPart p r).freePicks = s.freePicks := rfl
@[simp] theorem State.setPart_refresh (s : State) (p : PartNo) (r : Part) : (s.setPart p r).refresh = s.refresh := rfl
@[simp] theorem State.setPart_tune (s : State) (p : PartNo) (r : Part) : (s.setPart p r).tune = s.tune := rfl
@[simp] theorem State.setPart_cards (s : State) (p : PartNo) (r : Part) : (s.setPart p r).cards = s.cards := rfl
@[simp] theorem State.setPart_panel (s : State) (p : PartNo) (r : Part) : (s.setPart p r).panel = s.panel := rfl
@[simp] theorem State.setPart_patches (s : State) (p : PartNo) (r : Part) : (s.setPart p r).patches = s.patches := rfl
@[simp] theorem State.setPart_port (s : State) (p : PartNo) (r : Part) : (s.setPart p r).port = s.port := rfl
@[simp] theorem State.setPart_notices (s : State) (p : PartNo) (r : Part) : (s.setPart p r).notices = s.notices := rfl
@[simp] theorem State.setPart_settings (s : State) (p : PartNo) (r : Part) : (s.setPart p r).settings = s.settings := rfl
@[simp] theorem State.setPart_pending (s : State) (p : PartNo) (r : Part) : (s.setPart p r).pending = s.pending := rfl

@[simp] theorem State.modPart_zones (s : State) (p : PartNo) (f : Part → Part) : (s.modPart p f).zones = s.zones := rfl
@[simp] theorem State.modPart_voices (s : State) (p : PartNo) (f : Part → Part) : (s.modPart p f).voices = s.voices := rfl
@[simp] theorem State.modPart_stamp (s : State) (p : PartNo) (f : Part → Part) : (s.modPart p f).stamp = s.stamp := rfl
@[simp] theorem State.modPart_freePicks (s : State) (p : PartNo) (f : Part → Part) : (s.modPart p f).freePicks = s.freePicks := rfl
@[simp] theorem State.modPart_refresh (s : State) (p : PartNo) (f : Part → Part) : (s.modPart p f).refresh = s.refresh := rfl
@[simp] theorem State.modPart_tune (s : State) (p : PartNo) (f : Part → Part) : (s.modPart p f).tune = s.tune := rfl
@[simp] theorem State.modPart_cards (s : State) (p : PartNo) (f : Part → Part) : (s.modPart p f).cards = s.cards := rfl
@[simp] theorem State.modPart_panel (s : State) (p : PartNo) (f : Part → Part) : (s.modPart p f).panel = s.panel := rfl
@[simp] theorem State.modPart_patches (s : State) (p : PartNo) (f : Part → Part) : (s.modPart p f).patches = s.patches := rfl
@[simp] theorem State.modPart_port (s : State) (p : PartNo) (f : Part → Part) : (s.modPart p f).port = s.port := rfl
@[simp] theorem State.modPart_notices (s : State) (p : PartNo) (f : Part → Part) : (s.modPart p f).notices = s.notices := rfl
@[simp] theorem State.modPart_settings (s : State) (p : PartNo) (f : Part → Part) : (s.modPart p f).settings = s.settings := rfl
@[simp] theorem State.modPart_pending (s : State) (p : PartNo) (f : Part → Part) : (s.modPart p f).pending = s.pending := rfl

@[simp] theorem State.setVoice_zones (s : State) (v : Voice) (r : VoiceRec) : (s.setVoice v r).zones = s.zones := rfl
@[simp] theorem State.setVoice_parts (s : State) (v : Voice) (r : VoiceRec) : (s.setVoice v r).parts = s.parts := rfl
@[simp] theorem State.setVoice_stamp (s : State) (v : Voice) (r : VoiceRec) : (s.setVoice v r).stamp = s.stamp := rfl
@[simp] theorem State.setVoice_freePicks (s : State) (v : Voice) (r : VoiceRec) : (s.setVoice v r).freePicks = s.freePicks := rfl
@[simp] theorem State.setVoice_refresh (s : State) (v : Voice) (r : VoiceRec) : (s.setVoice v r).refresh = s.refresh := rfl
@[simp] theorem State.setVoice_tune (s : State) (v : Voice) (r : VoiceRec) : (s.setVoice v r).tune = s.tune := rfl
@[simp] theorem State.setVoice_cards (s : State) (v : Voice) (r : VoiceRec) : (s.setVoice v r).cards = s.cards := rfl
@[simp] theorem State.setVoice_panel (s : State) (v : Voice) (r : VoiceRec) : (s.setVoice v r).panel = s.panel := rfl
@[simp] theorem State.setVoice_patches (s : State) (v : Voice) (r : VoiceRec) : (s.setVoice v r).patches = s.patches := rfl
@[simp] theorem State.setVoice_port (s : State) (v : Voice) (r : VoiceRec) : (s.setVoice v r).port = s.port := rfl
@[simp] theorem State.setVoice_notices (s : State) (v : Voice) (r : VoiceRec) : (s.setVoice v r).notices = s.notices := rfl
@[simp] theorem State.setVoice_settings (s : State) (v : Voice) (r : VoiceRec) : (s.setVoice v r).settings = s.settings := rfl
@[simp] theorem State.setVoice_pending (s : State) (v : Voice) (r : VoiceRec) : (s.setVoice v r).pending = s.pending := rfl

@[simp] theorem State.modVoice_zones (s : State) (v : Voice) (f : VoiceRec → VoiceRec) : (s.modVoice v f).zones = s.zones := rfl
@[simp] theorem State.modVoice_parts (s : State) (v : Voice) (f : VoiceRec → VoiceRec) : (s.modVoice v f).parts = s.parts := rfl
@[simp] theorem State.modVoice_stamp (s : State) (v : Voice) (f : VoiceRec → VoiceRec) : (s.modVoice v f).stamp = s.stamp := rfl
@[simp] theorem State.modVoice_freePicks (s : State) (v : Voice) (f : VoiceRec → VoiceRec) : (s.modVoice v f).freePicks = s.freePicks := rfl
@[simp] theorem State.modVoice_refresh (s : State) (v : Voice) (f : VoiceRec → VoiceRec) : (s.modVoice v f).refresh = s.refresh := rfl
@[simp] theorem State.modVoice_tune (s : State) (v : Voice) (f : VoiceRec → VoiceRec) : (s.modVoice v f).tune = s.tune := rfl
@[simp] theorem State.modVoice_cards (s : State) (v : Voice) (f : VoiceRec → VoiceRec) : (s.modVoice v f).cards = s.cards := rfl
@[simp] theorem State.modVoice_panel (s : State) (v : Voice) (f : VoiceRec → VoiceRec) : (s.modVoice v f).panel = s.panel := rfl
@[simp] theorem State.modVoice_patches (s : State) (v : Voice) (f : VoiceRec → VoiceRec) : (s.modVoice v f).patches = s.patches := rfl
@[simp] theorem State.modVoice_port (s : State) (v : Voice) (f : VoiceRec → VoiceRec) : (s.modVoice v f).port = s.port := rfl
@[simp] theorem State.modVoice_notices (s : State) (v : Voice) (f : VoiceRec → VoiceRec) : (s.modVoice v f).notices = s.notices := rfl
@[simp] theorem State.modVoice_settings (s : State) (v : Voice) (f : VoiceRec → VoiceRec) : (s.modVoice v f).settings = s.settings := rfl
@[simp] theorem State.modVoice_pending (s : State) (v : Voice) (f : VoiceRec → VoiceRec) : (s.modVoice v f).pending = s.pending := rfl

@[simp] theorem State.setCard_zones (s : State) (k : CardNo) (r : Card) : (s.setCard k r).zones = s.zones := rfl
@[simp] theorem State.setCard_parts (s : State) (k : CardNo) (r : Card) : (s.setCard k r).parts = s.parts := rfl
@[simp] theorem State.setCard_voices (s : State) (k : CardNo) (r : Card) : (s.setCard k r).voices = s.voices := rfl
@[simp] theorem State.setCard_stamp (s : State) (k : CardNo) (r : Card) : (s.setCard k r).stamp = s.stamp := rfl
@[simp] theorem State.setCard_freePicks (s : State) (k : CardNo) (r : Card) : (s.setCard k r).freePicks = s.freePicks := rfl
@[simp] theorem State.setCard_refresh (s : State) (k : CardNo) (r : Card) : (s.setCard k r).refresh = s.refresh := rfl
@[simp] theorem State.setCard_tune (s : State) (k : CardNo) (r : Card) : (s.setCard k r).tune = s.tune := rfl
@[simp] theorem State.setCard_panel (s : State) (k : CardNo) (r : Card) : (s.setCard k r).panel = s.panel := rfl
@[simp] theorem State.setCard_patches (s : State) (k : CardNo) (r : Card) : (s.setCard k r).patches = s.patches := rfl
@[simp] theorem State.setCard_port (s : State) (k : CardNo) (r : Card) : (s.setCard k r).port = s.port := rfl
@[simp] theorem State.setCard_notices (s : State) (k : CardNo) (r : Card) : (s.setCard k r).notices = s.notices := rfl
@[simp] theorem State.setCard_settings (s : State) (k : CardNo) (r : Card) : (s.setCard k r).settings = s.settings := rfl
@[simp] theorem State.setCard_pending (s : State) (k : CardNo) (r : Card) : (s.setCard k r).pending = s.pending := rfl

@[simp] theorem State.modCard_zones (s : State) (k : CardNo) (f : Card → Card) : (s.modCard k f).zones = s.zones := rfl
@[simp] theorem State.modCard_parts (s : State) (k : CardNo) (f : Card → Card) : (s.modCard k f).parts = s.parts := rfl
@[simp] theorem State.modCard_voices (s : State) (k : CardNo) (f : Card → Card) : (s.modCard k f).voices = s.voices := rfl
@[simp] theorem State.modCard_stamp (s : State) (k : CardNo) (f : Card → Card) : (s.modCard k f).stamp = s.stamp := rfl
@[simp] theorem State.modCard_freePicks (s : State) (k : CardNo) (f : Card → Card) : (s.modCard k f).freePicks = s.freePicks := rfl
@[simp] theorem State.modCard_refresh (s : State) (k : CardNo) (f : Card → Card) : (s.modCard k f).refresh = s.refresh := rfl
@[simp] theorem State.modCard_tune (s : State) (k : CardNo) (f : Card → Card) : (s.modCard k f).tune = s.tune := rfl
@[simp] theorem State.modCard_panel (s : State) (k : CardNo) (f : Card → Card) : (s.modCard k f).panel = s.panel := rfl
@[simp] theorem State.modCard_patches (s : State) (k : CardNo) (f : Card → Card) : (s.modCard k f).patches = s.patches := rfl
@[simp] theorem State.modCard_port (s : State) (k : CardNo) (f : Card → Card) : (s.modCard k f).port = s.port := rfl
@[simp] theorem State.modCard_notices (s : State) (k : CardNo) (f : Card → Card) : (s.modCard k f).notices = s.notices := rfl
@[simp] theorem State.modCard_settings (s : State) (k : CardNo) (f : Card → Card) : (s.modCard k f).settings = s.settings := rfl
@[simp] theorem State.modCard_pending (s : State) (k : CardNo) (f : Card → Card) : (s.modCard k f).pending = s.pending := rfl

@[simp] theorem State.setChannel_zones (s : State) (c : ChannelNo) (r : Channel) : (s.setChannel c r).zones = s.zones := rfl
@[simp] theorem State.setChannel_parts (s : State) (c : ChannelNo) (r : Channel) : (s.setChannel c r).parts = s.parts := rfl
@[simp] theorem State.setChannel_voices (s : State) (c : ChannelNo) (r : Channel) : (s.setChannel c r).voices = s.voices := rfl
@[simp] theorem State.setChannel_stamp (s : State) (c : ChannelNo) (r : Channel) : (s.setChannel c r).stamp = s.stamp := rfl
@[simp] theorem State.setChannel_freePicks (s : State) (c : ChannelNo) (r : Channel) : (s.setChannel c r).freePicks = s.freePicks := rfl
@[simp] theorem State.setChannel_refresh (s : State) (c : ChannelNo) (r : Channel) : (s.setChannel c r).refresh = s.refresh := rfl
@[simp] theorem State.setChannel_tune (s : State) (c : ChannelNo) (r : Channel) : (s.setChannel c r).tune = s.tune := rfl
@[simp] theorem State.setChannel_cards (s : State) (c : ChannelNo) (r : Channel) : (s.setChannel c r).cards = s.cards := rfl
@[simp] theorem State.setChannel_patches (s : State) (c : ChannelNo) (r : Channel) : (s.setChannel c r).patches = s.patches := rfl
@[simp] theorem State.setChannel_port (s : State) (c : ChannelNo) (r : Channel) : (s.setChannel c r).port = s.port := rfl
@[simp] theorem State.setChannel_notices (s : State) (c : ChannelNo) (r : Channel) : (s.setChannel c r).notices = s.notices := rfl
@[simp] theorem State.setChannel_settings (s : State) (c : ChannelNo) (r : Channel) : (s.setChannel c r).settings = s.settings := rfl
@[simp] theorem State.setChannel_pending (s : State) (c : ChannelNo) (r : Channel) : (s.setChannel c r).pending = s.pending := rfl
@[simp] theorem State.setChannel_panel_focus (s : State) (c : ChannelNo) (r : Channel) : (s.setChannel c r).panel.focus = s.panel.focus := rfl
@[simp] theorem State.setChannel_panel_shift (s : State) (c : ChannelNo) (r : Channel) : (s.setChannel c r).panel.shift = s.panel.shift := rfl
@[simp] theorem State.setChannel_panel_deadband (s : State) (c : ChannelNo) (r : Channel) : (s.setChannel c r).panel.deadband = s.panel.deadband := rfl
@[simp] theorem State.setChannel_panel_modValue (s : State) (c : ChannelNo) (r : Channel) : (s.setChannel c r).panel.modValue = s.panel.modValue := rfl
@[simp] theorem State.setChannel_panel_pedalValue (s : State) (c : ChannelNo) (r : Channel) : (s.setChannel c r).panel.pedalValue = s.panel.pedalValue := rfl
@[simp] theorem State.setChannel_panel_scanPos (s : State) (c : ChannelNo) (r : Channel) : (s.setChannel c r).panel.scanPos = s.panel.scanPos := rfl
@[simp] theorem State.setChannel_panel_changes (s : State) (c : ChannelNo) (r : Channel) : (s.setChannel c r).panel.changes = s.panel.changes := rfl

@[simp] theorem State.setCache_zones (s : State) (c : CacheNo) (r : CacheSlot) : (s.setCache c r).zones = s.zones := rfl
@[simp] theorem State.setCache_parts (s : State) (c : CacheNo) (r : CacheSlot) : (s.setCache c r).parts = s.parts := rfl
@[simp] theorem State.setCache_voices (s : State) (c : CacheNo) (r : CacheSlot) : (s.setCache c r).voices = s.voices := rfl
@[simp] theorem State.setCache_stamp (s : State) (c : CacheNo) (r : CacheSlot) : (s.setCache c r).stamp = s.stamp := rfl
@[simp] theorem State.setCache_freePicks (s : State) (c : CacheNo) (r : CacheSlot) : (s.setCache c r).freePicks = s.freePicks := rfl
@[simp] theorem State.setCache_refresh (s : State) (c : CacheNo) (r : CacheSlot) : (s.setCache c r).refresh = s.refresh := rfl
@[simp] theorem State.setCache_tune (s : State) (c : CacheNo) (r : CacheSlot) : (s.setCache c r).tune = s.tune := rfl
@[simp] theorem State.setCache_cards (s : State) (c : CacheNo) (r : CacheSlot) : (s.setCache c r).cards = s.cards := rfl
@[simp] theorem State.setCache_panel (s : State) (c : CacheNo) (r : CacheSlot) : (s.setCache c r).panel = s.panel := rfl
@[simp] theorem State.setCache_port (s : State) (c : CacheNo) (r : CacheSlot) : (s.setCache c r).port = s.port := rfl
@[simp] theorem State.setCache_notices (s : State) (c : CacheNo) (r : CacheSlot) : (s.setCache c r).notices = s.notices := rfl
@[simp] theorem State.setCache_settings (s : State) (c : CacheNo) (r : CacheSlot) : (s.setCache c r).settings = s.settings := rfl
@[simp] theorem State.setCache_pending (s : State) (c : CacheNo) (r : CacheSlot) : (s.setCache c r).pending = s.pending := rfl
@[simp] theorem State.setCache_patches_queue (s : State) (c : CacheNo) (r : CacheSlot) : (s.setCache c r).patches.queue = s.patches.queue := rfl
@[simp] theorem State.setCache_patches_head (s : State) (c : CacheNo) (r : CacheSlot) : (s.setCache c r).patches.head = s.patches.head := rfl
@[simp] theorem State.setCache_patches_lastStore (s : State) (c : CacheNo) (r : CacheSlot) : (s.setCache c r).patches.lastStore = s.patches.lastStore := rfl
@[simp] theorem State.setCache_patches_lastStoreLoc (s : State) (c : CacheNo) (r : CacheSlot) : (s.setCache c r).patches.lastStoreLoc = s.patches.lastStoreLoc := rfl
@[simp] theorem State.setCache_patches_flashStatus (s : State) (c : CacheNo) (r : CacheSlot) : (s.setCache c r).patches.flashStatus = s.patches.flashStatus := rfl
@[simp] theorem State.setCache_patches_sent (s : State) (c : CacheNo) (r : CacheSlot) : (s.setCache c r).patches.sent = s.patches.sent := rfl

@[simp] theorem State.setCalRecord_zones (s : State) (v : Voice) (r : CalRecord) : (s.setCalRecord v r).zones = s.zones := rfl
@[simp] theorem State.setCalRecord_parts (s : State) (v : Voice) (r : CalRecord) : (s.setCalRecord v r).parts = s.parts := rfl
@[simp] theorem State.setCalRecord_voices (s : State) (v : Voice) (r : CalRecord) : (s.setCalRecord v r).voices = s.voices := rfl
@[simp] theorem State.setCalRecord_stamp (s : State) (v : Voice) (r : CalRecord) : (s.setCalRecord v r).stamp = s.stamp := rfl
@[simp] theorem State.setCalRecord_freePicks (s : State) (v : Voice) (r : CalRecord) : (s.setCalRecord v r).freePicks = s.freePicks := rfl
@[simp] theorem State.setCalRecord_refresh (s : State) (v : Voice) (r : CalRecord) : (s.setCalRecord v r).refresh = s.refresh := rfl
@[simp] theorem State.setCalRecord_cards (s : State) (v : Voice) (r : CalRecord) : (s.setCalRecord v r).cards = s.cards := rfl
@[simp] theorem State.setCalRecord_panel (s : State) (v : Voice) (r : CalRecord) : (s.setCalRecord v r).panel = s.panel := rfl
@[simp] theorem State.setCalRecord_patches (s : State) (v : Voice) (r : CalRecord) : (s.setCalRecord v r).patches = s.patches := rfl
@[simp] theorem State.setCalRecord_port (s : State) (v : Voice) (r : CalRecord) : (s.setCalRecord v r).port = s.port := rfl
@[simp] theorem State.setCalRecord_notices (s : State) (v : Voice) (r : CalRecord) : (s.setCalRecord v r).notices = s.notices := rfl
@[simp] theorem State.setCalRecord_settings (s : State) (v : Voice) (r : CalRecord) : (s.setCalRecord v r).settings = s.settings := rfl
@[simp] theorem State.setCalRecord_pending (s : State) (v : Voice) (r : CalRecord) : (s.setCalRecord v r).pending = s.pending := rfl
@[simp] theorem State.setCalRecord_tune_plan (s : State) (v : Voice) (r : CalRecord) : (s.setCalRecord v r).tune.plan = s.tune.plan := rfl
@[simp] theorem State.setCalRecord_tune_outcome (s : State) (v : Voice) (r : CalRecord) : (s.setCalRecord v r).tune.outcome = s.tune.outcome := rfl
@[simp] theorem State.setCalRecord_tune_force (s : State) (v : Voice) (r : CalRecord) : (s.setCalRecord v r).tune.force = s.tune.force := rfl
@[simp] theorem State.setCalRecord_tune_entries (s : State) (v : Voice) (r : CalRecord) : (s.setCalRecord v r).tune.entries = s.tune.entries := rfl
@[simp] theorem State.setCalRecord_tune_service (s : State) (v : Voice) (r : CalRecord) : (s.setCalRecord v r).tune.service = s.tune.service := rfl
@[simp] theorem State.setCalRecord_tune_heldQuarantine (s : State) (v : Voice) (r : CalRecord) : (s.setCalRecord v r).tune.heldQuarantine = s.tune.heldQuarantine := rfl
@[simp] theorem State.setCalRecord_tune_requestWaiting (s : State) (v : Voice) (r : CalRecord) : (s.setCalRecord v r).tune.requestWaiting = s.tune.requestWaiting := rfl
@[simp] theorem State.setCalRecord_tune_unit (s : State) (v : Voice) (r : CalRecord) : (s.setCalRecord v r).tune.unit = s.tune.unit := rfl
@[simp] theorem State.setCalRecord_tune_check (s : State) (v : Voice) (r : CalRecord) : (s.setCalRecord v r).tune.check = s.tune.check := rfl
@[simp] theorem State.setCalRecord_tune_lineVoice (s : State) (v : Voice) (r : CalRecord) : (s.setCalRecord v r).tune.lineVoice = s.tune.lineVoice := rfl
@[simp] theorem State.setCalRecord_tune_lineDest (s : State) (v : Voice) (r : CalRecord) : (s.setCalRecord v r).tune.lineDest = s.tune.lineDest := rfl

@[simp] theorem State.setCal_zones (s : State) (v : Voice) (d : Tuned) (e : CalEntry) : (s.setCal v d e).zones = s.zones := rfl
@[simp] theorem State.setCal_parts (s : State) (v : Voice) (d : Tuned) (e : CalEntry) : (s.setCal v d e).parts = s.parts := rfl
@[simp] theorem State.setCal_voices (s : State) (v : Voice) (d : Tuned) (e : CalEntry) : (s.setCal v d e).voices = s.voices := rfl
@[simp] theorem State.setCal_stamp (s : State) (v : Voice) (d : Tuned) (e : CalEntry) : (s.setCal v d e).stamp = s.stamp := rfl
@[simp] theorem State.setCal_freePicks (s : State) (v : Voice) (d : Tuned) (e : CalEntry) : (s.setCal v d e).freePicks = s.freePicks := rfl
@[simp] theorem State.setCal_refresh (s : State) (v : Voice) (d : Tuned) (e : CalEntry) : (s.setCal v d e).refresh = s.refresh := rfl
@[simp] theorem State.setCal_cards (s : State) (v : Voice) (d : Tuned) (e : CalEntry) : (s.setCal v d e).cards = s.cards := rfl
@[simp] theorem State.setCal_panel (s : State) (v : Voice) (d : Tuned) (e : CalEntry) : (s.setCal v d e).panel = s.panel := rfl
@[simp] theorem State.setCal_patches (s : State) (v : Voice) (d : Tuned) (e : CalEntry) : (s.setCal v d e).patches = s.patches := rfl
@[simp] theorem State.setCal_port (s : State) (v : Voice) (d : Tuned) (e : CalEntry) : (s.setCal v d e).port = s.port := rfl
@[simp] theorem State.setCal_notices (s : State) (v : Voice) (d : Tuned) (e : CalEntry) : (s.setCal v d e).notices = s.notices := rfl
@[simp] theorem State.setCal_settings (s : State) (v : Voice) (d : Tuned) (e : CalEntry) : (s.setCal v d e).settings = s.settings := rfl
@[simp] theorem State.setCal_pending (s : State) (v : Voice) (d : Tuned) (e : CalEntry) : (s.setCal v d e).pending = s.pending := rfl
@[simp] theorem State.setCal_tune_plan (s : State) (v : Voice) (d : Tuned) (e : CalEntry) : (s.setCal v d e).tune.plan = s.tune.plan := rfl
@[simp] theorem State.setCal_tune_outcome (s : State) (v : Voice) (d : Tuned) (e : CalEntry) : (s.setCal v d e).tune.outcome = s.tune.outcome := rfl
@[simp] theorem State.setCal_tune_force (s : State) (v : Voice) (d : Tuned) (e : CalEntry) : (s.setCal v d e).tune.force = s.tune.force := rfl
@[simp] theorem State.setCal_tune_entries (s : State) (v : Voice) (d : Tuned) (e : CalEntry) : (s.setCal v d e).tune.entries = s.tune.entries := rfl
@[simp] theorem State.setCal_tune_service (s : State) (v : Voice) (d : Tuned) (e : CalEntry) : (s.setCal v d e).tune.service = s.tune.service := rfl
@[simp] theorem State.setCal_tune_heldQuarantine (s : State) (v : Voice) (d : Tuned) (e : CalEntry) : (s.setCal v d e).tune.heldQuarantine = s.tune.heldQuarantine := rfl
@[simp] theorem State.setCal_tune_requestWaiting (s : State) (v : Voice) (d : Tuned) (e : CalEntry) : (s.setCal v d e).tune.requestWaiting = s.tune.requestWaiting := rfl
@[simp] theorem State.setCal_tune_unit (s : State) (v : Voice) (d : Tuned) (e : CalEntry) : (s.setCal v d e).tune.unit = s.tune.unit := rfl
@[simp] theorem State.setCal_tune_check (s : State) (v : Voice) (d : Tuned) (e : CalEntry) : (s.setCal v d e).tune.check = s.tune.check := rfl
@[simp] theorem State.setCal_tune_lineVoice (s : State) (v : Voice) (d : Tuned) (e : CalEntry) : (s.setCal v d e).tune.lineVoice = s.tune.lineVoice := rfl
@[simp] theorem State.setCal_tune_lineDest (s : State) (v : Voice) (d : Tuned) (e : CalEntry) : (s.setCal v d e).tune.lineDest = s.tune.lineDest := rfl

@[simp] theorem State.setEntry_zones (s : State) (v : Voice) (e : PassEntry) : (s.setEntry v e).zones = s.zones := rfl
@[simp] theorem State.setEntry_parts (s : State) (v : Voice) (e : PassEntry) : (s.setEntry v e).parts = s.parts := rfl
@[simp] theorem State.setEntry_voices (s : State) (v : Voice) (e : PassEntry) : (s.setEntry v e).voices = s.voices := rfl
@[simp] theorem State.setEntry_stamp (s : State) (v : Voice) (e : PassEntry) : (s.setEntry v e).stamp = s.stamp := rfl
@[simp] theorem State.setEntry_freePicks (s : State) (v : Voice) (e : PassEntry) : (s.setEntry v e).freePicks = s.freePicks := rfl
@[simp] theorem State.setEntry_refresh (s : State) (v : Voice) (e : PassEntry) : (s.setEntry v e).refresh = s.refresh := rfl
@[simp] theorem State.setEntry_cards (s : State) (v : Voice) (e : PassEntry) : (s.setEntry v e).cards = s.cards := rfl
@[simp] theorem State.setEntry_panel (s : State) (v : Voice) (e : PassEntry) : (s.setEntry v e).panel = s.panel := rfl
@[simp] theorem State.setEntry_patches (s : State) (v : Voice) (e : PassEntry) : (s.setEntry v e).patches = s.patches := rfl
@[simp] theorem State.setEntry_port (s : State) (v : Voice) (e : PassEntry) : (s.setEntry v e).port = s.port := rfl
@[simp] theorem State.setEntry_notices (s : State) (v : Voice) (e : PassEntry) : (s.setEntry v e).notices = s.notices := rfl
@[simp] theorem State.setEntry_settings (s : State) (v : Voice) (e : PassEntry) : (s.setEntry v e).settings = s.settings := rfl
@[simp] theorem State.setEntry_pending (s : State) (v : Voice) (e : PassEntry) : (s.setEntry v e).pending = s.pending := rfl
@[simp] theorem State.setEntry_tune_cal (s : State) (v : Voice) (e : PassEntry) : (s.setEntry v e).tune.cal = s.tune.cal := rfl
@[simp] theorem State.setEntry_tune_plan (s : State) (v : Voice) (e : PassEntry) : (s.setEntry v e).tune.plan = s.tune.plan := rfl
@[simp] theorem State.setEntry_tune_outcome (s : State) (v : Voice) (e : PassEntry) : (s.setEntry v e).tune.outcome = s.tune.outcome := rfl
@[simp] theorem State.setEntry_tune_force (s : State) (v : Voice) (e : PassEntry) : (s.setEntry v e).tune.force = s.tune.force := rfl
@[simp] theorem State.setEntry_tune_service (s : State) (v : Voice) (e : PassEntry) : (s.setEntry v e).tune.service = s.tune.service := rfl
@[simp] theorem State.setEntry_tune_heldQuarantine (s : State) (v : Voice) (e : PassEntry) : (s.setEntry v e).tune.heldQuarantine = s.tune.heldQuarantine := rfl
@[simp] theorem State.setEntry_tune_requestWaiting (s : State) (v : Voice) (e : PassEntry) : (s.setEntry v e).tune.requestWaiting = s.tune.requestWaiting := rfl
@[simp] theorem State.setEntry_tune_unit (s : State) (v : Voice) (e : PassEntry) : (s.setEntry v e).tune.unit = s.tune.unit := rfl
@[simp] theorem State.setEntry_tune_check (s : State) (v : Voice) (e : PassEntry) : (s.setEntry v e).tune.check = s.tune.check := rfl
@[simp] theorem State.setEntry_tune_lineVoice (s : State) (v : Voice) (e : PassEntry) : (s.setEntry v e).tune.lineVoice = s.tune.lineVoice := rfl
@[simp] theorem State.setEntry_tune_lineDest (s : State) (v : Voice) (e : PassEntry) : (s.setEntry v e).tune.lineDest = s.tune.lineDest := rfl

@[simp] theorem State.setOverride_zones (s : State) (v : Voice) (d : DestNo) (x : Option Code) : (s.setOverride v d x).zones = s.zones := rfl
@[simp] theorem State.setOverride_parts (s : State) (v : Voice) (d : DestNo) (x : Option Code) : (s.setOverride v d x).parts = s.parts := rfl
@[simp] theorem State.setOverride_voices (s : State) (v : Voice) (d : DestNo) (x : Option Code) : (s.setOverride v d x).voices = s.voices := rfl
@[simp] theorem State.setOverride_stamp (s : State) (v : Voice) (d : DestNo) (x : Option Code) : (s.setOverride v d x).stamp = s.stamp := rfl
@[simp] theorem State.setOverride_freePicks (s : State) (v : Voice) (d : DestNo) (x : Option Code) : (s.setOverride v d x).freePicks = s.freePicks := rfl
@[simp] theorem State.setOverride_tune (s : State) (v : Voice) (d : DestNo) (x : Option Code) : (s.setOverride v d x).tune = s.tune := rfl
@[simp] theorem State.setOverride_cards (s : State) (v : Voice) (d : DestNo) (x : Option Code) : (s.setOverride v d x).cards = s.cards := rfl
@[simp] theorem State.setOverride_panel (s : State) (v : Voice) (d : DestNo) (x : Option Code) : (s.setOverride v d x).panel = s.panel := rfl
@[simp] theorem State.setOverride_patches (s : State) (v : Voice) (d : DestNo) (x : Option Code) : (s.setOverride v d x).patches = s.patches := rfl
@[simp] theorem State.setOverride_port (s : State) (v : Voice) (d : DestNo) (x : Option Code) : (s.setOverride v d x).port = s.port := rfl
@[simp] theorem State.setOverride_notices (s : State) (v : Voice) (d : DestNo) (x : Option Code) : (s.setOverride v d x).notices = s.notices := rfl
@[simp] theorem State.setOverride_settings (s : State) (v : Voice) (d : DestNo) (x : Option Code) : (s.setOverride v d x).settings = s.settings := rfl
@[simp] theorem State.setOverride_pending (s : State) (v : Voice) (d : DestNo) (x : Option Code) : (s.setOverride v d x).pending = s.pending := rfl
@[simp] theorem State.setOverride_refresh_pos (s : State) (v : Voice) (d : DestNo) (x : Option Code) : (s.setOverride v d x).refresh.pos = s.refresh.pos := rfl
@[simp] theorem State.setOverride_refresh_completionDue (s : State) (v : Voice) (d : DestNo) (x : Option Code) : (s.setOverride v d x).refresh.completionDue = s.refresh.completionDue := rfl
@[simp] theorem State.setOverride_refresh_round (s : State) (v : Voice) (d : DestNo) (x : Option Code) : (s.setOverride v d x).refresh.round = s.refresh.round := rfl
@[simp] theorem State.setOverride_refresh_sel (s : State) (v : Voice) (d : DestNo) (x : Option Code) : (s.setOverride v d x).refresh.sel = s.refresh.sel := rfl
@[simp] theorem State.setOverride_refresh_facts (s : State) (v : Voice) (d : DestNo) (x : Option Code) : (s.setOverride v d x).refresh.facts = s.refresh.facts := rfl
@[simp] theorem State.setOverride_refresh_outChannel (s : State) (v : Voice) (d : DestNo) (x : Option Code) : (s.setOverride v d x).refresh.outChannel = s.refresh.outChannel := rfl
@[simp] theorem State.setOverride_refresh_outCode (s : State) (v : Voice) (d : DestNo) (x : Option Code) : (s.setOverride v d x).refresh.outCode = s.refresh.outCode := rfl

@[simp] theorem State.setPhase_zones (s : State) (m : Measurement) (x : Phase) : (s.setPhase m x).zones = s.zones := rfl
@[simp] theorem State.setPhase_parts (s : State) (m : Measurement) (x : Phase) : (s.setPhase m x).parts = s.parts := rfl
@[simp] theorem State.setPhase_voices (s : State) (m : Measurement) (x : Phase) : (s.setPhase m x).voices = s.voices := rfl
@[simp] theorem State.setPhase_stamp (s : State) (m : Measurement) (x : Phase) : (s.setPhase m x).stamp = s.stamp := rfl
@[simp] theorem State.setPhase_freePicks (s : State) (m : Measurement) (x : Phase) : (s.setPhase m x).freePicks = s.freePicks := rfl
@[simp] theorem State.setPhase_refresh (s : State) (m : Measurement) (x : Phase) : (s.setPhase m x).refresh = s.refresh := rfl
@[simp] theorem State.setPhase_cards (s : State) (m : Measurement) (x : Phase) : (s.setPhase m x).cards = s.cards := rfl
@[simp] theorem State.setPhase_panel (s : State) (m : Measurement) (x : Phase) : (s.setPhase m x).panel = s.panel := rfl
@[simp] theorem State.setPhase_patches (s : State) (m : Measurement) (x : Phase) : (s.setPhase m x).patches = s.patches := rfl
@[simp] theorem State.setPhase_port (s : State) (m : Measurement) (x : Phase) : (s.setPhase m x).port = s.port := rfl
@[simp] theorem State.setPhase_notices (s : State) (m : Measurement) (x : Phase) : (s.setPhase m x).notices = s.notices := rfl
@[simp] theorem State.setPhase_settings (s : State) (m : Measurement) (x : Phase) : (s.setPhase m x).settings = s.settings := rfl
@[simp] theorem State.setPhase_pending (s : State) (m : Measurement) (x : Phase) : (s.setPhase m x).pending = s.pending := rfl
@[simp] theorem State.setPhase_tune_cal (s : State) (m : Measurement) (x : Phase) : (s.setPhase m x).tune.cal = s.tune.cal := rfl
@[simp] theorem State.setPhase_tune_plan (s : State) (m : Measurement) (x : Phase) : (s.setPhase m x).tune.plan = s.tune.plan := rfl
@[simp] theorem State.setPhase_tune_outcome (s : State) (m : Measurement) (x : Phase) : (s.setPhase m x).tune.outcome = s.tune.outcome := rfl
@[simp] theorem State.setPhase_tune_force (s : State) (m : Measurement) (x : Phase) : (s.setPhase m x).tune.force = s.tune.force := rfl
@[simp] theorem State.setPhase_tune_entries (s : State) (m : Measurement) (x : Phase) : (s.setPhase m x).tune.entries = s.tune.entries := rfl
@[simp] theorem State.setPhase_tune_service (s : State) (m : Measurement) (x : Phase) : (s.setPhase m x).tune.service = s.tune.service := rfl
@[simp] theorem State.setPhase_tune_heldQuarantine (s : State) (m : Measurement) (x : Phase) : (s.setPhase m x).tune.heldQuarantine = s.tune.heldQuarantine := rfl
@[simp] theorem State.setPhase_tune_requestWaiting (s : State) (m : Measurement) (x : Phase) : (s.setPhase m x).tune.requestWaiting = s.tune.requestWaiting := rfl
@[simp] theorem State.setPhase_tune_check (s : State) (m : Measurement) (x : Phase) : (s.setPhase m x).tune.check = s.tune.check := rfl
@[simp] theorem State.setPhase_tune_lineVoice (s : State) (m : Measurement) (x : Phase) : (s.setPhase m x).tune.lineVoice = s.tune.lineVoice := rfl
@[simp] theorem State.setPhase_tune_lineDest (s : State) (m : Measurement) (x : Phase) : (s.setPhase m x).tune.lineDest = s.tune.lineDest := rfl

@[simp] theorem State.bump_zones (s : State) : (s.bump).zones = s.zones := rfl
@[simp] theorem State.bump_parts (s : State) : (s.bump).parts = s.parts := rfl
@[simp] theorem State.bump_voices (s : State) : (s.bump).voices = s.voices := rfl
@[simp] theorem State.bump_freePicks (s : State) : (s.bump).freePicks = s.freePicks := rfl
@[simp] theorem State.bump_refresh (s : State) : (s.bump).refresh = s.refresh := rfl
@[simp] theorem State.bump_tune (s : State) : (s.bump).tune = s.tune := rfl
@[simp] theorem State.bump_cards (s : State) : (s.bump).cards = s.cards := rfl
@[simp] theorem State.bump_panel (s : State) : (s.bump).panel = s.panel := rfl
@[simp] theorem State.bump_patches (s : State) : (s.bump).patches = s.patches := rfl
@[simp] theorem State.bump_port (s : State) : (s.bump).port = s.port := rfl
@[simp] theorem State.bump_notices (s : State) : (s.bump).notices = s.notices := rfl
@[simp] theorem State.bump_settings (s : State) : (s.bump).settings = s.settings := rfl
@[simp] theorem State.bump_pending (s : State) : (s.bump).pending = s.pending := rfl

@[simp] theorem State.enterIdle_zones (s : State) (v : Voice) : (s.enterIdle v).zones = s.zones := rfl
@[simp] theorem State.enterIdle_parts (s : State) (v : Voice) : (s.enterIdle v).parts = s.parts := rfl
@[simp] theorem State.enterIdle_freePicks (s : State) (v : Voice) : (s.enterIdle v).freePicks = s.freePicks := rfl
@[simp] theorem State.enterIdle_refresh (s : State) (v : Voice) : (s.enterIdle v).refresh = s.refresh := rfl
@[simp] theorem State.enterIdle_tune (s : State) (v : Voice) : (s.enterIdle v).tune = s.tune := rfl
@[simp] theorem State.enterIdle_cards (s : State) (v : Voice) : (s.enterIdle v).cards = s.cards := rfl
@[simp] theorem State.enterIdle_panel (s : State) (v : Voice) : (s.enterIdle v).panel = s.panel := rfl
@[simp] theorem State.enterIdle_patches (s : State) (v : Voice) : (s.enterIdle v).patches = s.patches := rfl
@[simp] theorem State.enterIdle_port (s : State) (v : Voice) : (s.enterIdle v).port = s.port := rfl
@[simp] theorem State.enterIdle_notices (s : State) (v : Voice) : (s.enterIdle v).notices = s.notices := rfl
@[simp] theorem State.enterIdle_settings (s : State) (v : Voice) : (s.enterIdle v).settings = s.settings := rfl
@[simp] theorem State.enterIdle_pending (s : State) (v : Voice) : (s.enterIdle v).pending = s.pending := rfl

@[simp] theorem State.setHeld_zones (s : State) (p : PartNo) (hs : List HeldKey) : (s.setHeld p hs).zones = s.zones := rfl
@[simp] theorem State.setHeld_voices (s : State) (p : PartNo) (hs : List HeldKey) : (s.setHeld p hs).voices = s.voices := rfl
@[simp] theorem State.setHeld_stamp (s : State) (p : PartNo) (hs : List HeldKey) : (s.setHeld p hs).stamp = s.stamp := rfl
@[simp] theorem State.setHeld_freePicks (s : State) (p : PartNo) (hs : List HeldKey) : (s.setHeld p hs).freePicks = s.freePicks := rfl
@[simp] theorem State.setHeld_refresh (s : State) (p : PartNo) (hs : List HeldKey) : (s.setHeld p hs).refresh = s.refresh := rfl
@[simp] theorem State.setHeld_tune (s : State) (p : PartNo) (hs : List HeldKey) : (s.setHeld p hs).tune = s.tune := rfl
@[simp] theorem State.setHeld_cards (s : State) (p : PartNo) (hs : List HeldKey) : (s.setHeld p hs).cards = s.cards := rfl
@[simp] theorem State.setHeld_panel (s : State) (p : PartNo) (hs : List HeldKey) : (s.setHeld p hs).panel = s.panel := rfl
@[simp] theorem State.setHeld_patches (s : State) (p : PartNo) (hs : List HeldKey) : (s.setHeld p hs).patches = s.patches := rfl
@[simp] theorem State.setHeld_port (s : State) (p : PartNo) (hs : List HeldKey) : (s.setHeld p hs).port = s.port := rfl
@[simp] theorem State.setHeld_notices (s : State) (p : PartNo) (hs : List HeldKey) : (s.setHeld p hs).notices = s.notices := rfl
@[simp] theorem State.setHeld_settings (s : State) (p : PartNo) (hs : List HeldKey) : (s.setHeld p hs).settings = s.settings := rfl
@[simp] theorem State.setHeld_pending (s : State) (p : PartNo) (hs : List HeldKey) : (s.setHeld p hs).pending = s.pending := rfl

@[simp] theorem State.dropKey_zones (s : State) (p : PartNo) : (s.dropKey p).zones = s.zones := rfl
@[simp] theorem State.dropKey_voices (s : State) (p : PartNo) : (s.dropKey p).voices = s.voices := rfl
@[simp] theorem State.dropKey_stamp (s : State) (p : PartNo) : (s.dropKey p).stamp = s.stamp := rfl
@[simp] theorem State.dropKey_freePicks (s : State) (p : PartNo) : (s.dropKey p).freePicks = s.freePicks := rfl
@[simp] theorem State.dropKey_refresh (s : State) (p : PartNo) : (s.dropKey p).refresh = s.refresh := rfl
@[simp] theorem State.dropKey_tune (s : State) (p : PartNo) : (s.dropKey p).tune = s.tune := rfl
@[simp] theorem State.dropKey_cards (s : State) (p : PartNo) : (s.dropKey p).cards = s.cards := rfl
@[simp] theorem State.dropKey_panel (s : State) (p : PartNo) : (s.dropKey p).panel = s.panel := rfl
@[simp] theorem State.dropKey_patches (s : State) (p : PartNo) : (s.dropKey p).patches = s.patches := rfl
@[simp] theorem State.dropKey_port (s : State) (p : PartNo) : (s.dropKey p).port = s.port := rfl
@[simp] theorem State.dropKey_notices (s : State) (p : PartNo) : (s.dropKey p).notices = s.notices := rfl
@[simp] theorem State.dropKey_settings (s : State) (p : PartNo) : (s.dropKey p).settings = s.settings := rfl
@[simp] theorem State.dropKey_pending (s : State) (p : PartNo) : (s.dropKey p).pending = s.pending := rfl

/-! ### The port -/

@[simp] theorem State.answer_zones (s : State) (x : Status) (y : List Byte) : (s.answer x y).zones = s.zones := rfl
@[simp] theorem State.answer_parts (s : State) (x : Status) (y : List Byte) : (s.answer x y).parts = s.parts := rfl
@[simp] theorem State.answer_voices (s : State) (x : Status) (y : List Byte) : (s.answer x y).voices = s.voices := rfl
@[simp] theorem State.answer_stamp (s : State) (x : Status) (y : List Byte) : (s.answer x y).stamp = s.stamp := rfl
@[simp] theorem State.answer_freePicks (s : State) (x : Status) (y : List Byte) : (s.answer x y).freePicks = s.freePicks := rfl
@[simp] theorem State.answer_refresh (s : State) (x : Status) (y : List Byte) : (s.answer x y).refresh = s.refresh := rfl
@[simp] theorem State.answer_tune (s : State) (x : Status) (y : List Byte) : (s.answer x y).tune = s.tune := rfl
@[simp] theorem State.answer_cards (s : State) (x : Status) (y : List Byte) : (s.answer x y).cards = s.cards := rfl
@[simp] theorem State.answer_panel (s : State) (x : Status) (y : List Byte) : (s.answer x y).panel = s.panel := rfl
@[simp] theorem State.answer_patches (s : State) (x : Status) (y : List Byte) : (s.answer x y).patches = s.patches := rfl
@[simp] theorem State.answer_notices (s : State) (x : Status) (y : List Byte) : (s.answer x y).notices = s.notices := rfl
@[simp] theorem State.answer_settings (s : State) (x : Status) (y : List Byte) : (s.answer x y).settings = s.settings := rfl
@[simp] theorem State.answer_pending (s : State) (x : Status) (y : List Byte) : (s.answer x y).pending = s.pending := rfl
@[simp] theorem State.answer_port_resetRequest (s : State) (x : Status) (y : List Byte) : (s.answer x y).port.resetRequest = s.port.resetRequest := rfl
@[simp] theorem State.answer_port_softCause (s : State) (x : Status) (y : List Byte) : (s.answer x y).port.softCause = s.port.softCause := rfl
@[simp] theorem State.answer_port_fall (s : State) (x : Status) (y : List Byte) : (s.answer x y).port.fall = s.port.fall := rfl
@[simp] theorem State.answer_port_shifted (s : State) (x : Status) (y : List Byte) : (s.answer x y).port.shifted = s.port.shifted := rfl

@[simp] theorem State.refuse_zones (s : State) (x : Status) : (s.refuse x).zones = s.zones := rfl
@[simp] theorem State.refuse_parts (s : State) (x : Status) : (s.refuse x).parts = s.parts := rfl
@[simp] theorem State.refuse_voices (s : State) (x : Status) : (s.refuse x).voices = s.voices := rfl
@[simp] theorem State.refuse_stamp (s : State) (x : Status) : (s.refuse x).stamp = s.stamp := rfl
@[simp] theorem State.refuse_freePicks (s : State) (x : Status) : (s.refuse x).freePicks = s.freePicks := rfl
@[simp] theorem State.refuse_refresh (s : State) (x : Status) : (s.refuse x).refresh = s.refresh := rfl
@[simp] theorem State.refuse_tune (s : State) (x : Status) : (s.refuse x).tune = s.tune := rfl
@[simp] theorem State.refuse_cards (s : State) (x : Status) : (s.refuse x).cards = s.cards := rfl
@[simp] theorem State.refuse_panel (s : State) (x : Status) : (s.refuse x).panel = s.panel := rfl
@[simp] theorem State.refuse_patches (s : State) (x : Status) : (s.refuse x).patches = s.patches := rfl
@[simp] theorem State.refuse_notices (s : State) (x : Status) : (s.refuse x).notices = s.notices := rfl
@[simp] theorem State.refuse_settings (s : State) (x : Status) : (s.refuse x).settings = s.settings := rfl
@[simp] theorem State.refuse_pending (s : State) (x : Status) : (s.refuse x).pending = s.pending := rfl
@[simp] theorem State.refuse_port_resetRequest (s : State) (x : Status) : (s.refuse x).port.resetRequest = s.port.resetRequest := rfl
@[simp] theorem State.refuse_port_softCause (s : State) (x : Status) : (s.refuse x).port.softCause = s.port.softCause := rfl
@[simp] theorem State.refuse_port_fall (s : State) (x : Status) : (s.refuse x).port.fall = s.port.fall := rfl
@[simp] theorem State.refuse_port_shifted (s : State) (x : Status) : (s.refuse x).port.shifted = s.port.shifted := rfl

@[simp] theorem State.endTransaction_zones (s : State) (x : List Byte) : (s.endTransaction x).zones = s.zones := rfl
@[simp] theorem State.endTransaction_parts (s : State) (x : List Byte) : (s.endTransaction x).parts = s.parts := rfl
@[simp] theorem State.endTransaction_voices (s : State) (x : List Byte) : (s.endTransaction x).voices = s.voices := rfl
@[simp] theorem State.endTransaction_stamp (s : State) (x : List Byte) : (s.endTransaction x).stamp = s.stamp := rfl
@[simp] theorem State.endTransaction_freePicks (s : State) (x : List Byte) : (s.endTransaction x).freePicks = s.freePicks := rfl
@[simp] theorem State.endTransaction_refresh (s : State) (x : List Byte) : (s.endTransaction x).refresh = s.refresh := rfl
@[simp] theorem State.endTransaction_tune (s : State) (x : List Byte) : (s.endTransaction x).tune = s.tune := rfl
@[simp] theorem State.endTransaction_cards (s : State) (x : List Byte) : (s.endTransaction x).cards = s.cards := rfl
@[simp] theorem State.endTransaction_panel (s : State) (x : List Byte) : (s.endTransaction x).panel = s.panel := rfl
@[simp] theorem State.endTransaction_patches (s : State) (x : List Byte) : (s.endTransaction x).patches = s.patches := rfl
@[simp] theorem State.endTransaction_notices (s : State) (x : List Byte) : (s.endTransaction x).notices = s.notices := rfl
@[simp] theorem State.endTransaction_settings (s : State) (x : List Byte) : (s.endTransaction x).settings = s.settings := rfl
@[simp] theorem State.endTransaction_pending (s : State) (x : List Byte) : (s.endTransaction x).pending = s.pending := rfl
@[simp] theorem State.endTransaction_port_state (s : State) (x : List Byte) : (s.endTransaction x).port.state = s.port.state := rfl
@[simp] theorem State.endTransaction_port_request (s : State) (x : List Byte) : (s.endTransaction x).port.request = s.port.request := rfl
@[simp] theorem State.endTransaction_port_taken (s : State) (x : List Byte) : (s.endTransaction x).port.taken = s.port.taken := rfl
@[simp] theorem State.endTransaction_port_applied (s : State) (x : List Byte) : (s.endTransaction x).port.applied = s.port.applied := rfl
@[simp] theorem State.endTransaction_port_ignored (s : State) (x : List Byte) : (s.endTransaction x).port.ignored = s.port.ignored := rfl
@[simp] theorem State.endTransaction_port_response (s : State) (x : List Byte) : (s.endTransaction x).port.response = s.port.response := rfl
@[simp] theorem State.endTransaction_port_resetRequest (s : State) (x : List Byte) : (s.endTransaction x).port.resetRequest = s.port.resetRequest := rfl
@[simp] theorem State.endTransaction_port_softCause (s : State) (x : List Byte) : (s.endTransaction x).port.softCause = s.port.softCause := rfl

@[simp] theorem State.keepFrame_zones (s : State) (x : List Byte) : (s.keepFrame x).zones = s.zones := rfl
@[simp] theorem State.keepFrame_parts (s : State) (x : List Byte) : (s.keepFrame x).parts = s.parts := rfl
@[simp] theorem State.keepFrame_voices (s : State) (x : List Byte) : (s.keepFrame x).voices = s.voices := rfl
@[simp] theorem State.keepFrame_stamp (s : State) (x : List Byte) : (s.keepFrame x).stamp = s.stamp := rfl
@[simp] theorem State.keepFrame_freePicks (s : State) (x : List Byte) : (s.keepFrame x).freePicks = s.freePicks := rfl
@[simp] theorem State.keepFrame_refresh (s : State) (x : List Byte) : (s.keepFrame x).refresh = s.refresh := rfl
@[simp] theorem State.keepFrame_tune (s : State) (x : List Byte) : (s.keepFrame x).tune = s.tune := rfl
@[simp] theorem State.keepFrame_cards (s : State) (x : List Byte) : (s.keepFrame x).cards = s.cards := rfl
@[simp] theorem State.keepFrame_panel (s : State) (x : List Byte) : (s.keepFrame x).panel = s.panel := rfl
@[simp] theorem State.keepFrame_patches (s : State) (x : List Byte) : (s.keepFrame x).patches = s.patches := rfl
@[simp] theorem State.keepFrame_notices (s : State) (x : List Byte) : (s.keepFrame x).notices = s.notices := rfl
@[simp] theorem State.keepFrame_settings (s : State) (x : List Byte) : (s.keepFrame x).settings = s.settings := rfl
@[simp] theorem State.keepFrame_pending (s : State) (x : List Byte) : (s.keepFrame x).pending = s.pending := rfl
@[simp] theorem State.keepFrame_port_response (s : State) (x : List Byte) : (s.keepFrame x).port.response = s.port.response := rfl
@[simp] theorem State.keepFrame_port_resetRequest (s : State) (x : List Byte) : (s.keepFrame x).port.resetRequest = s.port.resetRequest := rfl
@[simp] theorem State.keepFrame_port_softCause (s : State) (x : List Byte) : (s.keepFrame x).port.softCause = s.port.softCause := rfl
@[simp] theorem State.keepFrame_port_fall (s : State) (x : List Byte) : (s.keepFrame x).port.fall = s.port.fall := rfl
@[simp] theorem State.keepFrame_port_shifted (s : State) (x : List Byte) : (s.keepFrame x).port.shifted = s.port.shifted := rfl

@[simp] theorem State.giveUpAnswer_zones (s : State) : (s.giveUpAnswer).zones = s.zones := rfl
@[simp] theorem State.giveUpAnswer_parts (s : State) : (s.giveUpAnswer).parts = s.parts := rfl
@[simp] theorem State.giveUpAnswer_voices (s : State) : (s.giveUpAnswer).voices = s.voices := rfl
@[simp] theorem State.giveUpAnswer_stamp (s : State) : (s.giveUpAnswer).stamp = s.stamp := rfl
@[simp] theorem State.giveUpAnswer_freePicks (s : State) : (s.giveUpAnswer).freePicks = s.freePicks := rfl
@[simp] theorem State.giveUpAnswer_refresh (s : State) : (s.giveUpAnswer).refresh = s.refresh := rfl
@[simp] theorem State.giveUpAnswer_tune (s : State) : (s.giveUpAnswer).tune = s.tune := rfl
@[simp] theorem State.giveUpAnswer_cards (s : State) : (s.giveUpAnswer).cards = s.cards := rfl
@[simp] theorem State.giveUpAnswer_panel (s : State) : (s.giveUpAnswer).panel = s.panel := rfl
@[simp] theorem State.giveUpAnswer_patches (s : State) : (s.giveUpAnswer).patches = s.patches := rfl
@[simp] theorem State.giveUpAnswer_notices (s : State) : (s.giveUpAnswer).notices = s.notices := rfl
@[simp] theorem State.giveUpAnswer_settings (s : State) : (s.giveUpAnswer).settings = s.settings := rfl
@[simp] theorem State.giveUpAnswer_pending (s : State) : (s.giveUpAnswer).pending = s.pending := rfl
@[simp] theorem State.giveUpAnswer_port_request (s : State) : (s.giveUpAnswer).port.request = s.port.request := rfl
@[simp] theorem State.giveUpAnswer_port_taken (s : State) : (s.giveUpAnswer).port.taken = s.port.taken := rfl
@[simp] theorem State.giveUpAnswer_port_applied (s : State) : (s.giveUpAnswer).port.applied = s.port.applied := rfl
@[simp] theorem State.giveUpAnswer_port_ignored (s : State) : (s.giveUpAnswer).port.ignored = s.port.ignored := rfl
@[simp] theorem State.giveUpAnswer_port_resetRequest (s : State) : (s.giveUpAnswer).port.resetRequest = s.port.resetRequest := rfl
@[simp] theorem State.giveUpAnswer_port_softCause (s : State) : (s.giveUpAnswer).port.softCause = s.port.softCause := rfl
@[simp] theorem State.giveUpAnswer_port_fall (s : State) : (s.giveUpAnswer).port.fall = s.port.fall := rfl
@[simp] theorem State.giveUpAnswer_port_shifted (s : State) : (s.giveUpAnswer).port.shifted = s.port.shifted := rfl

@[simp] theorem State.withPending_zones (s : State) (cs : List Instr) : (s.withPending cs).zones = s.zones := rfl
@[simp] theorem State.withPending_parts (s : State) (cs : List Instr) : (s.withPending cs).parts = s.parts := rfl
@[simp] theorem State.withPending_voices (s : State) (cs : List Instr) : (s.withPending cs).voices = s.voices := rfl
@[simp] theorem State.withPending_stamp (s : State) (cs : List Instr) : (s.withPending cs).stamp = s.stamp := rfl
@[simp] theorem State.withPending_freePicks (s : State) (cs : List Instr) : (s.withPending cs).freePicks = s.freePicks := rfl
@[simp] theorem State.withPending_refresh (s : State) (cs : List Instr) : (s.withPending cs).refresh = s.refresh := rfl
@[simp] theorem State.withPending_tune (s : State) (cs : List Instr) : (s.withPending cs).tune = s.tune := rfl
@[simp] theorem State.withPending_cards (s : State) (cs : List Instr) : (s.withPending cs).cards = s.cards := rfl
@[simp] theorem State.withPending_panel (s : State) (cs : List Instr) : (s.withPending cs).panel = s.panel := rfl
@[simp] theorem State.withPending_patches (s : State) (cs : List Instr) : (s.withPending cs).patches = s.patches := rfl
@[simp] theorem State.withPending_port (s : State) (cs : List Instr) : (s.withPending cs).port = s.port := rfl
@[simp] theorem State.withPending_notices (s : State) (cs : List Instr) : (s.withPending cs).notices = s.notices := rfl
@[simp] theorem State.withPending_settings (s : State) (cs : List Instr) : (s.withPending cs).settings = s.settings := rfl

/-! ### Notices -/

@[simp] theorem State.postCard_zones (s : State) (k : CardNo) : (s.postCard k).zones = s.zones := rfl
@[simp] theorem State.postCard_parts (s : State) (k : CardNo) : (s.postCard k).parts = s.parts := rfl
@[simp] theorem State.postCard_voices (s : State) (k : CardNo) : (s.postCard k).voices = s.voices := rfl
@[simp] theorem State.postCard_stamp (s : State) (k : CardNo) : (s.postCard k).stamp = s.stamp := rfl
@[simp] theorem State.postCard_freePicks (s : State) (k : CardNo) : (s.postCard k).freePicks = s.freePicks := rfl
@[simp] theorem State.postCard_refresh (s : State) (k : CardNo) : (s.postCard k).refresh = s.refresh := rfl
@[simp] theorem State.postCard_tune (s : State) (k : CardNo) : (s.postCard k).tune = s.tune := rfl
@[simp] theorem State.postCard_cards (s : State) (k : CardNo) : (s.postCard k).cards = s.cards := rfl
@[simp] theorem State.postCard_panel (s : State) (k : CardNo) : (s.postCard k).panel = s.panel := rfl
@[simp] theorem State.postCard_patches (s : State) (k : CardNo) : (s.postCard k).patches = s.patches := rfl
@[simp] theorem State.postCard_port (s : State) (k : CardNo) : (s.postCard k).port = s.port := rfl
@[simp] theorem State.postCard_settings (s : State) (k : CardNo) : (s.postCard k).settings = s.settings := rfl
@[simp] theorem State.postCard_pending (s : State) (k : CardNo) : (s.postCard k).pending = s.pending := rfl
@[simp] theorem State.postCard_notices_tune (s : State) (k : CardNo) : (s.postCard k).notices.tune = s.notices.tune := rfl
@[simp] theorem State.postCard_notices_health (s : State) (k : CardNo) : (s.postCard k).notices.health = s.notices.health := rfl
@[simp] theorem State.postCard_notices_clamp (s : State) (k : CardNo) : (s.postCard k).notices.clamp = s.notices.clamp := rfl
@[simp] theorem State.postCard_notices_recalls (s : State) (k : CardNo) : (s.postCard k).notices.recalls = s.notices.recalls := rfl
@[simp] theorem State.postCard_notices_store (s : State) (k : CardNo) : (s.postCard k).notices.store = s.notices.store := rfl
@[simp] theorem State.postCard_notices_panel (s : State) (k : CardNo) : (s.postCard k).notices.panel = s.notices.panel := rfl
@[simp] theorem State.postCard_notices_link (s : State) (k : CardNo) : (s.postCard k).notices.link = s.notices.link := rfl
@[simp] theorem State.postCard_notices_enables (s : State) (k : CardNo) : (s.postCard k).notices.enables = s.notices.enables := rfl

@[simp] theorem State.postTune_zones (s : State) : (s.postTune).zones = s.zones := rfl
@[simp] theorem State.postTune_parts (s : State) : (s.postTune).parts = s.parts := rfl
@[simp] theorem State.postTune_voices (s : State) : (s.postTune).voices = s.voices := rfl
@[simp] theorem State.postTune_stamp (s : State) : (s.postTune).stamp = s.stamp := rfl
@[simp] theorem State.postTune_freePicks (s : State) : (s.postTune).freePicks = s.freePicks := rfl
@[simp] theorem State.postTune_refresh (s : State) : (s.postTune).refresh = s.refresh := rfl
@[simp] theorem State.postTune_tune (s : State) : (s.postTune).tune = s.tune := rfl
@[simp] theorem State.postTune_cards (s : State) : (s.postTune).cards = s.cards := rfl
@[simp] theorem State.postTune_panel (s : State) : (s.postTune).panel = s.panel := rfl
@[simp] theorem State.postTune_patches (s : State) : (s.postTune).patches = s.patches := rfl
@[simp] theorem State.postTune_port (s : State) : (s.postTune).port = s.port := rfl
@[simp] theorem State.postTune_settings (s : State) : (s.postTune).settings = s.settings := rfl
@[simp] theorem State.postTune_pending (s : State) : (s.postTune).pending = s.pending := rfl
@[simp] theorem State.postTune_notices_card (s : State) : (s.postTune).notices.card = s.notices.card := rfl
@[simp] theorem State.postTune_notices_health (s : State) : (s.postTune).notices.health = s.notices.health := rfl
@[simp] theorem State.postTune_notices_clamp (s : State) : (s.postTune).notices.clamp = s.notices.clamp := rfl
@[simp] theorem State.postTune_notices_recalls (s : State) : (s.postTune).notices.recalls = s.notices.recalls := rfl
@[simp] theorem State.postTune_notices_store (s : State) : (s.postTune).notices.store = s.notices.store := rfl
@[simp] theorem State.postTune_notices_panel (s : State) : (s.postTune).notices.panel = s.notices.panel := rfl
@[simp] theorem State.postTune_notices_link (s : State) : (s.postTune).notices.link = s.notices.link := rfl
@[simp] theorem State.postTune_notices_enables (s : State) : (s.postTune).notices.enables = s.notices.enables := rfl

@[simp] theorem State.postHealth_zones (s : State) (v : Voice) : (s.postHealth v).zones = s.zones := rfl
@[simp] theorem State.postHealth_parts (s : State) (v : Voice) : (s.postHealth v).parts = s.parts := rfl
@[simp] theorem State.postHealth_voices (s : State) (v : Voice) : (s.postHealth v).voices = s.voices := rfl
@[simp] theorem State.postHealth_stamp (s : State) (v : Voice) : (s.postHealth v).stamp = s.stamp := rfl
@[simp] theorem State.postHealth_freePicks (s : State) (v : Voice) : (s.postHealth v).freePicks = s.freePicks := rfl
@[simp] theorem State.postHealth_refresh (s : State) (v : Voice) : (s.postHealth v).refresh = s.refresh := rfl
@[simp] theorem State.postHealth_tune (s : State) (v : Voice) : (s.postHealth v).tune = s.tune := rfl
@[simp] theorem State.postHealth_cards (s : State) (v : Voice) : (s.postHealth v).cards = s.cards := rfl
@[simp] theorem State.postHealth_panel (s : State) (v : Voice) : (s.postHealth v).panel = s.panel := rfl
@[simp] theorem State.postHealth_patches (s : State) (v : Voice) : (s.postHealth v).patches = s.patches := rfl
@[simp] theorem State.postHealth_port (s : State) (v : Voice) : (s.postHealth v).port = s.port := rfl
@[simp] theorem State.postHealth_settings (s : State) (v : Voice) : (s.postHealth v).settings = s.settings := rfl
@[simp] theorem State.postHealth_pending (s : State) (v : Voice) : (s.postHealth v).pending = s.pending := rfl
@[simp] theorem State.postHealth_notices_card (s : State) (v : Voice) : (s.postHealth v).notices.card = s.notices.card := rfl
@[simp] theorem State.postHealth_notices_tune (s : State) (v : Voice) : (s.postHealth v).notices.tune = s.notices.tune := rfl
@[simp] theorem State.postHealth_notices_clamp (s : State) (v : Voice) : (s.postHealth v).notices.clamp = s.notices.clamp := rfl
@[simp] theorem State.postHealth_notices_recalls (s : State) (v : Voice) : (s.postHealth v).notices.recalls = s.notices.recalls := rfl
@[simp] theorem State.postHealth_notices_store (s : State) (v : Voice) : (s.postHealth v).notices.store = s.notices.store := rfl
@[simp] theorem State.postHealth_notices_panel (s : State) (v : Voice) : (s.postHealth v).notices.panel = s.notices.panel := rfl
@[simp] theorem State.postHealth_notices_link (s : State) (v : Voice) : (s.postHealth v).notices.link = s.notices.link := rfl
@[simp] theorem State.postHealth_notices_enables (s : State) (v : Voice) : (s.postHealth v).notices.enables = s.notices.enables := rfl

@[simp] theorem State.postClamp_zones (s : State) (v : Voice) : (s.postClamp v).zones = s.zones := rfl
@[simp] theorem State.postClamp_parts (s : State) (v : Voice) : (s.postClamp v).parts = s.parts := rfl
@[simp] theorem State.postClamp_voices (s : State) (v : Voice) : (s.postClamp v).voices = s.voices := rfl
@[simp] theorem State.postClamp_stamp (s : State) (v : Voice) : (s.postClamp v).stamp = s.stamp := rfl
@[simp] theorem State.postClamp_freePicks (s : State) (v : Voice) : (s.postClamp v).freePicks = s.freePicks := rfl
@[simp] theorem State.postClamp_refresh (s : State) (v : Voice) : (s.postClamp v).refresh = s.refresh := rfl
@[simp] theorem State.postClamp_tune (s : State) (v : Voice) : (s.postClamp v).tune = s.tune := rfl
@[simp] theorem State.postClamp_cards (s : State) (v : Voice) : (s.postClamp v).cards = s.cards := rfl
@[simp] theorem State.postClamp_panel (s : State) (v : Voice) : (s.postClamp v).panel = s.panel := rfl
@[simp] theorem State.postClamp_patches (s : State) (v : Voice) : (s.postClamp v).patches = s.patches := rfl
@[simp] theorem State.postClamp_port (s : State) (v : Voice) : (s.postClamp v).port = s.port := rfl
@[simp] theorem State.postClamp_settings (s : State) (v : Voice) : (s.postClamp v).settings = s.settings := rfl
@[simp] theorem State.postClamp_pending (s : State) (v : Voice) : (s.postClamp v).pending = s.pending := rfl
@[simp] theorem State.postClamp_notices_card (s : State) (v : Voice) : (s.postClamp v).notices.card = s.notices.card := rfl
@[simp] theorem State.postClamp_notices_tune (s : State) (v : Voice) : (s.postClamp v).notices.tune = s.notices.tune := rfl
@[simp] theorem State.postClamp_notices_health (s : State) (v : Voice) : (s.postClamp v).notices.health = s.notices.health := rfl
@[simp] theorem State.postClamp_notices_recalls (s : State) (v : Voice) : (s.postClamp v).notices.recalls = s.notices.recalls := rfl
@[simp] theorem State.postClamp_notices_store (s : State) (v : Voice) : (s.postClamp v).notices.store = s.notices.store := rfl
@[simp] theorem State.postClamp_notices_panel (s : State) (v : Voice) : (s.postClamp v).notices.panel = s.notices.panel := rfl
@[simp] theorem State.postClamp_notices_link (s : State) (v : Voice) : (s.postClamp v).notices.link = s.notices.link := rfl
@[simp] theorem State.postClamp_notices_enables (s : State) (v : Voice) : (s.postClamp v).notices.enables = s.notices.enables := rfl

@[simp] theorem State.postRecall_zones (s : State) (p : PartNo) : (s.postRecall p).zones = s.zones := rfl
@[simp] theorem State.postRecall_parts (s : State) (p : PartNo) : (s.postRecall p).parts = s.parts := rfl
@[simp] theorem State.postRecall_voices (s : State) (p : PartNo) : (s.postRecall p).voices = s.voices := rfl
@[simp] theorem State.postRecall_stamp (s : State) (p : PartNo) : (s.postRecall p).stamp = s.stamp := rfl
@[simp] theorem State.postRecall_freePicks (s : State) (p : PartNo) : (s.postRecall p).freePicks = s.freePicks := rfl
@[simp] theorem State.postRecall_refresh (s : State) (p : PartNo) : (s.postRecall p).refresh = s.refresh := rfl
@[simp] theorem State.postRecall_tune (s : State) (p : PartNo) : (s.postRecall p).tune = s.tune := rfl
@[simp] theorem State.postRecall_cards (s : State) (p : PartNo) : (s.postRecall p).cards = s.cards := rfl
@[simp] theorem State.postRecall_panel (s : State) (p : PartNo) : (s.postRecall p).panel = s.panel := rfl
@[simp] theorem State.postRecall_patches (s : State) (p : PartNo) : (s.postRecall p).patches = s.patches := rfl
@[simp] theorem State.postRecall_port (s : State) (p : PartNo) : (s.postRecall p).port = s.port := rfl
@[simp] theorem State.postRecall_settings (s : State) (p : PartNo) : (s.postRecall p).settings = s.settings := rfl
@[simp] theorem State.postRecall_pending (s : State) (p : PartNo) : (s.postRecall p).pending = s.pending := rfl
@[simp] theorem State.postRecall_notices_card (s : State) (p : PartNo) : (s.postRecall p).notices.card = s.notices.card := rfl
@[simp] theorem State.postRecall_notices_tune (s : State) (p : PartNo) : (s.postRecall p).notices.tune = s.notices.tune := rfl
@[simp] theorem State.postRecall_notices_health (s : State) (p : PartNo) : (s.postRecall p).notices.health = s.notices.health := rfl
@[simp] theorem State.postRecall_notices_clamp (s : State) (p : PartNo) : (s.postRecall p).notices.clamp = s.notices.clamp := rfl
@[simp] theorem State.postRecall_notices_store (s : State) (p : PartNo) : (s.postRecall p).notices.store = s.notices.store := rfl
@[simp] theorem State.postRecall_notices_panel (s : State) (p : PartNo) : (s.postRecall p).notices.panel = s.notices.panel := rfl
@[simp] theorem State.postRecall_notices_link (s : State) (p : PartNo) : (s.postRecall p).notices.link = s.notices.link := rfl
@[simp] theorem State.postRecall_notices_enables (s : State) (p : PartNo) : (s.postRecall p).notices.enables = s.notices.enables := rfl

@[simp] theorem State.postStore_zones (s : State) : (s.postStore).zones = s.zones := rfl
@[simp] theorem State.postStore_parts (s : State) : (s.postStore).parts = s.parts := rfl
@[simp] theorem State.postStore_voices (s : State) : (s.postStore).voices = s.voices := rfl
@[simp] theorem State.postStore_stamp (s : State) : (s.postStore).stamp = s.stamp := rfl
@[simp] theorem State.postStore_freePicks (s : State) : (s.postStore).freePicks = s.freePicks := rfl
@[simp] theorem State.postStore_refresh (s : State) : (s.postStore).refresh = s.refresh := rfl
@[simp] theorem State.postStore_tune (s : State) : (s.postStore).tune = s.tune := rfl
@[simp] theorem State.postStore_cards (s : State) : (s.postStore).cards = s.cards := rfl
@[simp] theorem State.postStore_panel (s : State) : (s.postStore).panel = s.panel := rfl
@[simp] theorem State.postStore_patches (s : State) : (s.postStore).patches = s.patches := rfl
@[simp] theorem State.postStore_port (s : State) : (s.postStore).port = s.port := rfl
@[simp] theorem State.postStore_settings (s : State) : (s.postStore).settings = s.settings := rfl
@[simp] theorem State.postStore_pending (s : State) : (s.postStore).pending = s.pending := rfl
@[simp] theorem State.postStore_notices_card (s : State) : (s.postStore).notices.card = s.notices.card := rfl
@[simp] theorem State.postStore_notices_tune (s : State) : (s.postStore).notices.tune = s.notices.tune := rfl
@[simp] theorem State.postStore_notices_health (s : State) : (s.postStore).notices.health = s.notices.health := rfl
@[simp] theorem State.postStore_notices_clamp (s : State) : (s.postStore).notices.clamp = s.notices.clamp := rfl
@[simp] theorem State.postStore_notices_recalls (s : State) : (s.postStore).notices.recalls = s.notices.recalls := rfl
@[simp] theorem State.postStore_notices_panel (s : State) : (s.postStore).notices.panel = s.notices.panel := rfl
@[simp] theorem State.postStore_notices_link (s : State) : (s.postStore).notices.link = s.notices.link := rfl
@[simp] theorem State.postStore_notices_enables (s : State) : (s.postStore).notices.enables = s.notices.enables := rfl

@[simp] theorem State.postLink_zones (s : State) : (s.postLink).zones = s.zones := rfl
@[simp] theorem State.postLink_parts (s : State) : (s.postLink).parts = s.parts := rfl
@[simp] theorem State.postLink_voices (s : State) : (s.postLink).voices = s.voices := rfl
@[simp] theorem State.postLink_stamp (s : State) : (s.postLink).stamp = s.stamp := rfl
@[simp] theorem State.postLink_freePicks (s : State) : (s.postLink).freePicks = s.freePicks := rfl
@[simp] theorem State.postLink_refresh (s : State) : (s.postLink).refresh = s.refresh := rfl
@[simp] theorem State.postLink_tune (s : State) : (s.postLink).tune = s.tune := rfl
@[simp] theorem State.postLink_cards (s : State) : (s.postLink).cards = s.cards := rfl
@[simp] theorem State.postLink_panel (s : State) : (s.postLink).panel = s.panel := rfl
@[simp] theorem State.postLink_patches (s : State) : (s.postLink).patches = s.patches := rfl
@[simp] theorem State.postLink_port (s : State) : (s.postLink).port = s.port := rfl
@[simp] theorem State.postLink_settings (s : State) : (s.postLink).settings = s.settings := rfl
@[simp] theorem State.postLink_pending (s : State) : (s.postLink).pending = s.pending := rfl
@[simp] theorem State.postLink_notices_card (s : State) : (s.postLink).notices.card = s.notices.card := rfl
@[simp] theorem State.postLink_notices_tune (s : State) : (s.postLink).notices.tune = s.notices.tune := rfl
@[simp] theorem State.postLink_notices_health (s : State) : (s.postLink).notices.health = s.notices.health := rfl
@[simp] theorem State.postLink_notices_clamp (s : State) : (s.postLink).notices.clamp = s.notices.clamp := rfl
@[simp] theorem State.postLink_notices_recalls (s : State) : (s.postLink).notices.recalls = s.notices.recalls := rfl
@[simp] theorem State.postLink_notices_store (s : State) : (s.postLink).notices.store = s.notices.store := rfl
@[simp] theorem State.postLink_notices_panel (s : State) : (s.postLink).notices.panel = s.notices.panel := rfl
@[simp] theorem State.postLink_notices_enables (s : State) : (s.postLink).notices.enables = s.notices.enables := rfl

@[simp] theorem State.reportPanel_zones (s : State) (b : Bool) : (s.reportPanel b).zones = s.zones := rfl
@[simp] theorem State.reportPanel_parts (s : State) (b : Bool) : (s.reportPanel b).parts = s.parts := rfl
@[simp] theorem State.reportPanel_voices (s : State) (b : Bool) : (s.reportPanel b).voices = s.voices := rfl
@[simp] theorem State.reportPanel_stamp (s : State) (b : Bool) : (s.reportPanel b).stamp = s.stamp := rfl
@[simp] theorem State.reportPanel_freePicks (s : State) (b : Bool) : (s.reportPanel b).freePicks = s.freePicks := rfl
@[simp] theorem State.reportPanel_refresh (s : State) (b : Bool) : (s.reportPanel b).refresh = s.refresh := rfl
@[simp] theorem State.reportPanel_tune (s : State) (b : Bool) : (s.reportPanel b).tune = s.tune := rfl
@[simp] theorem State.reportPanel_cards (s : State) (b : Bool) : (s.reportPanel b).cards = s.cards := rfl
@[simp] theorem State.reportPanel_panel (s : State) (b : Bool) : (s.reportPanel b).panel = s.panel := rfl
@[simp] theorem State.reportPanel_patches (s : State) (b : Bool) : (s.reportPanel b).patches = s.patches := rfl
@[simp] theorem State.reportPanel_port (s : State) (b : Bool) : (s.reportPanel b).port = s.port := rfl
@[simp] theorem State.reportPanel_settings (s : State) (b : Bool) : (s.reportPanel b).settings = s.settings := rfl
@[simp] theorem State.reportPanel_pending (s : State) (b : Bool) : (s.reportPanel b).pending = s.pending := rfl
@[simp] theorem State.reportPanel_notices_card (s : State) (b : Bool) : (s.reportPanel b).notices.card = s.notices.card := rfl
@[simp] theorem State.reportPanel_notices_tune (s : State) (b : Bool) : (s.reportPanel b).notices.tune = s.notices.tune := rfl
@[simp] theorem State.reportPanel_notices_health (s : State) (b : Bool) : (s.reportPanel b).notices.health = s.notices.health := rfl
@[simp] theorem State.reportPanel_notices_clamp (s : State) (b : Bool) : (s.reportPanel b).notices.clamp = s.notices.clamp := rfl
@[simp] theorem State.reportPanel_notices_recalls (s : State) (b : Bool) : (s.reportPanel b).notices.recalls = s.notices.recalls := rfl
@[simp] theorem State.reportPanel_notices_store (s : State) (b : Bool) : (s.reportPanel b).notices.store = s.notices.store := rfl
@[simp] theorem State.reportPanel_notices_link (s : State) (b : Bool) : (s.reportPanel b).notices.link = s.notices.link := rfl
@[simp] theorem State.reportPanel_notices_enables (s : State) (b : Bool) : (s.reportPanel b).notices.enables = s.notices.enables := rfl

/-! ### The store-link -/

@[simp] theorem State.send_zones (s : State) (x : List FlashTx) : (s.send x).zones = s.zones := rfl
@[simp] theorem State.send_parts (s : State) (x : List FlashTx) : (s.send x).parts = s.parts := rfl
@[simp] theorem State.send_voices (s : State) (x : List FlashTx) : (s.send x).voices = s.voices := rfl
@[simp] theorem State.send_stamp (s : State) (x : List FlashTx) : (s.send x).stamp = s.stamp := rfl
@[simp] theorem State.send_freePicks (s : State) (x : List FlashTx) : (s.send x).freePicks = s.freePicks := rfl
@[simp] theorem State.send_refresh (s : State) (x : List FlashTx) : (s.send x).refresh = s.refresh := rfl
@[simp] theorem State.send_tune (s : State) (x : List FlashTx) : (s.send x).tune = s.tune := rfl
@[simp] theorem State.send_cards (s : State) (x : List FlashTx) : (s.send x).cards = s.cards := rfl
@[simp] theorem State.send_panel (s : State) (x : List FlashTx) : (s.send x).panel = s.panel := rfl
@[simp] theorem State.send_port (s : State) (x : List FlashTx) : (s.send x).port = s.port := rfl
@[simp] theorem State.send_notices (s : State) (x : List FlashTx) : (s.send x).notices = s.notices := rfl
@[simp] theorem State.send_settings (s : State) (x : List FlashTx) : (s.send x).settings = s.settings := rfl
@[simp] theorem State.send_pending (s : State) (x : List FlashTx) : (s.send x).pending = s.pending := rfl
@[simp] theorem State.send_patches_slots (s : State) (x : List FlashTx) : (s.send x).patches.slots = s.patches.slots := rfl
@[simp] theorem State.send_patches_queue (s : State) (x : List FlashTx) : (s.send x).patches.queue = s.patches.queue := rfl
@[simp] theorem State.send_patches_head (s : State) (x : List FlashTx) : (s.send x).patches.head = s.patches.head := rfl
@[simp] theorem State.send_patches_lastStore (s : State) (x : List FlashTx) : (s.send x).patches.lastStore = s.patches.lastStore := rfl
@[simp] theorem State.send_patches_lastStoreLoc (s : State) (x : List FlashTx) : (s.send x).patches.lastStoreLoc = s.patches.lastStoreLoc := rfl
@[simp] theorem State.send_patches_sent (s : State) (x : List FlashTx) :
    (s.send x).patches.sent = s.patches.sent ++ x.map FlashTx.frame := rfl
@[simp] theorem State.send_patches_flashStatus (s : State) (x : List FlashTx) : (s.send x).patches.flashStatus = s.patches.flashStatus := rfl

@[simp] theorem State.beginLink_zones (s : State) : (s.beginLink).zones = s.zones := rfl
@[simp] theorem State.beginLink_parts (s : State) : (s.beginLink).parts = s.parts := rfl
@[simp] theorem State.beginLink_voices (s : State) : (s.beginLink).voices = s.voices := rfl
@[simp] theorem State.beginLink_stamp (s : State) : (s.beginLink).stamp = s.stamp := rfl
@[simp] theorem State.beginLink_freePicks (s : State) : (s.beginLink).freePicks = s.freePicks := rfl
@[simp] theorem State.beginLink_refresh (s : State) : (s.beginLink).refresh = s.refresh := rfl
@[simp] theorem State.beginLink_tune (s : State) : (s.beginLink).tune = s.tune := rfl
@[simp] theorem State.beginLink_cards (s : State) : (s.beginLink).cards = s.cards := rfl
@[simp] theorem State.beginLink_panel (s : State) : (s.beginLink).panel = s.panel := rfl
@[simp] theorem State.beginLink_port (s : State) : (s.beginLink).port = s.port := rfl
@[simp] theorem State.beginLink_notices (s : State) : (s.beginLink).notices = s.notices := rfl
@[simp] theorem State.beginLink_settings (s : State) : (s.beginLink).settings = s.settings := rfl
@[simp] theorem State.beginLink_pending (s : State) : (s.beginLink).pending = s.pending := rfl
@[simp] theorem State.beginLink_patches_slots (s : State) : (s.beginLink).patches.slots = s.patches.slots := rfl
@[simp] theorem State.beginLink_patches_queue (s : State) : (s.beginLink).patches.queue = s.patches.queue := rfl
@[simp] theorem State.beginLink_patches_head (s : State) : (s.beginLink).patches.head = s.patches.head := rfl
@[simp] theorem State.beginLink_patches_lastStore (s : State) : (s.beginLink).patches.lastStore = s.patches.lastStore := rfl
@[simp] theorem State.beginLink_patches_lastStoreLoc (s : State) : (s.beginLink).patches.lastStoreLoc = s.patches.lastStoreLoc := rfl
@[simp] theorem State.beginLink_patches_flashStatus (s : State) : (s.beginLink).patches.flashStatus = s.patches.flashStatus := rfl

@[simp] theorem State.setHead_zones (s : State) (x : Option JobStep) : (s.setHead x).zones = s.zones := rfl
@[simp] theorem State.setHead_parts (s : State) (x : Option JobStep) : (s.setHead x).parts = s.parts := rfl
@[simp] theorem State.setHead_voices (s : State) (x : Option JobStep) : (s.setHead x).voices = s.voices := rfl
@[simp] theorem State.setHead_stamp (s : State) (x : Option JobStep) : (s.setHead x).stamp = s.stamp := rfl
@[simp] theorem State.setHead_freePicks (s : State) (x : Option JobStep) : (s.setHead x).freePicks = s.freePicks := rfl
@[simp] theorem State.setHead_refresh (s : State) (x : Option JobStep) : (s.setHead x).refresh = s.refresh := rfl
@[simp] theorem State.setHead_tune (s : State) (x : Option JobStep) : (s.setHead x).tune = s.tune := rfl
@[simp] theorem State.setHead_cards (s : State) (x : Option JobStep) : (s.setHead x).cards = s.cards := rfl
@[simp] theorem State.setHead_panel (s : State) (x : Option JobStep) : (s.setHead x).panel = s.panel := rfl
@[simp] theorem State.setHead_port (s : State) (x : Option JobStep) : (s.setHead x).port = s.port := rfl
@[simp] theorem State.setHead_notices (s : State) (x : Option JobStep) : (s.setHead x).notices = s.notices := rfl
@[simp] theorem State.setHead_settings (s : State) (x : Option JobStep) : (s.setHead x).settings = s.settings := rfl
@[simp] theorem State.setHead_pending (s : State) (x : Option JobStep) : (s.setHead x).pending = s.pending := rfl
@[simp] theorem State.setHead_patches_slots (s : State) (x : Option JobStep) : (s.setHead x).patches.slots = s.patches.slots := rfl
@[simp] theorem State.setHead_patches_queue (s : State) (x : Option JobStep) : (s.setHead x).patches.queue = s.patches.queue := rfl
@[simp] theorem State.setHead_patches_lastStore (s : State) (x : Option JobStep) : (s.setHead x).patches.lastStore = s.patches.lastStore := rfl
@[simp] theorem State.setHead_patches_lastStoreLoc (s : State) (x : Option JobStep) : (s.setHead x).patches.lastStoreLoc = s.patches.lastStoreLoc := rfl
@[simp] theorem State.setHead_patches_flashStatus (s : State) (x : Option JobStep) : (s.setHead x).patches.flashStatus = s.patches.flashStatus := rfl
@[simp] theorem State.setHead_patches_sent (s : State) (x : Option JobStep) : (s.setHead x).patches.sent = s.patches.sent := rfl

@[simp] theorem State.setQueue_zones (s : State) (q : List Job) : (s.setQueue q).zones = s.zones := rfl
@[simp] theorem State.setQueue_parts (s : State) (q : List Job) : (s.setQueue q).parts = s.parts := rfl
@[simp] theorem State.setQueue_voices (s : State) (q : List Job) : (s.setQueue q).voices = s.voices := rfl
@[simp] theorem State.setQueue_stamp (s : State) (q : List Job) : (s.setQueue q).stamp = s.stamp := rfl
@[simp] theorem State.setQueue_freePicks (s : State) (q : List Job) : (s.setQueue q).freePicks = s.freePicks := rfl
@[simp] theorem State.setQueue_refresh (s : State) (q : List Job) : (s.setQueue q).refresh = s.refresh := rfl
@[simp] theorem State.setQueue_tune (s : State) (q : List Job) : (s.setQueue q).tune = s.tune := rfl
@[simp] theorem State.setQueue_cards (s : State) (q : List Job) : (s.setQueue q).cards = s.cards := rfl
@[simp] theorem State.setQueue_panel (s : State) (q : List Job) : (s.setQueue q).panel = s.panel := rfl
@[simp] theorem State.setQueue_port (s : State) (q : List Job) : (s.setQueue q).port = s.port := rfl
@[simp] theorem State.setQueue_notices (s : State) (q : List Job) : (s.setQueue q).notices = s.notices := rfl
@[simp] theorem State.setQueue_settings (s : State) (q : List Job) : (s.setQueue q).settings = s.settings := rfl
@[simp] theorem State.setQueue_pending (s : State) (q : List Job) : (s.setQueue q).pending = s.pending := rfl
@[simp] theorem State.setQueue_patches_slots (s : State) (q : List Job) : (s.setQueue q).patches.slots = s.patches.slots := rfl
@[simp] theorem State.setQueue_patches_head (s : State) (q : List Job) : (s.setQueue q).patches.head = s.patches.head := rfl
@[simp] theorem State.setQueue_patches_lastStore (s : State) (q : List Job) : (s.setQueue q).patches.lastStore = s.patches.lastStore := rfl
@[simp] theorem State.setQueue_patches_lastStoreLoc (s : State) (q : List Job) : (s.setQueue q).patches.lastStoreLoc = s.patches.lastStoreLoc := rfl
@[simp] theorem State.setQueue_patches_flashStatus (s : State) (q : List Job) : (s.setQueue q).patches.flashStatus = s.patches.flashStatus := rfl
@[simp] theorem State.setQueue_patches_sent (s : State) (q : List Job) : (s.setQueue q).patches.sent = s.patches.sent := rfl

@[simp] theorem State.setFlash_zones (s : State) (x : Byte) : (s.setFlash x).zones = s.zones := rfl
@[simp] theorem State.setFlash_parts (s : State) (x : Byte) : (s.setFlash x).parts = s.parts := rfl
@[simp] theorem State.setFlash_voices (s : State) (x : Byte) : (s.setFlash x).voices = s.voices := rfl
@[simp] theorem State.setFlash_stamp (s : State) (x : Byte) : (s.setFlash x).stamp = s.stamp := rfl
@[simp] theorem State.setFlash_freePicks (s : State) (x : Byte) : (s.setFlash x).freePicks = s.freePicks := rfl
@[simp] theorem State.setFlash_refresh (s : State) (x : Byte) : (s.setFlash x).refresh = s.refresh := rfl
@[simp] theorem State.setFlash_tune (s : State) (x : Byte) : (s.setFlash x).tune = s.tune := rfl
@[simp] theorem State.setFlash_cards (s : State) (x : Byte) : (s.setFlash x).cards = s.cards := rfl
@[simp] theorem State.setFlash_panel (s : State) (x : Byte) : (s.setFlash x).panel = s.panel := rfl
@[simp] theorem State.setFlash_port (s : State) (x : Byte) : (s.setFlash x).port = s.port := rfl
@[simp] theorem State.setFlash_notices (s : State) (x : Byte) : (s.setFlash x).notices = s.notices := rfl
@[simp] theorem State.setFlash_settings (s : State) (x : Byte) : (s.setFlash x).settings = s.settings := rfl
@[simp] theorem State.setFlash_pending (s : State) (x : Byte) : (s.setFlash x).pending = s.pending := rfl
@[simp] theorem State.setFlash_patches_slots (s : State) (x : Byte) : (s.setFlash x).patches.slots = s.patches.slots := rfl
@[simp] theorem State.setFlash_patches_queue (s : State) (x : Byte) : (s.setFlash x).patches.queue = s.patches.queue := rfl
@[simp] theorem State.setFlash_patches_head (s : State) (x : Byte) : (s.setFlash x).patches.head = s.patches.head := rfl
@[simp] theorem State.setFlash_patches_lastStore (s : State) (x : Byte) : (s.setFlash x).patches.lastStore = s.patches.lastStore := rfl
@[simp] theorem State.setFlash_patches_lastStoreLoc (s : State) (x : Byte) : (s.setFlash x).patches.lastStoreLoc = s.patches.lastStoreLoc := rfl
@[simp] theorem State.setFlash_patches_sent (s : State) (x : Byte) : (s.setFlash x).patches.sent = s.patches.sent := rfl

/-! ### What a record reads back as -/

@[simp] theorem State.zone_setZone (s : State) (z w : ZoneNo) (r : Zone) :
    (s.setZone z r).zone w = if z = w then r else s.zone w := by
  simp [State.zone, State.setZone, Vector.getElem_set, Fin.val_inj]

@[simp] theorem State.part_setPart (s : State) (p q : PartNo) (r : Part) :
    (s.setPart p r).part q = if p = q then r else s.part q := by
  simp [State.part, State.setPart, Vector.getElem_set, Fin.val_inj]

@[simp] theorem State.part_modPart (s : State) (p q : PartNo) (f : Part → Part) :
    (s.modPart p f).part q = if p = q then f (s.part q) else s.part q := by
  unfold State.modPart
  rw [State.part_setPart]
  split <;> simp_all

@[simp] theorem State.voice_setVoice (s : State) (v w : Voice) (r : VoiceRec) :
    (s.setVoice v r).voice w = if v = w then r else s.voice w := by
  simp [State.voice, State.setVoice, Vector.getElem_set, Fin.val_inj]

@[simp] theorem State.voice_modVoice (s : State) (v w : Voice) (f : VoiceRec → VoiceRec) :
    (s.modVoice v f).voice w = if v = w then f (s.voice w) else s.voice w := by
  unfold State.modVoice
  rw [State.voice_setVoice]
  split <;> simp_all

@[simp] theorem State.card_setCard (s : State) (k j : CardNo) (r : Card) :
    (s.setCard k r).card j = if k = j then r else s.card j := by
  simp [State.card, State.setCard, Vector.getElem_set, Fin.val_inj]

@[simp] theorem State.card_modCard (s : State) (k j : CardNo) (f : Card → Card) :
    (s.modCard k f).card j = if k = j then f (s.card j) else s.card j := by
  unfold State.modCard
  rw [State.card_setCard]
  split <;> simp_all

@[simp] theorem State.channel_setChannel (s : State) (c d : ChannelNo) (r : Channel) :
    (s.setChannel c r).channel d = if c = d then r else s.channel d := by
  simp [State.channel, State.setChannel, Vector.getElem_set, Fin.val_inj]

@[simp] theorem State.cache_setCache (s : State) (c d : CacheNo) (r : CacheSlot) :
    (s.setCache c r).cache d = if c = d then r else s.cache d := by
  simp [State.cache, State.setCache, Vector.getElem_set, Fin.val_inj]

@[simp] theorem State.calRecord_setCalRecord (s : State) (v w : Voice) (r : CalRecord) :
    (s.setCalRecord v r).calRecord w = if v = w then r else s.calRecord w := by
  simp [State.calRecord, State.setCalRecord, Vector.getElem_set, Fin.val_inj]

@[simp] theorem State.entry_setEntry (s : State) (v w : Voice) (e : PassEntry) :
    (s.setEntry v e).entry w = if v = w then e else s.entry w := by
  simp [State.entry, State.setEntry, Vector.getElem_set, Fin.val_inj]

@[simp] theorem State.overrideAt_setOverride (s : State) (v w : Voice) (d e : DestNo) (x : Option Code) :
    (s.setOverride v d x).overrideAt w e = if v = w ∧ d = e then x else s.overrideAt w e := by
  simp only [State.overrideAt, State.setOverride, Fin.getElem_fin, Vector.getElem_set, Fin.val_inj]
  by_cases h : v = w
  · subst h; by_cases h' : d = e <;> simp [h', Fin.val_inj]
  · simp [h]

@[simp] theorem CalRecord.entry_setEntry (r : CalRecord) (d e : Tuned) (x : CalEntry) :
    (r.setEntry d x).entry e = if d = e then x else r.entry e := by
  cases d <;> cases e <;> rfl

@[simp] theorem State.cal_setCal (s : State) (v w : Voice) (d e : Tuned) (x : CalEntry) :
    (s.setCal v d x).cal w e = if v = w ∧ d = e then x else s.cal w e := by
  unfold State.cal State.setCal
  rw [State.calRecord_setCalRecord]
  by_cases h : v = w
  · subst h; by_cases h' : d = e <;> simp [h']
  · simp [h]

@[simp] theorem VoiceRec.drift_setDrift (r : VoiceRec) (d e : Osc) (x : Drift) :
    (r.setDrift d x).drift e = if d = e then x else r.drift e := by
  cases d <;> cases e <;> rfl

@[simp] theorem PassEntry.sum_setSum (r : PassEntry) (d e : Tuned) (x : DestSummary) :
    (r.setSum d x).sum e = if d = e then x else r.sum e := by
  cases d <;> cases e <;> rfl

/-! ### Reads through an update of another record -/

@[simp] theorem State.part_setZone (s : State) (z : ZoneNo) (r : Zone) (p : PartNo) : (s.setZone z r).part p = s.part p := rfl
@[simp] theorem State.voice_setZone (s : State) (z : ZoneNo) (r : Zone) (w : Voice) : (s.setZone z r).voice w = s.voice w := rfl
@[simp] theorem State.card_setZone (s : State) (z : ZoneNo) (r : Zone) (j : CardNo) : (s.setZone z r).card j = s.card j := rfl
@[simp] theorem State.entry_setZone (s : State) (z : ZoneNo) (r : Zone) (w : Voice) : (s.setZone z r).entry w = s.entry w := rfl
@[simp] theorem State.calRecord_setZone (s : State) (z : ZoneNo) (r : Zone) (w : Voice) : (s.setZone z r).calRecord w = s.calRecord w := rfl
@[simp] theorem State.cache_setZone (s : State) (z : ZoneNo) (r : Zone) (d : CacheNo) : (s.setZone z r).cache d = s.cache d := rfl
@[simp] theorem State.channel_setZone (s : State) (z : ZoneNo) (r : Zone) (d : ChannelNo) : (s.setZone z r).channel d = s.channel d := rfl
@[simp] theorem State.zone_setPart (s : State) (p : PartNo) (r : Part) (z : ZoneNo) : (s.setPart p r).zone z = s.zone z := rfl
@[simp] theorem State.voice_setPart (s : State) (p : PartNo) (r : Part) (w : Voice) : (s.setPart p r).voice w = s.voice w := rfl
@[simp] theorem State.card_setPart (s : State) (p : PartNo) (r : Part) (j : CardNo) : (s.setPart p r).card j = s.card j := rfl
@[simp] theorem State.entry_setPart (s : State) (p : PartNo) (r : Part) (w : Voice) : (s.setPart p r).entry w = s.entry w := rfl
@[simp] theorem State.calRecord_setPart (s : State) (p : PartNo) (r : Part) (w : Voice) : (s.setPart p r).calRecord w = s.calRecord w := rfl
@[simp] theorem State.cache_setPart (s : State) (p : PartNo) (r : Part) (d : CacheNo) : (s.setPart p r).cache d = s.cache d := rfl
@[simp] theorem State.channel_setPart (s : State) (p : PartNo) (r : Part) (d : ChannelNo) : (s.setPart p r).channel d = s.channel d := rfl
@[simp] theorem State.zone_modPart (s : State) (p : PartNo) (f : Part → Part) (z : ZoneNo) : (s.modPart p f).zone z = s.zone z := rfl
@[simp] theorem State.voice_modPart (s : State) (p : PartNo) (f : Part → Part) (w : Voice) : (s.modPart p f).voice w = s.voice w := rfl
@[simp] theorem State.card_modPart (s : State) (p : PartNo) (f : Part → Part) (j : CardNo) : (s.modPart p f).card j = s.card j := rfl
@[simp] theorem State.entry_modPart (s : State) (p : PartNo) (f : Part → Part) (w : Voice) : (s.modPart p f).entry w = s.entry w := rfl
@[simp] theorem State.calRecord_modPart (s : State) (p : PartNo) (f : Part → Part) (w : Voice) : (s.modPart p f).calRecord w = s.calRecord w := rfl
@[simp] theorem State.cache_modPart (s : State) (p : PartNo) (f : Part → Part) (d : CacheNo) : (s.modPart p f).cache d = s.cache d := rfl
@[simp] theorem State.channel_modPart (s : State) (p : PartNo) (f : Part → Part) (d : ChannelNo) : (s.modPart p f).channel d = s.channel d := rfl
@[simp] theorem State.zone_setVoice (s : State) (v : Voice) (r : VoiceRec) (z : ZoneNo) : (s.setVoice v r).zone z = s.zone z := rfl
@[simp] theorem State.part_setVoice (s : State) (v : Voice) (r : VoiceRec) (p : PartNo) : (s.setVoice v r).part p = s.part p := rfl
@[simp] theorem State.card_setVoice (s : State) (v : Voice) (r : VoiceRec) (j : CardNo) : (s.setVoice v r).card j = s.card j := rfl
@[simp] theorem State.entry_setVoice (s : State) (v : Voice) (r : VoiceRec) (w : Voice) : (s.setVoice v r).entry w = s.entry w := rfl
@[simp] theorem State.calRecord_setVoice (s : State) (v : Voice) (r : VoiceRec) (w : Voice) : (s.setVoice v r).calRecord w = s.calRecord w := rfl
@[simp] theorem State.cache_setVoice (s : State) (v : Voice) (r : VoiceRec) (d : CacheNo) : (s.setVoice v r).cache d = s.cache d := rfl
@[simp] theorem State.channel_setVoice (s : State) (v : Voice) (r : VoiceRec) (d : ChannelNo) : (s.setVoice v r).channel d = s.channel d := rfl
@[simp] theorem State.zone_modVoice (s : State) (v : Voice) (f : VoiceRec → VoiceRec) (z : ZoneNo) : (s.modVoice v f).zone z = s.zone z := rfl
@[simp] theorem State.part_modVoice (s : State) (v : Voice) (f : VoiceRec → VoiceRec) (p : PartNo) : (s.modVoice v f).part p = s.part p := rfl
@[simp] theorem State.card_modVoice (s : State) (v : Voice) (f : VoiceRec → VoiceRec) (j : CardNo) : (s.modVoice v f).card j = s.card j := rfl
@[simp] theorem State.entry_modVoice (s : State) (v : Voice) (f : VoiceRec → VoiceRec) (w : Voice) : (s.modVoice v f).entry w = s.entry w := rfl
@[simp] theorem State.calRecord_modVoice (s : State) (v : Voice) (f : VoiceRec → VoiceRec) (w : Voice) : (s.modVoice v f).calRecord w = s.calRecord w := rfl
@[simp] theorem State.cache_modVoice (s : State) (v : Voice) (f : VoiceRec → VoiceRec) (d : CacheNo) : (s.modVoice v f).cache d = s.cache d := rfl
@[simp] theorem State.channel_modVoice (s : State) (v : Voice) (f : VoiceRec → VoiceRec) (d : ChannelNo) : (s.modVoice v f).channel d = s.channel d := rfl
@[simp] theorem State.zone_setCard (s : State) (k : CardNo) (r : Card) (z : ZoneNo) : (s.setCard k r).zone z = s.zone z := rfl
@[simp] theorem State.part_setCard (s : State) (k : CardNo) (r : Card) (p : PartNo) : (s.setCard k r).part p = s.part p := rfl
@[simp] theorem State.voice_setCard (s : State) (k : CardNo) (r : Card) (w : Voice) : (s.setCard k r).voice w = s.voice w := rfl
@[simp] theorem State.entry_setCard (s : State) (k : CardNo) (r : Card) (w : Voice) : (s.setCard k r).entry w = s.entry w := rfl
@[simp] theorem State.calRecord_setCard (s : State) (k : CardNo) (r : Card) (w : Voice) : (s.setCard k r).calRecord w = s.calRecord w := rfl
@[simp] theorem State.cache_setCard (s : State) (k : CardNo) (r : Card) (d : CacheNo) : (s.setCard k r).cache d = s.cache d := rfl
@[simp] theorem State.channel_setCard (s : State) (k : CardNo) (r : Card) (d : ChannelNo) : (s.setCard k r).channel d = s.channel d := rfl
@[simp] theorem State.zone_modCard (s : State) (k : CardNo) (f : Card → Card) (z : ZoneNo) : (s.modCard k f).zone z = s.zone z := rfl
@[simp] theorem State.part_modCard (s : State) (k : CardNo) (f : Card → Card) (p : PartNo) : (s.modCard k f).part p = s.part p := rfl
@[simp] theorem State.voice_modCard (s : State) (k : CardNo) (f : Card → Card) (w : Voice) : (s.modCard k f).voice w = s.voice w := rfl
@[simp] theorem State.entry_modCard (s : State) (k : CardNo) (f : Card → Card) (w : Voice) : (s.modCard k f).entry w = s.entry w := rfl
@[simp] theorem State.calRecord_modCard (s : State) (k : CardNo) (f : Card → Card) (w : Voice) : (s.modCard k f).calRecord w = s.calRecord w := rfl
@[simp] theorem State.cache_modCard (s : State) (k : CardNo) (f : Card → Card) (d : CacheNo) : (s.modCard k f).cache d = s.cache d := rfl
@[simp] theorem State.channel_modCard (s : State) (k : CardNo) (f : Card → Card) (d : ChannelNo) : (s.modCard k f).channel d = s.channel d := rfl
@[simp] theorem State.zone_setChannel (s : State) (c : ChannelNo) (r : Channel) (z : ZoneNo) : (s.setChannel c r).zone z = s.zone z := rfl
@[simp] theorem State.part_setChannel (s : State) (c : ChannelNo) (r : Channel) (p : PartNo) : (s.setChannel c r).part p = s.part p := rfl
@[simp] theorem State.voice_setChannel (s : State) (c : ChannelNo) (r : Channel) (w : Voice) : (s.setChannel c r).voice w = s.voice w := rfl
@[simp] theorem State.card_setChannel (s : State) (c : ChannelNo) (r : Channel) (j : CardNo) : (s.setChannel c r).card j = s.card j := rfl
@[simp] theorem State.entry_setChannel (s : State) (c : ChannelNo) (r : Channel) (w : Voice) : (s.setChannel c r).entry w = s.entry w := rfl
@[simp] theorem State.calRecord_setChannel (s : State) (c : ChannelNo) (r : Channel) (w : Voice) : (s.setChannel c r).calRecord w = s.calRecord w := rfl
@[simp] theorem State.cache_setChannel (s : State) (c : ChannelNo) (r : Channel) (d : CacheNo) : (s.setChannel c r).cache d = s.cache d := rfl
@[simp] theorem State.zone_setCache (s : State) (c : CacheNo) (r : CacheSlot) (z : ZoneNo) : (s.setCache c r).zone z = s.zone z := rfl
@[simp] theorem State.part_setCache (s : State) (c : CacheNo) (r : CacheSlot) (p : PartNo) : (s.setCache c r).part p = s.part p := rfl
@[simp] theorem State.voice_setCache (s : State) (c : CacheNo) (r : CacheSlot) (w : Voice) : (s.setCache c r).voice w = s.voice w := rfl
@[simp] theorem State.card_setCache (s : State) (c : CacheNo) (r : CacheSlot) (j : CardNo) : (s.setCache c r).card j = s.card j := rfl
@[simp] theorem State.entry_setCache (s : State) (c : CacheNo) (r : CacheSlot) (w : Voice) : (s.setCache c r).entry w = s.entry w := rfl
@[simp] theorem State.calRecord_setCache (s : State) (c : CacheNo) (r : CacheSlot) (w : Voice) : (s.setCache c r).calRecord w = s.calRecord w := rfl
@[simp] theorem State.channel_setCache (s : State) (c : CacheNo) (r : CacheSlot) (d : ChannelNo) : (s.setCache c r).channel d = s.channel d := rfl
@[simp] theorem State.zone_setCalRecord (s : State) (v : Voice) (r : CalRecord) (z : ZoneNo) : (s.setCalRecord v r).zone z = s.zone z := rfl
@[simp] theorem State.part_setCalRecord (s : State) (v : Voice) (r : CalRecord) (p : PartNo) : (s.setCalRecord v r).part p = s.part p := rfl
@[simp] theorem State.voice_setCalRecord (s : State) (v : Voice) (r : CalRecord) (w : Voice) : (s.setCalRecord v r).voice w = s.voice w := rfl
@[simp] theorem State.card_setCalRecord (s : State) (v : Voice) (r : CalRecord) (j : CardNo) : (s.setCalRecord v r).card j = s.card j := rfl
@[simp] theorem State.entry_setCalRecord (s : State) (v : Voice) (r : CalRecord) (w : Voice) : (s.setCalRecord v r).entry w = s.entry w := rfl
@[simp] theorem State.cache_setCalRecord (s : State) (v : Voice) (r : CalRecord) (d : CacheNo) : (s.setCalRecord v r).cache d = s.cache d := rfl
@[simp] theorem State.channel_setCalRecord (s : State) (v : Voice) (r : CalRecord) (d : ChannelNo) : (s.setCalRecord v r).channel d = s.channel d := rfl
@[simp] theorem State.zone_setCal (s : State) (v : Voice) (d : Tuned) (e : CalEntry) (z : ZoneNo) : (s.setCal v d e).zone z = s.zone z := rfl
@[simp] theorem State.part_setCal (s : State) (v : Voice) (d : Tuned) (e : CalEntry) (p : PartNo) : (s.setCal v d e).part p = s.part p := rfl
@[simp] theorem State.voice_setCal (s : State) (v : Voice) (d : Tuned) (e : CalEntry) (w : Voice) : (s.setCal v d e).voice w = s.voice w := rfl
@[simp] theorem State.card_setCal (s : State) (v : Voice) (d : Tuned) (e : CalEntry) (j : CardNo) : (s.setCal v d e).card j = s.card j := rfl
@[simp] theorem State.entry_setCal (s : State) (v : Voice) (d : Tuned) (e : CalEntry) (w : Voice) : (s.setCal v d e).entry w = s.entry w := rfl
@[simp] theorem State.cache_setCal (s : State) (v : Voice) (d : Tuned) (e : CalEntry) (d' : CacheNo) : (s.setCal v d e).cache d' = s.cache d' := rfl
@[simp] theorem State.channel_setCal (s : State) (v : Voice) (d : Tuned) (e : CalEntry) (d' : ChannelNo) : (s.setCal v d e).channel d' = s.channel d' := rfl
@[simp] theorem State.zone_setEntry (s : State) (v : Voice) (e : PassEntry) (z : ZoneNo) : (s.setEntry v e).zone z = s.zone z := rfl
@[simp] theorem State.part_setEntry (s : State) (v : Voice) (e : PassEntry) (p : PartNo) : (s.setEntry v e).part p = s.part p := rfl
@[simp] theorem State.voice_setEntry (s : State) (v : Voice) (e : PassEntry) (w : Voice) : (s.setEntry v e).voice w = s.voice w := rfl
@[simp] theorem State.card_setEntry (s : State) (v : Voice) (e : PassEntry) (j : CardNo) : (s.setEntry v e).card j = s.card j := rfl
@[simp] theorem State.calRecord_setEntry (s : State) (v : Voice) (e : PassEntry) (w : Voice) : (s.setEntry v e).calRecord w = s.calRecord w := rfl
@[simp] theorem State.cache_setEntry (s : State) (v : Voice) (e : PassEntry) (d : CacheNo) : (s.setEntry v e).cache d = s.cache d := rfl
@[simp] theorem State.channel_setEntry (s : State) (v : Voice) (e : PassEntry) (d : ChannelNo) : (s.setEntry v e).channel d = s.channel d := rfl
@[simp] theorem State.zone_setOverride (s : State) (v : Voice) (d : DestNo) (x : Option Code) (z : ZoneNo) : (s.setOverride v d x).zone z = s.zone z := rfl
@[simp] theorem State.part_setOverride (s : State) (v : Voice) (d : DestNo) (x : Option Code) (p : PartNo) : (s.setOverride v d x).part p = s.part p := rfl
@[simp] theorem State.voice_setOverride (s : State) (v : Voice) (d : DestNo) (x : Option Code) (w : Voice) : (s.setOverride v d x).voice w = s.voice w := rfl
@[simp] theorem State.card_setOverride (s : State) (v : Voice) (d : DestNo) (x : Option Code) (j : CardNo) : (s.setOverride v d x).card j = s.card j := rfl
@[simp] theorem State.entry_setOverride (s : State) (v : Voice) (d : DestNo) (x : Option Code) (w : Voice) : (s.setOverride v d x).entry w = s.entry w := rfl
@[simp] theorem State.calRecord_setOverride (s : State) (v : Voice) (d : DestNo) (x : Option Code) (w : Voice) : (s.setOverride v d x).calRecord w = s.calRecord w := rfl
@[simp] theorem State.cache_setOverride (s : State) (v : Voice) (d : DestNo) (x : Option Code) (d' : CacheNo) : (s.setOverride v d x).cache d' = s.cache d' := rfl
@[simp] theorem State.channel_setOverride (s : State) (v : Voice) (d : DestNo) (x : Option Code) (d' : ChannelNo) : (s.setOverride v d x).channel d' = s.channel d' := rfl
@[simp] theorem State.zone_setPhase (s : State) (m : Measurement) (x : Phase) (z : ZoneNo) : (s.setPhase m x).zone z = s.zone z := rfl
@[simp] theorem State.part_setPhase (s : State) (m : Measurement) (x : Phase) (p : PartNo) : (s.setPhase m x).part p = s.part p := rfl
@[simp] theorem State.voice_setPhase (s : State) (m : Measurement) (x : Phase) (w : Voice) : (s.setPhase m x).voice w = s.voice w := rfl
@[simp] theorem State.card_setPhase (s : State) (m : Measurement) (x : Phase) (j : CardNo) : (s.setPhase m x).card j = s.card j := rfl
@[simp] theorem State.entry_setPhase (s : State) (m : Measurement) (x : Phase) (w : Voice) : (s.setPhase m x).entry w = s.entry w := rfl
@[simp] theorem State.calRecord_setPhase (s : State) (m : Measurement) (x : Phase) (w : Voice) : (s.setPhase m x).calRecord w = s.calRecord w := rfl
@[simp] theorem State.cache_setPhase (s : State) (m : Measurement) (x : Phase) (d : CacheNo) : (s.setPhase m x).cache d = s.cache d := rfl
@[simp] theorem State.channel_setPhase (s : State) (m : Measurement) (x : Phase) (d : ChannelNo) : (s.setPhase m x).channel d = s.channel d := rfl
@[simp] theorem State.zone_bump (s : State) (z : ZoneNo) : (s.bump).zone z = s.zone z := rfl
@[simp] theorem State.part_bump (s : State) (p : PartNo) : (s.bump).part p = s.part p := rfl
@[simp] theorem State.voice_bump (s : State) (w : Voice) : (s.bump).voice w = s.voice w := rfl
@[simp] theorem State.card_bump (s : State) (j : CardNo) : (s.bump).card j = s.card j := rfl
@[simp] theorem State.entry_bump (s : State) (w : Voice) : (s.bump).entry w = s.entry w := rfl
@[simp] theorem State.calRecord_bump (s : State) (w : Voice) : (s.bump).calRecord w = s.calRecord w := rfl
@[simp] theorem State.cache_bump (s : State) (d : CacheNo) : (s.bump).cache d = s.cache d := rfl
@[simp] theorem State.channel_bump (s : State) (d : ChannelNo) : (s.bump).channel d = s.channel d := rfl
@[simp] theorem State.zone_enterIdle (s : State) (v : Voice) (z : ZoneNo) : (s.enterIdle v).zone z = s.zone z := rfl
@[simp] theorem State.part_enterIdle (s : State) (v : Voice) (p : PartNo) : (s.enterIdle v).part p = s.part p := rfl
@[simp] theorem State.card_enterIdle (s : State) (v : Voice) (j : CardNo) : (s.enterIdle v).card j = s.card j := rfl
@[simp] theorem State.entry_enterIdle (s : State) (v : Voice) (w : Voice) : (s.enterIdle v).entry w = s.entry w := rfl
@[simp] theorem State.calRecord_enterIdle (s : State) (v : Voice) (w : Voice) : (s.enterIdle v).calRecord w = s.calRecord w := rfl
@[simp] theorem State.cache_enterIdle (s : State) (v : Voice) (d : CacheNo) : (s.enterIdle v).cache d = s.cache d := rfl
@[simp] theorem State.channel_enterIdle (s : State) (v : Voice) (d : ChannelNo) : (s.enterIdle v).channel d = s.channel d := rfl
@[simp] theorem State.zone_setHeld (s : State) (p : PartNo) (hs : List HeldKey) (z : ZoneNo) : (s.setHeld p hs).zone z = s.zone z := rfl
@[simp] theorem State.voice_setHeld (s : State) (p : PartNo) (hs : List HeldKey) (w : Voice) : (s.setHeld p hs).voice w = s.voice w := rfl
@[simp] theorem State.card_setHeld (s : State) (p : PartNo) (hs : List HeldKey) (j : CardNo) : (s.setHeld p hs).card j = s.card j := rfl
@[simp] theorem State.entry_setHeld (s : State) (p : PartNo) (hs : List HeldKey) (w : Voice) : (s.setHeld p hs).entry w = s.entry w := rfl
@[simp] theorem State.calRecord_setHeld (s : State) (p : PartNo) (hs : List HeldKey) (w : Voice) : (s.setHeld p hs).calRecord w = s.calRecord w := rfl
@[simp] theorem State.cache_setHeld (s : State) (p : PartNo) (hs : List HeldKey) (d : CacheNo) : (s.setHeld p hs).cache d = s.cache d := rfl
@[simp] theorem State.channel_setHeld (s : State) (p : PartNo) (hs : List HeldKey) (d : ChannelNo) : (s.setHeld p hs).channel d = s.channel d := rfl
@[simp] theorem State.zone_dropKey (s : State) (p : PartNo) (z : ZoneNo) : (s.dropKey p).zone z = s.zone z := rfl
@[simp] theorem State.voice_dropKey (s : State) (p : PartNo) (w : Voice) : (s.dropKey p).voice w = s.voice w := rfl
@[simp] theorem State.card_dropKey (s : State) (p : PartNo) (j : CardNo) : (s.dropKey p).card j = s.card j := rfl
@[simp] theorem State.entry_dropKey (s : State) (p : PartNo) (w : Voice) : (s.dropKey p).entry w = s.entry w := rfl
@[simp] theorem State.calRecord_dropKey (s : State) (p : PartNo) (w : Voice) : (s.dropKey p).calRecord w = s.calRecord w := rfl
@[simp] theorem State.cache_dropKey (s : State) (p : PartNo) (d : CacheNo) : (s.dropKey p).cache d = s.cache d := rfl
@[simp] theorem State.channel_dropKey (s : State) (p : PartNo) (d : ChannelNo) : (s.dropKey p).channel d = s.channel d := rfl
@[simp] theorem State.zone_answer (s : State) (x : Status) (y : List Byte) (z : ZoneNo) : (s.answer x y).zone z = s.zone z := rfl
@[simp] theorem State.part_answer (s : State) (x : Status) (y : List Byte) (p : PartNo) : (s.answer x y).part p = s.part p := rfl
@[simp] theorem State.voice_answer (s : State) (x : Status) (y : List Byte) (w : Voice) : (s.answer x y).voice w = s.voice w := rfl
@[simp] theorem State.card_answer (s : State) (x : Status) (y : List Byte) (j : CardNo) : (s.answer x y).card j = s.card j := rfl
@[simp] theorem State.entry_answer (s : State) (x : Status) (y : List Byte) (w : Voice) : (s.answer x y).entry w = s.entry w := rfl
@[simp] theorem State.calRecord_answer (s : State) (x : Status) (y : List Byte) (w : Voice) : (s.answer x y).calRecord w = s.calRecord w := rfl
@[simp] theorem State.cache_answer (s : State) (x : Status) (y : List Byte) (d : CacheNo) : (s.answer x y).cache d = s.cache d := rfl
@[simp] theorem State.channel_answer (s : State) (x : Status) (y : List Byte) (d : ChannelNo) : (s.answer x y).channel d = s.channel d := rfl
@[simp] theorem State.zone_refuse (s : State) (x : Status) (z : ZoneNo) : (s.refuse x).zone z = s.zone z := rfl
@[simp] theorem State.part_refuse (s : State) (x : Status) (p : PartNo) : (s.refuse x).part p = s.part p := rfl
@[simp] theorem State.voice_refuse (s : State) (x : Status) (w : Voice) : (s.refuse x).voice w = s.voice w := rfl
@[simp] theorem State.card_refuse (s : State) (x : Status) (j : CardNo) : (s.refuse x).card j = s.card j := rfl
@[simp] theorem State.entry_refuse (s : State) (x : Status) (w : Voice) : (s.refuse x).entry w = s.entry w := rfl
@[simp] theorem State.calRecord_refuse (s : State) (x : Status) (w : Voice) : (s.refuse x).calRecord w = s.calRecord w := rfl
@[simp] theorem State.cache_refuse (s : State) (x : Status) (d : CacheNo) : (s.refuse x).cache d = s.cache d := rfl
@[simp] theorem State.channel_refuse (s : State) (x : Status) (d : ChannelNo) : (s.refuse x).channel d = s.channel d := rfl
@[simp] theorem State.zone_endTransaction (s : State) (x : List Byte) (z : ZoneNo) : (s.endTransaction x).zone z = s.zone z := rfl
@[simp] theorem State.part_endTransaction (s : State) (x : List Byte) (p : PartNo) : (s.endTransaction x).part p = s.part p := rfl
@[simp] theorem State.voice_endTransaction (s : State) (x : List Byte) (w : Voice) : (s.endTransaction x).voice w = s.voice w := rfl
@[simp] theorem State.card_endTransaction (s : State) (x : List Byte) (j : CardNo) : (s.endTransaction x).card j = s.card j := rfl
@[simp] theorem State.entry_endTransaction (s : State) (x : List Byte) (w : Voice) : (s.endTransaction x).entry w = s.entry w := rfl
@[simp] theorem State.calRecord_endTransaction (s : State) (x : List Byte) (w : Voice) : (s.endTransaction x).calRecord w = s.calRecord w := rfl
@[simp] theorem State.cache_endTransaction (s : State) (x : List Byte) (d : CacheNo) : (s.endTransaction x).cache d = s.cache d := rfl
@[simp] theorem State.channel_endTransaction (s : State) (x : List Byte) (d : ChannelNo) : (s.endTransaction x).channel d = s.channel d := rfl
@[simp] theorem State.zone_keepFrame (s : State) (x : List Byte) (z : ZoneNo) : (s.keepFrame x).zone z = s.zone z := rfl
@[simp] theorem State.part_keepFrame (s : State) (x : List Byte) (p : PartNo) : (s.keepFrame x).part p = s.part p := rfl
@[simp] theorem State.voice_keepFrame (s : State) (x : List Byte) (w : Voice) : (s.keepFrame x).voice w = s.voice w := rfl
@[simp] theorem State.card_keepFrame (s : State) (x : List Byte) (j : CardNo) : (s.keepFrame x).card j = s.card j := rfl
@[simp] theorem State.entry_keepFrame (s : State) (x : List Byte) (w : Voice) : (s.keepFrame x).entry w = s.entry w := rfl
@[simp] theorem State.calRecord_keepFrame (s : State) (x : List Byte) (w : Voice) : (s.keepFrame x).calRecord w = s.calRecord w := rfl
@[simp] theorem State.cache_keepFrame (s : State) (x : List Byte) (d : CacheNo) : (s.keepFrame x).cache d = s.cache d := rfl
@[simp] theorem State.channel_keepFrame (s : State) (x : List Byte) (d : ChannelNo) : (s.keepFrame x).channel d = s.channel d := rfl
@[simp] theorem State.zone_giveUpAnswer (s : State) (z : ZoneNo) : (s.giveUpAnswer).zone z = s.zone z := rfl
@[simp] theorem State.part_giveUpAnswer (s : State) (p : PartNo) : (s.giveUpAnswer).part p = s.part p := rfl
@[simp] theorem State.voice_giveUpAnswer (s : State) (w : Voice) : (s.giveUpAnswer).voice w = s.voice w := rfl
@[simp] theorem State.card_giveUpAnswer (s : State) (j : CardNo) : (s.giveUpAnswer).card j = s.card j := rfl
@[simp] theorem State.entry_giveUpAnswer (s : State) (w : Voice) : (s.giveUpAnswer).entry w = s.entry w := rfl
@[simp] theorem State.calRecord_giveUpAnswer (s : State) (w : Voice) : (s.giveUpAnswer).calRecord w = s.calRecord w := rfl
@[simp] theorem State.cache_giveUpAnswer (s : State) (d : CacheNo) : (s.giveUpAnswer).cache d = s.cache d := rfl
@[simp] theorem State.channel_giveUpAnswer (s : State) (d : ChannelNo) : (s.giveUpAnswer).channel d = s.channel d := rfl
@[simp] theorem State.zone_withPending (s : State) (cs : List Instr) (z : ZoneNo) : (s.withPending cs).zone z = s.zone z := rfl
@[simp] theorem State.part_withPending (s : State) (cs : List Instr) (p : PartNo) : (s.withPending cs).part p = s.part p := rfl
@[simp] theorem State.voice_withPending (s : State) (cs : List Instr) (w : Voice) : (s.withPending cs).voice w = s.voice w := rfl
@[simp] theorem State.card_withPending (s : State) (cs : List Instr) (j : CardNo) : (s.withPending cs).card j = s.card j := rfl
@[simp] theorem State.entry_withPending (s : State) (cs : List Instr) (w : Voice) : (s.withPending cs).entry w = s.entry w := rfl
@[simp] theorem State.calRecord_withPending (s : State) (cs : List Instr) (w : Voice) : (s.withPending cs).calRecord w = s.calRecord w := rfl
@[simp] theorem State.cache_withPending (s : State) (cs : List Instr) (d : CacheNo) : (s.withPending cs).cache d = s.cache d := rfl
@[simp] theorem State.channel_withPending (s : State) (cs : List Instr) (d : ChannelNo) : (s.withPending cs).channel d = s.channel d := rfl
@[simp] theorem State.zone_postCard (s : State) (k : CardNo) (z : ZoneNo) : (s.postCard k).zone z = s.zone z := rfl
@[simp] theorem State.part_postCard (s : State) (k : CardNo) (p : PartNo) : (s.postCard k).part p = s.part p := rfl
@[simp] theorem State.voice_postCard (s : State) (k : CardNo) (w : Voice) : (s.postCard k).voice w = s.voice w := rfl
@[simp] theorem State.card_postCard (s : State) (k : CardNo) (j : CardNo) : (s.postCard k).card j = s.card j := rfl
@[simp] theorem State.entry_postCard (s : State) (k : CardNo) (w : Voice) : (s.postCard k).entry w = s.entry w := rfl
@[simp] theorem State.calRecord_postCard (s : State) (k : CardNo) (w : Voice) : (s.postCard k).calRecord w = s.calRecord w := rfl
@[simp] theorem State.cache_postCard (s : State) (k : CardNo) (d : CacheNo) : (s.postCard k).cache d = s.cache d := rfl
@[simp] theorem State.channel_postCard (s : State) (k : CardNo) (d : ChannelNo) : (s.postCard k).channel d = s.channel d := rfl
@[simp] theorem State.zone_postTune (s : State) (z : ZoneNo) : (s.postTune).zone z = s.zone z := rfl
@[simp] theorem State.part_postTune (s : State) (p : PartNo) : (s.postTune).part p = s.part p := rfl
@[simp] theorem State.voice_postTune (s : State) (w : Voice) : (s.postTune).voice w = s.voice w := rfl
@[simp] theorem State.card_postTune (s : State) (j : CardNo) : (s.postTune).card j = s.card j := rfl
@[simp] theorem State.entry_postTune (s : State) (w : Voice) : (s.postTune).entry w = s.entry w := rfl
@[simp] theorem State.calRecord_postTune (s : State) (w : Voice) : (s.postTune).calRecord w = s.calRecord w := rfl
@[simp] theorem State.cache_postTune (s : State) (d : CacheNo) : (s.postTune).cache d = s.cache d := rfl
@[simp] theorem State.channel_postTune (s : State) (d : ChannelNo) : (s.postTune).channel d = s.channel d := rfl
@[simp] theorem State.zone_postHealth (s : State) (v : Voice) (z : ZoneNo) : (s.postHealth v).zone z = s.zone z := rfl
@[simp] theorem State.part_postHealth (s : State) (v : Voice) (p : PartNo) : (s.postHealth v).part p = s.part p := rfl
@[simp] theorem State.voice_postHealth (s : State) (v : Voice) (w : Voice) : (s.postHealth v).voice w = s.voice w := rfl
@[simp] theorem State.card_postHealth (s : State) (v : Voice) (j : CardNo) : (s.postHealth v).card j = s.card j := rfl
@[simp] theorem State.entry_postHealth (s : State) (v : Voice) (w : Voice) : (s.postHealth v).entry w = s.entry w := rfl
@[simp] theorem State.calRecord_postHealth (s : State) (v : Voice) (w : Voice) : (s.postHealth v).calRecord w = s.calRecord w := rfl
@[simp] theorem State.cache_postHealth (s : State) (v : Voice) (d : CacheNo) : (s.postHealth v).cache d = s.cache d := rfl
@[simp] theorem State.channel_postHealth (s : State) (v : Voice) (d : ChannelNo) : (s.postHealth v).channel d = s.channel d := rfl
@[simp] theorem State.zone_postClamp (s : State) (v : Voice) (z : ZoneNo) : (s.postClamp v).zone z = s.zone z := rfl
@[simp] theorem State.part_postClamp (s : State) (v : Voice) (p : PartNo) : (s.postClamp v).part p = s.part p := rfl
@[simp] theorem State.voice_postClamp (s : State) (v : Voice) (w : Voice) : (s.postClamp v).voice w = s.voice w := rfl
@[simp] theorem State.card_postClamp (s : State) (v : Voice) (j : CardNo) : (s.postClamp v).card j = s.card j := rfl
@[simp] theorem State.entry_postClamp (s : State) (v : Voice) (w : Voice) : (s.postClamp v).entry w = s.entry w := rfl
@[simp] theorem State.calRecord_postClamp (s : State) (v : Voice) (w : Voice) : (s.postClamp v).calRecord w = s.calRecord w := rfl
@[simp] theorem State.cache_postClamp (s : State) (v : Voice) (d : CacheNo) : (s.postClamp v).cache d = s.cache d := rfl
@[simp] theorem State.channel_postClamp (s : State) (v : Voice) (d : ChannelNo) : (s.postClamp v).channel d = s.channel d := rfl
@[simp] theorem State.zone_postRecall (s : State) (p : PartNo) (z : ZoneNo) : (s.postRecall p).zone z = s.zone z := rfl
@[simp] theorem State.part_postRecall (s : State) (p : PartNo) (p' : PartNo) : (s.postRecall p).part p' = s.part p' := rfl
@[simp] theorem State.voice_postRecall (s : State) (p : PartNo) (w : Voice) : (s.postRecall p).voice w = s.voice w := rfl
@[simp] theorem State.card_postRecall (s : State) (p : PartNo) (j : CardNo) : (s.postRecall p).card j = s.card j := rfl
@[simp] theorem State.entry_postRecall (s : State) (p : PartNo) (w : Voice) : (s.postRecall p).entry w = s.entry w := rfl
@[simp] theorem State.calRecord_postRecall (s : State) (p : PartNo) (w : Voice) : (s.postRecall p).calRecord w = s.calRecord w := rfl
@[simp] theorem State.cache_postRecall (s : State) (p : PartNo) (d : CacheNo) : (s.postRecall p).cache d = s.cache d := rfl
@[simp] theorem State.channel_postRecall (s : State) (p : PartNo) (d : ChannelNo) : (s.postRecall p).channel d = s.channel d := rfl
@[simp] theorem State.zone_postStore (s : State) (z : ZoneNo) : (s.postStore).zone z = s.zone z := rfl
@[simp] theorem State.part_postStore (s : State) (p : PartNo) : (s.postStore).part p = s.part p := rfl
@[simp] theorem State.voice_postStore (s : State) (w : Voice) : (s.postStore).voice w = s.voice w := rfl
@[simp] theorem State.card_postStore (s : State) (j : CardNo) : (s.postStore).card j = s.card j := rfl
@[simp] theorem State.entry_postStore (s : State) (w : Voice) : (s.postStore).entry w = s.entry w := rfl
@[simp] theorem State.calRecord_postStore (s : State) (w : Voice) : (s.postStore).calRecord w = s.calRecord w := rfl
@[simp] theorem State.cache_postStore (s : State) (d : CacheNo) : (s.postStore).cache d = s.cache d := rfl
@[simp] theorem State.channel_postStore (s : State) (d : ChannelNo) : (s.postStore).channel d = s.channel d := rfl
@[simp] theorem State.zone_postLink (s : State) (z : ZoneNo) : (s.postLink).zone z = s.zone z := rfl
@[simp] theorem State.part_postLink (s : State) (p : PartNo) : (s.postLink).part p = s.part p := rfl
@[simp] theorem State.voice_postLink (s : State) (w : Voice) : (s.postLink).voice w = s.voice w := rfl
@[simp] theorem State.card_postLink (s : State) (j : CardNo) : (s.postLink).card j = s.card j := rfl
@[simp] theorem State.entry_postLink (s : State) (w : Voice) : (s.postLink).entry w = s.entry w := rfl
@[simp] theorem State.calRecord_postLink (s : State) (w : Voice) : (s.postLink).calRecord w = s.calRecord w := rfl
@[simp] theorem State.cache_postLink (s : State) (d : CacheNo) : (s.postLink).cache d = s.cache d := rfl
@[simp] theorem State.channel_postLink (s : State) (d : ChannelNo) : (s.postLink).channel d = s.channel d := rfl
@[simp] theorem State.zone_reportPanel (s : State) (b : Bool) (z : ZoneNo) : (s.reportPanel b).zone z = s.zone z := rfl
@[simp] theorem State.part_reportPanel (s : State) (b : Bool) (p : PartNo) : (s.reportPanel b).part p = s.part p := rfl
@[simp] theorem State.voice_reportPanel (s : State) (b : Bool) (w : Voice) : (s.reportPanel b).voice w = s.voice w := rfl
@[simp] theorem State.card_reportPanel (s : State) (b : Bool) (j : CardNo) : (s.reportPanel b).card j = s.card j := rfl
@[simp] theorem State.entry_reportPanel (s : State) (b : Bool) (w : Voice) : (s.reportPanel b).entry w = s.entry w := rfl
@[simp] theorem State.calRecord_reportPanel (s : State) (b : Bool) (w : Voice) : (s.reportPanel b).calRecord w = s.calRecord w := rfl
@[simp] theorem State.cache_reportPanel (s : State) (b : Bool) (d : CacheNo) : (s.reportPanel b).cache d = s.cache d := rfl
@[simp] theorem State.channel_reportPanel (s : State) (b : Bool) (d : ChannelNo) : (s.reportPanel b).channel d = s.channel d := rfl
@[simp] theorem State.zone_send (s : State) (x : List FlashTx) (z : ZoneNo) : (s.send x).zone z = s.zone z := rfl
@[simp] theorem State.part_send (s : State) (x : List FlashTx) (p : PartNo) : (s.send x).part p = s.part p := rfl
@[simp] theorem State.voice_send (s : State) (x : List FlashTx) (w : Voice) : (s.send x).voice w = s.voice w := rfl
@[simp] theorem State.card_send (s : State) (x : List FlashTx) (j : CardNo) : (s.send x).card j = s.card j := rfl
@[simp] theorem State.entry_send (s : State) (x : List FlashTx) (w : Voice) : (s.send x).entry w = s.entry w := rfl
@[simp] theorem State.calRecord_send (s : State) (x : List FlashTx) (w : Voice) : (s.send x).calRecord w = s.calRecord w := rfl
@[simp] theorem State.cache_send (s : State) (x : List FlashTx) (d : CacheNo) : (s.send x).cache d = s.cache d := rfl
@[simp] theorem State.channel_send (s : State) (x : List FlashTx) (d : ChannelNo) : (s.send x).channel d = s.channel d := rfl
@[simp] theorem State.zone_beginLink (s : State) (z : ZoneNo) : (s.beginLink).zone z = s.zone z := rfl
@[simp] theorem State.part_beginLink (s : State) (p : PartNo) : (s.beginLink).part p = s.part p := rfl
@[simp] theorem State.voice_beginLink (s : State) (w : Voice) : (s.beginLink).voice w = s.voice w := rfl
@[simp] theorem State.card_beginLink (s : State) (j : CardNo) : (s.beginLink).card j = s.card j := rfl
@[simp] theorem State.entry_beginLink (s : State) (w : Voice) : (s.beginLink).entry w = s.entry w := rfl
@[simp] theorem State.calRecord_beginLink (s : State) (w : Voice) : (s.beginLink).calRecord w = s.calRecord w := rfl
@[simp] theorem State.cache_beginLink (s : State) (d : CacheNo) : (s.beginLink).cache d = s.cache d := rfl
@[simp] theorem State.channel_beginLink (s : State) (d : ChannelNo) : (s.beginLink).channel d = s.channel d := rfl
@[simp] theorem State.zone_setHead (s : State) (x : Option JobStep) (z : ZoneNo) : (s.setHead x).zone z = s.zone z := rfl
@[simp] theorem State.part_setHead (s : State) (x : Option JobStep) (p : PartNo) : (s.setHead x).part p = s.part p := rfl
@[simp] theorem State.voice_setHead (s : State) (x : Option JobStep) (w : Voice) : (s.setHead x).voice w = s.voice w := rfl
@[simp] theorem State.card_setHead (s : State) (x : Option JobStep) (j : CardNo) : (s.setHead x).card j = s.card j := rfl
@[simp] theorem State.entry_setHead (s : State) (x : Option JobStep) (w : Voice) : (s.setHead x).entry w = s.entry w := rfl
@[simp] theorem State.calRecord_setHead (s : State) (x : Option JobStep) (w : Voice) : (s.setHead x).calRecord w = s.calRecord w := rfl
@[simp] theorem State.cache_setHead (s : State) (x : Option JobStep) (d : CacheNo) : (s.setHead x).cache d = s.cache d := rfl
@[simp] theorem State.channel_setHead (s : State) (x : Option JobStep) (d : ChannelNo) : (s.setHead x).channel d = s.channel d := rfl
@[simp] theorem State.zone_setQueue (s : State) (q : List Job) (z : ZoneNo) : (s.setQueue q).zone z = s.zone z := rfl
@[simp] theorem State.part_setQueue (s : State) (q : List Job) (p : PartNo) : (s.setQueue q).part p = s.part p := rfl
@[simp] theorem State.voice_setQueue (s : State) (q : List Job) (w : Voice) : (s.setQueue q).voice w = s.voice w := rfl
@[simp] theorem State.card_setQueue (s : State) (q : List Job) (j : CardNo) : (s.setQueue q).card j = s.card j := rfl
@[simp] theorem State.entry_setQueue (s : State) (q : List Job) (w : Voice) : (s.setQueue q).entry w = s.entry w := rfl
@[simp] theorem State.calRecord_setQueue (s : State) (q : List Job) (w : Voice) : (s.setQueue q).calRecord w = s.calRecord w := rfl
@[simp] theorem State.cache_setQueue (s : State) (q : List Job) (d : CacheNo) : (s.setQueue q).cache d = s.cache d := rfl
@[simp] theorem State.channel_setQueue (s : State) (q : List Job) (d : ChannelNo) : (s.setQueue q).channel d = s.channel d := rfl
@[simp] theorem State.zone_setFlash (s : State) (x : Byte) (z : ZoneNo) : (s.setFlash x).zone z = s.zone z := rfl
@[simp] theorem State.part_setFlash (s : State) (x : Byte) (p : PartNo) : (s.setFlash x).part p = s.part p := rfl
@[simp] theorem State.voice_setFlash (s : State) (x : Byte) (w : Voice) : (s.setFlash x).voice w = s.voice w := rfl
@[simp] theorem State.card_setFlash (s : State) (x : Byte) (j : CardNo) : (s.setFlash x).card j = s.card j := rfl
@[simp] theorem State.entry_setFlash (s : State) (x : Byte) (w : Voice) : (s.setFlash x).entry w = s.entry w := rfl
@[simp] theorem State.calRecord_setFlash (s : State) (x : Byte) (w : Voice) : (s.setFlash x).calRecord w = s.calRecord w := rfl
@[simp] theorem State.cache_setFlash (s : State) (x : Byte) (d : CacheNo) : (s.setFlash x).cache d = s.cache d := rfl
@[simp] theorem State.channel_setFlash (s : State) (x : Byte) (d : ChannelNo) : (s.setFlash x).channel d = s.channel d := rfl

/-! ### The patch manager after a soft reset -/

@[simp] theorem PatchMgr.soft_queue (m : PatchMgr) : m.soft.queue = [] := rfl
@[simp] theorem PatchMgr.soft_head (m : PatchMgr) : m.soft.head = none := rfl
@[simp] theorem PatchMgr.soft_sent (m : PatchMgr) : m.soft.sent = [] := rfl
@[simp] theorem PatchMgr.soft_slots (m : PatchMgr) : m.soft.slots = PatchMgr.reset.slots := rfl
@[simp] theorem PatchMgr.soft_flashStatus (m : PatchMgr) : m.soft.flashStatus = m.softStatus := rfl

end Sys2Proof.Machine
end

