-- ==== Sys2Proof/Laws/Frames.lean ====
section
/-! SUPPORT. What each shared operation of the tune controller, the allocator and the slot monitor can touch, said once: `PassWork`
for the work that moves no voice, `VoiceWork` for the work that also moves voices. A proof about a command cites these in place
of unfolding the operations. -/

namespace Sys2Proof.Machine

/-- `t` is `s` but for the override table, the working state of passes, checks and measurements, and a TUNE event. -/
structure State.PassWork (s t : State) : Prop where
  zones : t.zones = s.zones
  parts : t.parts = s.parts
  voices : t.voices = s.voices
  stamp : t.stamp = s.stamp
  freePicks : t.freePicks = s.freePicks
  refresh : { t.refresh with overrides := s.refresh.overrides } = s.refresh
  cal : t.tune.cal = s.tune.cal
  plan : t.tune.plan = s.tune.plan
  force : t.tune.force = s.tune.force
  held : t.tune.heldQuarantine = s.tune.heldQuarantine
  cards : t.cards = s.cards
  panel : t.panel = s.panel
  patches : t.patches = s.patches
  port : t.port = s.port
  notices : { t.notices with tune := s.notices.tune } = s.notices
  settings : t.settings = s.settings
  pending : t.pending = s.pending

theorem State.PassWork.refl (s : State) : s.PassWork s := by constructor <;> rfl

theorem State.PassWork.trans {s t u : State} (h : s.PassWork t) (k : t.PassWork u) : s.PassWork u := by
  obtain ⟨h1, h2, h3, h4, h5, h6, h7, h8, h9, h10, h11, h12, h13, h14, h15, h16, h17⟩ := h
  obtain ⟨k1, k2, k3, k4, k5, k6, k7, k8, k9, k10, k11, k12, k13, k14, k15, k16, k17⟩ := k
  refine ⟨k1.trans h1, k2.trans h2, k3.trans h3, k4.trans h4, k5.trans h5, ?_, k7.trans h7, k8.trans h8, k9.trans h9,
    k10.trans h10, k11.trans h11, k12.trans h12, k13.trans h13, k14.trans h14, ?_, k16.trans h16, k17.trans h17⟩
  · rw [← h6, ← k6]
  · rw [← h15, ← k15]

/-- An override entry set or withdrawn (R72). -/
theorem State.setOverride_passWork (s : State) (v : Voice) (d : DestNo) (x : Option Code) :
    s.PassWork (s.setOverride v d x) := by constructor <;> rfl

/-- An entry of the pass queue replaced (R106). -/
theorem State.setEntry_passWork (s : State) (v : Voice) (e : PassEntry) : s.PassWork (s.setEntry v e) := by
  constructor <;> rfl

/-- A measurement begun (R99). -/
theorem State.startMeasurement_passWork (s : State) (q : Requester) (v : Voice) (d : Tuned) (k : Nat) (code : Code) :
    s.PassWork (s.startMeasurement q v d k code) := by constructor <;> rfl

/-- A grant of the arbiter, or none (R104). -/
theorem State.arbitrate_passWork (s : State) : s.PassWork s.arbitrate := by
  unfold State.arbitrate
  split
  · constructor <;> rfl
  · exact .refl s

/-- A request of the pass for the unit (R104, R113). -/
theorem State.requestTrial_passWork (s : State) (x : InService) : s.PassWork (s.requestTrial x) :=
  .trans (t := { s with tune := { s.tune with service := some x, requestWaiting := true } }) (by constructor <;> rfl)
    (State.arbitrate_passWork _)

/-- A destination begins (R111). -/
theorem State.beginDest_passWork (s : State) (v : Voice) (d : Tuned) : s.PassWork (s.beginDest v d) := by
  unfold State.beginDest
  cases d
  · exact .trans (State.setEntry_passWork s _ _) (State.requestTrial_passWork _ _)
  · exact .trans (State.setEntry_passWork s _ _) (State.requestTrial_passWork _ _)
  · exact .trans (State.setEntry_passWork s _ _) (.trans (State.setOverride_passWork _ _ _ _)
      (State.requestTrial_passWork _ _))

/-- A voice taken into service (R110). -/
theorem State.beginService_passWork (s : State) (v : Voice) : s.PassWork (s.beginService v) := by
  unfold State.beginService
  simp only
  split
  · exact .trans (State.setEntry_passWork s _ _) (State.beginDest_passWork _ _ _)
  · exact State.setEntry_passWork s _ _

/-- The end of a pass (R118). -/
theorem State.endPass_passWork (s : State) : s.PassWork s.endPass := by constructor <;> rfl

/-- The choice of the pass's next voice, or its end (R110, R118). -/
theorem State.settlePass_passWork (s : State) : s.PassWork s.settlePass := by
  unfold State.settlePass
  split
  · split
    · exact State.beginService_passWork s _
    · split
      · exact .refl s
      · exact State.endPass_passWork s
  · exact .refl s

/-- A voice whose tail ended joins its pass (R109). -/
theorem State.joinPass_passWork (s : State) (v : Voice) : s.PassWork (s.joinPass v) := by
  unfold State.joinPass State.markEntry
  split
  · exact .trans (State.setEntry_passWork s _ _) (State.settlePass_passWork _)
  · exact .refl s

/-- A voice leaves its pass (R50, R109). -/
theorem State.leavePass_passWork (s : State) (v : Voice) : s.PassWork (s.leavePass v) := by
  unfold State.leavePass State.markEntry
  split
  · exact .trans (State.setEntry_passWork s _ _) (State.settlePass_passWork _)
  · exact .refl s

/-- The check of a voice discarded (R103, R133). -/
theorem State.dropCheck_passWork (s : State) (v : Voice) : s.PassWork (s.dropCheck v) := by
  unfold State.dropCheck
  split
  · exact .refl s
  · split
    · constructor <;> rfl
    · exact .refl s

/-- After a drop of its voice, no check of that voice is in hand (R133). -/
theorem State.dropCheck_check (s : State) (v : Voice) (c : Check) (h : (s.dropCheck v).tune.check = some c) :
    c.voice ≠ v ∧ s.tune.check = some c := by
  unfold State.dropCheck at h
  split at h
  · simp_all
  · split at h
    · simp at h
    · simp_all

/-- A check abandoned (R103, R133). -/
theorem State.abandonCheck_passWork (s : State) (v : Voice) : s.PassWork (s.abandonCheck v) :=
  .trans (State.dropCheck_passWork s v) (State.arbitrate_passWork _)

/-- The overrides of a destination withdrawn (R111). -/
theorem State.withdrawDest_passWork (s : State) (v : Voice) (d : Tuned) : s.PassWork (s.withdrawDest v d) := by
  cases d
  · exact State.setOverride_passWork s _ _ _
  · exact State.setOverride_passWork s _ _ _
  · exact .trans (State.setOverride_passWork s _ _ _) (State.setOverride_passWork _ _ _ _)

/-- The destination in progress discarded (R119, R120). -/
theorem State.dropService_passWork (s : State) : s.PassWork s.dropService := by
  unfold State.dropService
  split
  · exact .refl s
  · refine .trans (t := { s with tune := { s.tune with
      service := none, requestWaiting := false, unit := dropPassUnit s.tune.unit } }) (by constructor <;> rfl) ?_
    exact .trans (State.withdrawDest_passWork _ _ _) (State.setEntry_passWork _ _ _)

/-- `t` is `s` but for voices, stamps, the model's choices, the held quarantine request, and what `PassWork` leaves free. -/
structure State.VoiceWork (s t : State) : Prop where
  zones : t.zones = s.zones
  parts : t.parts = s.parts
  refresh : { t.refresh with overrides := s.refresh.overrides } = s.refresh
  cal : t.tune.cal = s.tune.cal
  plan : t.tune.plan = s.tune.plan
  force : t.tune.force = s.tune.force
  cards : t.cards = s.cards
  panel : t.panel = s.panel
  patches : t.patches = s.patches
  port : t.port = s.port
  notices : { t.notices with tune := s.notices.tune } = s.notices
  settings : t.settings = s.settings
  pending : t.pending = s.pending

theorem State.VoiceWork.refl (s : State) : s.VoiceWork s := by constructor <;> rfl

theorem State.VoiceWork.trans {s t u : State} (h : s.VoiceWork t) (k : t.VoiceWork u) : s.VoiceWork u := by
  obtain ⟨h1, h2, h6, h7, h8, h9, h11, h12, h13, h14, h15, h16, h17⟩ := h
  obtain ⟨k1, k2, k6, k7, k8, k9, k11, k12, k13, k14, k15, k16, k17⟩ := k
  refine ⟨k1.trans h1, k2.trans h2, ?_, k7.trans h7, k8.trans h8, k9.trans h9, k11.trans h11, k12.trans h12,
    k13.trans h13, k14.trans h14, ?_, k16.trans h16, k17.trans h17⟩
  · rw [← h6, ← k6]
  · rw [← h15, ← k15]

theorem State.PassWork.voiceWork {s t : State} (h : s.PassWork t) : s.VoiceWork t :=
  ⟨h.zones, h.parts, h.refresh, h.cal, h.plan, h.force, h.cards, h.panel, h.patches, h.port, h.notices, h.settings, h.pending⟩

/-- A voice record changed. -/
theorem State.modVoice_voiceWork (s : State) (v : Voice) (f : VoiceRec → VoiceRec) : s.VoiceWork (s.modVoice v f) := by
  constructor <;> rfl

/-- A voice enters IDLE (R22). -/
theorem State.enterIdle_voiceWork (s : State) (v : Voice) : s.VoiceWork (s.enterIdle v) := by constructor <;> rfl

/-- The end of a release tail (R38). -/
theorem State.endTail_voiceWork (s : State) (v : Voice) : s.VoiceWork (s.endTail v) := by
  unfold State.endTail
  simp only
  split
  · exact .trans (.trans (State.modVoice_voiceWork s v _) (State.modVoice_voiceWork _ v _))
      (State.joinPass_passWork _ v).voiceWork
  · split
    · exact .trans (State.modVoice_voiceWork s v _) (State.modVoice_voiceWork _ v _)
    · exact .trans (State.modVoice_voiceWork s v _) (State.enterIdle_voiceWork _ v)

/-- A voice becomes RELEASING (R34). -/
theorem State.release_voiceWork (s : State) (v : Voice) : s.VoiceWork (s.release v) := by
  unfold State.release
  simp only
  split <;> (first
    | exact .trans (State.modVoice_voiceWork s v _) (State.endTail_voiceWork _ v)
    | exact State.modVoice_voiceWork s v _
    | (split
       · exact .trans (State.modVoice_voiceWork s v _) (State.endTail_voiceWork _ v)
       · exact State.modVoice_voiceWork s v _))

/-- A voice released without regard to sustain (R36). -/
theorem State.releaseClear_voiceWork (s : State) (v : Voice) : s.VoiceWork (s.releaseClear v) :=
  .trans (State.modVoice_voiceWork s v _) (State.release_voiceWork _ v)

/-- A list of voices, each handled by an operation that does voice work. -/
theorem State.foldl_voiceWork {α : Type} (f : State → α → State) (hf : ∀ (s : State) (x : α), s.VoiceWork (f s x)) (l : List α)
    (s : State) : s.VoiceWork (l.foldl f s) := by
  induction l generalizing s with
  | nil => exact .refl s
  | cons x xs ih => exact .trans (hf s x) (ih (f s x))

/-- An all-off hand-off (R36). -/
theorem State.allocAllOff_voiceWork (s : State) (p : PartNo) : s.VoiceWork (s.allocAllOff p) :=
  State.foldl_voiceWork _ State.releaseClear_voiceWork _ s

/-- A sustain-up hand-off (R36). -/
theorem State.sustainUp_voiceWork (s : State) (p : PartNo) : s.VoiceWork (s.sustainUp p) :=
  State.foldl_voiceWork _ State.releaseClear_voiceWork _ s

/-- The release of a part's voices above its limit (R42). -/
theorem State.reduce_voiceWork (s : State) (p : PartNo) : s.VoiceWork (s.reduce p) :=
  State.foldl_voiceWork _ State.releaseClear_voiceWork _ s

/-- One voice's share of an expiry of the allocator's frame timer (R37 to R40). -/
theorem State.frameVoice_voiceWork (s : State) (v : Voice) : s.VoiceWork (s.frameVoice v) := by
  unfold State.frameVoice
  simp only
  have h1 : s.VoiceWork (s.modVoice v VoiceRec.countFrame) := State.modVoice_voiceWork s v _
  split
  · split
    · exact h1.trans (State.modVoice_voiceWork _ v _)
    · exact h1
  · split
    · exact h1.trans (State.endTail_voiceWork _ v)
    · exact h1
  all_goals exact h1

/-- An assignment (R25, R26): the work of giving up a check (R133), then the voice's record, a new stamp and the part's last
pitch. -/
theorem State.assign_passWork (s : State) (v : Voice) (p : PartNo) (h : HeldKey) (j : Nat) (g : GlideStart) :
    ∃ u, s.PassWork u ∧ s.assign v p h j g =
      { u with
        voices := u.voices.set v ((u.voice v).assigned p h j g (s.part p) (u.stamp + 1) s.settings.stealGap)
        stamp := u.stamp + 1
        parts := u.parts.set p { u.part p with lastPitch := 64 * h.note } } := by
  by_cases hr : (s.voice v).state = .retuning
  · refine ⟨s.abandonCheck v, State.abandonCheck_passWork s v, ?_⟩
    unfold State.assign
    rw [if_pos hr]
    rfl
  · refine ⟨s, .refl s, ?_⟩
    unfold State.assign
    rw [if_neg hr]
    rfl

/-- The removal of a voice (R44): pass work, then the record as ABSENT. -/
theorem State.loseVoice_voiceWork (s : State) (v : Voice) : s.VoiceWork (s.loseVoice v) := by
  unfold State.loseVoice State.markEntry
  simp only
  have h1 : s.VoiceWork (s.dropCheck v) := (State.dropCheck_passWork s v).voiceWork
  have h2 : ∀ t : State, t.VoiceWork { t with tune := { t.tune with heldQuarantine := false } } := fun t => by
    constructor <;> rfl
  split <;> split <;> (try split) <;> first
    | exact h1
    | exact h1.trans (State.setEntry_passWork _ _ _).voiceWork
    | exact (h1.trans (State.dropService_passWork _).voiceWork).trans (h2 _)
    | exact ((h1.trans (State.dropService_passWork _).voiceWork).trans (h2 _)).trans
        (State.setEntry_passWork _ _ _).voiceWork

end Sys2Proof.Machine
end

