-- ==== Sys2Proof/Laws/Keys.lean ====
section
/-! SUPPORT. What the allocator's hand-offs can touch, said once as `KeyWork`: voices, what a tune controller that loses or gains
voices does, and of the part records the last pitch and the interval counts. -/

namespace Sys2Proof.Machine

/-- `t` is `s` but for what `VoiceWork` leaves free and, in the part records, last pitch and interval counts. -/
structure State.KeyWork (s t : State) : Prop where
  zones : t.zones = s.zones
  part : ∀ p, t.part p =
    { s.part p with lastPitch := (t.part p).lastPitch, steals := (t.part p).steals, drops := (t.part p).drops }
  refresh : { t.refresh with overrides := s.refresh.overrides } = s.refresh
  cal : t.tune.cal = s.tune.cal
  plan : t.tune.plan = s.tune.plan
  force : t.tune.force = s.tune.force
  cards : t.cards = s.cards
  panel : t.panel = s.panel
  patches : t.patches = s.patches
  port : t.port = s.port
  notices : { t.notices with tune := s.notices.tune } = s.notices
  settings : t.settings = s.settings
  pending : t.pending = s.pending

theorem State.KeyWork.refl (s : State) : s.KeyWork s := by constructor <;> intros <;> rfl

theorem State.VoiceWork.keyWork {s t : State} (h : s.VoiceWork t) : s.KeyWork t :=
  ⟨h.zones, fun p => by unfold State.part; rw [h.parts], h.refresh, h.cal, h.plan, h.force, h.cards, h.panel, h.patches,
    h.port, h.notices, h.settings, h.pending⟩

theorem State.KeyWork.trans {s t u : State} (h : s.KeyWork t) (k : t.KeyWork u) : s.KeyWork u := by
  refine ⟨k.zones.trans h.zones, fun p => ?_, ?_, k.cal.trans h.cal, k.plan.trans h.plan, k.force.trans h.force,
    k.cards.trans h.cards, k.panel.trans h.panel, k.patches.trans h.patches, k.port.trans h.port, ?_,
    k.settings.trans h.settings, k.pending.trans h.pending⟩
  · have h2 := h.part p
    have k2 := k.part p
    rw [k2, h2]
  · rw [← h.refresh, ← k.refresh]
  · rw [← h.notices, ← k.notices]

/-- The live patch, the held-key list and every other field but three of a part record stand. -/
theorem State.KeyWork.live {s t : State} (h : s.KeyWork t) (p : PartNo) : (t.part p).live = (s.part p).live := by
  rw [h.part p]

theorem State.KeyWork.heldKeys {s t : State} (h : s.KeyWork t) (p : PartNo) : (t.part p).held = (s.part p).held := by
  rw [h.part p]

/-- A part record's last pitch or interval counts changed. -/
theorem State.modPart_keyWork (s : State) (p : PartNo) (f : Part → Part)
    (hf : ∀ q : Part, f q = { q with lastPitch := (f q).lastPitch, steals := (f q).steals, drops := (f q).drops }) :
    s.KeyWork (s.modPart p f) := by
  refine ⟨rfl, fun q => ?_, rfl, rfl, rfl, rfl, rfl, rfl, rfl, rfl, rfl, rfl, rfl⟩
  rw [State.part_modPart]
  split
  · exact hf _
  · rfl

/-- An assignment (R25). -/
theorem State.assign_keyWork (s : State) (v : Voice) (p : PartNo) (h : HeldKey) (j : Nat) (g : GlideStart) :
    s.KeyWork (s.assign v p h j g) := by
  have h1 : s.KeyWork (if (s.voice v).state = .retuning then s.abandonCheck v else s) := by
    split
    · exact (State.abandonCheck_passWork s v).voiceWork.keyWork
    · exact .refl s
  have h2 : ∀ t : State, t.KeyWork t.bump := fun t => by constructor <;> intros <;> rfl
  unfold State.assign
  exact ((h1.trans (h2 _)).trans (State.modVoice_voiceWork _ v _).keyWork).trans
    (State.modPart_keyWork _ p _ fun _ => rfl)

/-- The free-voice step (R28). -/
theorem State.freeStep_keyWork {s t : State} {p : PartNo} {h : HeldKey} {j : Nat} {g : GlideStart} {n : Nat}
    (e : s.freeStep p h j g n = some t) : s.KeyWork t := by
  unfold State.freeStep at e
  split at e
  · obtain ⟨v, -, rfl⟩ := Option.map_eq_some_iff.mp e
    exact State.assign_keyWork s v p h j g
  · cases e

/-- The steal step (R29). -/
theorem State.stealStep_keyWork {s t : State} {p : PartNo} {h : HeldKey} {j : Nat} {g : GlideStart} {n : Nat} {o : Bool}
    (e : s.stealStep p h j g n o = some t) : s.KeyWork t := by
  unfold State.stealStep at e
  obtain ⟨v, -, rfl⟩ := Option.map_eq_some_iff.mp e
  exact (State.assign_keyWork s v p h j g).trans (State.modPart_keyWork _ p _ fun _ => rfl)

/-- The free-voice and steal steps together (R28, R29). -/
theorem State.acquire_keyWork {s t : State} {p : PartNo} {h : HeldKey} {j : Nat} {g : GlideStart} {n : Nat} {o : Bool}
    (e : s.acquire p h j g n o = some t) : s.KeyWork t := by
  unfold State.acquire at e
  cases hf : s.freeStep p h j g n with
  | some u => rw [hf] at e; cases e; exact State.freeStep_keyWork hf
  | none => rw [hf] at e; exact State.stealStep_keyWork e

/-- A dropped key (R30). -/
theorem State.dropKey_keyWork (s : State) (p : PartNo) : s.KeyWork (s.dropKey p) :=
  State.modPart_keyWork s p _ fun _ => rfl

/-- A step that may find no voice, else a dropped key (R30). -/
theorem State.getD_keyWork {s : State} {o : Option State} (p : PartNo) (h : ∀ t, o = some t → s.KeyWork t) :
    s.KeyWork (o.getD (s.dropKey p)) := by
  cases o with
  | some t => exact h t rfl
  | none => exact State.dropKey_keyWork s p

/-- A list of items, each handled by an operation that does key work. -/
theorem State.foldl_keyWork {α : Type} (f : State → α → State) (hf : ∀ (s : State) (x : α), s.KeyWork (f s x)) (l : List α)
    (s : State) : s.KeyWork (l.foldl f s) := by
  induction l generalizing s with
  | nil => exact .refl s
  | cons x xs ih => exact .trans (hf s x) (ih (f s x))

/-- The choice among several carriers (R27). -/
theorem State.pickCarrier_keyWork (s : State) (l : List Voice) : s.KeyWork (s.pickCarrier l).1 := by
  match l with
  | [] => exact .refl s
  | [_] => exact .refl s
  | _ :: _ :: _ => constructor <;> intros <;> rfl

/-- A POLY key-on (R27 to R30). -/
theorem State.polyKeyOn_keyWork (s : State) (p : PartNo) (h : HeldKey) (legato : Bool) :
    s.KeyWork (s.polyKeyOn p h legato) := by
  unfold State.polyKeyOn
  simp only
  split
  · exact (State.pickCarrier_keyWork s _).trans (State.assign_keyWork _ _ p h 0 _)
  · split
    · split
      · exact State.assign_keyWork s _ p h 0 _
      · exact State.getD_keyWork p fun t => State.stealStep_keyWork
    · exact State.getD_keyWork p fun t => State.acquire_keyWork

/-- A note change (R32). -/
theorem State.noteChange_keyWork (s : State) (p : PartNo) (h : HeldKey) : s.KeyWork (s.noteChange p h) := by
  unfold State.noteChange
  simp only
  refine .trans ?_ (State.modPart_keyWork _ p _ fun _ => rfl)
  split
  · exact State.foldl_keyWork _ (fun t v => (State.modVoice_voiceWork t v _).keyWork) _ s
  · exact State.foldl_keyWork _ (fun t v => State.assign_keyWork t v p h _ _) _ s

/-- A note change where the chosen key asks for one (R31, R33). -/
theorem State.followChosen_keyWork (s : State) (p : PartNo) (h e : HeldKey) (v : Voice) :
    s.KeyWork (s.followChosen p h e v) := by
  unfold State.followChosen
  split
  · split
    · exact State.noteChange_keyWork s p e
    · exact .refl s
  · exact State.noteChange_keyWork s p e

/-- A MONO key-on (R31). -/
theorem State.monoKeyOn_keyWork (s : State) (p : PartNo) (h : HeldKey) (legato : Bool) :
    s.KeyWork (s.monoKeyOn p h legato) := by
  unfold State.monoKeyOn
  split
  · exact .refl s
  · split
    · exact State.getD_keyWork p fun t => State.acquire_keyWork
    · exact State.followChosen_keyWork s p h _ _

/-- The acquisition of a unison stack (R33). -/
theorem State.acquireStack_keyWork (p : PartNo) (e : HeldKey) (g : GlideStart) (u : Nat) (js : List Nat) (s : State) :
    s.KeyWork (s.acquireStack p e g u js) := by
  induction js generalizing s with
  | nil => exact .refl s
  | cons j js ih =>
    unfold State.acquireStack
    split
    · exact ih s
    · split
      · exact (State.acquire_keyWork ‹_›).trans (ih _)
      · exact .refl s

/-- Steps 2 and 3 of a UNISON key-on (R33). -/
theorem State.fillStack_keyWork (s : State) (p : PartNo) (e : HeldKey) (g : GlideStart) :
    s.KeyWork (s.fillStack p e g) := by
  have h : s.KeyWork (if s.count p < (s.part p).live.unisonCount then
      s.acquireStack p e g (s.part p).live.unisonCount (List.range (s.part p).live.unisonCount) else s) := by
    split
    · exact State.acquireStack_keyWork p e g _ _ s
    · exact .refl s
  have key : ∀ t : State, s.KeyWork t → s.KeyWork (if t.count p = 0 then t.dropKey p else t) := fun t ht => by
    split
    · exact ht.trans (State.dropKey_keyWork t p)
    · exact ht
  exact key _ h

/-- A UNISON key-on (R33). -/
theorem State.unisonKeyOn_keyWork (s : State) (p : PartNo) (h : HeldKey) (legato : Bool) :
    s.KeyWork (s.unisonKeyOn p h legato) := by
  unfold State.unisonKeyOn
  split
  · exact .refl s
  · simp only
    split
    · exact State.fillStack_keyWork s p _ _
    · exact (State.followChosen_keyWork s p h _ _).trans (State.fillStack_keyWork _ p _ _)

/-- A key-on hand-off (R27, R31, R33). -/
theorem State.allocKeyOn_keyWork (s : State) (p : PartNo) (h : HeldKey) (legato : Bool) :
    s.KeyWork (s.allocKeyOn p h legato) := by
  unfold State.allocKeyOn
  split
  · exact State.polyKeyOn_keyWork s p h legato
  · exact State.monoKeyOn_keyWork s p h legato
  · exact State.unisonKeyOn_keyWork s p h legato

/-- A key-off reaching one voice (R34). -/
theorem State.keyOffVoice_keyWork (s : State) (p : PartNo) (v : Voice) : s.KeyWork (s.keyOffVoice p v) := by
  unfold State.keyOffVoice
  split
  · split
    · exact (State.modVoice_voiceWork s v _).keyWork
    · exact (State.release_voiceWork s v).keyWork
  · exact (State.release_voiceWork s v).keyWork
  all_goals exact .refl s

/-- A key-off hand-off (R34, R35). -/
theorem State.allocKeyOff_keyWork (s : State) (p : PartNo) (h : HeldKey) : s.KeyWork (s.allocKeyOff p h) := by
  have hv : ∀ l : List Voice, s.KeyWork (l.foldl (fun (t : State) v => t.keyOffVoice p v) s) := fun l =>
    State.foldl_keyWork _ (fun t v => State.keyOffVoice_keyWork t p v) l s
  unfold State.allocKeyOff
  split
  · exact hv _
  all_goals
    split
    · split
      · exact State.noteChange_keyWork s p _
      · exact hv _
    · exact .refl s

/-- A re-seat (R41). -/
theorem State.reseat_keyWork (s : State) (p : PartNo) : s.KeyWork (s.reseat p) := by
  have h1 : s.KeyWork (s.allocAllOff p) := (State.allocAllOff_voiceWork s p).keyWork
  unfold State.reseat
  simp only
  split
  · exact h1.trans (State.foldl_keyWork _ (fun t h => State.getD_keyWork p fun u => State.acquire_keyWork) _ _)
  · split
    · exact h1.trans (State.getD_keyWork p fun t => State.acquire_keyWork)
    · exact h1
  · split
    · exact h1.trans (State.fillStack_keyWork _ p _ _)
    · exact h1

/-- What a change of a part's patch does to its voices (R41, R42). -/
theorem State.afterPatch_keyWork (s : State) (p : PartNo) (old : VoiceMode) : s.KeyWork (s.afterPatch p old) := by
  unfold State.afterPatch
  split
  · exact (State.reduce_voiceWork s p).keyWork
  · exact State.reseat_keyWork s p

/-- A free-voice step that may find no voice. -/
theorem State.freeStep_getD_keyWork (s : State) (p : PartNo) (h : HeldKey) (j : Nat) (g : GlideStart) (n : Nat) :
    s.KeyWork ((s.freeStep p h j g n).getD s) := by
  cases e : s.freeStep p h j g n with
  | some t => exact State.freeStep_keyWork e
  | none => exact .refl s

/-- The re-homes of one event (R43). -/
theorem State.reHome_keyWork (s : State) (l : List Assignment) : s.KeyWork (s.reHome l) := by
  refine State.foldl_keyWork _ (fun t a => ?_) l s
  unfold State.reHomeOne
  simp only
  split
  · exact .refl t
  · split
    · exact State.freeStep_getD_keyWork t _ _ _ _ _
    all_goals
      split
      · split
        · exact State.freeStep_getD_keyWork t _ _ _ _ _
        · exact .refl t
      · exact .refl t

/-- A slot-down (R44). -/
theorem State.slotDown_keyWork (s : State) (k : CardNo) : s.KeyWork (s.slotDown k) := by
  unfold State.slotDown
  simp only
  refine .trans (.trans ?_ (State.arbitrate_passWork _).voiceWork.keyWork) (State.reHome_keyWork _ _)
  refine .trans ?_ (State.settlePass_passWork _).voiceWork.keyWork
  exact State.foldl_keyWork _ (fun t v =>
    ((State.loseVoice_voiceWork t v).trans (State.modVoice_voiceWork _ v _)).keyWork) _ s

end Sys2Proof.Machine
end

