-- ==== Sys2Proof/Laws/PerInstr.lean ====
section
/-! SUPPORT. A statement about every command as syntax, one lemma per constructor: a well-formed host command's payload has a
length that the catalogue allows (R190). -/

namespace Sys2Proof.Laws.Catalogue

/-- The payload of a well-formed command, where it has one, has a length that the catalogue allows for its code. -/
def Statement (i : Instr) : Prop :=
  i.wellFormed = true → ∀ r, i.request = some r → lengthAllowed r.1.toNat r.2.length = true

/-- The events of a PLAY are four bytes each. -/
theorem length_eventBytes (es : List RawEvent) : (es.flatMap RawEvent.bytes).length = 4 * es.length := by
  induction es with
  | nil => rfl
  | cons e es ih => rw [List.flatMap_cons, List.length_append, ih, List.length_cons]; simp [RawEvent.bytes]; omega

theorem play (events : List RawEvent) : Statement (.play events) := by
  intro h r hr
  simp only [Instr.wellFormed, decide_eq_true_eq] at h
  simp only [Instr.request, Option.some.injEq] at hr
  subst hr
  simp only [length_eventBytes, lengthAllowed, show (1 : Byte).toNat = 1 from rfl]
  simp only [Bool.and_eq_true, beq_iff_eq, decide_eq_true_eq]
  omega

theorem writeCal (voice : Byte) (record : List Byte) : Statement (.writeCal voice record) := by
  intro h r hr
  simp only [Instr.wellFormed, decide_eq_true_eq] at h
  simp only [Instr.request, Option.some.injEq] at hr
  subst hr
  simp [lengthAllowed, h]

theorem writeParam (part field : Byte) (value : List Byte) : Statement (.writeParam part field value) := by
  intro h r hr
  simp only [Instr.wellFormed, decide_eq_true_eq] at h
  simp only [Instr.request, Option.some.injEq] at hr
  subst hr
  rcases h with h | h <;> simp [lengthAllowed, h]

theorem ackNotices (mode : Byte) (fields : List Byte) : Statement (.ackNotices mode fields) := by
  intro h r hr
  simp only [Instr.wellFormed, decide_eq_true_eq] at h
  simp only [Instr.request, Option.some.injEq] at hr
  subst hr
  rcases h with h | ⟨h, -⟩ <;> simp [lengthAllowed, h]

theorem powerOnReset (detect : BitVec 8) : Statement (.powerOnReset detect) := by
  intro _ r hr
  cases hr

theorem requestFrame (bytes : List Byte) : Statement (.requestFrame bytes) := by
  intro _ r hr
  cases hr

theorem emptyTransaction : Statement .emptyTransaction := by
  intro _ r hr
  cases hr

theorem responseFetch (clocked : Nat) : Statement (.responseFetch clocked) := by
  intro _ r hr
  cases hr

theorem keyOn (channel key velocity : Byte) : Statement (.keyOn channel key velocity) := by
  intro _ r hr
  cases hr

theorem keyOff (channel key : Byte) : Statement (.keyOff channel key) := by
  intro _ r hr
  cases hr

theorem sustain (part position : Byte) : Statement (.sustain part position) := by
  intro _ r hr
  cases hr

theorem bend (part : Byte) (value : BitVec 16) : Statement (.bend part value) := by
  intro _ r hr
  cases hr

theorem allOff (part : Byte) : Statement (.allOff part) := by
  intro _ r hr
  cases hr

theorem allocatorFrameExpiry : Statement .allocatorFrameExpiry := by
  intro _ r hr
  cases hr

theorem stealGapEnd (v : Voice) : Statement (.stealGapEnd v) := by
  intro _ r hr
  cases hr

theorem releaseTailEnd (v : Voice) : Statement (.releaseTailEnd v) := by
  intro _ r hr
  cases hr

theorem glideEnd (v : Voice) : Statement (.glideEnd v) := by
  intro _ r hr
  cases hr

theorem intervalTimerExpiry : Statement .intervalTimerExpiry := by
  intro _ r hr
  cases hr

theorem setZone (zone enabled source lowKey highKey lowVel highVel part transpose : Byte) : Statement (.setZone zone enabled source lowKey highKey lowVel highVel part transpose) := by
  intro _ r hr
  cases hr
  rfl

theorem readZone (zone : Byte) : Statement (.readZone zone) := by
  intro _ r hr
  cases hr
  rfl

theorem setPart (part reserve fineTune panelBend : Byte) : Statement (.setPart part reserve fineTune panelBend) := by
  intro _ r hr
  cases hr
  rfl

theorem readPart (part : Byte) : Statement (.readPart part) := by
  intro _ r hr
  cases hr
  rfl

theorem readVoice (voice : Byte) : Statement (.readVoice voice) := by
  intro _ r hr
  cases hr
  rfl

theorem voiceOnline (voice : Byte) : Statement (.voiceOnline voice) := by
  intro _ r hr
  cases hr
  rfl

theorem voiceOffline (voice : Byte) : Statement (.voiceOffline voice) := by
  intro _ r hr
  cases hr
  rfl

theorem releaseQuarantine (voice : Byte) : Statement (.releaseQuarantine voice) := by
  intro _ r hr
  cases hr
  rfl

theorem clearFails (voice : Byte) : Statement (.clearFails voice) := by
  intro _ r hr
  cases hr
  rfl

theorem tune (voices : BitVec 16) (dests force : Byte) : Statement (.tune voices dests force) := by
  intro _ r hr
  cases hr
  rfl

theorem tuneAbort : Statement .tuneAbort := by
  intro _ r hr
  cases hr
  rfl

theorem readTune : Statement .readTune := by
  intro _ r hr
  cases hr
  rfl

theorem setTunePlan (pitchLo pitchHi cutoffLo cutoffHi : Byte) : Statement (.setTunePlan pitchLo pitchHi cutoffLo cutoffHi) := by
  intro _ r hr
  cases hr
  rfl

theorem readCal (voice : Byte) : Statement (.readCal voice) := by
  intro _ r hr
  cases hr
  rfl

theorem setMonitor (selector dest : Byte) : Statement (.setMonitor selector dest) := by
  intro _ r hr
  cases hr
  rfl

theorem readMonitor : Statement .readMonitor := by
  intro _ r hr
  cases hr
  rfl

theorem cardPower (slot power : Byte) : Statement (.cardPower slot power) := by
  intro _ r hr
  cases hr
  rfl

theorem readCards : Statement .readCards := by
  intro _ r hr
  cases hr
  rfl

theorem setChannel (channel role mode notify : Byte) : Statement (.setChannel channel role mode notify) := by
  intro _ r hr
  cases hr
  rfl

theorem readChannel (channel : Byte) : Statement (.readChannel channel) := by
  intro _ r hr
  cases hr
  rfl

theorem setFocus (part : Byte) : Statement (.setFocus part) := by
  intro _ r hr
  cases hr
  rfl

theorem setPanel (shift deadband : Byte) : Statement (.setPanel shift deadband) := by
  intro _ r hr
  cases hr
  rfl

theorem readChanges (maximum : Byte) : Statement (.readChanges maximum) := by
  intro _ r hr
  cases hr
  rfl

theorem store (part : Byte) (location : BitVec 16) : Statement (.store part location) := by
  intro _ r hr
  cases hr
  rfl

theorem readLive (part : Byte) : Statement (.readLive part) := by
  intro _ r hr
  cases hr
  rfl

theorem cacheLock (mode : Byte) (location : BitVec 16) : Statement (.cacheLock mode location) := by
  intro _ r hr
  cases hr
  rfl

theorem cacheUnlock (location : BitVec 16) : Statement (.cacheUnlock location) := by
  intro _ r hr
  cases hr
  rfl

theorem readCache : Statement .readCache := by
  intro _ r hr
  cases hr
  rfl

theorem readNotices : Statement .readNotices := by
  intro _ r hr
  cases hr
  rfl

theorem ackNoticesSetEnables (kinds : Byte) : Statement (.ackNoticesSetEnables kinds) := by
  intro _ r hr
  cases hr
  rfl

theorem readDevice : Statement .readDevice := by
  intro _ r hr
  cases hr
  rfl

theorem setDevice (number : Byte) (value : BitVec 32) : Statement (.setDevice number value) := by
  intro _ r hr
  cases hr
  rfl

theorem softReset : Statement .softReset := by
  intro _ r hr
  cases hr
  rfl

theorem channelSlotExpiry : Statement .channelSlotExpiry := by
  intro _ r hr
  cases hr

theorem roundCompletion : Statement .roundCompletion := by
  intro _ r hr
  cases hr

theorem detectEdge (slot : CardNo) (line : DetectLine) (closed : Bool) : Statement (.detectEdge slot line closed) := by
  intro _ r hr
  cases hr

theorem slotFrameExpiry (ready : BitVec 4) : Statement (.slotFrameExpiry ready) := by
  intro _ r hr
  cases hr

theorem debounceTaken (slot : CardNo) : Statement (.debounceTaken slot) := by
  intro _ r hr
  cases hr

theorem readyTimeout (slot : CardNo) : Statement (.readyTimeout slot) := by
  intro _ r hr
  cases hr

theorem tuneFrameExpiry : Statement .tuneFrameExpiry := by
  intro _ r hr
  cases hr

theorem settleEnd : Statement .settleEnd := by
  intro _ r hr
  cases hr

theorem tuneLineEdge (elapsed : Nat) : Statement (.tuneLineEdge elapsed) := by
  intro _ r hr
  cases hr

theorem measurementComplete (m : Nat) : Statement (.measurementComplete m) := by
  intro _ r hr
  cases hr

theorem noSignal : Statement .noSignal := by
  intro _ r hr
  cases hr

theorem tooSlow : Statement .tooSlow := by
  intro _ r hr
  cases hr

theorem scanSlotExpiry (adc : Val12) : Statement (.scanSlotExpiry adc) := by
  intro _ r hr
  cases hr

theorem storelinkFrameExpiry (status : Byte) : Statement (.storelinkFrameExpiry status) := by
  intro _ r hr
  cases hr

theorem flashTimeout : Statement .flashTimeout := by
  intro _ r hr
  cases hr

theorem fetchReadComplete (bytes : List Byte) : Statement (.fetchReadComplete bytes) := by
  intro _ r hr
  cases hr

theorem verifyComplete (bytes : List Byte) : Statement (.verifyComplete bytes) := by
  intro _ r hr
  cases hr

theorem chipSelectFall : Statement .chipSelectFall := by
  intro _ r hr
  cases hr

theorem recallPart (part : Byte) (location : BitVec 16) : Statement (.recallPart part location) := by
  intro _ r hr
  cases hr
  rfl

end Sys2Proof.Laws.Catalogue
end

