-- ==== Sys2Proof/Laws/Port.lean ====
section
/-! SUPPORT. The command port: what the handing of a request and the taking of a frame do, said once (R183 to R187). -/

namespace Sys2Proof.Machine

/-- The request in hand is served by its block (R187). -/
theorem hostCommand_of_inHand {c : Instr} {s : State} (h : s.inHand = some c) (serve : State → State) :
    hostCommand c serve s = serve s := by
  unfold hostCommand
  rw [if_pos h]

/-- A command that is no request of the host and not in hand changes nothing through the port. -/
theorem hostCommand_of_no_frame {c : Instr} {s : State} (h : s.inHand ≠ some c) (hf : c.frame = none)
    (serve : State → State) : hostCommand c serve s = s := by
  unfold hostCommand
  rw [if_neg h, hf]

/-- A command not in hand sends its frame, and is served where the port keeps it (log entry 1). -/
theorem hostCommand_of_frame {c : Instr} {s : State} {bytes : List Byte} (h : s.inHand ≠ some c)
    (hf : c.frame = some bytes) (serve : State → State) :
    hostCommand c serve s =
      if (s.takeFrame bytes).inHand = some c then serve (s.takeFrame bytes) else s.takeFrame bytes := by
  unfold hostCommand
  rw [if_neg h, hf]

/-- A request is in hand only while the port is EXECUTING (R184). -/
theorem State.executing_of_inHand {c : Instr} {s : State} (h : s.inHand = some c) : s.port.state = .executing := by
  unfold State.inHand at h
  split at h <;> simp_all

/-- The request in hand is what its frame reads as (R185, R190). -/
theorem State.commandOfFrame_of_inHand {c : Instr} {s : State} (h : s.inHand = some c) :
    commandOfFrame s.port.request = some c := by
  unfold State.inHand at h
  split at h <;> simp_all

/-- A frame changes the port and may post LINK, and nothing else (R185, R186). -/
theorem State.takeFrame_frame (s : State) (bytes : List Byte) :
    s.takeFrame bytes = { s with
      port := (s.takeFrame bytes).port, notices := { s.notices with link := (s.takeFrame bytes).notices.link } } := by
  unfold State.takeFrame
  simp only
  split
  · split <;> rfl
  · rfl
  · rfl

/-- At a READY port a frame that passes the form checks is kept (R185). -/
theorem State.takeFrame_kept {s : State} {bytes : List Byte} (h : s.port.state = .ready) (hf : formCheck bytes = none) :
    s.takeFrame bytes = (s.endTransaction (List.replicate bytes.length 0xFF)).keepFrame bytes := by
  unfold State.takeFrame
  rw [h, hf]

/-- At a READY port a frame that fails a form check is answered with its status (R185). -/
theorem State.takeFrame_refused {s : State} {bytes : List Byte} {x : Status} (h : s.port.state = .ready)
    (hf : formCheck bytes = some x) :
    s.takeFrame bytes = (s.endTransaction (List.replicate bytes.length 0xFF)).refuse x := by
  unfold State.takeFrame
  rw [h, hf]

/-- At a busy port a frame is an overrun (R186). -/
theorem State.takeFrame_overrun {s : State} {bytes : List Byte} (h : s.port.state ≠ .ready) :
    s.takeFrame bytes = (s.endTransaction (List.replicate bytes.length 0xFF)).postLink := by
  unfold State.takeFrame
  simp only
  split <;> simp_all

/-- The kept frame's request is in hand (R185, R187). -/
theorem State.inHand_keepFrame (s : State) (bytes : List Byte) : (s.keepFrame bytes).inHand = commandOfFrame bytes := rfl

/-- An answer placed, as the statements write it (R187). -/
theorem State.answer_eq (s : State) (x : Status) (y : List Byte) : s.answer x y = s.onlyAnswered x y := rfl

/-- A refusal, as the statements write it (R189). -/
theorem State.refuse_eq (s : State) (x : Status) : s.refuse x = s.onlyAnswered x [] := rfl

/-- A response fetch leaves everything but the port, unless it collects a soft reset's answer (R188, R193). -/
theorem State.fetch_frame (s : State) (n : Nat) (h : s.port.resetRequest = false) :
    s.fetch n = { s with port := (s.fetch n).port } := by
  unfold State.fetch
  simp only [h]
  split <;> rfl

/-- An index found is below its bound, and is the byte's value. -/
theorem index?_eq_some {n b : Nat} {i : Fin n} : index? n b = some i ↔ b = i.val := by
  unfold index?
  split
  · rename_i h
    simp only [Option.some.injEq]
    exact ⟨fun e => by rw [← e], fun e => Fin.ext e⟩
  · rename_i h
    simp only [reduceCtorEq, false_iff]
    exact fun e => h (e ▸ i.isLt)

/-- No index is found from the bound on. -/
theorem index?_eq_none {n b : Nat} : index? n b = none ↔ n ≤ b := by
  unfold index?
  split <;> simp <;> omega

end Sys2Proof.Machine
end

