-- ==== Sys2Proof/Laws/Tables.lean ====
section
/-! SUPPORT. The panel scanner and the patch manager: what their shared operations can touch, said once (R142 to R182). -/

namespace Sys2Proof.Machine

/-- An arming replaces channel records and nothing else (R149). -/
theorem State.armWhere_frame (s : State) (pick : ChannelNo → Bool) :
    s.armWhere pick = { s with panel := { s.panel with channels := (s.armWhere pick).panel.channels } } := rfl

/-- A channel after an arming: armed where it was picked (R149). -/
theorem State.channel_armWhere (s : State) (pick : ChannelNo → Bool) (c : ChannelNo) :
    (s.armWhere pick).channel c = if pick c then (s.channel c).arm s.focusPatch else s.channel c := by
  simp [State.armWhere, State.channel]

/-- An arming leaves everything but pickup state and arm pending (R149). -/
theorem Channel.arm_frame (r : Channel) (live : Patch) :
    r.arm live = { r with pickup := (r.arm live).pickup, armPending := (r.arm live).armPending } := by
  unfold Channel.arm
  split
  · unfold Channel.armed
    split <;> rfl
  · rfl

/-- An entry enters the change list, and every other channel's entry stays (R152). -/
theorem mem_noteChangeIn (l : List Change) (e : Change) : e ∈ noteChangeIn l e := by
  unfold noteChangeIn
  split
  · rename_i h
    obtain ⟨x, hx, hc⟩ := List.any_eq_true.mp h
    exact List.mem_map.mpr ⟨x, hx, by rw [if_pos (by simpa using hc)]⟩
  · simp

/-- The list keeps at most one entry for each channel (R152). -/
theorem noteChangeIn_pairwise (l : List Change) (e : Change) (h : l.Pairwise fun a b => a.channel ≠ b.channel) :
    (noteChangeIn l e).Pairwise fun a b => a.channel ≠ b.channel := by
  unfold noteChangeIn
  split
  · refine List.pairwise_map.mpr (h.imp ?_)
    intro a b hab
    by_cases ha : a.channel = e.channel <;> by_cases hb : b.channel = e.channel <;> simp_all
  · rename_i hn
    refine List.pairwise_append.mpr ⟨h, by simp, ?_⟩
    intro a ha b hb
    simp only [List.mem_singleton] at hb
    subst hb
    intro hc
    exact hn (List.any_eq_true.mpr ⟨a, ha, by simpa using hc⟩)

/-- A touch changes ranks and nothing else of the slots (R165). -/
theorem State.cache_touchCache (s : State) (c d : CacheNo) :
    (s.touchCache c).cache d = { s.cache d with
      rank := if d = c then 0 else if (s.cache d).rank < (s.cache c).rank then (s.cache d).rank + 1 else (s.cache d).rank } := by
  have e : (s.touchCache c).cache d = if d = c then { s.cache d with rank := 0 }
      else if (s.cache d).rank < (s.cache c).rank then { s.cache d with rank := (s.cache d).rank + 1 }
      else s.cache d := by simp [State.touchCache, State.cache]
  rw [e]
  by_cases h : d = c
  · simp [h]
  · by_cases h' : (s.cache d).rank < (s.cache c).rank <;> simp [h, h']

/-- A touch leaves everything but the slots (R165). -/
theorem State.touchCache_frame (s : State) (c : CacheNo) :
    s.touchCache c = { s with patches := { s.patches with slots := (s.touchCache c).patches.slots } } := rfl

/-- A slot that becomes EMPTY keeps its rank (R164). -/
theorem State.cache_emptyCache (s : State) (c d : CacheNo) :
    (s.emptyCache c).cache d = if c = d then ⟨.empty, none, none, (s.cache d).rank, false, 0⟩ else s.cache d := by
  unfold State.emptyCache
  rw [State.cache_setCache]
  split
  · rename_i h; subst h; rfl
  · rfl

/-- The start of the head's job changes the head's step and the transactions sent (R168, R172). -/
theorem State.startHead_frame (s : State) :
    s.startHead = { s with patches := { s.patches with head := s.startHead.patches.head, sent := s.startHead.patches.sent } } := by
  unfold State.startHead
  split
  · rfl
  · simp only
    split
    · rfl
    · rename_i j _ _ _
      cases j <;> rfl

/-- A head has a step exactly where there is one (R168). -/
theorem State.startHead_isSome (s : State) : s.startHead.patches.head.isSome ↔ s.patches.queue ≠ [] := by
  unfold State.startHead
  split
  · rename_i h; simp [State.setHead, h]
  · rename_i j js h
    simp only [h]
    split
    · simp [State.setHead]
    · cases j <;> simp [State.passReady, State.setHead]

end Sys2Proof.Machine
end

