-- ==== Sys2Proof/Tests/Slice0.lean ====
section
/-! SUPPORT. Tests: what well-formedness refuses, the spec's own worked values, and for every statement of
Certificates/Slice0/Obligations.lean states and operands that meet its hypotheses, clause by clause. Expected values come from
spec/ as each test says. -/

namespace Sys2Proof.Tests

open Sys2Proof.Machine

-- The theorems below are checked one after another: in parallel their evaluations ask for the memory of all of them at once.
set_option Elab.async false

/-! ### Well-formedness: an ill-formed term for each check -/

theorem test_requestFrame_needs_a_first_byte : (Instr.requestFrame []).wellFormed = false := by decide
theorem test_requestFrame_first_byte_is_not_zero : (Instr.requestFrame [0, 1]).wellFormed = false := by decide
theorem test_responseFetch_clocks_a_byte : (Instr.responseFetch 0).wellFormed = false := by decide
theorem test_play_has_an_event : (Instr.play []).wellFormed = false := by decide
theorem test_play_has_at_most_sixteen : (Instr.play (List.replicate 17 ⟨1, 0, 60, 100⟩)).wellFormed = false := by decide
theorem test_writeCal_has_78_bytes : (Instr.writeCal 0 (List.replicate 77 0)).wellFormed = false := by decide
theorem test_writeParam_has_2_or_12 : (Instr.writeParam 0 0 [0, 0, 0]).wellFormed = false := by decide
theorem test_cacheLock_mode_0_is_an_unlock : (Instr.cacheLock 0 5).wellFormed = false := by decide
theorem test_ackNotices_mode_1_sets_enables : (Instr.ackNotices 1 [0xFF]).wellFormed = false := by decide
theorem test_fetchRead_has_74_bytes : (Instr.fetchReadComplete (List.replicate 73 0)).wellFormed = false := by decide
theorem test_verify_has_256_bytes : (Instr.verifyComplete (List.replicate 74 0)).wellFormed = false := by decide +kernel

/-! ### Frames of the catalogue (R183, R185, R190) -/

/-- VOICE_ONLINE of V5 is code 7 with one payload byte (10.3). -/
theorem test_frame_voiceOnline : commandOfFrame [7, 1, 5] = some (.voiceOnline 5) := by decide

/-- RECALL of location 300 into part 2: multi-byte values go high byte first (R183). -/
theorem test_frame_recall : commandOfFrame [26, 3, 2, 0x01, 0x2C] = some (.recallPart 2 300) := by decide

/-- PLAY with one KEY_ON and one BEND, four bytes each (10.5). -/
theorem test_frame_play :
    commandOfFrame [1, 8, 1, 0, 60, 100, 4, 1, 0xF0, 0x00] = some (.play [⟨1, 0, 60, 100⟩, ⟨4, 1, 0xF0, 0⟩]) := by
  decide

/-- SET_DEVICE of setting 15 to 1,956,995 = 0x1DDC83 (R191). -/
theorem test_frame_setDevice :
    commandOfFrame [35, 5, 15, 0x00, 0x1D, 0xDC, 0x83] = some (.setDevice 15 1956995) := by decide

/-- A code above 36 is BAD_COMMAND whatever its length; a length byte above 240 is BAD_LENGTH (R185). -/
theorem test_form_checks :
    formCheck [37, 9] = some .badCommand ∧ formCheck [3, 241] = some .badLength ∧ formCheck [3, 1, 0] = none := by decide

/-! ### The spec's worked values -/

/-- R173: over the nine characters 1 to 9 the CRC gives 0x29B1. -/
theorem test_crc : crc [0x31, 0x32, 0x33, 0x34, 0x35, 0x36, 0x37, 0x38, 0x39] = 0x29B1 := by decide +kernel

/-- 6.2, Converging one breakpoint: CPO_est 5460, COUNT 124,100 against 122,312 gives Δ = 115. -/
theorem test_correction : correction 5460 124100 122312 = 115 := by decide

/-- 7.3, One check of VCO-A: CPO_est 5575, COUNT 122,600 gives Δ = 19. -/
theorem test_check_correction : correction 5575 122600 122312 = 19 := by decide

/-- 6.2: at the defaults, breakpoint 5 has a window of 2 cycles and a target count of 122,312. -/
theorem test_target : window 4 5 = 2 ∧ targetCount 1956995 4 5 = 122312 := by decide

/-- 6.2: 1,788 ticks off is outside tolerance 38 at that target, 18 ticks is inside. -/
theorem test_tolerance : withinTolerance 124100 122312 38 = false ∧ withinTolerance 122330 122312 38 = true := by decide

/-- The working entry of 6.3, Rebuilding a destination. -/
def rebuildWork : Working where
  codes := #v[0, 5560, 11020, 16480, 21940, 27515, 32766, 38600, 44180, 49790, 54610, 60071]
  counts := #v[none, some 1, some 1, some 1, some 1, some 122330, none, some 1, some 1, some 1, none, none]
  lo := 1
  hi := 9
  bp := 9
  iter := 1
  trial := 49790

/-- 6.3, Rebuilding a destination: C[0], C[6], C[10] and C[11], PARTIAL, and the baseline 122,330 (R115, R116). -/
theorem test_rebuild :
    rebuildWork.rebuilt 0 = 100 ∧ rebuildWork.rebuilt 6 = 33057 ∧ rebuildWork.rebuilt 10 = 55400
      ∧ rebuildWork.rebuilt 11 = 61010 ∧ (rebuildWork.commit .a 5).status = .part
      ∧ (rebuildWork.commit .a 5).baseline = some 122330 := by decide +kernel

/-- 3.7: fraction 74 of segment 5 between 24000 and 30000 gives 24578, and with drift +37 the code 24615. -/
theorem test_interpolate :
    tunedCode #v[0, 0, 0, 0, 0, 24000, 30000, 0, 0, 0, 0, 0] 3914 37 = ⟨24615, 3914, some 5, some 74, false⟩ := by decide

/-- 3.7: interval, detune and track of destination 1 and 2, and the direct and velocity codes. -/
theorem test_pitch_terms :
    bendOffset 4096 2 = 64 ∧ interval 2700 = 8 ∧ detune 2000 = -2 ∧ track 3072 3840 = 0 ∧ (scaled 3000).code = 48011
      ∧ (scaled 1000).code = 16003 := by decide

/-- 1.6: rounding half away from zero. -/
theorem test_rounding : roundHalfAway 3 2 = 2 ∧ roundHalfAway (-3) 2 = -2 ∧ roundHalfAway 1 3 = 0 := by decide

/-- 8.3, A knob moved and settled: the first and the eleventh conversion at shift 2. -/
theorem test_filter : filterStep 16000 1100 2 = 16400 ∧ filterStep 17508 1100 2 = 17531 ∧ filterStep 17597 1100 2 = 17597 := by
  decide

/-- R145: the centre band and both ends of the wheel. -/
theorem test_bend : bendOf 2024 = 0 ∧ bendOf 2072 = 0 ∧ bendOf 0 = -8192 ∧ bendOf 4095 = 8188 := by decide

/-- R22: a stamp is older than another where the signed difference is negative, across the wrap too. -/
theorem test_older : older 3 5 = true ∧ older 5 3 = false ∧ older 0xFFFFFFFF 2 = true := by decide

/-- R195: the lengths of READ_CARDS and READ_NOTICES (10.5). -/
theorem test_lengths : (cardsAnswer State.reset).length = 47 ∧ (noticesAnswer State.reset).length = 13 := by decide

/-! ### States that meet the statements' hypotheses -/

/-- The reset state with a request frame in hand. -/
def asked (bytes : List Byte) : State := State.reset.keepFrame bytes

/-- A state with an answer held and its fetch still to come. -/
def held : State := State.reset.onlyAnswered .ok [7]

/-- A state with voice 0's record replaced. -/
def withVoice0 (s : State) (r : VoiceRec) : State := s.setVoice 0 r

/-- An assignment of part 0 through zone 0: channel 0, key 60. -/
def asg60 : Assignment := ⟨0, 0, 0, 60, 60, 100, 1, false, 0⟩

/-- A voice record in a service state, with an assignment where the state has one. -/
def voiceIn (x : Service) : VoiceRec :=
  { VoiceRec.reset with state := x, asg := if x = .sounding ∨ x = .releasing ∨ x = .stealGap then some asg60 else none }

/-- A measurement with a target count of 10 ticks. -/
def measure (q : Requester) (x : Phase) : Measurement := ⟨q, 0, .a, 5, 100, 2, 10, 5, x⟩

/-- A state with a measurement in progress. -/
def measuring (q : Requester) (x : Phase) : State :=
  { State.reset with tune := { State.reset.tune with unit := some (measure q x) } }

/-- A state with a check in hand of voice 0's VCO-A. -/
def checking (x : Phase) : State :=
  { measuring .check x with tune := { (measuring .check x).tune with check := some ⟨0, .a, 5, 100, 10⟩ } }

/-- A state with voice 0 in service for VCO-A at breakpoint `bp`. -/
def serving (bp : Nat) (x : Phase) : State :=
  { measuring .pass x with tune := { (measuring .pass x).tune with
      outcome := .running
      service := some ⟨0, .a, { Working.begin CalEntry.reset (1, 9) with bp := bp, trial := 100 }⟩ } }

/-- A state with slot A's record replaced. -/
def withCardA (c : Card) : State := State.reset.setCard 0 c

/-- A slot record in a state, both lines closed, with a debounce count. -/
def cardIn (x : CardState) (debounce : Nat) : Card := { Card.reset true true with state := x, debounce := debounce }

/-- A state with cache slot 0 VALID and holding the default patch of location 200. -/
def cached (s : State) : State := s.setCache 0 ⟨.valid, some 200, some .default, 0, false, 0⟩

/-- A state that is fetching location 200 into cache slot 0. -/
def fetching (s : State) (x : JobStep) : State :=
  { s.setCache 0 ⟨.filling, some 200, none, 0, false, 0⟩ with
    patches := { (s.setCache 0 ⟨.filling, some 200, none, 0, false, 0⟩).patches with
      queue := [.fetch 200 0 0 false], head := some x } }

/-- A state that is storing location 200 from cache slot 0. -/
def storing (s : State) (x : JobStep) : State :=
  { s.setCache 0 ⟨.valid, some 200, some .default, 0, false, 1⟩ with
    patches := { (s.setCache 0 ⟨.valid, some 200, some .default, 0, false, 1⟩).patches with
      queue := [.store 200 0 0 0 true], head := some x } }

/-- A state with channel 0, the first of the round, replaced. -/
def withChannel0 (s : State) (r : Channel) : State := s.setChannel 0 r

/-- A state with zone 0 open to every key of channel 0, sounding part 0. -/
def zoned : State := State.reset.setZone 0 ⟨true, some 0, 0, 127, 1, 127, 0, 0⟩

/-! ### Witnesses: the link -/

theorem witness_StepRunsTheFrontCommand :
    (State.reset.withPending [.emptyTransaction]).pending = .emptyTransaction :: [] := rfl

/-- The command answers a next state for which `f` says yes. -/
def nextHas (c : Instr) (s : State) (f : State → Bool) : Bool :=
  match exec c s with
  | .next t => f t
  | .fault _ => false
  | .refused _ => false

theorem witness_IdleStepTicksTheMeasurement :
    (State.reset.pending = [] ∧ State.reset.tune.unit = none)
      ∧ ((measuring .check .waitWrite).pending = [] ∧ (measuring .check .waitWrite).tune.unit = some (measure .check .waitWrite))
      ∧ (measuring .check (.settling 1)).tune.unit = some (measure .check (.settling 1))
      ∧ ((measuring .check (.waitEdge 38)).tune.unit = some (measure .check (.waitEdge 38)) ∧ 38 + 1 < 4 * 10)
      ∧ ((measuring .check (.waitEdge 39)).tune.unit = some (measure .check (.waitEdge 39)) ∧ 4 * 10 ≤ 39 + 1)
      ∧ ((measuring .check (.counting 18 0)).tune.unit = some (measure .check (.counting 18 0)) ∧ 18 + 1 < 2 * 10)
      ∧ ((measuring .check (.counting 19 1)).tune.unit = some (measure .check (.counting 19 1)) ∧ 2 * 10 ≤ 19 + 1) :=
  ⟨⟨rfl, rfl⟩, ⟨rfl, rfl⟩, rfl, ⟨rfl, by decide⟩, ⟨rfl, by decide⟩, ⟨rfl, by decide⟩, ⟨rfl, by decide⟩⟩

theorem witness_RequestFrameReadsBack :
    (Instr.readZone 255).wellFormed = true ∧ (Instr.readZone 255).frame = some [3, 1, 255]
      ∧ (Instr.cacheLock 1 511).wellFormed = true ∧ (Instr.cacheLock 1 511).frame = some [30, 3, 1, 1, 255] := by decide

theorem witness_FormChecksPassExactlyTheCatalogue :
    frameShape [3, 1, 0] = true ∧ formCheck [3, 1, 0] = none ∧ frameShape [255] = true ∧ formCheck [255] ≠ none := by decide

theorem witness_RequestFrameIsCheckedOrOverrun :
    ((37 : Byte) ≠ 0 ∧ State.reset.port.state = .ready ∧ 37 ≤ (37 : Byte).toNat)
      ∧ ((36 : Byte) ≠ 0 ∧ (36 : Byte).toNat < 37 ∧ lengthAllowed (36 : Byte).toNat 1 = false)
      ∧ ((1 : Byte) ≠ 0 ∧ (1 : Byte).toNat < 37 ∧ lengthAllowed (1 : Byte).toNat 64 = true)
      ∧ held.port.state ≠ .ready := by decide

theorem witness_HostCommandNotInHandSendsItsFrame :
    ((Instr.readZone 0).wellFormed = true ∧ (Instr.readZone 0).frame = some [3, 1, 0] ∧ State.reset.port.state = .ready)
      ∧ (held.port.state ≠ .ready ∧ held.inHand ≠ some (.readZone 0)) := by decide

theorem witness_EveryRequestInHandIsAnswered : (asked [36, 0]).inHand = some .softReset := by decide

theorem witness_RefusedCommandChangesNothing :
    (asked [3, 1, 8]).inHand = some (.readZone 8)
      ∧ exec (.readZone 8) (asked [3, 1, 8]) = .next ((asked [3, 1, 8]).onlyAnswered .badValue [])
      ∧ ((asked [3, 1, 8]).onlyAnswered .badValue []).port.response = some ⟨.badValue, []⟩
      ∧ 2 ≤ Status.badValue.code.toNat ∧ Status.badValue.code.toNat ≤ 8 := by
  refine ⟨by decide, rfl, rfl, by decide, by decide⟩

theorem witness_AnswersHaveOneLayout :
    (asked [3, 1, 7]).heldFit ∧ (asked [3, 1, 7]).queueFit ∧ (asked [3, 1, 7]).changesRight
      ∧ (asked [3, 1, 7]).inHand = some (.readZone 7)
      ∧ exec (.readZone 7) (asked [3, 1, 7]) = .next ((asked [3, 1, 7]).onlyAnswered .ok Zone.reset.bytes)
      ∧ ((asked [3, 1, 7]).onlyAnswered .ok Zone.reset.bytes).port.response = some ⟨.ok, Zone.reset.bytes⟩ := by
  refine ⟨?_, ?_, ?_, by decide, rfl, rfl⟩
  · unfold State.heldFit; decide
  · unfold State.queueFit; decide
  · unfold State.changesRight; decide

theorem witness_FetchesAndEmptyTransactions :
    (1 ≤ 1 ∧ held.port.fall.getD held.port.state = .answerPending ∧ held.port.response = some ⟨.ok, [7]⟩
        ∧ held.port.resetRequest = false)
      ∧ State.reset.port.fall.getD State.reset.port.state ≠ .answerPending
      ∧ State.reset.port.fall = none
      ∧ ({ State.reset.port with fall := some .ready } : Port).fall = some .ready := by decide

theorem witness_PowerOnResetValues : State.reset.pending = [] ∧ State.reset.freePicks = 0 := by decide

/-- The state in which SOFT_RESET has been answered. -/
def resetAsked : State := { held with port := { held.port with resetRequest := true } }

theorem witness_SoftResetTakenAtTheFetch :
    (asked [36, 0]).inHand = some .softReset
      ∧ (1 ≤ 1 ∧ resetAsked.port.fall.getD resetAsked.port.state = .answerPending ∧ resetAsked.port.resetRequest = true) := by
  decide

/-- SOFT_RESET answered while a STORE's head is at a step, with a second STORE waiting. -/
def resetStoring (x : JobStep) (shown : Byte) : State :=
  { resetAsked with patches := { (storing State.reset x).patches with
      queue := [.store 200 0 0 0 true, .store 201 1 0 0 true], flashStatus := shown } }

theorem witness_SoftResetTakenAtTheFetch_cut :
    ∀ x ∈ [JobStep.erase 0, .program 0 [], .readyWait 0, .verify []], ∀ b ∈ [(0 : Byte), 1],
      (resetStoring x b).port.fall.getD (resetStoring x b).port.state = .answerPending
        ∧ (resetStoring x b).port.resetRequest = true ∧ (resetStoring x b).patches.head = some x
        ∧ (resetStoring x b).patches.flashStatus = b := by decide

/-- An erase or a program that has seen no poll is cut off: the flash is busy, and a RECALL after the reset waits for it; after a
verify cut off it reads at once (R172, R182). -/
theorem test_soft_reset_cut :
    (∀ x ∈ [JobStep.erase 0, .program 0 []], nextHas (.responseFetch 1) (resetStoring x 0) (fun t =>
        t.patches.queue == [] && t.patches.flashStatus == 1
          && nextHas (.recallPart 0 200) { t with port := (asked [26, 3, 0, 0, 200]).port } (fun u =>
            u.patches.head == some (.readyWait 0) && u.patches.sent == [⟨[0x05], 1⟩])) = true)
      ∧ nextHas (.responseFetch 1) (resetStoring (.verify []) 0) (fun t =>
        nextHas (.recallPart 0 200) { t with port := (asked [26, 3, 0, 0, 200]).port }
          (fun u => u.patches.head == some .read)) = true := by
  decide +kernel

/-- SOFT_RESET answered with slot A POWERED, its voices SOUNDING, and the stamps at 9. -/
def resetOnline : State := { (resetAsked.setCard 0 (cardIn .powered 0)).setVoice 2 (voiceIn .sounding) with stamp := 9 }

/-- The fetch takes the reset: V0 to V3 are IDLE with last-free stamps 1 to 4, the others keep the reset value 0 (R21, R22). -/
theorem test_soft_reset_online :
    nextHas (.responseFetch 1) resetOnline (fun t => t.stamp == 4 && (t.voice 0).lastFree == 1 && (t.voice 3).lastFree == 4
      && (t.voice 2).state == .idle && (t.voice 2).asg == none && (t.voice 4).state == .absent && (t.voice 4).lastFree == 0)
      = true := by decide +kernel

theorem witness_SoftResetTakenAtTheFetch_online :
    resetOnline.port.fall.getD resetOnline.port.state = .answerPending ∧ resetOnline.port.resetRequest = true
      ∧ (resetOnline.card (cardOf 3)).state = .powered ∧ resetOnline.settings.autoOnline = true
      ∧ (resetOnline.card (cardOf 4)).state = .empty := by decide

/-- The fetch that takes the reset shifts out 0xFF, OK and a length of 0, and then 0xFF (R188); a pass that ran leaves nothing of its
record (R121). -/
theorem test_soft_reset_fetch :
    (∀ n ∈ [1, 2, 5], nextHas (.responseFetch n)
        { resetAsked with port := { resetAsked.port with response := some ⟨.ok, []⟩ } } (fun t =>
          t.port.shifted == ([0xFF, 0, 0, 0xFF, 0xFF] : List Byte).take n) = true)
      ∧ nextHas (.responseFetch 1) { resetAsked with tune := { resetAsked.tune with
          outcome := .running, force := true, heldQuarantine := true, requestWaiting := true
          entries := Vector.replicate 16 { PassEntry.reset with state := .waiting, inB := true } } } (fun t =>
        !t.tune.force && !t.tune.heldQuarantine && !t.tune.requestWaiting && t.entry 7 == PassEntry.reset) = true := by
  decide +kernel

/-- A request in hand while a pass runs. -/
def passRuns (s : State) : State := { s with tune := { s.tune with outcome := .running } }

theorem witness_SetDeviceWritesOneSetting :
    ((asked [35, 5, 24, 0, 0, 0, 2]).inHand = some (.setDevice 24 2) ∧ Settings.reset.put 24 2 = none)
      ∧ ((asked [35, 5, 0, 0, 0, 0, 0]).inHand = some (.setDevice 0 0) ∧ Settings.reset.put 0 0 = none)
      ∧ ((passRuns (asked [35, 5, 14, 0, 0, 0, 8])).inHand = some (.setDevice 14 8)
        ∧ (Settings.reset.put 14 8).isSome = true ∧ (passRuns (asked [35, 5, 14, 0, 0, 0, 8])).passRunning = true)
      ∧ ((passRuns (asked [35, 5, 20, 0, 0, 0x1F, 0x40])).inHand = some (.setDevice 20 8000)
        ∧ (Settings.reset.put 20 8000).isSome = true)
      ∧ ((passRuns (asked [35, 5, 13, 0, 0, 0, 1])).inHand = some (.setDevice 13 1)
        ∧ (Settings.reset.put 13 1).isSome = true)
      ∧ ((asked [35, 5, 19, 0, 0, 0, 9]).inHand = some (.setDevice 19 9) ∧ (Settings.reset.put 19 9).isSome = true
        ∧ (asked [35, 5, 19, 0, 0, 0, 9]).passRunning = false ∧ ((asked [35, 5, 19, 0, 0, 0, 9]).cal 0 .a).status = .nominal) := by
  decide

/-- The ends of the ranges of R191: a setting takes its first and its last value, and none beside them. -/
theorem test_setting_ranges :
    ∀ x ∈ [(1, 0, 15), (2, 100, 60000), (3, 0, 1), (4, 2, 9), (5, 1, 64), (6, 50, 2047), (7, 1, 3), (8, 1, 3), (9, 1, 255),
        (14, 0, 8), (15, 100000, 8000000), (16, 4, 1024), (17, 2, 16), (18, 1, 50), (19, 0, 32767), (20, 1000, 8000),
        (21, 0, 511), (22, 0, 511), (23, 0, 1), (24, 0, 1)],
      (Settings.reset.put x.1 x.2.1).isSome = true ∧ (Settings.reset.put x.1 x.2.2).isSome = true
        ∧ Settings.reset.put x.1 (x.2.2 + 1) = none ∧ (0 < x.2.1 → Settings.reset.put x.1 (x.2.1 - 1) = none) := by decide

/-! ### Witnesses: keys, zones and parts -/

theorem witness_ZoneAndPartRecordsAreSet :
    (asked [2, 9, 7, 1, 15, 0, 127, 1, 127, 3, 0xD0]).inHand = some (.setZone 7 1 15 0 127 1 127 3 0xD0)
      ∧ (0xD0 : Byte).toInt = -48
      ∧ (asked [2, 9, 8, 1, 16, 0, 127, 1, 127, 3, 49]).inHand = some (.setZone 8 1 16 0 127 1 127 3 49)
      ∧ (asked [3, 1, 7]).inHand = some (.readZone 7) ∧ (asked [3, 1, 8]).inHand = some (.readZone 8)
      ∧ (asked [4, 4, 0, 16, 0xC0, 1]).inHand = some (.setPart 0 16 0xC0 1) ∧ (0xC0 : Byte).toInt = -64
      ∧ ((allParts.filter fun q => q != (0 : PartNo)).map fun q => ((asked [4, 4, 0, 16, 0xC0, 1]).part q).reserve).sum = 0
      ∧ (asked [4, 4, 3, 13, 63, 2]).inHand = some (.setPart 3 13 63 2)
      ∧ ((allParts.filter fun q => q != (3 : PartNo)).map fun q => ((asked [4, 4, 3, 13, 63, 2]).part q).reserve).sum = 4
      ∧ (asked [4, 4, 4, 0, 0, 0]).inHand = some (.setPart 4 0 0 0) := by decide

theorem witness_ReadsAnswerAndChangeNothing :
    (asked [5, 1, 3]).inHand = some (.readPart 3) ∧ (asked [5, 1, 4]).inHand = some (.readPart 4)
      ∧ (asked [6, 1, 15]).inHand = some (.readVoice 15) ∧ (asked [6, 1, 16]).inHand = some (.readVoice 16)
      ∧ (asked [15, 1, 15]).inHand = some (.readCal 15) ∧ (asked [15, 1, 16]).inHand = some (.readCal 16)
      ∧ (asked [22, 1, 31]).inHand = some (.readChannel 31) ∧ (asked [22, 1, 32]).inHand = some (.readChannel 32)
      ∧ (asked [29, 1, 3]).inHand = some (.readLive 3) ∧ (asked [29, 1, 4]).inHand = some (.readLive 4)
      ∧ (asked [13, 0]).inHand = some .readTune ∧ (asked [18, 0]).inHand = some .readMonitor
      ∧ (asked [20, 0]).inHand = some .readCards ∧ (asked [31, 0]).inHand = some .readCache
      ∧ (asked [34, 0]).inHand = some .readDevice := by decide

theorem witness_PlayEventsAreRead :
    ((⟨0, 0, 0, 0⟩ : RawEvent).kind.toNat = 0 ∧ 5 < (⟨6, 0, 0, 0⟩ : RawEvent).kind.toNat)
      ∧ ((15 : Byte).toNat ≤ 15 ∧ (127 : Byte).toNat ≤ 127) ∧ (15 < (16 : Byte).toNat ∨ 127 < (0 : Byte).toNat)
      ∧ (15 < (0 : Byte).toNat ∨ 127 < (128 : Byte).toNat) ∧ 3 < (4 : Byte).toNat := by decide

/-- A PLAY of one KEY_ON and one event of an unknown kind, in hand. -/
def playing : State := asked [1, 8, 1, 0, 60, 100, 6, 0, 0, 0]

theorem witness_PlayTakesItsEventsInOrder :
    playing.inHand = some (.play [⟨1, 0, 60, 100⟩, ⟨6, 0, 0, 0⟩]) ∧ playing.port.taken = 0 ∧ playing.port.applied = 0
      ∧ playing.port.ignored = 0 ∧ readEvent ⟨6, 0, 0, 0⟩ = none
      ∧ ∃ t, exec (.play [⟨1, 0, 60, 100⟩, ⟨6, 0, 0, 0⟩]) playing = .next t := by
  refine ⟨by decide, by decide, by decide, by decide, by decide, _, rfl⟩

/-- A PLAY of three KEY_ONs in hand, its middle one of a key that no instrument has. -/
def playing3 : State := asked [1, 12, 1, 0, 60, 100, 1, 0, 128, 1, 1, 15, 127, 127]

/-- Rows of a PLAY in hand: with another event to come, with none, out of turn, ignored; and a row with no PLAY in hand. -/
theorem witness_PlayTakesItsEventsInOrder_rows :
    (playing3.inHand = some (.play ([] ++ ⟨1, 0, 60, 100⟩ :: [⟨1, 0, 128, 1⟩, ⟨1, 15, 127, 127⟩])) ∧ playing3.port.taken = 0
        ∧ readEvent ⟨1, 0, 60, 100⟩ = some (.keyOn 0 60 100) ∧ readEvent ⟨1, 15, 127, 127⟩ = some (.keyOn 15 127 127))
      ∧ (playing.inHand = some (.play ([] ++ ⟨1, 0, 60, 100⟩ :: [⟨6, 0, 0, 0⟩])) ∧ playing.port.taken = 0)
      ∧ (asked [1, 8, 6, 0, 0, 0, 5, 3, 9, 9]).inHand = some (.play ([⟨6, 0, 0, 0⟩] ++ ⟨5, 3, 9, 9⟩ :: []))
      ∧ (readEvent ⟨5, 3, 9, 9⟩ = some (.allOff 3) ∧ readEvent ⟨5, 3, 0, 0⟩ = some (.allOff 3))
      ∧ (readEvent ⟨2, 0, 60, 0⟩ = some (.keyOff 0 60) ∧ PerfEvent.keyOff 0 60 ≠ .keyOn 0 60 100)
      ∧ readEvent ⟨3, 4, 1, 0⟩ = none
      ∧ readEvent ⟨4, 0, (0xE000 : BitVec 16).extractLsb' 8 8, (0xE000 : BitVec 16).extractLsb' 0 8⟩ = some (.bend 0 (-8192))
      ∧ State.reset.noPlay := by
  unfold State.noPlay; decide

theorem witness_KeyEventsFrame :
    zoned.noPlay ∧ ∃ ch key vel, Instr.keyOn 0 60 100 = .keyOn ch key vel := ⟨by unfold State.noPlay; decide, 0, 60, 100, rfl⟩

theorem witness_KeyOnEntersHeldLists :
    zoned.noPlay ∧ (15 : Byte).toNat ≤ 15 ∧ (127 : Byte).toNat ≤ 127 ∧ 1 ≤ (255 : Byte).toNat
      ∧ (zoned.zone 0).matches 0 127 (min 127 255) = true ∧ (zoned.zone 0).effective 127 = some 127
      ∧ ∀ z : ZoneNo, (zoned.zone z).matches 15 127 (min 127 255) = false := by
  unfold State.noPlay; decide

/-- Zone 0 alone sends key 60 to part 0, whose list holds `n` other keys and perhaps key 60 as its oldest. -/
def holding (n : Nat) (mine : Bool) : State :=
  zoned.setPart 0 { Part.reset 0 with
    held := (if mine then [⟨0, 60, 60, 0, 1⟩] else []) ++ (List.range n).map fun k => ⟨0, k, k, 0, 100⟩ }

theorem witness_KeyOnEntersHeldLists_list :
    (∀ x ∈ [(15, true), (15, false), (16, false)], (holding x.1 x.2).noPlay ∧ ((holding x.1 x.2).zone 0).matches 0 60 1 = true
        ∧ ((holding x.1 x.2).zone 0).effective 60 = some 60 ∧ ((holding x.1 x.2).zone 0).part = 0
        ∧ ∀ y : ZoneNo, y ≠ 0 → ((holding x.1 x.2).zone y).matches 0 60 1 = false)
      ∧ ((holding 15 true).part 0).held.length = 16 ∧ ((holding 16 false).part 0).held.length = 16
      ∧ ((holding 15 false).part 0).held.length < 16 := by
  unfold State.noPlay; decide

theorem witness_KeyOffRemovesItsEntries :
    zoned.noPlay ∧ (15 : Byte).toNat ≤ 15 ∧ (127 : Byte).toNat ≤ 127
      ∧ ∀ p : PartNo, ∀ h ∈ (zoned.part p).held, ¬ (h.channel = (15 : Byte).toNat ∧ h.key = (127 : Byte).toNat) := by
  unfold State.noPlay; decide

/-- Part 3 with its sustain down. -/
def sustained : State := State.reset.setPart 3 { Part.reset 3 with sustain := true }

theorem witness_SustainBendAndAllOff :
    State.reset.noPlay ∧ 3 < (4 : Byte).toNat ∧ (3 : Byte).toNat = (3 : PartNo).val
      ∧ (State.reset.part 3).sustain = decide ((0 : Byte).toNat ≠ 0)
      ∧ ((State.reset.part 3).sustain = false ∧ (255 : Byte).toNat ≠ 0)
      ∧ (sustained.noPlay ∧ (sustained.part 3).sustain = true) := by
  unfold State.noPlay; decide

/-- Voice 0 IDLE and no voice carrying a key. -/
def oneIdle : State := withVoice0 State.reset (voiceIn .idle)

/-- Part 0 in a voice mode with some held keys, a voice limit and unison count of `n`, an unused reserve and a tail of one
frame. -/
def partIn (mode : VoiceMode) (n : Nat) (keys : List HeldKey) (pedal : Bool) : Part :=
  { Part.reset 0 with
    live := { Patch.default with
      voiceMode := mode, voiceLimit := n, unisonCount := n, params := Patch.default.params.set 6 2 }
    held := keys, reserve := 0, sustain := pedal }

/-- Key `k` of channel 0, through zone 0. -/
def key (k : Nat) : HeldKey := ⟨0, k, k, 0, 100⟩

/-- Part 0 as `partIn` has it, voice 0 in a state with key 60 and voice 1 in a state with key 62. -/
def choosing (x y : Service) (mode : VoiceMode) (n : Nat) (keys : List HeldKey) (pedal : Bool) : State :=
  let r := voiceIn y
  { (((withVoice0 State.reset (voiceIn x)).setVoice 1
      { r with asg := r.asg.map fun a => { a with key := 62, note := 62, stamp := 2, unison := 1 } }).setPart 0
        (partIn mode n keys pedal)) with stamp := 5 }

/-- A POLY part whose limit is `n`. -/
def polyWith (x y : Service) (n : Nat) : State := choosing x y .poly n [key 60, key 62] false

theorem witness_PolyKeyOnTakesItsVoice :
    (∀ x ∈ [Service.idle, .releasing, .retuning, .sounding, .stealGap, .calibrating], ∀ y ∈ [Service.absent, .sounding],
      ∀ n ∈ [1, 2], ((polyWith x y n).part 0).live.voiceMode = .poly ∧ (∀ v, ((polyWith x y n).voice v).assignedRight)
        ∧ (polyWith x y n).stampsClose)
      ∧ (∀ x ∈ [Service.sounding, .stealGap, .releasing], ((polyWith x .absent 2).voice 0).carries 0 (key 60) = true
        ∧ ((polyWith x .absent 2).voice 0).unmarked ∧ ((polyWith x .absent 2).voice 0).state = x)
      ∧ ((∀ v : Voice, ((polyWith .releasing .absent 1).voice v).state.counted = false)
        ∧ (polyWith .releasing .absent 1).count 0 < (polyWith .releasing .absent 1).limit 0)
      ∧ ((∀ v : Voice, ((polyWith .releasing .sounding 1).voice v).carries 0 (key 60) = true →
          ((polyWith .releasing .sounding 1).voice v).state = .releasing)
        ∧ (polyWith .releasing .sounding 1).limit 0 ≤ (polyWith .releasing .sounding 1).count 0)
      ∧ (∀ v : Voice, ∀ x ∈ [Service.idle, .releasing, .retuning, .sounding, .calibrating],
        ((polyWith x .sounding 2).voice v).carries 0 (key 61) = false) := by
  simp only [VoiceRec.assignedRight, VoiceRec.unmarked, State.stampsClose]; decide

/-- The tiers of the free-voice step below the limit, the steal at the limit and below it, and a key that finds no voice. -/
theorem witness_PolyKeyOnTakesItsVoice_tiers :
    (∀ x ∈ [Service.idle, .releasing, .retuning],
      (polyWith x .sounding 2).count 0 < (polyWith x .sounding 2).limit 0 ∧ ((polyWith x .sounding 2).voice 0).free)
      ∧ ((polyWith .sounding .absent 1).limit 0 ≤ (polyWith .sounding .absent 1).count 0
        ∧ (polyWith .sounding .absent 1).stealable 0 1 0)
      ∧ ((∀ v, ¬ ((polyWith .sounding .absent 1).voice v).free) ∧ (polyWith .sounding .absent 1).count 1 < 16
        ∧ (polyWith .sounding .absent 1).stealable 1 16 0)
      ∧ (∀ v, ¬ ((polyWith .calibrating .absent 1).voice v).free) ∧ ∀ v, ¬ (polyWith .calibrating .absent 1).stealable 0 1 v := by
  refine ⟨?_, ⟨by decide, ?_⟩, ⟨?_, by decide, ?_⟩, ?_, fun v h => ?_⟩
  · simp only [VoiceRec.free, VoiceRec.tailing, VoiceRec.unmarked]; decide
  · exact ⟨by decide, by unfold VoiceRec.unmarked; decide, asg60, rfl, by decide, by decide⟩
  · simp only [VoiceRec.free, VoiceRec.tailing, VoiceRec.unmarked]; decide
  · exact ⟨by decide, by unfold VoiceRec.unmarked; decide, asg60, rfl, by decide, by decide⟩
  · simp only [VoiceRec.free, VoiceRec.tailing, VoiceRec.unmarked]; decide
  · exact (by decide : ∀ v : Voice, ((polyWith .calibrating .absent 1).voice v).state ≠ .sounding) v h.1

theorem witness_ReserveProtectsAPart :
    zoned.noPlay ∧ 1 ≤ (1 : Byte).toNat
      ∧ (∀ z : ZoneNo, (zoned.zone z).matches 0 60 (min 127 (1 : Byte).toNat) = true → (zoned.zone z).part ≠ 3)
      ∧ ∃ t, exec (.keyOn 0 60 1) zoned = .next t := by
  refine ⟨by unfold State.noPlay; decide, by decide, by decide, _, rfl⟩

theorem witness_AssignmentFillsTheVoice :
    ((withVoice0 State.reset (voiceIn .stealGap)).voice 0).state = .stealGap ∧ State.reset.settings.stealGap ≠ 0
      ∧ (oneIdle.voice 0).state = .idle ∧ ((State.reset.part 0).live.params[(0 : Fin 25)]).toNat < 4 := by decide

/-- The keys chosen from 62, 60, 64, oldest first: the newest, the lowest and the highest (R31). -/
theorem test_chosenKey :
    chosenKey .last [key 62, key 60, key 64] = some (key 64) ∧ chosenKey .low [key 62, key 60, key 64] = some (key 60)
      ∧ chosenKey .high [key 62, key 64, key 60] = some (key 64) := by decide

/-- MONO with no voice, with a voice of another key and with a voice of the chosen key; UNISON with its stack full, with two
voices IDLE for a stack of two, and with no voice at all; and the last key let go, with the sustain up and down. -/
theorem witness_MonoAndUnisonFollowTheChosenKey :
    (∀ x ∈ [Service.idle, .sounding, .calibrating], ∀ y ∈ [Service.absent, .idle, .sounding],
      ∀ mode ∈ [VoiceMode.mono, .unison], let s := choosing x y mode 2 [key 60] false
        (∀ v, (s.voice v).assignedRight) ∧ s.stampsClose ∧ s.chosen 0 = some (key 60) ∧ (s.part 0).live.voiceMode = mode
          ∧ 1 ≤ (s.part 0).live.unisonCount)
      ∧ ((choosing .idle .absent .mono 2 [key 60] false).partVoices 0 = []
        ∧ (choosing .sounding .absent .mono 2 [key 60] false).partVoices 0 = 0 :: []
        ∧ ((choosing .sounding .absent .mono 2 [key 60] false).voice 0).carries 0 (key 60) = true
        ∧ (key 60).same (key 60) = true ∧ (key 62).same (key 60) = false
        ∧ (choosing .absent .sounding .mono 2 [key 60] false).partVoices 0 = 1 :: []
        ∧ ((choosing .absent .sounding .mono 2 [key 60] false).voice 1).carries 0 (key 60) = false)
      ∧ ((choosing .sounding .sounding .unison 2 [key 60] false).partVoices 0 = 0 :: [1]
        ∧ 2 ≤ (choosing .sounding .sounding .unison 2 [key 60] false).count 0)
      ∧ ((choosing .idle .idle .unison 2 [key 60] false).partVoices 0 = []
        ∧ 2 ≤ (allVoices.filter fun v => ((choosing .idle .idle .unison 2 [key 60] false).voice v).state == .idle).length)
      ∧ ((choosing .calibrating .absent .unison 2 [key 60] false).partVoices 0 = []
        ∧ ∀ v : Voice, ((choosing .calibrating .absent .unison 2 [key 60] false).voice v).state ≠ .sounding)
      ∧ ∀ pedal ∈ [true, false], let s := choosing .sounding .stealGap .unison 2 [] pedal
        s.serves 0 0 ∧ (s.voice 0).carries 0 (key 60) = true ∧ s.chosen 0 = none ∧ (s.part 0).live.voiceMode ≠ .poly
          ∧ 2 ≤ ((s.part 0).live.params[(6 : Fin 25)]).toNat ∧ (s.part 0).sustain = pedal := by
  simp only [VoiceRec.assignedRight, State.stampsClose, State.serves]; decide

/-- A key-on through its zone takes a voice; through a full list it first lets the oldest key go, whose voice releases (R7, R8);
a key-off of the only key of a MONO or UNISON part releases its voice (R9, R35). -/
theorem test_key_events_reach_voices :
    (let s := choosing .idle .absent .poly 2 [] false
     nextHas (.keyOn 0 64 90) (s.setZone 0 (zoned.zone 0)) (fun t =>
       (t.voice 0).state == .sounding && (t.voice 0).asg.map (fun a => (a.key, a.velocity)) == some (64, 90)) = true)
      ∧ (let full := key 60 :: (List.range 15).map key
         nextHas (.keyOn 0 64 90) ((choosing .sounding .idle .poly 4 full false).setZone 0 (zoned.zone 0)) (fun t =>
           (t.voice 0).state == .releasing && (t.voice 1).asg.map (fun a => a.key) == some 64
             && (t.part 0).held == (List.range 15).map key ++ [⟨0, 64, 64, 0, 90⟩]) = true)
      ∧ ∀ mode ∈ [VoiceMode.mono, .unison], nextHas (.keyOff 0 60) (choosing .sounding .idle mode 4 [key 60] false) (fun t =>
          (t.part 0).held == [] && (t.voice 0).state == .releasing) = true := by decide +kernel

/-- The entries of one key, part by part and in each in ascending zone order, whatever their places in the lists (R9). -/
theorem test_key_entries :
    let s := (State.reset.setPart 1 { Part.reset 1 with held := [⟨0, 60, 60, 5, 9⟩, ⟨0, 61, 61, 2, 9⟩, ⟨0, 60, 60, 2, 9⟩] }).setPart 0
      { Part.reset 0 with held := [⟨0, 60, 60, 7, 9⟩] }
    s.keyEntries 0 60 = [(0, ⟨0, 60, 60, 7, 9⟩), (1, ⟨0, 60, 60, 2, 9⟩), (1, ⟨0, 60, 60, 5, 9⟩)]
      ∧ ((s.withoutKey 0 60).part 1).held = [⟨0, 61, 61, 2, 9⟩] := by decide +kernel

theorem witness_AllocatorFramesAndCountEnds :
    (∀ v : Voice, (State.reset.voice v).tunePending = false)
      ∧ ((withVoice0 State.reset { voiceIn .releasing with tail := 1, tunePending := true }).voice 0).tail = 1
      ∧ ((withVoice0 State.reset { voiceIn .releasing with tail := 1, offlinePending := true }).voice 0).offlinePending = true
      ∧ ((withVoice0 State.reset { voiceIn .stealGap with gap := 1, glide := 2 }).voice 0).gap = 1
      ∧ (oneIdle.voice 0).glide = 0 := by decide

theorem witness_AllocatorFramesAndCountEnds_ends :
    (((withVoice0 State.reset { voiceIn .stealGap with gap := 1 }).voice 0).state = .stealGap
        ∧ ((withVoice0 State.reset { voiceIn .stealGap with gap := 1 }).voice 0).gap = 1)
      ∧ 2 ≤ ((withVoice0 State.reset { voiceIn .stealGap with gap := 2 }).voice 0).gap
      ∧ (((withVoice0 State.reset { voiceIn .releasing with tail := 1 }).voice 0).state = .releasing
        ∧ ((withVoice0 State.reset { voiceIn .releasing with tail := 1 }).voice 0).tail = 1
        ∧ ((withVoice0 State.reset { voiceIn .releasing with tail := 1 }).voice 0).tunePending = false
        ∧ ((withVoice0 State.reset { voiceIn .releasing with tail := 1 }).voice 0).offlinePending = false)
      ∧ ((withVoice0 State.reset { voiceIn .releasing with tail := 1, offlinePending := true }).voice 0).offlinePending = true
      ∧ ((withVoice0 State.reset { voiceIn .sounding with glide := 1 }).voice 0).glide = 1
      ∧ (State.reset.voice 0).glide ≠ 1 := by decide

/-- Two tails that end at one expiry: the lower-numbered voice has the older last-free stamp (R22, R38). -/
theorem test_tails_end :
    nextHas .allocatorFrameExpiry (((State.reset.setVoice 1 { voiceIn .releasing with tail := 1 }).setVoice 7
        { voiceIn .releasing with tail := 2 }).setVoice 9 { voiceIn .releasing with tail := 1 }) (fun t =>
      (t.voice 1).lastFree == 1 && (t.voice 9).lastFree == 2 && (t.voice 7).tail == 1 && t.stamp == 2) = true := by decide +kernel

/-- A limit lowered below the count, another voice mode, a lost key that is still held, and a slot with voices at a key. -/
theorem witness_PatchChangesAndLostKeys :
    (∀ s ∈ [choosing .sounding .sounding .poly 1 [key 60, key 62] false, choosing .sounding .stealGap .mono 2 [key 60] true,
        choosing .sounding .releasing .unison 2 [key 60] false],
      (∀ v, (s.voice v).assignedRight) ∧ s.stampsWithin 32 ∧ s.stampsClose
        ∧ 2 ≤ ((s.part 0).live.params[(6 : Fin 25)]).toNat ∧ (s.part 0).held.length ≤ 16 ∧ 1 ≤ (s.part 0).live.unisonCount)
      ∧ ((choosing .sounding .sounding .poly 1 [key 60, key 62] false).limit 0
          < (choosing .sounding .sounding .poly 1 [key 60, key 62] false).count 0)
      ∧ ((choosing .sounding .stealGap .mono 2 [key 60] true).part 0).live.voiceMode ≠ .poly
      ∧ ((choosing .sounding .sounding .poly 1 [key 60, key 62] false).keysLost fun v => v.val / 4 == 0).length = 2
      ∧ ((choosing .sounding .releasing .unison 2 [key 60] false).keysLost fun v => v.val / 4 == 0) = [asg60]
      ∧ (choosing .sounding .releasing .unison 2 [key 60] false).chosen 0 = some (key 60) := by
  simp only [VoiceRec.assignedRight, State.stampsWithin, State.stampsClose]; decide

/-- The oldest of two voices above a limit of one is released, by its assignment stamp (R42). -/
theorem test_excess :
    ((((choosing .sounding .sounding .poly 1 [key 60, key 62] false).afterPatch 0 .poly).voice 0).state,
      (((choosing .sounding .sounding .poly 1 [key 60, key 62] false).afterPatch 0 .poly).voice 1).state)
      = (Service.releasing, Service.sounding) := by decide

/-- A slot-down of slot A re-homes key 60, which V4 can take, and not key 62, which its part no longer holds (R43, R44). -/
theorem test_rehome :
    (((choosing .sounding .sounding .poly 4 [key 60] false).setVoice 4 (voiceIn .idle)).slotDown 0).count 0 = 1
      ∧ ((((choosing .sounding .sounding .poly 4 [key 60] false).setVoice 4 (voiceIn .idle)).slotDown 0).voice 4).carries 0 (key 60)
        = true := by decide +kernel

/-! ### Witnesses: releases and key-offs -/

/-- P6 of part 0 at `n`. -/
def withTail (s : State) (n : Val12) : State :=
  s.setPart 0 { s.part 0 with live := { (s.part 0).live with params := (s.part 0).live.params.set 6 n } }

/-- The clauses of a part whose tail is 0 frames: the last key of MONO and UNISON let go, a re-seat, a limit lowered, and a voice
taken offline. -/
theorem witness_tail_of_no_frames :
    (∀ mode ∈ [VoiceMode.mono, .unison], ∀ pedal ∈ [true, false],
        let s := withTail (choosing .sounding .stealGap mode 2 [] pedal) 1
        s.serves 0 0 ∧ s.serves 0 1 ∧ (s.voice 0).carries 0 (key 60) = true ∧ s.chosen 0 = none ∧ (s.part 0).live.voiceMode = mode
          ∧ ((s.part 0).live.params[(6 : Fin 25)]).toNat / 2 = 0)
      ∧ (∀ mode ∈ [VoiceMode.poly, .mono, .unison], let s := withTail (choosing .sounding .sounding mode 1 [key 60] false) 0
        (∀ v, (s.voice v).assignedRight) ∧ s.stampsWithin 32 ∧ s.servesBriefly 0 0 = true ∧ s.servesBriefly 0 1 = true
          ∧ s.limit 0 < s.count 0 ∧ s.keyAge 1 < s.keyAge 0 ∧ s.chosen 0 = some (key 60))
      ∧ (∀ x ∈ [Service.sounding, .stealGap], let s := withTail (withVoice0 (asked [8, 1, 0]) (voiceIn x)) 1
        s.inHand = some (.voiceOffline 0) ∧ (s.voice 0).state = x ∧ (s.voice 0).asg = some asg60
          ∧ ((s.part asg60.part).live.params[(6 : Fin 25)]).toNat < 2) := by
  simp only [State.serves, VoiceRec.assignedRight, State.stampsWithin]; decide +kernel

/-- The last key of a stack let go, a limit lowered to one and a change to MONO, all with a tail of 0 frames: IDLE at once with the
next stamp, and the chosen key is served by the voice that is free the longest (R28, R35, R41, R42). In the first the order of
the two stamps is the model's (log entry 31). -/
theorem test_tail_of_no_frames :
    (let t := (withTail (choosing .sounding .stealGap .unison 2 [] false) 1).allocKeyOff 0 (key 60)
     (t.voice 0).state = .idle ∧ (t.voice 0).lastFree = 6 ∧ (t.voice 1).lastFree = 7 ∧ t.stamp = 7)
      ∧ (let t := (withTail (choosing .sounding .sounding .poly 1 [key 60] false) 0).afterPatch 0 .poly
         (t.voice 0).state = .idle ∧ (t.voice 0).lastFree = 6 ∧ (t.voice 1).state = .sounding ∧ t.stamp = 6)
      ∧ (let t := (withTail (choosing .sounding .sounding .mono 1 [key 60] false) 0).afterPatch 0 .poly
         (t.voice 0).state = .sounding ∧ (t.voice 0).asgStamp = 8 ∧ (t.voice 1).state = .idle ∧ (t.voice 1).lastFree = 7) := by
  decide +kernel

/-- Every voice state at a key under both positions of the sustain, with a tail of one frame and of none. -/
theorem witness_KeyOffRemovesItsEntries_voices :
    ∀ x ∈ [Service.sounding, .stealGap, .releasing], ∀ pedal ∈ [true, false], ∀ n ∈ [(2 : Val12), 1],
      let s := withTail (choosing x .idle .poly 4 [key 60] pedal) n
      s.noPlay ∧ (s.voice 0).asg = some asg60 ∧ (s.part 0).live.voiceMode = .poly ∧ (s.voice 0).state = x
        ∧ (s.part 0).sustain = pedal ∧ ((s.part 0).live.params[(6 : Fin 25)]).toNat / 2 = (if n = 2 then 1 else 0)
        ∧ asg60.channel = (0 : Byte).toNat ∧ asg60.key = (60 : Byte).toNat ∧ key 60 ∈ (s.part 0).held
        ∧ (key 60).zone = asg60.zone ∧ (s.voice 1).asg = none := by
  unfold State.noPlay; decide +kernel

/-- A key-off of a SOUNDING voice: RELEASING with a tail of P6 div 2, marked with the sustain down, IDLE with a tail of 0 (R34). -/
theorem test_keyOff :
    nextHas (.keyOff 0 60) (choosing .sounding .idle .poly 4 [key 60] false) (fun t =>
        (t.voice 0).state == .releasing && (t.voice 0).tail == 1) = true
      ∧ nextHas (.keyOff 0 60) (choosing .sounding .idle .poly 4 [key 60] true) (fun t =>
        (t.voice 0).state == .sounding && (t.voice 0).isSustained) = true
      ∧ nextHas (.keyOff 0 60) (withTail (choosing .sounding .idle .poly 4 [key 60] false) 1) (fun t =>
        (t.voice 0).state == .idle && (t.voice 0).lastFree == 6) = true := by decide +kernel

/-- Part 0's voice 0 SOUNDING and sustained, voice 1 in STEAL_GAP, the sustain down. -/
def pedalled (n : Val12) : State :=
  withTail ((choosing .sounding .stealGap .poly 4 [key 62] true).modVoice 0 fun r => r.setSustained true) n

theorem witness_SustainBendAndAllOff_voices :
    ∀ n ∈ [(2 : Val12), 1], (pedalled n).noPlay ∧ ((pedalled n).part 0).sustain = true
      ∧ ((pedalled n).voice 0).state = .sounding ∧ ((pedalled n).voice 0).asgPart = some 0
      ∧ ((pedalled n).voice 0).isSustained = true ∧ (pedalled n).serves 0 1
      ∧ (((pedalled n).part 0).live.params[(6 : Fin 25)]).toNat = n.toNat := by
  simp only [State.noPlay, State.serves]; decide +kernel

/-- A stack of two of which one voice sounds, on the chosen key or on another, with voice 1 IDLE, and with no voice to acquire. -/
theorem witness_MonoAndUnisonFollowTheChosenKey_stack :
    (∀ k ∈ [60, 64], let s := choosing .sounding .idle .unison 2 [key k] false
      (∀ v, (s.voice v).assignedRight) ∧ s.stampsClose ∧ s.stampsWithin 32 ∧ s.chosen 0 = some (key k)
        ∧ (s.part 0).live.voiceMode = .unison ∧ s.partVoices 0 = [0] ∧ s.count 0 < (s.part 0).live.unisonCount
        ∧ (s.voice 1).state = .idle ∧ (s.voice 0).unisonIndex = 0)
      ∧ ∀ v : Voice, v ≠ 0 → ((choosing .sounding .calibrating .unison 2 [key 60] false).voice v).state ≠ .idle := by
  simp only [VoiceRec.assignedRight, State.stampsClose, State.stampsWithin]; decide +kernel

/-- The missing index 1 is acquired by the IDLE voice 1; the voice on the chosen key stays (R33). -/
theorem test_stack :
    let t := (choosing .sounding .idle .unison 2 [key 60] false).allocKeyOn 0 (key 62) false
    t.count 0 = 2 ∧ (t.voice 1).unisonIndex = 1 ∧ (t.voice 1).carries 0 (key 60) = true ∧ (t.voice 0).asg = some asg60 := by
  decide +kernel

/-! ### Witnesses: voices that leave their work -/

/-- A pass running with or without voice 4 in service, voice 0 tune-pending at a key with its entry PENDING, voice 5's entry in a
state. -/
def joining (s : State) (r : VoiceRec) (served : Bool) (other : EntryState) : State :=
  let t := passRuns (withVoice0 s { r with tunePending := true })
  let t1 := (t.setEntry 0 { PassEntry.reset with state := .pending, inA := true }).setEntry 5
    { PassEntry.reset with state := other, inCutoff := true }
  { t1 with tune := { t1.tune with
      service := if served then some ⟨4, .a, Working.begin CalEntry.reset (1, 9)⟩ else none } }

theorem witness_AllocatorFramesAndCountEnds_joins :
    ∀ served ∈ [true, false], ∀ x ∈ [EntryState.waiting, .done], let s := joining State.reset { voiceIn .releasing with tail := 1 } served x
      (s.voice 0).state = .releasing ∧ (s.voice 0).tail = 1 ∧ (s.voice 0).tunePending = true ∧ (s.entry 0).state = .pending
        ∧ s.passRunning = true ∧ s.tune.service.isSome = served ∧ (s.entry 0).inA = true ∧ (s.entry 5).inCutoff = true
        ∧ (s.entry 5).state = x ∧ s.tune.unit = none := by decide +kernel

/-- The tail of a tune-pending voice ends with no voice in service: its first destination begins and is measured (R109, R110). -/
theorem test_joins :
    nextHas (.releaseTailEnd 0) (joining State.reset { voiceIn .releasing with tail := 1 } false .waiting) (fun t =>
      (t.voice 0).state == .calibrating && (t.entry 0).state == .inService && (t.entry 5).state == .waiting
        && t.tune.unit.map (fun m => (m.voice, m.dest)) == some (0, .a)) = true := by decide +kernel

theorem witness_VoiceOfflineByState_leaves :
    ∀ r ∈ [Service.sounding, .stealGap, .releasing], ∀ served ∈ [true, false], ∀ x ∈ [EntryState.pending, .done],
      let s := joining (asked [8, 1, 0]) (voiceIn r) served x
      s.inHand = some (.voiceOffline 0) ∧ (s.voice 0).state = r ∧ (s.voice 0).tunePending = true
        ∧ (s.entry 0).state = .pending ∧ s.passRunning = true ∧ s.tune.service.isSome = served
        ∧ (∀ u : Voice, u ≠ 0 → (s.entry u).state ≠ .waiting) ∧ (∀ u : Voice, u ≠ 0 → u ≠ 5 → (s.entry u).state = .notInPass)
        ∧ (s.entry 5).state = x := by decide +kernel

/-- The last voice still to be served goes offline: the pass ends (R109, R118). -/
theorem test_leaves :
    nextHas (.voiceOffline 0) (joining (asked [8, 1, 0]) (voiceIn .sounding) false .done) (fun t =>
      (t.entry 0).state == .left && (t.entry 0).reason == .offline && t.tune.outcome == .completed && t.notices.tune)
      = true := by decide +kernel

/-- Slot A's voice 0 in service for the cutoff, or checked, with its measurement; voice 1's entry PENDING, voice 5's in a state. -/
def losing (service : Bool) (other : EntryState) : State :=
  let e : PassEntry := { PassEntry.reset with state := .inService, inCutoff := true }
  let s := if service then
      let t := (withVoice0 (serving 8 (.counting 0 1)) (voiceIn .calibrating)).setEntry 0 e
      { t with tune := { t.tune with
          service := some ⟨0, .cutoff, Working.begin CalEntry.reset (3, 9)⟩, heldQuarantine := true } }
    else
      let t := (withVoice0 (checking (.counting 0 1)) (voiceIn .retuning)).setEntry 4 e
      { t with tune := { t.tune with
          outcome := .running, requestWaiting := true, service := some ⟨4, .cutoff, Working.begin CalEntry.reset (3, 9)⟩ } }
  ((s.setOverride 0 3 (some 7)).setEntry 1 { PassEntry.reset with state := .pending, inA := true }).setEntry 5
    { PassEntry.reset with state := other, inB := true }

theorem witness_PatchChangesAndLostKeys_tune :
    (∀ x ∈ [EntryState.waiting, .pending, .done], let s := losing true x
      s.passRunning = true ∧ s.tune.service.map (fun y => (y.voice.val / 4, y.voice, y.dest)) = some (0, 0, .cutoff)
        ∧ s.tune.unit = some (measure .pass (.counting 0 1)) ∧ (measure .pass (.counting 0 1)).voice = 0
        ∧ (s.entry 0).state = .inService ∧ (s.entry 1).state = .pending ∧ (s.entry 5).state = x ∧ (s.entry 5).inB = true
        ∧ ∀ v : Voice, v.val / 4 ≠ 0 → v ≠ 5 → (s.entry v).state = .notInPass)
      ∧ (let s := losing false .done
        s.tune.check = some ⟨0, .a, 5, 100, 10⟩ ∧ s.tune.unit = some (measure .check (.counting 0 1))
          ∧ s.tune.service.map (fun y => y.voice) = some 4 ∧ s.tune.requestWaiting = true) := by decide +kernel

/-- A slot-down of slot A takes the voice in service: LEFT with LOST, RESTORED, overrides withdrawn, and voice 5 is served next; or
the pass ends (R109, R110, R118, R120). One that takes the checked voice gives the unit to the waiting request (R133). -/
theorem test_slotDown_tune :
    (let t := (losing true .waiting).slotDown 0
     (t.entry 0).state = .left ∧ (t.entry 0).reason = .lost ∧ (t.entry 0).sumCutoff.state = .restored
       ∧ (t.entry 1).state = .left ∧ t.overrideAt 0 3 = none ∧ t.tune.heldQuarantine = false
       ∧ (t.entry 5).state = .inService ∧ t.tune.unit.map (fun m => (m.voice, m.dest)) = some (5, .b))
      ∧ (((losing true .done).slotDown 0).tune.outcome = .completed ∧ ((losing true .done).slotDown 0).notices.tune = true)
      ∧ (let t := (losing false .done).slotDown 0
         t.tune.check = none ∧ t.overrideAt 0 0 = none ∧ t.tune.unit.map (fun m => (m.voice, m.dest)) = some (4, .cutoff)
           ∧ t.tune.outcome = .running) := by decide +kernel

/-- The checked voice, RETUNING, with and without a pass request that waits for its measurement; and a voice that no check has. -/
theorem witness_AssignmentFillsTheVoice_retuning :
    ((losing false .done).tune.check.map (fun c => c.voice) = some 0 ∧ (losing false .done).tune.requestWaiting = true
        ∧ (losing false .done).tune.service.map (fun x => x.voice) = some 4)
      ∧ ((checking (.counting 0 1)).tune.check.map (fun c => c.voice) = some 0
        ∧ (checking (.counting 0 1)).tune.requestWaiting = false)
      ∧ oneIdle.tune.check = none := by decide

/-- The key takes the checked voice: its measurement is discarded and the pass measures (R25, R104, R133). -/
theorem test_retuning_assigned :
    let t := (losing false .done).assign 0 0 (key 64) 0 (.fromLast false)
    (t.voice 0).state = .sounding ∧ t.tune.check = none ∧ t.overrideAt 0 0 = none
      ∧ t.tune.unit.map (fun m => (m.requester, m.voice, m.dest)) = some (.pass, 4, .cutoff) := by decide +kernel

theorem witness_VoiceOnlineFromOffline :
    ((withVoice0 (asked [7, 1, 0]) (voiceIn .offline)).inHand = some (.voiceOnline 0)
        ∧ ((withVoice0 (asked [7, 1, 0]) (voiceIn .offline)).voice 0).state = .offline)
      ∧ ((asked [7, 1, 15]).inHand = some (.voiceOnline 15) ∧ ((asked [7, 1, 15]).voice 15).state ≠ .offline)
      ∧ ((asked [7, 1, 16]).inHand = some (.voiceOnline 16) ∧ 15 < (16 : Byte).toNat) := by decide

/-- VOICE_OFFLINE of voice 0 in hand, the voice in a state, a check of it in hand and P6 of part 0 at 2. -/
def offlineAsked (x : Service) : State :=
  (withVoice0 ({ asked [8, 1, 0] with tune := (checking (.settling 1)).tune }) (voiceIn x)).setPart 0
    { Part.reset 0 with live := { Patch.default with params := Patch.default.params.set 6 2 } }

theorem witness_VoiceOfflineByState :
    ((asked [8, 1, 16]).inHand = some (.voiceOffline 16) ∧ 15 < (16 : Byte).toNat)
      ∧ (∀ x ∈ [Service.absent, .calibrating, .quarantined, .offline, .idle, .retuning, .releasing, .sounding, .stealGap],
        (offlineAsked x).inHand = some (.voiceOffline 0) ∧ ((offlineAsked x).voice 0).state = x)
      ∧ (((offlineAsked .sounding).voice 0).asg = some asg60
        ∧ 2 ≤ (((offlineAsked .sounding).part asg60.part).live.params[(6 : Fin 25)]).toNat)
      ∧ (offlineAsked .retuning).tune.check = some ⟨0, .a, 5, 100, 10⟩ := by decide

theorem witness_QuarantineReleasedAndFailsCleared :
    ((withVoice0 (asked [9, 1, 0]) (voiceIn .quarantined)).inHand = some (.releaseQuarantine 0)
        ∧ ((withVoice0 (asked [9, 1, 0]) (voiceIn .quarantined)).voice 0).state = .quarantined)
      ∧ ((asked [9, 1, 15]).inHand = some (.releaseQuarantine 15) ∧ ((asked [9, 1, 15]).voice 15).state ≠ .quarantined)
      ∧ ((asked [9, 1, 16]).inHand = some (.releaseQuarantine 16) ∧ 15 < (16 : Byte).toNat)
      ∧ (asked [10, 1, 15]).inHand = some (.clearFails 15) ∧ (asked [10, 1, 16]).inHand = some (.clearFails 16) := by decide

/-! ### Witnesses: tuning and refresh -/

/-- TUNE of voice 0's three destinations in hand, the voice in a state. -/
def tuneAsked (x : Service) : State := withVoice0 (asked [11, 4, 0, 1, 7, 0]) (voiceIn x)

theorem witness_TuneClaimsItsVoices :
    ((passRuns (tuneAsked .idle)).inHand = some (.tune 1 7 0) ∧ (passRuns (tuneAsked .idle)).passRunning = true)
      ∧ ((asked [11, 4, 0, 1, 8, 0]).inHand = some (.tune 1 8 0) ∧ (asked [11, 4, 0, 1, 8, 0]).passRunning = false
        ∧ 7 < (8 : Byte).toNat)
      ∧ (asked [11, 4, 0, 0, 7, 2]).inHand = some (.tune 0 7 2)
      ∧ ((tuneAsked .idle).inHand = some (.tune 1 7 0) ∧ (tuneAsked .idle).passRunning = false
        ∧ ∀ v : Voice, (1 : BitVec 16).getLsbD v.val = true → ((tuneAsked .idle).voice v).state = .idle)
      ∧ (∀ v : Voice, (1 : BitVec 16).getLsbD v.val = true → ((tuneAsked .sounding).voice v).offlinePending = false
        ∧ ((tuneAsked .sounding).voice v).state = .sounding)
      ∧ ∀ v : Voice, (1 : BitVec 16).getLsbD v.val = true → ((tuneAsked .quarantined).voice v).state = .quarantined := by
  decide

/-- A pass begins with the unit free or busy with a check. -/
theorem witness_TuneClaimsItsVoices_service :
    ∀ b ∈ [true, false],
      let s := { tuneAsked .idle with tune := if b then (checking (.settling 1)).tune else Tune.reset }
      s.inHand = some (.tune 1 7 0) ∧ s.passRunning = false ∧ (s.tune.unit.isSome = b)
        ∧ ∀ v : Voice, (1 : BitVec 16).getLsbD v.val = true → (s.voice v).state = .idle := by decide

/-- The first destination's first trial at breakpoint 1 is measured over one cycle of 978,497 ticks (the table of R99); the iteration
is 1 (R110, R111; log entry 36). -/
theorem test_tune_begins :
    nextHas (.tune 1 7 0) (tuneAsked .idle) (fun t =>
      t.tune.unit.map (fun m => (m.voice, m.dest, m.bp)) == some (0, .a, 1)
        && t.tune.unit.map (fun m => (m.window, m.tg)) == some (1, 978497)
        && t.tune.service.map (fun x => x.work.iter) == some 1 && (t.entry 0).state == .inService) = true := by decide +kernel

/-- TUNE of V0 to V2 in hand, with or without force, V0 in a state, V1 SOUNDING and V2 OFFLINE. -/
def tuneMixed (x : Service) (force : Byte) : State :=
  let s := { asked [11, 4, 0, 7, 7, force] with tune := (checking (.settling 1)).tune }
  ((withVoice0 s (voiceIn x)).setVoice 1 (voiceIn .sounding)).setVoice 2 (voiceIn .offline)

theorem witness_TuneClaimsItsVoices_mixed :
    (∀ x ∈ [Service.idle, .retuning], ∀ f ∈ [(0 : Byte), 1], (tuneMixed x f).inHand = some (.tune 7 7 f)
        ∧ (tuneMixed x f).passRunning = false ∧ ((tuneMixed x f).voice 0).state = x
        ∧ ((tuneMixed x f).voice 1).offlinePending = false ∧ ((tuneMixed x f).voice 1).state = .sounding
        ∧ ((tuneMixed x f).voice 2).state = .offline ∧ ∀ v : Voice, ((tuneMixed x f).voice v).state ≠ .calibrating)
      ∧ (tuneMixed .retuning 0).tune.check = some ⟨0, .a, 5, 100, 10⟩ := by decide

/-- TUNE of V0 to V3 for B and cutoff in hand: V0 and V1 in two states, V2 OFFLINE, V3 SOUNDING and offline-pending; V4 is RETUNING, its
check measured. -/
def tuneForced (x y : Service) (force : Byte) : State :=
  let s := (choosing x y .poly 4 [key 60, key 62] false).setVoice 2 (voiceIn .offline)
  let t := (s.setVoice 3 { voiceIn .sounding with offlinePending := true }).setVoice 4 (voiceIn .retuning)
  { t with
    port := (asked [11, 4, 0, 15, 6, force]).port
    tune := { t.tune with check := some ⟨4, .a, 5, 100, 10⟩, unit := some { measure .check (.settling 1) with voice := 4 } } }

theorem witness_TuneClaimsItsVoices_forced :
    (∀ x ∈ [Service.sounding, .stealGap, .releasing, .idle], ∀ f ∈ [(0 : Byte), 1], let s := tuneForced x .sounding f
      s.inHand = some (.tune 15 6 f) ∧ s.passRunning = false ∧ (∀ v, (s.voice v).state ≠ .calibrating)
        ∧ (∀ v, (s.voice v).assignedRight) ∧ s.stampsWithin 16 ∧ s.tune.requestWaiting = false
        ∧ (s.voice 0).state = x ∧ (s.voice 0).offlinePending = false ∧ (s.voice 3).offlinePending = true
        ∧ (s.voice 2).state = .offline ∧ s.tune.check = some ⟨4, .a, 5, 100, 10⟩ ∧ (s.voice 4).state = .retuning)
      ∧ (let s := tuneForced .absent .quarantined 0
         s.inHand = some (.tune 15 6 0) ∧ (s.voice 0).state = .absent ∧ (s.voice 1).state = .quarantined
           ∧ (s.voice 3).state = .sounding) := by
  simp only [VoiceRec.assignedRight, State.stampsWithin]; decide +kernel

/-- A forced TUNE: V0 and V1 are taken and V0 is served, its key goes to V4, whose check is abandoned, and the answer gives the sets and
OFFLINE and OFFLINE_PENDING as reasons; of the entries only the granted have the set of B and cutoff (R43, R47, R107, R110). With
all four refused no pass begins. -/
theorem test_tune_forced :
    nextHas (.tune 15 6 1) (tuneForced .sounding .sounding 1) (fun t =>
        t.port.response == some ⟨.accepted, [0, 3, 0, 0, 0, 12, 0, 0, 2, 4] ++ List.replicate 12 0⟩
          && (t.entry 0).state == .inService && (t.entry 1).state == .waiting && (t.entry 1).inB && (t.entry 1).inCutoff
          && !(t.entry 1).inA && (t.entry 3).reason == .offlinePending && t.tune.force
          && t.tune.unit.map (fun m => (m.voice, m.dest)) == some (0, .b) && t.tune.check == none
          && (t.voice 4).state == .sounding) = true
      ∧ nextHas (.tune 15 6 0) (tuneForced .absent .quarantined 0) (fun t =>
        t.port.response == some ⟨.ok, [0, 15, 1, 3, 2, 4] ++ List.replicate 12 0⟩ && t.tune.outcome == .none) = true := by
  decide +kernel

/-- TUNE_ABORT in hand with voice 0 in service. -/
def abortAsked : State := { asked [12, 0] with tune := (serving 1 (.settling 1)).tune }

theorem witness_TuneAbortEndsThePass :
    ((asked [12, 0]).inHand = some .tuneAbort ∧ (asked [12, 0]).passRunning = false)
      ∧ abortAsked.inHand = some .tuneAbort ∧ abortAsked.passRunning = true ∧ abortAsked.tune.service.isSome = true
      ∧ abortAsked.tune.unit = some (measure .pass (.settling 1)) ∧ (abortAsked.entry 0).state = .notInPass := by decide

/-- TUNE_ABORT in hand with V0 in service for the cutoff, with or without a quarantine request, V1 PENDING and V5, V9 WAITING. -/
def aborting (held : Bool) : State :=
  let t := (losing true .waiting).setEntry 9 { PassEntry.reset with state := .waiting, inA := true }
  { t with port := (asked [12, 0]).port, tune := { t.tune with heldQuarantine := held } }

theorem witness_TuneAbortEndsThePass_service :
    ∀ held ∈ [true, false], (aborting held).inHand = some .tuneAbort ∧ (aborting held).passRunning = true
      ∧ (aborting held).tune.service.map (fun x => (x.voice, x.dest)) = some (0, .cutoff)
      ∧ ((aborting held).entry 0).state = .inService ∧ (aborting held).tune.heldQuarantine = held
      ∧ ((aborting held).entry 1).state = .pending ∧ ((aborting held).entry 5).state = .waiting
      ∧ ((aborting held).entry 9).state = .waiting ∧ (aborting held).overrideAt 0 3 = some 7 := by decide +kernel

/-- The abort gives V0, V5 and V9 back in ascending order, withdraws the resonance override and shows RESTORED (R22, R119). -/
theorem test_abort :
    nextHas .tuneAbort (aborting false) (fun t =>
        (t.voice 0).lastFree == 1 && (t.voice 5).lastFree == 2 && (t.voice 9).lastFree == 3 && t.stamp == 3
          && (t.entry 0).sumCutoff.state == .restored && t.overrideAt 0 3 == none) = true
      ∧ nextHas .tuneAbort (aborting true) (fun t =>
        (t.voice 0).state == .quarantined && (t.voice 5).lastFree == 1 && t.notices.health == 1) = true := by decide +kernel

theorem witness_PlanMonitorAndPanelAreSet :
    (asked [14, 4, 10, 11, 0, 1]).inHand = some (.setTunePlan 10 11 0 1)
      ∧ ((asked [17, 2, 15, 23]).inHand = some (.setMonitor 15 23) ∧ (15 : Byte).toNat = (15 : Voice).val
        ∧ (23 : Byte).toNat = (23 : DestNo).val)
      ∧ (asked [17, 2, 0x40, 0]).inHand = some (.setMonitor 0x40 0) ∧ (asked [17, 2, 0x41, 9]).inHand = some (.setMonitor 0x41 9)
      ∧ (asked [17, 2, 16, 0]).inHand = some (.setMonitor 16 0) ∧ (asked [17, 2, 15, 24]).inHand = some (.setMonitor 15 24)
      ∧ (asked [24, 2, 4, 64]).inHand = some (.setPanel 4 64) ∧ (asked [24, 2, 5, 0]).inHand = some (.setPanel 5 0) := by decide

/-- 78 bytes of a transfer record with both baselines at 16,000,000 = 0xF42400, or one above it. -/
def transfer (last : Byte) : List Byte := List.replicate 72 0x11 ++ [0xF4, 0x24, 0x00, 0xF4, 0x24, last]

/-- WRITE_CAL of a voice in hand. -/
def writeAsked (voice last : Byte) : State := asked (16 :: 79 :: voice :: transfer last)

theorem witness_WriteCalReadsBack :
    ((writeAsked 16 0).inHand = some (.writeCal 16 (transfer 0)) ∧ 15 < (16 : Byte).toNat)
      ∧ ((writeAsked 0 1).inHand = some (.writeCal 0 (transfer 1)) ∧ 16000000 < recordBaseline (transfer 1) 75)
      ∧ ((writeAsked 0 0).inHand = some (.writeCal 0 (transfer 0)) ∧ recordBaseline (transfer 0) 72 ≤ 16000000
        ∧ recordBaseline (transfer 0) 75 ≤ 16000000 ∧ ((writeAsked 0 0).voice 0).state = .absent)
      ∧ ((withVoice0 (writeAsked 0 0) (voiceIn .idle)).voice 0).state ≠ .offline := by decide +kernel

theorem witness_MeasurementPhasesAdvance :
    ((measuring .pass (.settling 2)).tune.unit = some (measure .pass (.settling 2)) ∧ 2 ≤ 2)
      ∧ (measuring .pass (.settling 1)).tune.unit = some (measure .pass (.settling 1))
      ∧ (measuring .pass .waitWrite).tune.unit = some (measure .pass .waitWrite)
      ∧ ((measuring .pass (.waitEdge 30)).tune.unit = some (measure .pass (.waitEdge 30)) ∧ 30 + 9 < 4 * 10 ∧ 4 * 10 ≤ 30 + 10)
      ∧ ((measuring .pass (.counting 10 0)).tune.unit = some (measure .pass (.counting 10 0)) ∧ 2 * 10 ≤ 10 + 10
        ∧ 10 + 9 < 2 * 10 ∧ 0 + 1 < 2)
      ∧ ((measuring .pass (.counting 10 1)).tune.unit = some (measure .pass (.counting 10 1)) ∧ 2 ≤ 1 + 1) :=
  ⟨⟨rfl, by decide⟩, rfl, rfl, ⟨rfl, by decide⟩, ⟨rfl, by decide⟩, ⟨rfl, by decide⟩⟩

theorem witness_CheckCompletesAtItsMeasurement :
    (checking (.counting 0 0)).failsFit
      ∧ ((checking (.counting 9 1)).tune.unit = some (measure .check (.counting 9 1))
        ∧ (checking (.counting 9 1)).tune.check = some ⟨0, .a, 5, 100, 10⟩
        ∧ (checking (.counting 9 1)).tune.requestWaiting = false ∧ 9 ≤ 19 ∧ 19 < 2 * 10)
      ∧ ((10 : Int) - 10).natAbs * 65536 ≤ 10 * State.reset.settings.tolerance
      ∧ ¬ ((19 : Int) - 10).natAbs * 65536 ≤ 10 * State.reset.settings.tolerance
      ∧ (checking (.waitEdge 39)).tune.unit = some (measure .check (.waitEdge 39)) := by
  refine ⟨by unfold State.failsFit; decide, ⟨rfl, rfl, rfl, by decide, by decide⟩, by decide, by decide, rfl⟩

/-- A check ends while the pass waits for the unit; its code at the low and at the high rail; a target near its bound. -/
theorem witness_CheckCompletesAtItsMeasurement_finding :
    (∀ b ∈ [true, false], let s : State := { checking (.counting 9 1) with
        tune := { (checking (.counting 9 1)).tune with
          requestWaiting := b, service := some ⟨1, .a, Working.begin CalEntry.reset (1, 9)⟩ } }
      s.tune.unit = some (measure .check (.counting 9 1)) ∧ s.tune.check = some ⟨0, .a, 5, 100, 10⟩
        ∧ s.tune.service = some ⟨1, .a, Working.begin CalEntry.reset (1, 9)⟩ ∧ (1 : Voice) ≠ 0)
      ∧ (∀ i ∈ [9, 11, 20], ¬ ((i : Int) - 10).natAbs * 65536 ≤ 10 * State.reset.settings.tolerance)
      ∧ (codeStep 5461 9 10 = -788 ∧ codeStep 5461 20 10 = 2730)
      ∧ (-2047 ≤ 2047 + codeStep 5461 9 10 ∧ 2047 < 2047 + codeStep 5461 20 10 ∧ -2047 + codeStep 5461 9 10 < -2047) := by
  decide

/-- 6.2 and 7.3: the step of a pass and of a check, and the bound on a TOO_SLOW (R105). -/
theorem test_codeStep :
    codeStep 5460 124100 122312 = 115 ∧ codeStep 5575 122600 122312 = 19 ∧ codeStep 5460 244624 122312 = 2730
      ∧ codeStep 5460 122311 122312 = -1 := by decide

/-- R134 at its counts of 3 and 3: the third large finding sets the alarm, and the third small one clears it; a target of 400
is not above the level of 400. -/
theorem test_alarm :
    (∀ x ∈ [(401, 2, 3, true), (-401, 1, 2, false), (400, 2, 0, false)],
      (({ Drift.reset with target := x.1, overCount := x.2.1 } : Drift).evaluate 400 3 3).overCount = x.2.2.1
        ∧ (({ Drift.reset with target := x.1, overCount := x.2.1 } : Drift).evaluate 400 3 3).alarm = x.2.2.2)
      ∧ (({ Drift.reset with alarm := true, underCount := 2 } : Drift).evaluate 400 3 3).alarm = false
      ∧ (({ Drift.reset with alarm := true, underCount := 1 } : Drift).evaluate 400 3 3).alarm = true := by decide

/-- Voice 0 IDLE for 60,000 frames, its VCO-A CALIBRATED. -/
def rested : State :=
  (withVoice0 State.reset { voiceIn .idle with idle := 60000 }).setCal 0 .a { CalEntry.reset with status := .calibrated }

theorem witness_CheckBeginsOnTheVoiceCheckedLongestAgo :
    (State.reset.tune.unit = none ∧ State.reset.tune.check = none ∧ State.reset.tune.requestWaiting = false
        ∧ ∀ v : Voice, (State.reset.voice v).state ≠ .idle)
      ∧ rested.tune.unit = none ∧ rested.tune.check = none ∧ rested.tune.requestWaiting = false
      ∧ (rested.settings.backgroundChecks = true ∧ rested.passRunning = false ∧ (rested.voice 0).state = .idle
        ∧ rested.settings.idleDwell ≤ (rested.voice 0).idle ∧ (rested.cal 0 Osc.a.tuned).status = .calibrated)
      ∧ ∀ v : Voice, (rested.stamp - (rested.voice v).lastCheckStamp).toNat < 2 ^ 31 := by decide

/-- The measurement of a check at breakpoint 5: one cycle below the window shift and 2^(k - shift) from it on, and the target count
from it (R99). -/
theorem test_window :
    nextHas .tuneFrameExpiry rested (fun t => t.tune.unit.map (fun m => (m.bp, m.window, m.tg)) == some (5, 2, 122312)) = true
      ∧ nextHas .tuneFrameExpiry { rested with settings := { rested.settings with windowShift := 6 } } (fun t =>
        t.tune.unit.map (fun m => (m.bp, m.window, m.tg)) == some (5, 1, 61156)) = true := by decide +kernel

/-- V0 and V3 eligible with one last-check stamp. -/
def restedTwo : State :=
  (rested.setVoice 3 { voiceIn .idle with idle := 65535 }).setCal 3 .b { CalEntry.reset with status := .part }

theorem witness_CheckBeginsOnTheVoiceCheckedLongestAgo_tie :
    (restedTwo.tune.unit = none ∧ restedTwo.tune.check = none ∧ restedTwo.tune.requestWaiting = false)
      ∧ ((restedTwo.voice 3).state = .idle ∧ restedTwo.settings.idleDwell ≤ (restedTwo.voice 3).idle
        ∧ (restedTwo.cal 3 Osc.b.tuned).status = .part ∧ (restedTwo.cal 0 Osc.a.tuned).status = .calibrated)
      ∧ (restedTwo.voice 3).lastCheckStamp = (restedTwo.voice 0).lastCheckStamp
      ∧ ∀ v : Voice, (restedTwo.stamp - (restedTwo.voice v).lastCheckStamp).toNat < 2 ^ 31 := by decide

/-- Of two voices with one last-check stamp the lowest-numbered is checked (R22, R128). -/
theorem test_check_tie :
    nextHas .tuneFrameExpiry restedTwo (fun t => t.tune.check.map (fun c => (c.voice, c.dest)) == some (0, .a)) = true := by
  decide +kernel

theorem witness_PassTakesAnOutcome :
    (serving 8 (.counting 0 1)).tuneFit
      ∧ (∃ x, (serving 8 (.counting 0 1)).tune.service = some x ∧ x.work.bp < x.work.hi ∧ x.work.iter < 8
        ∧ x.work.trial ≠ 0 ∧ x.work.trial ≠ 0xFFFF)
      ∧ (serving 8 (.counting 0 1)).tune.unit = some (measure .pass (.counting 0 1))
      ∧ (serving 8 (.counting 0 1)).settings.maxIterations = 8
      ∧ ((10 : Int) - 10).natAbs * 65536 ≤ 10 * State.reset.settings.tolerance
      ∧ ¬ ((19 : Int) - 10).natAbs * 65536 ≤ 10 * State.reset.settings.tolerance
      ∧ (serving 9 (.waitEdge 0)).tune.unit = some (measure .pass (.waitEdge 0)) := by
  refine ⟨?_, ⟨_, rfl, by decide, by decide, by decide, by decide⟩, rfl, rfl, by decide, by decide, rfl⟩
  unfold State.tuneFit
  refine ⟨by decide, by decide, by decide, by decide, fun x hx => ?_⟩
  cases hx
  decide

/-- Voice 0's work at breakpoint `bp` of VCO-A, with its trial, iterations and counts. -/
def workAt (bp : Nat) (trial : Code) (iter : Nat) (counts : Vector (Option Nat) 12) : Working :=
  { Working.begin CalEntry.reset (1, 9) with bp := bp, trial := trial, iter := iter, counts := counts }

/-- Voice 0 CALIBRATING and in service for VCO-A with some work, its entry naming VCO-A and perhaps VCO-B, and voice 1's entry
in a state. -/
def ending (w : Working) (inB : Bool) (other : EntryState) (x : Phase) : State :=
  let e : PassEntry := { PassEntry.reset with state := .inService, inA := true, inB := inB }
  let s := withVoice0 (serving 9 x) (voiceIn .calibrating)
  let t := (s.setEntry 0 e).setEntry 1 { PassEntry.reset with state := other, inCutoff := true }
  { t with tune := { t.tune with service := some ⟨0, .a, w⟩ } }

/-- Outside tolerance with the trial off its rail, with it at the low and at the high rail, and with the iterations used up. -/
theorem witness_PassTakesAnOutcome_rails :
    (measure .pass (.counting 0 1)).tg = 10
      ∧ (∀ i ∈ [9, 20], ¬ ((i : Int) - 10).natAbs * 65536 ≤ 10 * State.reset.settings.tolerance)
      ∧ ((workAt 8 0 1 (Vector.replicate 12 none)).trial = 0 ∧ 9 < 10)
      ∧ ((workAt 8 0xFFFF 1 (Vector.replicate 12 none)).trial = 0xFFFF ∧ 10 < 20)
      ∧ ((workAt 8 100 8 (Vector.replicate 12 none)).iter = State.reset.settings.maxIterations
        ∧ (workAt 8 100 8 (Vector.replicate 12 none)).bp < (workAt 8 100 8 (Vector.replicate 12 none)).hi
        ∧ tableAt (workAt 8 100 8 (Vector.replicate 12 none)).counts 8 none = none) := by decide

/-- Two converged breakpoints with the last one, and one alone. -/
def metCounts (n : Nat) : Vector (Option Nat) 12 := if n = 2 then (Vector.replicate 12 none).set 8 (some 10) else Vector.replicate 12 none

theorem witness_DestinationEndsAndThePassGoesOn :
    (∀ n ∈ [1, 2], ∀ inB ∈ [true, false], ∀ x ∈ [EntryState.waiting, .pending, .done],
      ∀ y ∈ [Phase.counting 10 1, .counting 0 0, .waitEdge 39],
        let s := ending (workAt 9 100 8 (metCounts n)) inB x y
        s.tune.unit = some (measure .pass y) ∧ s.tune.service = some ⟨0, .a, workAt 9 100 8 (metCounts n)⟩
          ∧ s.passRunning = true ∧ (s.entry 1).state = x ∧ (s.voice 0).fails < 255
          ∧ Tuned.a.after.find? (s.entry 0).has = if inB then some .b else none)
      ∧ (∀ n ∈ [1, 2], (((workAt 9 100 8 (metCounts n)).counts.set 9 (some 10)).toList.filter Option.isSome).length = n)
      ∧ ((10 : Int) - 10).natAbs * 65536 ≤ 10 * State.reset.settings.tolerance ∧ 10 < 2 * 10
      ∧ (¬ ((20 : Int) - 10).natAbs * 65536 ≤ 10 * State.reset.settings.tolerance ∧ State.reset.settings.maxIterations ≤ 8)
      ∧ (∀ x ∈ [EntryState.pending, .done], ∀ u : Voice, u ≠ 0 →
        ((ending (workAt 9 100 8 (metCounts 2)) false x (.waitEdge 39)).entry u).state ≠ .waiting)
      ∧ (∀ u : Voice, u ≠ 0 → ((ending (workAt 9 100 8 (metCounts 2)) false .done (.waitEdge 39)).entry u).state ≠ .pending)
      ∧ ((ending (workAt 9 100 8 (metCounts 2)) false .waiting (.waitEdge 39)).entry 1).inCutoff = true := by
  decide

theorem witness_DestinationEndsAndThePassGoesOn_tuneFit : (ending (workAt 9 100 8 (metCounts 2)) false .done (.waitEdge 39)).tuneFit := by
  refine ⟨by decide, by decide, by decide, by decide, fun x hx => ?_⟩
  cases hx
  decide

/-- A commit with a voice waiting: it ends in service, and voice 0 is IDLE (R110, R117). -/
theorem test_passGoesOn :
    nextHas (.measurementComplete 10) (ending (workAt 9 100 8 (metCounts 2)) false .waiting (.counting 10 1)) (fun t =>
      (t.voice 0).state == .idle && (t.cal 0 .a).status == .part && (t.entry 1).state == .inService
        && t.tune.unit.map (fun m => m.dest) == some .cutoff && t.overrideAt 1 3 == some 0xFFFF) = true := by decide +kernel

/-- The refresh engine at a channel. -/
def refreshAt (c : Fin 386) : State := { State.reset with refresh := { State.reset.refresh with pos := c } }

theorem witness_ChannelSlotWritesItsChannel :
    ((refreshAt 383).refresh.completionDue = false ∧ (refreshAt 383).refresh.pos.val = 24 * (15 : Voice).val + (23 : DestNo).val
        ∧ (refreshAt 383).overrideAt 15 23 = none ∧ (refreshAt 383).refresh.sel ≠ .voice 15 23)
      ∧ (((refreshAt 0).setOverride 0 0 (some 100)).overrideAt 0 0 = some 100 ∧ (refreshAt 0).refresh.sel = .voice 0 0)
      ∧ (refreshAt 384).refresh.pos.val = 384 ∧ (refreshAt 385).refresh.pos.val = 385
      ∧ ((measuring .check .waitWrite).tune.unit = some (measure .check .waitWrite)
        ∧ (measure .check .waitWrite).dest.number = 0 ∧ (measure .check .waitWrite).code = 100) := by decide

/-- A report of V0's VCO-A while the measurement waits for another code or destination, or is past its write. -/
def reporting (code : Code) (d : Tuned) (x : Phase) : State :=
  { (refreshAt 0).setOverride 0 0 (some 100) with
    tune := { Tune.reset with unit := some { measure .check x with code := code, dest := d } } }

theorem witness_ChannelSlotWritesItsChannel_reports :
    ∀ y ∈ [(101, .a, .waitWrite), (100, .b, .waitWrite), (100, .a, .settling 3), (100, .a, Phase.waitEdge 0)],
      (reporting y.1 y.2.1 y.2.2).overrideAt 0 0 = some 100
        ∧ (reporting y.1 y.2.1 y.2.2).tune.unit = some { measure .check y.2.2 with code := y.1, dest := y.2.1 }
        ∧ (y.2.2 ≠ .waitWrite ∨ Tuned.number y.2.1 ≠ 0 ∨ y.1 ≠ 100)
        ∧ nextHas .channelSlotExpiry (reporting y.1 y.2.1 y.2.2) (fun t => t.tune == (reporting y.1 y.2.1 y.2.2).tune) = true := by
  decide +kernel

/-- MOD or PEDAL selected by the monitor, at its channel. -/
def monitored (c : Fin 386) (m : MonSel) : State :=
  { refreshAt c with refresh := { (refreshAt c).refresh with sel := m } }

/-- The monitor's facts of a global channel: computed, the value scaled, no segment and no fraction (R80). -/
theorem witness_ChannelSlotWritesItsChannel_global :
    ((monitored 384 .mod).refresh.pos.val = 384 ∧ (monitored 384 .mod).refresh.sel = .mod
        ∧ (monitored 385 .pedal).refresh.pos.val = 385 ∧ (monitored 385 .pedal).refresh.sel = .pedal
        ∧ (monitored 384 .mod).refresh.completionDue = false)
      ∧ nextHas .channelSlotExpiry (monitored 384 .mod) (fun t =>
        t.refresh.facts == some ⟨0, .computed, some 0, none, none, 0⟩) = true := by decide +kernel

/-- A completion due, with voice 0 SOUNDING and its VCO-A drift 5 codes from its target. -/
def gearing (target : Int) : State :=
  withVoice0 { State.reset with refresh := { State.reset.refresh with completionDue := true } }
    { voiceIn .sounding with driftA := { Drift.reset with target := target } }

theorem witness_RoundCompletionGearsDrift :
    State.reset.refresh.completionDue = false ∧ (gearing 5).refresh.completionDue = true
      ∧ (((gearing 5).voice 0).state = .sounding ∧ (((gearing 5).settings.gearStep : Int) < ((5 : Int) - 0).natAbs))
      ∧ (((gearing (-5)).settings.gearStep : Int) < ((-5 : Int) - 0).natAbs)
      ∧ ¬ ((gearing 4).settings.gearStep : Int) < ((4 : Int) - 0).natAbs := by decide

/-- V5 of 3.7, A sounding voice: its patch, its codes and its drift, on voice 0. -/
def soundingVoice : State :=
  let live := { Patch.default with
    params := (((Patch.default.params.set 1 2700).set 2 2000).set 3 1700).set 4 3072 |>.set 5 3000 |>.set 6 1000 }
  let s := (withVoice0 State.reset { voiceIn .sounding with
      pitch := 3840, driftA := { Drift.reset with applied := 37 }, driftB := { Drift.reset with applied := -12 } }).setPart 0
    { Part.reset 0 with live := live, bend := 4096, fineTune := 10 }
  (s.setCal 0 .a { CalEntry.reset with codes := (CalEntry.reset.codes.set 5 24000).set 6 30000 }).setCal 0 .b
    { CalEntry.reset with codes := (CalEntry.reset.codes.set 5 23800).set 6 29750 }

/-- The codes of 3.7 for VCO-A, VCO-B, P5, P6 and velocity, the pitch inputs, and the key tracking below the pivot. -/
theorem test_sounding_voice :
    (voiceCode soundingVoice 0 0).code = 24615 ∧ (voiceCode soundingVoice 0 0).input = 3914
      ∧ (voiceCode soundingVoice 0 1).code = 28312 ∧ (voiceCode soundingVoice 0 1).input = 4424
      ∧ (voiceCode soundingVoice 0 2).input = 3400 ∧ (voiceCode soundingVoice 0 3).code = 48011
      ∧ (voiceCode soundingVoice 0 4).code = 16003 ∧ (voiceCode soundingVoice 0 23).code = 51600
      ∧ track 3072 2880 = -720 := by decide

theorem witness_EachDestinationHasItsCode :
    (8191 ≤ 8191 ∧ 10 ≤ 10 ∧ 8191 / 768 = 10)
      ∧ ((soundingVoice.voice 0).asg = some asg60 ∧ asg60.velocity ≤ 127) ∧ (soundingVoice.voice 1).asg = none
      ∧ (3 ≤ (3 : DestNo).val ∧ (5 : Fin 25).val = (3 : DestNo).val + 2)
      ∧ (22 : DestNo).val + 2 = (24 : Fin 25).val := by decide

/-! ### Witnesses: card slots -/

theorem witness_DetectEdgeAndRemoval :
    (State.reset.card 0).raw .left = false
      ∧ ((State.reset.card 0).raw .right ≠ true ∧ (State.reset.card 0).state = .empty)
      ∧ (((withCardA (cardIn .powered 0)).card 0).raw .left = true
        ∧ ((withCardA (cardIn .powered 0)).card 0).removalPending = false
        ∧ ((withCardA (cardIn .powered 0)).card 0).state = .powered)
      ∧ ((withCardA (cardIn .seated 0)).card 0).state ≠ .powered := by decide

theorem witness_SlotFramesDebounceAndReady :
    (∀ k : CardNo, ((withCardA (cardIn .empty 2)).card k).debounce ≠ 1 ∧ ((withCardA (cardIn .empty 2)).card k).state ≠ .powering
        ∧ ((withCardA (cardIn .empty 2)).card k).state ≠ .powered)
      ∧ (((withCardA (cardIn .empty 1)).card 0).debounce = 1 ∧ ((withCardA (cardIn .empty 1)).card 0).rawLeft = true)
      ∧ ((withCardA { cardIn .empty 1 with rawLeft := false, rawRight := false }).card 0).rawRight = false
      ∧ ((withCardA { cardIn .seated 1 with rawLeft := false, removalPending := true }).card 0).removalPending = true
      ∧ (((withCardA (cardIn .powering 0)).card 0).state = .powering ∧ ((withCardA (cardIn .powering 0)).card 0).debounce = 0
        ∧ (1 : BitVec 4).getLsbD 0 = true ∧ State.reset.settings.autoTune = false
        ∧ ∀ j : CardNo, j ≠ 0 → ((withCardA (cardIn .powering 0)).card j).debounce = 0
          ∧ ((withCardA (cardIn .powering 0)).card j).state = .empty)
      ∧ (2 ≤ ((withCardA { cardIn .powering 0 with readyTimer := 2 }).card 0).readyTimer
        ∧ ((withCardA { cardIn .powering 0 with readyTimer := 1 }).card 0).readyTimer = 1)
      ∧ (((withCardA (cardIn .powered 0)).card 0).state = .powered ∧ ((withCardA (cardIn .powered 0)).card 0).debounce = 0
        ∧ (0 : BitVec 4).getLsbD 0 = false ∧ ∀ j : CardNo, j ≠ 0 → ((withCardA (cardIn .powered 0)).card j).debounce = 0
          ∧ ((withCardA (cardIn .powered 0)).card j).state = .empty) := by decide

/-- Slot A POWERING with auto tune on, all of whose destinations are NOMINAL, with or without a pass that serves voice 4. -/
def tunedIn (b : Bool) : State :=
  let s := withCardA (cardIn .powering 0)
  { s with
    settings := { s.settings with autoTune := true }
    tune := if b then { s.tune with outcome := .running, service := some ⟨4, .a, Working.begin CalEntry.reset (1, 9)⟩ }
      else s.tune }

theorem witness_PoweredSlotTunesItsVoices :
    (∀ b ∈ [true, false], ((tunedIn b).card 0).state = .powering ∧ ((tunedIn b).card 0).debounce = 0
        ∧ (1 : BitVec 4).getLsbD 0 = true ∧ (tunedIn b).settings.autoTune = true ∧ (tunedIn b).passRunning = b
        ∧ ((tunedIn b).cal 3 .cutoff).status = .nominal
        ∧ (∀ v : Voice, ((tunedIn b).voice v).state = .absent)
        ∧ ∀ j : CardNo, j ≠ 0 → ((tunedIn b).card j).debounce = 0 ∧ ((tunedIn b).card j).state = .empty)
      ∧ (tunedIn true).tune.service = some ⟨4, .a, Working.begin CalEntry.reset (1, 9)⟩ := by decide

/-- The slot of `tunedIn` while a pass waits for V5's tail, the unit free or carrying a measurement; V1 needs no tuning. -/
def tunedInWaiting (x : Option Measurement) : State :=
  let s := (tunedIn true).setEntry 5 { PassEntry.reset with state := .pending, inA := true }
  let e : CalEntry := { CalEntry.reset with status := .calibrated }
  { s.setCalRecord 1 ⟨e, e, e⟩ with tune := { (s.setCalRecord 1 ⟨e, e, e⟩).tune with service := none, unit := x } }

theorem witness_PoweredSlotTunesItsVoices_waiting :
    ∀ x ∈ [none, some (measure .check (.settling 2))], let s := tunedInWaiting x
      (s.card 0).state = .powering ∧ (s.card 0).debounce = 0 ∧ s.settings.autoTune = true ∧ s.passRunning = true
        ∧ s.tune.service = none ∧ (∀ v : Voice, (s.entry v).state ≠ .waiting) ∧ s.tune.unit = x
        ∧ (∀ v : Voice, (s.voice v).state = .absent) ∧ (s.cal 0 .a).status = .nominal
        ∧ (∀ d ∈ [Tuned.a, .b, .cutoff], (s.cal 1 d).status = .calibrated) ∧ s.settings.autoOnline = true
        ∧ ∀ j : CardNo, j ≠ 0 → (s.card j).debounce = 0 ∧ (s.card j).state = .empty := by decide +kernel

/-- V0 is served at once and asks for the unit, V2 and V3 wait, V1 comes back IDLE, V5 stays PENDING (R89, R104, R108, R110). -/
theorem test_tuned_in_waiting :
    nextHas (.slotFrameExpiry 1) (tunedInWaiting none) (fun t =>
        (t.entry 0).state == .inService && (t.entry 2).state == .waiting && (t.entry 5).state == .pending
          && t.tune.unit.map (fun m => (m.requester, m.voice, m.dest)) == some (.pass, 0, .a)
          && (t.voice 1).state == .idle && (t.voice 1).lastFree == 1 && t.stamp == 1) = true
      ∧ nextHas (.slotFrameExpiry 1) (tunedInWaiting (some (measure .check (.settling 2)))) (fun t =>
        (t.entry 0).state == .inService && t.tune.requestWaiting
          && t.tune.unit == some (measure .check (.settling 2))) = true := by decide +kernel

theorem witness_SlotFramesDebounceAndReady_expiry :
    (((withCardA (cardIn .half 1)).card 0).debounce = 1 ∧ ((withCardA (cardIn .half 1)).card 0).state = .half)
      ∧ (∀ n ∈ [2, 1], ((withCardA { cardIn .powering 0 with readyTimer := n }).card 0).readyTimer = n
        ∧ ((withCardA { cardIn .powering 0 with readyTimer := n }).card 0).debounce = 0 ∧ (0 : BitVec 4).getLsbD 0 = false)
      ∧ ∀ j : CardNo, j ≠ 0 → ((withCardA (cardIn .half 1)).card j).debounce = 0
        ∧ ((withCardA (cardIn .half 1)).card j).state = .empty := by decide

/-- Slot A POWERED, B POWERING with its debounce at `n`, C POWERING with its ready timer at 1, D settling an insertion; V0 SOUNDING a
key that its part holds. -/
def fourSlots (n : Nat) : State :=
  ((((choosing .sounding .absent .poly 4 [key 60] false).setCard 0 (cardIn .powered 0)).setCard 1 (cardIn .powering n)).setCard 2
    { cardIn .powering 0 with readyTimer := 1 }).setCard 3 (cardIn .half 1)

theorem witness_SlotFramesDebounceAndReady_slots :
    (∀ n ∈ [1, 2], let s := (fourSlots n).onlySlot 1
      (s.card 1).state = .powering ∧ (s.card 1).debounce = n ∧ (s.card 1).removalPending = false ∧ (s.card 1).rawLeft = true
        ∧ (s.card 1).rawRight = true ∧ ∀ j : CardNo, j ≠ 1 → (s.card j).debounce = 0 ∧ (s.card j).state = .empty)
      ∧ (let s := withCardA (cardIn .seated 1)
         (s.card 0).debounce = 1 ∧ (s.card 0).rawLeft = true ∧ (s.card 0).rawRight = true ∧ (s.card 0).removalPending = false
           ∧ (s.card 0).state ≠ .empty ∧ (s.card 0).state ≠ .half)
      ∧ ∀ v : Voice, v.val / 4 = 1 → ((fourSlots 0).voice v).state = .absent := by decide +kernel

/-- One expiry of four slots, in order: A's ready is lost before B's voices come back, so key 60 finds no voice at its re-home;
C times out and D is powered (R84, R88, R90). -/
theorem test_four_slots :
    nextHas (.slotFrameExpiry 2) (fourSlots 2) (fun t =>
      (t.card 0).state == .powerFault && (t.card 1).state == .powered && (t.card 1).debounce == 1
        && (t.card 2).state == .powerFault && (t.card 3).state == .powering && (t.voice 0).state == .absent
        && (t.voice 4).state == .idle && (t.voice 4).lastFree == 6 && t.count 0 == 0 && t.notices.card == 15) = true := by
  decide +kernel

/-- CARD_POWER of slot A in hand, the slot in a state. -/
def powerAsked (on : Byte) (x : CardState) : State := (asked [19, 2, 0, on]).setCard 0 (cardIn x 0)

theorem witness_CardPowerByState :
    ((asked [19, 2, 4, 0]).inHand = some (.cardPower 4 0) ∧ (asked [19, 2, 3, 2]).inHand = some (.cardPower 3 2))
      ∧ ∀ x ∈ [CardState.empty, .half, .seated, .powering, .powered, .powerFault],
        ((powerAsked 1 x).inHand = some (.cardPower 0 1) ∧ (powerAsked 0 x).inHand = some (.cardPower 0 0)
          ∧ ((powerAsked 1 x).card 0).state = x ∧ ((powerAsked 1 x).card 0).removalPending = false) := by decide

/-! ### Witnesses: panel and patches -/

/-- Channel 0 in use for parameter 0, with a filtered value of 16,000 and a reported value of 1000. -/
def knob (x : Role) (y : Pickup) : Channel :=
  { Channel.reset 0 with role := x, initialised := true, raw := 1000, filtered := 16000, reported := 1000, pickup := y }

/-- The first conversion of 8.3's knob is accepted at deadband 8; a raw of 1007 gives a candidate 1 away, which is not. -/
theorem witness_ScanSlotConvertsItsChannel :
    (withChannel0 State.reset (knob (.parameter 0) .live)).filtersFit
      ∧ (State.reset.channel 0).initialised = false ∧ (State.reset.channel 31).role = .parked
      ∧ (∀ x ∈ [Role.parameter 0, .bend, .mod, .pedal, .parked],
        ((withChannel0 State.reset (knob x .live)).channel 0).role = x)
      ∧ 8 ≤ (((filterStep 16000 1100 2 / 16 : Nat) : Int) - 1000).natAbs
      ∧ ¬ 8 ≤ (((filterStep 16000 1007 2 / 16 : Nat) : Int) - 1000).natAbs
      ∧ ((withChannel0 State.reset (knob (.parameter 0) .waitRise)).channel 0).pickup = .waitRise
      ∧ ((withChannel0 State.reset { Channel.reset 0 with armPending := true }).channel 0).armPending = true := by
  refine ⟨by unfold State.filtersFit; decide, by decide, by decide, by decide, by decide, by decide, by decide, by decide⟩

/-- An accepted change of a MOD channel moves the MOD value alone of the panel's settings, and one of a parameter moves none (R146). -/
theorem test_panel_frame :
    (∀ x ∈ [Role.mod, .pedal, .bend, .parameter 0], nextHas (.scanSlotExpiry 1100) (withChannel0 State.reset (knob x .live)) (fun t =>
      t.panel.shift == State.reset.panel.shift && t.panel.deadband == State.reset.panel.deadband
        && (t.panel.modValue == 0) == (x != .mod) && (t.panel.pedalValue == 0) == (x != .pedal)
        && (t.channel 0).reported == 1025) = true) := by decide +kernel

/-- Channel 0 a LIVE knob of P0 with its notices on, channel 1 one of P0 in PICKUP mode, with an entry of a channel in the list. -/
def twoKnobs (c : ChannelNo) : State :=
  let s := (withChannel0 State.reset { knob (.parameter 0) .live with notify := true }).setChannel 1 (knob (.parameter 0) .live)
  { s with
    panel := { s.panel with changes := [⟨c, 0, 9, 7⟩] }, notices := { s.notices with panel := true } }

/-- The panel write arms channel 1 and takes the place of channel 0's entry, or comes after channel 1's. -/
theorem witness_ScanSlotConvertsItsChannel_write :
    (twoKnobs 0).filtersFit ∧ (twoKnobs 0).changesRight ∧ (twoKnobs 1).changesRight
      ∧ ((twoKnobs 0).panel.changes = [] ++ ⟨0, 0, 9, 7⟩ :: [] ∧ ∀ x ∈ (twoKnobs 1).panel.changes, x.channel ≠ 0)
      ∧ (((twoKnobs 0).channel 0).notify = true ∧ ((twoKnobs 0).channel 0).pickup = .live)
      ∧ (((twoKnobs 0).channel 1).role = .parameter 0 ∧ ((twoKnobs 0).channel 1).pickupMode = true)
      ∧ 8 ≤ (((filterStep 16000 1100 2 / 16 : Nat) : Int) - 1000).natAbs := by
  refine ⟨by unfold State.filtersFit; decide, by unfold State.changesRight; decide, by unfold State.changesRight; decide,
    by decide, by decide, by decide, by decide⟩

theorem witness_ChannelsFocusAndChangeList :
    ((asked [21, 4, 32, 0, 0, 0]).inHand = some (.setChannel 32 0 0 0) ∧ (asked [21, 4, 31, 36, 2, 2]).inHand = some (.setChannel 31 36 2 2)
        ∧ ∀ i : Fin 25, (25 : Byte).toNat ≠ (Role.parameter i).code)
      ∧ ((asked [21, 4, 0, 24, 1, 1]).inHand = some (.setChannel 0 24 1 1) ∧ (24 : Byte).toNat = (Role.parameter 24).code
        ∧ ((asked [21, 4, 0, 24, 1, 1]).channel 0).role ≠ .parameter 24 ∧ ((asked [21, 4, 0, 24, 1, 1]).channel 0).role ≠ .parked)
      ∧ ((asked [21, 4, 31, 0, 1, 1]).inHand = some (.setChannel 31 0 1 1) ∧ ((asked [21, 4, 31, 0, 1, 1]).channel 31).role = .parked)
      ∧ ((withChannel0 (asked [21, 4, 0, 0, 1, 1]) { knob (.parameter 0) .live with pickupMode := false }).channel 0).pickupMode = false
      ∧ (asked [23, 1, 4]).inHand = some (.setFocus 4)
      ∧ ((withChannel0 (asked [23, 1, 3]) (knob (.parameter 0) .live)).inHand = some (.setFocus 3)
        ∧ ((withChannel0 (asked [23, 1, 3]) (knob (.parameter 0) .live)).channel 0).initialised = true
        ∧ ((asked [23, 1, 3]).channel 1).initialised = false ∧ ((asked [23, 1, 3]).channel 1).pickupMode = true) := by decide

/-- Channel 0 a knob of P0 whose arm is pending, with a SET_CHANNEL of it in hand. -/
def pendingArm (role mode : Byte) : State :=
  withChannel0 (asked [21, 4, 0, role, mode, 1]) { knob (.parameter 0) .live with initialised := false, armPending := true }

/-- A change to PARKED with an arm pending, a change of the mode to JUMP, and the same form again (R155, R156). -/
theorem witness_ChannelsFocusAndChangeList_pending :
    ((pendingArm 35 0).inHand = some (.setChannel 0 35 0 1) ∧ (35 : Byte).toNat = Role.parked.code
        ∧ ((pendingArm 35 0).channel 0).armPending = true ∧ ((pendingArm 35 0).channel 0).role ≠ .parked)
      ∧ (∀ m ∈ [(0 : Byte), 1], (pendingArm 0 m).inHand = some (.setChannel 0 0 m 1)
        ∧ ((pendingArm 0 m).channel 0).role = .parameter 0 ∧ ((pendingArm 0 m).channel 0).armPending = true)
      ∧ nextHas (.setChannel 0 35 0 1) (pendingArm 35 0) (fun t => !(t.channel 0).armPending) = true
      ∧ nextHas (.setChannel 0 0 0 1) (pendingArm 0 0) (fun t => (t.channel 0).armPending) = true := by decide

/-- READ_CHANGES of up to `n` entries in hand, with one entry in the list. -/
def changesAsked (n : Byte) : State :=
  { asked [25, 1, n] with
    panel := { State.reset.panel with changes := [⟨9, 0, 9, 1025⟩] }, notices := { Notices.reset with panel := true } }

theorem witness_ChannelsFocusAndChangeList_changes :
    ((asked [25, 1, 0]).inHand = some (.readChanges 0) ∧ (asked [25, 1, 33]).inHand = some (.readChanges 33))
      ∧ (changesAsked 1).inHand = some (.readChanges 1) ∧ (changesAsked 32).inHand = some (.readChanges 32)
      ∧ (changesAsked 1).changesRight := by
  refine ⟨by decide, by decide, by decide, by unfold State.changesRight; decide⟩

theorem default_inRange : Patch.default.inRange := by unfold Patch.inRange; decide

theorem witness_StoredRecordReadsBack :
    Patch.default.inRange ∧ (recordOf Patch.default)[1]? ≠ some 2 ∧ (recordOf Patch.default)[2]? ≠ some 1 :=
  ⟨default_inRange, by decide +kernel, by decide +kernel⟩

/-- 74 bytes for each finding: BLANK, another marker, another version, another CRC, OK (R173). -/
theorem witness_StoredRecordReadsBack_judged :
    let r := recordOf Patch.default
    (∀ x ∈ [(0xFF :: r.drop 1, PatchResult.blank), (0xA4 :: r.drop 1, .damaged), ([0xA5, 2] ++ r.drop 2, .damaged),
        (r.take 73 ++ [0], .damaged), (r, .ok)], x.1.length = 74 ∧ judge x.1 = x.2)
      ∧ r[0]? = some 0xA5 ∧ r[1]? = some 1 ∧ r.drop 72 = bytes16 (crc (r.take 72)) := by decide +kernel

/-- R159 at the fill of a slot: each field of 74 bytes is brought into its range. -/
theorem test_fill_in_range :
    let r := recordOf Patch.default
    let p := patchOf (r.take 2 ++ [0x10, 0] ++ (r.drop 4).take 48 ++ [7, 0, 9, 32, 25, 3, 3, 2, 0x1F, 0x20, 0x7E, 0x7F]
      ++ r.drop 64)
    p.params[(0 : Fin 25)] = 4095 ∧ p.voiceMode = .unison ∧ p.voiceLimit = 1 ∧ p.unisonCount = 8 ∧ p.unisonSpread = 31
      ∧ p.bendRange = 24 ∧ p.glideMode = .legato ∧ p.keyPriority = .high ∧ p.monoTrigger = .legato
      ∧ p.name[(0 : Fin 12)] = 0x20 ∧ p.name[(1 : Fin 12)] = 0x20 ∧ p.name[(2 : Fin 12)] = 0x7E ∧ p.name[(3 : Fin 12)] = 0x20 := by
  decide +kernel

/-- A set of slots and a queue that agree, with at most one job: what `jobsRight` asks. -/
theorem jobsRight_of (s : State)
    (h1 : ∀ c : CacheNo, (s.cache c).pin = (s.patches.queue.filter (Job.pins c)).length)
    (h2 : ∀ c : CacheNo, (s.cache c).pin ≠ 0 → (s.cache c).state = .valid)
    (h3 : ∀ c : CacheNo, (s.cache c).state = .valid ↔ (s.cache c).contents.isSome)
    (h4 : ∀ c : CacheNo, (s.cache c).state = .empty ↔ (s.cache c).location = none)
    (h5 : ∀ c : CacheNo, (s.patches.queue.filter (Job.fills c)).length = if (s.cache c).state = .filling then 1 else 0)
    (h6 : s.patches.queue = [] ∨ s.patches.queue = [.fetch 200 0 0 false] ∧ (s.cache 0).location = some 200
      ∨ s.patches.queue = [.store 200 0 0 0 true]
      ∨ s.patches.queue = [.store 200 0 0 0 true, .fetch 202 1 3 false] ∧ (s.cache 1).location = some 202
      ∨ s.patches.queue = [.store 200 0 0 0 true, .fetch 202 1 3 false, .fetch 201 2 0 false]
        ∧ (s.cache 1).location = some 202 ∧ (s.cache 2).location = some 201)
    (h7 : ∀ c d : CacheNo, (s.cache c).location ≠ none → (s.cache c).location = (s.cache d).location → c = d)
    (h8 : s.lockedSlots ≤ 6) : s.jobsRight := by
  refine ⟨h1, h2, h3, h4, h5, ?_, h7, ?_, h8⟩
  · intro l c p hm
    rcases h6 with h | ⟨h, h'⟩ | h | ⟨h, h'⟩ | ⟨h, h', h''⟩ <;> rw [h] at hm <;> simp at hm
    · obtain ⟨rfl, rfl, rfl⟩ := hm; exact h'
    · obtain ⟨rfl, rfl, rfl⟩ := hm; exact h'
    · obtain ⟨rfl, rfl, rfl⟩ | ⟨rfl, rfl, rfl⟩ := hm
      · exact h'
      · exact h''
  · intro l c p hm
    rcases h6 with h | ⟨h, -⟩ | h | ⟨h, -⟩ | ⟨h, -⟩ <;> rw [h] at hm <;> simp at hm

theorem reset_jobsRight : State.reset.jobsRight :=
  jobsRight_of _ (by decide) (by decide) (by decide) (by decide) (by decide) (.inl (by decide)) (by decide) (by decide)

/-- RECALL of a location into part 0 in hand. -/
def recallAsked : State := asked [26, 3, 0, 0, 200]

/-- Part 3's RECALL of location 201 in hand, its FETCH of location 202 waiting behind a STORE. -/
def retargetAsked : State :=
  { (asked [26, 3, 3, 0, 201]).setPart 3 { Part.reset 3 with wanted := some 202 } with
    patches := { (storing State.reset (.erase 0)).patches with
      slots := (storing State.reset (.erase 0)).patches.slots.set 1 ⟨.filling, some 202, none, 1, false, 0⟩
      queue := [.store 200 0 0 0 true, .fetch 202 1 3 false] } }

theorem witness_RecallHitsWaitsOrFetches :
    ((asked [26, 3, 4, 0, 0]).inHand = some (.recallPart 4 0) ∧ (asked [26, 3, 3, 2, 0]).inHand = some (.recallPart 3 512))
      ∧ ((cached recallAsked).inHand = some (.recallPart 0 200) ∧ (cached recallAsked).jobsRight
        ∧ ((cached recallAsked).cache 0).state = .valid)
      ∧ ((fetching recallAsked .read).inHand = some (.recallPart 0 200) ∧ (fetching recallAsked .read).jobsRight
        ∧ ((fetching recallAsked .read).cache 0).state = .filling)
      ∧ ((∀ c : CacheNo, (recallAsked.cache c).location ≠ some 200) ∧ (recallAsked.part 0).wanted = none ∧ recallAsked.jobsRight
        ∧ recallAsked.patches.queue = [] ∧ (recallAsked.cache 0).state = .empty)
      ∧ (retargetAsked.inHand = some (.recallPart 3 201) ∧ retargetAsked.jobsRight
        ∧ (∀ c : CacheNo, (retargetAsked.cache c).location ≠ some 201)
        ∧ (retargetAsked.part 3).wanted = some 202 ∧ (∀ r : PartNo, r ≠ 3 → (retargetAsked.part r).wanted ≠ some 202)
        ∧ Job.fetch 202 1 3 false ∈ retargetAsked.patches.queue.drop 1) := by
  refine ⟨by decide, ⟨by decide, ?_, by decide⟩, ⟨by decide, ?_, by decide⟩, ⟨by decide, by decide, ?_, by decide, by decide⟩,
    by decide, ?_, by decide, by decide, by decide, by decide⟩
  · exact jobsRight_of _ (by decide) (by decide) (by decide) (by decide) (by decide) (.inl (by decide)) (by decide) (by decide)
  · exact jobsRight_of _ (by decide) (by decide) (by decide) (by decide) (by decide) (.inr (.inl (by decide))) (by decide)
      (by decide)
  · exact jobsRight_of _ (by decide) (by decide) (by decide) (by decide) (by decide) (.inl (by decide)) (by decide) (by decide)
  · exact jobsRight_of _ (by decide) (by decide) (by decide) (by decide) (by decide) (.inr (.inr (.inr (.inl (by decide)))))
      (by decide) (by decide)

/-- Part 3 wants location 202, whose FETCH waits behind a STORE, and recalls location 201, which slot 2 holds or is fetching. -/
def displacing (filling : Bool) : State :=
  { retargetAsked with patches := { retargetAsked.patches with
      slots := retargetAsked.patches.slots.set 2
        (if filling then ⟨.filling, some 201, none, 2, false, 0⟩ else ⟨.valid, some 201, some .default, 2, false, 0⟩)
      queue := [.store 200 0 0 0 true, .fetch 202 1 3 false] ++ if filling then [.fetch 201 2 0 false] else [] } }

theorem witness_RecallHitsWaitsOrFetches_displaced :
    ((displacing false).inHand = some (.recallPart 3 201) ∧ (displacing false).jobsRight
        ∧ ((displacing false).cache 2).state = .valid ∧ (displacing false).cancels 3 201 202 1)
      ∧ ((displacing true).inHand = some (.recallPart 3 201) ∧ (displacing true).jobsRight
        ∧ ((displacing true).cache 2).state = .filling ∧ (displacing true).cancels 3 201 202 1)
      ∧ ∀ m d, ¬ recallAsked.cancels 0 200 m d := by
  refine ⟨⟨by decide, ?_, by decide, by decide, by decide, by decide, 3, false, by decide⟩,
    ⟨by decide, ?_, by decide, by decide, by decide, by decide, 3, false, by decide⟩, fun m d h => ?_⟩
  · exact jobsRight_of _ (by decide) (by decide) (by decide) (by decide) (by decide)
      (.inr (.inr (.inr (.inl (by decide))))) (by decide) (by decide)
  · exact jobsRight_of _ (by decide) (by decide) (by decide) (by decide) (by decide)
      (.inr (.inr (.inr (.inr (by decide))))) (by decide) (by decide)
  · have h' := h.1
    rw [show (recallAsked.part 0).wanted = none from by decide] at h'
    cases h'

/-- A new FETCH while the part wants a location that another part wants too: its recall is SUPERSEDED (R170, R171). -/
theorem witness_RecallHitsWaitsOrFetches_superseded :
    let s := retargetAsked.setPart 1 { Part.reset 1 with wanted := some 202 }
    s.inHand = some (.recallPart 3 201) ∧ s.jobsRight ∧ (∀ c : CacheNo, (s.cache c).location ≠ some 201)
      ∧ (∀ m d, ¬ s.cancels 3 201 m d) ∧ s.patches.queue.length < 8
      ∧ nextHas (.recallPart 3 201) s (fun t => (t.part 3).lastRecall == .superseded && (t.part 3).wanted == some 201
        && t.patches.queue == [.store 200 0 0 0 true, .fetch 202 1 3 false, .fetch 201 7 3 false]) = true := by
  refine ⟨by decide, ?_, by decide, fun m d h => ?_, by decide, by decide +kernel⟩
  · exact jobsRight_of _ (by decide) (by decide) (by decide) (by decide) (by decide) (.inr (.inr (.inr (.inl (by decide)))))
      (by decide) (by decide)
  · have h2 := h.1
    have h3 := h.2.2.1 1 (by decide)
    rw [show ((retargetAsked.setPart 1 { Part.reset 1 with wanted := some 202 }).part 3).wanted = some 202 from by decide] at h2
    cases h2
    exact h3 (by decide)

/-- STORE of part 0 to location 200 in hand. -/
def storeAsked : State := asked [27, 3, 0, 0, 200]

theorem witness_StoreSnapshotsAndQueues :
    ((asked [27, 3, 4, 0, 0]).inHand = some (.store 4 0) ∧ (asked [27, 3, 3, 2, 0]).inHand = some (.store 3 512))
      ∧ ((asked [27, 3, 0, 0, 127]).inHand = some (.store 0 127) ∧ State.reset.settings.protectOn = true
        ∧ State.reset.settings.protectHigh = 127 ∧ State.reset.settings.protectLow = 0)
      ∧ (storeAsked.inHand = some (.store 0 200) ∧ storeAsked.jobsRight ∧ (storeAsked.cache 0).state = .empty)
      ∧ ((cached storeAsked).inHand = some (.store 0 200) ∧ (cached storeAsked).jobsRight
        ∧ ((cached storeAsked).cache 0).location = some 200)
      ∧ ((fetching storeAsked .read).inHand = some (.store 0 200) ∧ (fetching storeAsked .read).jobsRight
        ∧ ((fetching storeAsked .read).cache 0).state = .filling) := by
  refine ⟨by decide, by decide, ⟨by decide, ?_, by decide⟩, ⟨by decide, ?_, by decide⟩, ⟨by decide, ?_, by decide⟩⟩
  · exact jobsRight_of _ (by decide) (by decide) (by decide) (by decide) (by decide) (.inl (by decide)) (by decide) (by decide)
  · exact jobsRight_of _ (by decide) (by decide) (by decide) (by decide) (by decide) (.inl (by decide)) (by decide) (by decide)
  · exact jobsRight_of _ (by decide) (by decide) (by decide) (by decide) (by decide) (.inr (.inl (by decide))) (by decide)
      (by decide)

theorem witness_WriteParamWritesOneField :
    ((asked [28, 4, 4, 0, 0, 0]).inHand = some (.writeParam 4 0 [0, 0]) ∧ (asked [28, 4, 3, 25, 0, 0]).inHand = some (.writeParam 3 25 [0, 0])
        ∧ (asked [28, 4, 0, 40, 0, 0]).inHand = some (.writeParam 0 40 [0, 0]))
      ∧ (asked [28, 4, 0, 48, 65, 66]).inHand = some (.writeParam 0 48 [65, 66])
      ∧ (asked ([28, 14, 3, 24] ++ List.replicate 12 65)).inHand = some (.writeParam 3 24 (List.replicate 12 65))
      ∧ (asked [28, 4, 3, 24, 0x10, 0x00]).inHand = some (.writeParam 3 24 [0x10, 0])
      ∧ (asked [28, 4, 0, 32, 0, 2]).inHand = some (.writeParam 0 32 [0, 2])
      ∧ (asked [28, 4, 0, 39, 0, 9]).inHand = some (.writeParam 0 39 [0, 9])
      ∧ (asked ([28, 14, 0, 48] ++ List.replicate 12 0x7F)).inHand = some (.writeParam 0 48 (List.replicate 12 0x7F))
      ∧ ((asked [28, 4, 0, 32, 0, 2]).panel.focus = 0 ∧ (3 : PartNo) ≠ 0)
      ∧ (asked [28, 4, 0, 32, 0, 2]).countsFit := by
  refine ⟨by decide, by decide, by decide, by decide, by decide, by decide, by decide, by decide,
    by unfold State.countsFit; decide⟩

theorem witness_CacheSlotsAreLockedAndUnlocked :
    ((asked [30, 3, 2, 0, 200]).inHand = some (.cacheLock 2 200) ∧ (asked [30, 3, 1, 2, 0]).inHand = some (.cacheLock 1 512))
      ∧ ((asked [30, 3, 1, 0, 200]).inHand = some (.cacheLock 1 200)
        ∧ ∀ c : CacheNo, ((asked [30, 3, 1, 0, 200]).cache c).state = .empty)
      ∧ ((cached (asked [30, 3, 1, 0, 200])).inHand = some (.cacheLock 1 200)
        ∧ ((cached (asked [30, 3, 1, 0, 200])).cache 0).lock = false ∧ (cached (asked [30, 3, 1, 0, 200])).lockedSlots ≠ 6)
      ∧ ((asked [30, 3, 0, 2, 0]).inHand = some (.cacheUnlock 512) ∧ (asked [30, 3, 0, 0, 200]).inHand = some (.cacheUnlock 200)
        ∧ ((cached (asked [30, 3, 0, 0, 200])).cache 0).location = some 200)
      ∧ (cached (asked [30, 3, 0, 0, 200])).jobsRight := by
  refine ⟨by decide, by decide, by decide, by decide, ?_⟩
  exact jobsRight_of _ (by decide) (by decide) (by decide) (by decide) (by decide) (.inl (by decide)) (by decide) (by decide)

theorem witness_StoreLinkFramesAdvanceTheHead :
    State.reset.patches.head = none
      ∧ ((fetching State.reset (.readyWait 8)).patches.queue = [.fetch 200 0 0 false]
        ∧ (fetching State.reset (.readyWait 8)).patches.head = some (.readyWait 8) ∧ 8 + 1 < 10)
      ∧ ((fetching State.reset (.readyWait 9)).patches.head = some (.readyWait 9) ∧ 10 ≤ 9 + 1)
      ∧ ((storing State.reset (.erase 38)).patches.queue = [.store 200 0 0 0 true]
        ∧ (storing State.reset (.erase 38)).patches.head = some (.erase 38) ∧ 38 + 1 < 40)
      ∧ ((storing State.reset (.program 8 [])).patches.head = some (.program 8 []) ∧ 8 + 1 < 10)
      ∧ ((storing State.reset (.erase 39)).patches.head = some (.erase 39) ∧ 40 ≤ 39 + 1)
      ∧ ((storing State.reset (.program 9 [])).patches.head = some (.program 9 []) ∧ 10 ≤ 9 + 1)
      ∧ ((storing State.reset (.readyWait 9)).patches.queue = [.store 200 0 0 0 true]
        ∧ ((storing State.reset (.readyWait 9)).cache 0).pin = 1)
      ∧ ((1 : Byte).getLsbD 0 = true ∧ ¬ (0x20 : Byte).getLsbD 0 = true ∧ (0x20 : Byte).getLsbD 5 = true) := by decide

/-- The frames of the flash (10.5, 9.1): location 300's page is at 0x012C00. -/
theorem test_flash_frames :
    (FlashTx.read (pageAddress 300) 74).frame = ⟨[0x03, 0x01, 0x2C, 0x00], 74⟩
      ∧ (FlashTx.pageErase (pageAddress 511)).frame = ⟨[0xDB, 0x01, 0xFF, 0x00], 0⟩
      ∧ (FlashTx.pageProgram (pageAddress 1) [0xA5]).frame = ⟨[0x02, 0x00, 0x01, 0x00, 0xA5], 0⟩
      ∧ FlashTx.writeEnable.frame = ⟨[0x06], 0⟩ ∧ FlashTx.statusRead.frame = ⟨[0x05], 1⟩ := by decide

/-- The poll that finds a FETCH's flash ready sends the status read and the read of its page (R172, R173). -/
theorem test_fetch_frames :
    nextHas (.storelinkFrameExpiry 0) (fetching State.reset (.readyWait 0)) (fun t =>
      t.patches.sent == [⟨[0x05], 1⟩, ⟨[0x03, 0, 200, 0], 74⟩]) = true := by decide

theorem witness_TransfersEndTheirJobs :
    (State.reset.patches.head ≠ some .read ∧ State.reset.patches.head ≠ some (.verify []))
      ∧ ((fetching State.reset .read).patches.queue = [.fetch 200 0 0 false]
        ∧ (fetching State.reset .read).patches.head = some .read ∧ (recordOf Patch.default).length = 74
        ∧ judge (recordOf Patch.default) = .ok ∧ judge (List.replicate 74 0xFF) = .blank
        ∧ ((fetching State.reset .read).cache 0).location = some 200)
      ∧ ((storing State.reset (.verify [])).patches.queue = [.store 200 0 0 0 true]
        ∧ (storing State.reset (.verify [])).patches.head = some (.verify [])
        ∧ ((storing State.reset (.verify [])).cache 0).pin = 1 ∧ (pageOf Patch.default).length = 256) := by decide +kernel

/-- A STORE at its head with a FETCH of location 202 waiting, or a FETCH of location 200 with a STORE to location 300 waiting. -/
def nextWaiting (store : Bool) (x : JobStep) (shown : Byte) : State :=
  let s := if store then storing State.reset x else fetching State.reset x
  let t := s.setCache 1 (if store then ⟨.filling, some 202, none, 1, false, 0⟩ else ⟨.valid, some 300, some .default, 1, false, 1⟩)
  { t with patches := { t.patches with
      queue := t.patches.queue ++ (if store then [.fetch 202 1 3 false] else [.store 300 1 3 0 true]), flashStatus := shown } }

theorem witness_TransfersEndTheirJobs_next :
    ∀ b ∈ [(0 : Byte), 1],
      ((nextWaiting true (.verify []) b).patches.queue = .store 200 0 0 0 true :: [.fetch 202 1 3 false]
        ∧ (nextWaiting true (.verify []) b).patches.head = some (.verify [])
        ∧ (nextWaiting true (.verify []) b).patches.flashStatus = b)
      ∧ ((nextWaiting false .read b).patches.queue = .fetch 200 0 0 false :: [.store 300 1 3 0 true]
        ∧ (nextWaiting false .read b).patches.head = some .read ∧ (nextWaiting false .read b).patches.flashStatus = b) := by
  decide +kernel

theorem witness_StoreLinkFramesAdvanceTheHead_next :
    (nextWaiting true (.erase 39) 0).patches.head = some (.erase 39)
      ∧ (nextWaiting true (.program 9 []) 1).patches.head = some (.program 9 [])
      ∧ (nextWaiting false (.readyWait 9) 1).patches.head = some (.readyWait 9)
      ∧ (nextWaiting false (.readyWait 9) 1).patches.queue = .fetch 200 0 0 false :: [.store 300 1 3 0 true] := by decide +kernel

/-- The next head starts at the event that ends a job: a STORE with a status read, the write enable and its erase, or, the flash busy,
with the status read alone; at a time-out, busy still, it waits (R168, R172, R178). -/
theorem test_next_head :
    nextHas (.fetchReadComplete (recordOf Patch.default)) (nextWaiting false .read 0) (fun t =>
        t.patches.head == some (.erase 0) && t.patches.sent == [⟨[0x05], 1⟩, ⟨[0x06], 0⟩, ⟨[0xDB, 1, 44, 0], 0⟩]) = true
      ∧ nextHas (.fetchReadComplete (recordOf Patch.default)) (nextWaiting false .read 1) (fun t =>
        t.patches.head == some (.readyWait 0) && t.patches.sent == [⟨[0x05], 1⟩]) = true
      ∧ nextHas (.storelinkFrameExpiry 1) (nextWaiting true (.erase 39) 0) (fun t =>
        t.patches.lastStore == .timeout && t.patches.head == some (.readyWait 0)
          && t.patches.queue == [.fetch 202 1 3 false]) = true := by decide +kernel

/-- A locked slot of rank 3 whose fetch or whose only store fails loses location, lock and pin and keeps its rank (R164). -/
theorem test_emptied_slot :
    (let s := fetching State.reset .read
     nextHas (.fetchReadComplete (List.replicate 74 0xFF)) (s.setCache 0 { s.cache 0 with lock := true, rank := 3 }) (fun t =>
       t.cache 0 == ⟨.empty, none, none, 3, false, 0⟩) = true)
      ∧ let s := storing State.reset (.erase 39)
        nextHas (.storelinkFrameExpiry 1) (s.setCache 0 { s.cache 0 with lock := true, rank := 3 }) (fun t =>
          t.cache 0 == ⟨.empty, none, none, 3, false, 0⟩ && t.patches.lastStore == .timeout) = true := by decide +kernel

/-- Parts 0, which has the focus, and 3 want location 200, which is being read from the flash. -/
def wantedBoth (s : State) : State :=
  ((fetching s .read).setPart 0 { Part.reset 0 with wanted := some 200 }).setPart 3 { Part.reset 3 with wanted := some 200 }

theorem witness_TransfersEndTheirJobs_copies :
    (wantedBoth State.reset).wanting 200 = [0, 3] ∧ (wantedBoth State.reset).panel.focus = 0
      ∧ ((wantedBoth State.reset).cache 0).location = some 200 ∧ (fetching State.reset .read).wanting 200 = []
      ∧ (wantedBoth storeAsked).inHand = some (.store 0 200) ∧ ((wantedBoth storeAsked).cache 0).state = .filling
      ∧ (wantedBoth storeAsked).jobsRight := by
  refine ⟨by decide, by decide, by decide, by decide, by decide, by decide, ?_⟩
  exact jobsRight_of _ (by decide) (by decide) (by decide) (by decide) (by decide) (.inr (.inl (by decide))) (by decide)
    (by decide)

/-- The fetch's record goes to both parts and the focus part's channels are armed, so 4095 of P0 is above channel 0's 0 (R149,
R174, R175). -/
theorem test_copies :
    nextHas (.fetchReadComplete (recordOf { Patch.default with params := Patch.default.params.set 0 4095 }))
      (withChannel0 (wantedBoth State.reset) { knob (.parameter 0) .live with pickupMode := true }) (fun t =>
        (t.part 0).live.params[(0 : Fin 25)] == 4095 && (t.part 3).live.params[(0 : Fin 25)] == 4095
          && (t.channel 0).pickup == .waitRise && (t.cache 0).state == .valid && t.patches.queue == []) = true := by
  decide +kernel

theorem witness_NoticesAreReadAcknowledgedAndEnabled :
    ((asked [32, 0]).inHand = some .readNotices ∧ (asked [32, 0]).settings.ackClears = true)
      ∧ ((asked [33, 2, 2, 0]).inHand = some (.ackNotices 2 [0]) ∧ (asked [33, 2, 0, 0]).inHand = some (.ackNotices 0 [0]))
      ∧ (asked [33, 12, 0, 0xFF, 15, 1, 255, 255, 255, 255, 15, 1, 1, 1]).inHand
        = some (.ackNotices 0 [0xFF, 15, 1, 255, 255, 255, 255, 15, 1, 1, 1])
      ∧ (asked [33, 12, 0, 0xFF, 16, 1, 0, 0, 0, 0, 0, 0, 0, 0]).inHand = some (.ackNotices 0 [0xFF, 16, 1, 0, 0, 0, 0, 0, 0, 0, 0])
      ∧ (asked [33, 2, 1, 0xFF]).inHand = some (.ackNoticesSetEnables 0xFF)
      ∧ (∀ kind : Fin 8, State.reset.notices.enables.getLsbD kind.val = true)
      ∧ ((State.reset.postClamp 15).attn = true ∧ State.reset.attn = false) := by decide

/-! ### Witnesses: the invariants hold somewhere, with a step to go on -/

theorem witness_EveryStepKeepsTables :
    (State.reset.reservesFit ∧ State.reset.heldFit ∧ State.reset.filtersFit ∧ State.reset.changesRight ∧ State.reset.portRight)
      ∧ step State.reset = .next State.reset := by
  refine ⟨⟨?_, ?_, ?_, ?_, ?_⟩, rfl⟩
  · unfold State.reservesFit; decide
  · unfold State.heldFit; decide
  · unfold State.filtersFit; decide
  · unfold State.changesRight; decide
  · exact ⟨⟨rfl, rfl⟩, fun h => by cases h⟩

theorem witness_EveryStepKeepsVoices :
    (State.reset.countsFit ∧ State.reset.failsFit) ∧ ∀ v : Voice, (State.reset.voice v).asg = none := by
  refine ⟨⟨?_, ?_⟩, by decide⟩
  · unfold State.countsFit; decide
  · unfold State.failsFit; decide

theorem witness_EveryStepKeepsStore : State.reset.ranksRight ∧ State.reset.queueFit ∧ State.reset.jobsRight := by
  refine ⟨?_, ?_, reset_jobsRight⟩
  · unfold State.ranksRight; decide
  · unfold State.queueFit; decide

end Sys2Proof.Tests
end

