-- ==== Sys2Proof/Proofs/Assignments.lean ====
section
/-! PROOFS. The measurement unit and the assignments (R25, R26, R99, R104, R133): what each does, and O24. -/

namespace Sys2Proof.Machine

/-! ### The measurement unit (R99, R103, R104) -/

/-- A measurement that starts is the one that R99 describes. -/
theorem State.startMeasurement_measures (s : State) (q : Requester) (v : Voice) (d : Tuned) (k : Nat) (code : Code) :
    ∃ m, s.measures (s.startMeasurement q v d k code) m ∧ m.requester = q ∧ m.voice = v ∧ m.dest = d ∧ m.bp = k
      ∧ m.code = code ∧ m.tg = targetCount s.settings.tRef s.settings.windowShift k := by
  refine ⟨_, ⟨rfl, rfl, rfl, ?_, rfl, ?_, rfl, rfl⟩, rfl, rfl, rfl, rfl, rfl, rfl⟩
  · rfl
  · exact (State.overrideAt_setOverride s v v d.number d.number (some code)).trans (if_pos ⟨rfl, rfl⟩)

/-- The arbiter does nothing unless a request waits for a free unit (R104). -/
theorem State.arbitrate_idle {s : State}
    (h : s.tune.requestWaiting = false ∨ s.tune.service = none ∨ s.tune.unit ≠ none) : s.arbitrate = s := by
  unfold State.arbitrate
  split
  · simp_all
  · rfl

/-- The arbiter grants a free unit to the request that waits (R104). -/
theorem State.arbitrate_grant {s : State} {x : InService} (hr : s.tune.requestWaiting = true) (hu : s.tune.unit = none)
    (hx : s.tune.service = some x) :
    s.arbitrate = ({ s with tune := { s.tune with requestWaiting := false } }).startMeasurement .pass x.voice x.dest
      x.work.bp x.work.trial := by
  unfold State.arbitrate
  rw [hr, hu, hx]

@[simp] theorem State.arbitrate_service (s : State) : s.arbitrate.tune.service = s.tune.service := by
  unfold State.arbitrate; split <;> rfl

@[simp] theorem State.arbitrate_check (s : State) : s.arbitrate.tune.check = s.tune.check := by
  unfold State.arbitrate; split <;> rfl

@[simp] theorem State.arbitrate_entries (s : State) : s.arbitrate.tune.entries = s.tune.entries := by
  unfold State.arbitrate; split <;> rfl

@[simp] theorem State.arbitrate_outcome (s : State) : s.arbitrate.tune.outcome = s.tune.outcome := by
  unfold State.arbitrate; split <;> rfl

@[simp] theorem State.arbitrate_notices (s : State) : s.arbitrate.notices = s.notices := by
  unfold State.arbitrate; split <;> rfl

/-- A grant of the arbiter, as the statements write it (R99, R104). -/
theorem State.arbitrate_grants {s : State} {x : InService} (hr : s.tune.requestWaiting = true) (hu : s.tune.unit = none)
    (hx : s.tune.service = some x) : s.grants s.arbitrate x := by
  rw [State.arbitrate_grant hr hu hx]
  obtain ⟨m, hm, h1, h2, h3, h4, h5, -⟩ := State.startMeasurement_measures
    { s with tune := { s.tune with requestWaiting := false } } .pass x.voice x.dest x.work.bp x.work.trial
  exact ⟨rfl, m, hm, h1, h2, h3, h4, h5⟩

/-- A grant touches no override but its own channel's (R99). -/
theorem State.overrideAt_arbitrate (s : State) (w : Voice) (e : DestNo) :
    s.arbitrate.overrideAt w e = s.overrideAt w e ∨
      ∃ x, s.tune.service = some x ∧ x.voice = w ∧ x.dest.number = e := by
  unfold State.arbitrate
  split
  · rename_i x _ _ hx
    refine Classical.or_iff_not_imp_right.mpr fun hn => ?_
    refine (State.overrideAt_setOverride _ x.voice w x.dest.number e (some x.work.trial)).trans (if_neg ?_)
    exact fun h => hn ⟨x, hx, h.1, h.2⟩
  · exact .inl rfl

theorem Tuned.number_injective {d e : Tuned} (h : d.number = e.number) : d = e := by
  cases d <;> cases e <;> first | rfl | exact absurd h (by decide)

/-- A check of the voice in hand is discarded with its measurement and its override (R133). -/
theorem State.dropCheck_of_check {s : State} {v : Voice} {c : Check} (hc : s.tune.check = some c) (hv : c.voice = v) :
    s.dropCheck v =
      ({ s with tune := { s.tune with check := none, unit := none } }).setOverride v c.dest.tuned.number none := by
  unfold State.dropCheck
  simp only [hc, if_pos hv]

/-- No check of the voice in hand, nothing to discard (R133). -/
theorem State.dropCheck_of_no_check {s : State} {v : Voice} (h : ∀ c, s.tune.check = some c → c.voice ≠ v) :
    s.dropCheck v = s := by
  unfold State.dropCheck
  split
  · rfl
  · rename_i c hc
    rw [if_neg (h c hc)]

/-- Giving up a voice's check, as the statements write it (R25, R103, R104, R133). -/
theorem State.abandonCheck_abandons (s : State) (v : Voice) : s.abandons (s.abandonCheck v) v := by
  unfold State.abandonCheck
  refine ⟨fun c hc hv => ?_, fun hn hi => ?_⟩
  · rw [State.dropCheck_of_check hc hv]
    set u : State := ({ s with tune := { s.tune with check := none, unit := none } }).setOverride v c.dest.tuned.number none
      with hu
    have hown : u.overrideAt v c.dest.tuned.number = none :=
      (State.overrideAt_setOverride _ v v _ _ none).trans (if_pos ⟨rfl, rfl⟩)
    refine ⟨State.arbitrate_check u, fun hi => ?_, fun x hr hx => ⟨?_, ?_, fun hne => ?_⟩⟩
    · rw [State.arbitrate_idle (s := u) (by tauto)]
      exact ⟨rfl, hown⟩
    · exact State.arbitrate_grants (s := u) hr rfl hx
    · exact (State.arbitrate_service u).trans hx
    · rcases State.overrideAt_arbitrate u v c.dest.tuned.number with h | ⟨y, hy, hyv, hyd⟩
      · exact h.trans hown
      · obtain rfl : x = y := Option.some.inj (hx.symm.trans hy)
        exact absurd hne (by simp [hyv, Tuned.number_injective hyd])
  · rw [State.dropCheck_of_no_check hn, State.arbitrate_idle hi]
    exact ⟨rfl, rfl⟩

/-- What becomes of a check is a matter of the tune controller and the overrides alone. -/
theorem State.abandons_congr {s t u : State} {v : Voice} (h : s.abandons t v) (ht : u.tune = t.tune)
    (hr : u.refresh = t.refresh) : s.abandons u v := by
  unfold State.abandons State.grants State.measures State.overrideAt at h ⊢
  rw [ht, hr]
  exact h

/-! ### Assignments (R25, R26, R32) -/

/-- The state an assignment starts from: a RETUNING voice's check is given up first (R25). -/
def State.cleared (s : State) (v : Voice) : State := if (s.voice v).state = .retuning then s.abandonCheck v else s

theorem State.cleared_passWork (s : State) (v : Voice) : s.PassWork (s.cleared v) := by
  unfold State.cleared
  split
  · exact State.abandonCheck_passWork s v
  · exact .refl s

theorem State.cleared_of_ne {s : State} {v : Voice} (h : (s.voice v).state ≠ .retuning) : s.cleared v = s := if_neg h

theorem State.PassWork.voice {s t : State} (h : s.PassWork t) (v : Voice) : t.voice v = s.voice v := by
  unfold State.voice; rw [h.voices]

theorem State.PassWork.part {s t : State} (h : s.PassWork t) (p : PartNo) : t.part p = s.part p := by
  unfold State.part; rw [h.parts]

theorem State.VoiceWork.part {s t : State} (h : s.VoiceWork t) (p : PartNo) : t.part p = s.part p := by
  unfold State.part; rw [h.parts]

/-- An assignment, written out from the state with the voice's check given up. -/
theorem State.assign_eq (s : State) (v : Voice) (p : PartNo) (h : HeldKey) (j : Nat) (g : GlideStart) :
    s.assign v p h j g =
      (((s.cleared v).bump.setVoice v
        ((s.voice v).assigned p h j g (s.part p) (s.stamp + 1) s.settings.stealGap)).setPart p
          { s.part p with lastPitch := 64 * h.note }) := by
  have hw := State.cleared_passWork s v
  unfold State.assign
  change ((s.cleared v).bump.modVoice v _).modPart p _ = _
  unfold State.modVoice State.modPart
  simp only [State.part_setVoice]
  have hv : (s.cleared v).bump.voice v = s.voice v := hw.voice v
  have hp : (s.cleared v).bump.part p = s.part p := hw.part p
  have hs : (s.cleared v).bump.stamp = s.stamp + 1 := by
    change (s.cleared v).stamp + 1 = _
    rw [hw.stamp]
  rw [hv, hp]
  exact congrArg (fun x => ((s.cleared v).bump.setVoice v
    ((s.voice v).assigned p h j g (s.part p) x s.settings.stealGap)).setPart p { s.part p with lastPitch := 64 * h.note }) hs

@[simp] theorem State.assign_stamp (s : State) (v : Voice) (p : PartNo) (h : HeldKey) (j : Nat) (g : GlideStart) :
    (s.assign v p h j g).stamp = s.stamp + 1 := by
  rw [State.assign_eq]
  exact congrArg (· + 1) (State.cleared_passWork s v).stamp

@[simp] theorem State.assign_settings (s : State) (v : Voice) (p : PartNo) (h : HeldKey) (j : Nat) (g : GlideStart) :
    (s.assign v p h j g).settings = s.settings := by
  rw [State.assign_eq]
  exact (State.cleared_passWork s v).settings

theorem State.assign_tune (s : State) (v : Voice) (p : PartNo) (h : HeldKey) (j : Nat) (g : GlideStart) :
    (s.assign v p h j g).tune = (s.cleared v).tune := by rw [State.assign_eq]; rfl

theorem State.assign_refresh (s : State) (v : Voice) (p : PartNo) (h : HeldKey) (j : Nat) (g : GlideStart) :
    (s.assign v p h j g).refresh = (s.cleared v).refresh := by rw [State.assign_eq]; rfl

/-- The voices after an assignment (R25). -/
theorem State.voice_assign (s : State) (v : Voice) (p : PartNo) (h : HeldKey) (j : Nat) (g : GlideStart) (w : Voice) :
    (s.assign v p h j g).voice w =
      if v = w then (s.voice v).assigned p h j g (s.part p) (s.stamp + 1) s.settings.stealGap else s.voice w := by
  rw [State.assign_eq, State.voice_setPart, State.voice_setVoice]
  exact if_congr Iff.rfl rfl ((State.cleared_passWork s v).voice w)

theorem State.voice_assign_self (s : State) (v : Voice) (p : PartNo) (h : HeldKey) (j : Nat) (g : GlideStart) :
    (s.assign v p h j g).voice v = (s.voice v).assigned p h j g (s.part p) (s.stamp + 1) s.settings.stealGap := by
  rw [State.voice_assign, if_pos rfl]

theorem State.voice_assign_of_ne {s : State} {v w : Voice} (hw : w ≠ v) (p : PartNo) (h : HeldKey) (j : Nat)
    (g : GlideStart) : (s.assign v p h j g).voice w = s.voice w := by
  rw [State.voice_assign, if_neg (Ne.symm hw)]

/-- The parts after an assignment: only the last pitch of its own part is new (R26). -/
theorem State.part_assign (s : State) (v : Voice) (p : PartNo) (h : HeldKey) (j : Nat) (g : GlideStart) (q : PartNo) :
    (s.assign v p h j g).part q = if p = q then { s.part p with lastPitch := 64 * h.note } else s.part q := by
  rw [State.assign_eq, State.part_setPart]
  exact if_congr Iff.rfl rfl ((State.cleared_passWork s v).part q)

/-- An assignment leaves all but parts, voices, the stamp, the tune controller and the refresh engine (R25). -/
theorem State.assign_frame (s : State) (v : Voice) (p : PartNo) (h : HeldKey) (j : Nat) (g : GlideStart) :
    s.assign v p h j g = { s with
      parts := (s.assign v p h j g).parts, voices := (s.assign v p h j g).voices, stamp := (s.assign v p h j g).stamp
      tune := (s.assign v p h j g).tune, refresh := (s.assign v p h j g).refresh } := by
  have hn : (s.cleared v).notices = s.notices := by
    unfold State.cleared State.abandonCheck State.dropCheck
    split
    · split
      · exact State.arbitrate_notices s
      · split
        · exact State.arbitrate_notices _
        · exact State.arbitrate_notices s
    · rfl
  have hw := State.cleared_passWork s v
  rw [State.assign_eq]
  unfold State.setPart State.setVoice State.bump
  simp only [hw.zones, hw.freePicks, hw.cards, hw.panel, hw.patches, hw.port, hn, hw.settings, hw.pending]

/-- A voice is counted in SOUNDING and STEAL_GAP (R24). -/
theorem Service.counted_iff (x : Service) : x.counted = true ↔ x = .sounding ∨ x = .stealGap := by
  cases x <;> simp [Service.counted]

/-- The pitch and the glide with which a glide starts, each way (R26, R32). -/
theorem VoiceRec.startGlide_of_glides {r : VoiceRec} {g : GlideStart} {live : Patch} (h : g.glides live = true) (last x : Nat) :
    (r.startGlide g live last x).glide = live.glideFrames ∧ (r.startGlide g live last x).target = x
      ∧ (r.startGlide g live last x).pitch = (match g with | .fromLast _ => last | .none => x | .fromCurrent => r.pitch) := by
  unfold VoiceRec.startGlide
  rw [if_pos h]
  cases g <;> exact ⟨rfl, rfl, rfl⟩

theorem VoiceRec.startGlide_of_not_glides {r : VoiceRec} {g : GlideStart} {live : Patch} (h : g.glides live = false)
    (last x : Nat) :
    (r.startGlide g live last x).glide = 0 ∧ (r.startGlide g live last x).target = x
      ∧ (r.startGlide g live last x).pitch = x := by
  unfold VoiceRec.startGlide
  simp [h]

@[simp] theorem VoiceRec.startGlide_target (r : VoiceRec) (g : GlideStart) (live : Patch) (last x : Nat) :
    (r.startGlide g live last x).target = x := by
  unfold VoiceRec.startGlide; simp only; split <;> rfl

/-- A glide start moves pitch, target and glide frames, and nothing else (R26). -/
theorem VoiceRec.startGlide_frame (r : VoiceRec) (g : GlideStart) (live : Patch) (last x : Nat) :
    r.startGlide g live last x = { r with
      pitch := (r.startGlide g live last x).pitch, target := x, glide := (r.startGlide g live last x).glide } := by
  unfold VoiceRec.startGlide; simp only; split <;> rfl

/-- A key-on glides from the last pitch where its part has glide frames and the glide mode asks for it (R26). -/
theorem GlideStart.glides_fromLast (legato : Bool) (live : Patch) :
    (GlideStart.fromLast legato).glides live = true ↔
      0 < live.glideFrames ∧ (live.glideMode = .always ∨ live.glideMode = .legato ∧ legato = true) := by
  simp [GlideStart.glides]

/-- A note change glides from the voice's own pitch unless the glide mode is off (R32). -/
theorem GlideStart.glides_fromCurrent (live : Patch) :
    GlideStart.fromCurrent.glides live = true ↔ 0 < live.glideFrames ∧ live.glideMode ≠ .off := by
  simp [GlideStart.glides]

@[simp] theorem GlideStart.glides_none (live : Patch) : GlideStart.none.glides live = false := by simp [GlideStart.glides]

/-- The fields an assignment fills (R25), and those it keeps. -/
theorem VoiceRec.assigned_eq (r : VoiceRec) (p : PartNo) (h : HeldKey) (j : Nat) (g : GlideStart) (part : Part)
    (stamp : Stamp) (gap : Nat) :
    r.assigned p h j g part stamp gap =
      { r with
        state := (assignedState r.state gap).1, gap := (assignedState r.state gap).2
        asg := some ⟨p, h.zone, h.channel, h.key, h.note, h.velocity, stamp, false, j⟩
        lastPart := some p, lastNote := some h.note, idle := 0, tail := 0, target := 64 * h.note
        pitch := (r.startGlide g part.live part.lastPitch (64 * h.note)).pitch
        glide := (r.startGlide g part.live part.lastPitch (64 * h.note)).glide } := by
  unfold VoiceRec.assigned
  rw [VoiceRec.startGlide_frame]

/-- A voice that an assignment takes from a counted state passes through its steal gap, unless that is 0 (R25). -/
theorem assignedState_of_counted {x : Service} {gap : Nat} (hx : x.counted = true) (hg : gap ≠ 0) :
    assignedState x gap = (.stealGap, gap) := by simp [assignedState, hx, hg]

theorem assignedState_fst_of_not {x : Service} {gap : Nat} (h : ¬ (x.counted = true ∧ gap ≠ 0)) :
    (assignedState x gap).1 = .sounding := by
  unfold assignedState
  by_cases hx : x.counted = true
  · have : gap = 0 := by by_contra hg; exact h ⟨hx, hg⟩
    simp [hx, this]
  · simp [hx]

theorem assignedState_counted (x : Service) (gap : Nat) : (assignedState x gap).1.counted = true := by
  unfold assignedState; split
  · split <;> rfl
  · rfl

/-- Settles O24, field by field from the equations of `State.assign`. -/
theorem assignmentFillsTheVoice : Obligations.AssignmentFillsTheVoice := by
  intro s v p h j g
  have hr : (s.assign v p h j g).voice v = _ := (State.voice_assign_self s v p h j g).trans (VoiceRec.assigned_eq ..)
  have hframes : (s.part p).live.glideFrames = ((s.part p).live.params[(0 : Fin 25)]).toNat / 4 := rfl
  have hglide := fun hg => VoiceRec.startGlide_of_glides (r := s.voice v) (g := g) (live := (s.part p).live) hg
    (s.part p).lastPitch (64 * h.note)
  have hstill := fun hg => VoiceRec.startGlide_of_not_glides (r := s.voice v) (g := g) (live := (s.part p).live) hg
    (s.part p).lastPitch (64 * h.note)
  simp only [hr, ← hframes, ← Service.counted_iff]
  refine ⟨State.assign_stamp .., trivial, trivial, trivial, trivial, trivial, trivial, trivial, trivial, trivial, trivial,
    trivial, fun hc hg => ?_, assignedState_fst_of_not, ?_, ?_, ?_, ?_, fun q hq => ?_,
    fun w hw => State.voice_assign_of_ne hw .., fun hv => ?_, fun hv => ?_, State.assign_frame ..⟩
  · rw [assignedState_of_counted hc hg]
    exact ⟨rfl, rfl⟩
  · rintro legato rfl
    refine ⟨fun hf hm => ?_, fun hn => ?_⟩
    · obtain ⟨h1, -, h2⟩ := hglide ((GlideStart.glides_fromLast ..).mpr ⟨hf, hm⟩)
      exact ⟨h2, h1⟩
    · obtain ⟨h1, -, h2⟩ := hstill (by
        rw [← Bool.not_eq_true, GlideStart.glides_fromLast]
        rintro ⟨hf, hm⟩
        rcases hn with hn | hn | ⟨hn, hl⟩
        · omega
        · simp [hn] at hm
        · simp [hn, hl] at hm)
      exact ⟨h2, h1⟩
  · rintro rfl
    obtain ⟨h1, -, h2⟩ := hstill (GlideStart.glides_none _)
    exact ⟨h2, h1⟩
  · rintro rfl
    refine ⟨fun hf hm => ?_, fun hn => ?_⟩
    · obtain ⟨h1, -, h2⟩ := hglide ((GlideStart.glides_fromCurrent _).mpr ⟨hf, hm⟩)
      exact ⟨h2, h1⟩
    · obtain ⟨h1, -, h2⟩ := hstill (by
        rw [← Bool.not_eq_true, GlideStart.glides_fromCurrent]
        rintro ⟨hf, hm⟩
        rcases hn with hn | hn
        · omega
        · exact hm hn)
      exact ⟨h2, h1⟩
  · rw [State.part_assign, if_pos rfl]
  · rw [State.part_assign, if_neg (Ne.symm hq)]
  · refine State.abandons_congr (State.abandonCheck_abandons s v) ?_ ?_
    · rw [State.assign_tune, State.cleared, if_pos hv]
    · rw [State.assign_refresh, State.cleared, if_pos hv]
  · rw [State.assign_tune, State.assign_refresh, State.cleared_of_ne hv]
    exact ⟨rfl, rfl⟩

end Sys2Proof.Machine
end

