-- ==== Sys2Proof/Proofs/PassSteps.lean ====
section
/-! PROOFS. The voices of a part and their count (R24), and what each step of a pass does to the tune controller (R104, R109 to
R111, R118). -/

namespace Sys2Proof.Machine

/-! ### A part's voices (R24) -/

theorem mem_allVoices (v : Voice) : v ∈ allVoices := List.mem_finRange v

theorem nodup_allVoices : allVoices.Nodup := List.nodup_finRange 16

theorem State.serves_iff (s : State) (p : PartNo) (v : Voice) :
    s.serves p v ↔ (s.voice v).state.counted = true ∧ (s.voice v).asgPart = some p := by
  rw [Service.counted_iff]; rfl

@[simp] theorem State.mem_partVoices {s : State} {p : PartNo} {v : Voice} : v ∈ s.partVoices p ↔ s.serves p v := by
  simp [State.partVoices, mem_allVoices, State.serves_iff]

theorem State.nodup_partVoices (s : State) (p : PartNo) : (s.partVoices p).Nodup := nodup_allVoices.filter _

/-- A part's count is the size of the set of its voices (R24). -/
theorem State.count_eq_card (s : State) (p : PartNo) : s.count p = (s.partVoices p).toFinset.card :=
  (List.toFinset_card_of_nodup (s.nodup_partVoices p)).symm

theorem State.count_congr {s t : State} {p : PartNo} (h : ∀ v, t.serves p v ↔ s.serves p v) : t.count p = s.count p := by
  rw [State.count_eq_card, State.count_eq_card]
  congr 1
  ext v
  simpa using h v

theorem State.count_mono {s t : State} {p : PartNo} (h : ∀ v, t.serves p v → s.serves p v) : t.count p ≤ s.count p := by
  rw [State.count_eq_card, State.count_eq_card]
  exact Finset.card_le_card fun v hv => by simpa using h v (by simpa using hv)

/-- A part gains at most the one voice that changes. -/
theorem State.count_le_succ {s t : State} {p : PartNo} {v : Voice} (h : ∀ w, w ≠ v → t.serves p w → s.serves p w) :
    t.count p ≤ s.count p + 1 := by
  rw [State.count_eq_card, State.count_eq_card]
  refine (Finset.card_le_card fun w hw => ?_).trans (Finset.card_insert_le v _)
  by_cases e : w = v
  · simp [e]
  · simpa [e] using h w e (by simpa using hw)

/-- A part gains exactly the one voice that it takes. -/
theorem State.count_eq_succ {s t : State} {p : PartNo} {v : Voice} (h : ∀ w, w ≠ v → (t.serves p w ↔ s.serves p w))
    (hs : ¬ s.serves p v) (ht : t.serves p v) : t.count p = s.count p + 1 := by
  rw [State.count_eq_card, State.count_eq_card,
    ← Finset.card_insert_of_notMem (s := (s.partVoices p).toFinset) (a := v) (by simpa using hs)]
  congr 1
  ext w
  by_cases e : w = v
  · simp [e, ht]
  · simpa [e] using h w e

theorem State.count_eq_zero {s : State} {p : PartNo} : s.count p = 0 ↔ ∀ v, ¬ s.serves p v := by
  unfold State.count
  rw [List.length_eq_zero_iff, List.eq_nil_iff_forall_not_mem]
  simp

theorem State.partVoices_eq_nil {s : State} {p : PartNo} : s.partVoices p = [] ↔ ∀ v, ¬ s.serves p v := by
  rw [List.eq_nil_iff_forall_not_mem]; simp

/-! ### Records through updates of other records -/

@[simp] theorem State.setVoice_setVoice (s : State) (v : Voice) (r q : VoiceRec) :
    (s.setVoice v r).setVoice v q = s.setVoice v q := by
  simp [State.setVoice, Vector.set_set]

theorem State.modVoice_eq (s : State) (v : Voice) (f : VoiceRec → VoiceRec) : s.modVoice v f = s.setVoice v (f (s.voice v)) := rfl

@[simp] theorem State.entry_arbitrate (s : State) (v : Voice) : s.arbitrate.entry v = s.entry v := by
  simp [State.entry]

theorem PassEntry.setSum_state (e : PassEntry) (d : Tuned) (x : DestSummary) : (e.setSum d x).state = e.state := by
  cases d <;> rfl

theorem PassEntry.setSum_reason (e : PassEntry) (d : Tuned) (x : DestSummary) : (e.setSum d x).reason = e.reason := by
  cases d <;> rfl

/-! ### Destinations that begin (R104, R110, R111, R113) -/

/-- The first trial's request of a destination, before the arbiter looks at it. -/
def State.asked (s : State) (x : InService) : State :=
  { s with tune := { s.tune with service := some x, requestWaiting := true } }

theorem State.requestTrial_eq (s : State) (x : InService) : s.requestTrial x = (s.asked x).arbitrate := rfl

@[simp] theorem State.requestTrial_service (s : State) (x : InService) : (s.requestTrial x).tune.service = some x := by
  rw [State.requestTrial_eq, State.arbitrate_service]; rfl

@[simp] theorem State.requestTrial_entries (s : State) (x : InService) :
    (s.requestTrial x).tune.entries = s.tune.entries := by
  rw [State.requestTrial_eq, State.arbitrate_entries]; rfl

@[simp] theorem State.requestTrial_check (s : State) (x : InService) : (s.requestTrial x).tune.check = s.tune.check := by
  rw [State.requestTrial_eq, State.arbitrate_check]; rfl

/-- A pass's request is granted where the unit is free, and waits where it is not (R104). -/
theorem State.requestTrial_requests (s : State) (x : InService) : s.requests (s.requestTrial x) x (s.tune.unit = none) := by
  refine ⟨State.requestTrial_service s x, fun hu => ?_, fun hu => ?_⟩
  · exact State.arbitrate_grants (s := s.asked x) rfl hu rfl
  · rw [State.requestTrial_eq, State.arbitrate_idle (s := s.asked x) (.inr (.inr hu))]
    exact ⟨rfl, rfl⟩

/-- The destination in progress at its beginning (R110, R111). -/
def State.freshWork (s : State) (v : Voice) (d : Tuned) : InService :=
  { voice := v, dest := d, work := .begin (s.cal v d) (s.tune.plan.range d) }

/-- A destination at its beginning, before its first trial is asked for: its summary, and a cutoff's resonance (R111). -/
def State.opened (s : State) (v : Voice) (d : Tuned) : State :=
  match d with
  | .cutoff => (s.setEntry v ((s.entry v).setSum d ⟨.inProgress, .none, 0⟩)).setOverride v 3 (some 0xFFFF)
  | .a | .b => s.setEntry v ((s.entry v).setSum d ⟨.inProgress, .none, 0⟩)

theorem State.beginDest_eq (s : State) (v : Voice) (d : Tuned) :
    s.beginDest v d = (s.opened v d).requestTrial (s.freshWork v d) := by
  cases d <;> rfl

theorem State.opened_passWork (s : State) (v : Voice) (d : Tuned) : s.PassWork (s.opened v d) := by
  cases d
  · exact State.setEntry_passWork s v _
  · exact State.setEntry_passWork s v _
  · exact .trans (State.setEntry_passWork s v _) (State.setOverride_passWork _ _ _ _)

/-- What an opened destination leaves of the tune controller. -/
theorem State.opened_tune (s : State) (v : Voice) (d : Tuned) :
    (s.opened v d).tune =
      { s.tune with entries := s.tune.entries.set v ((s.entry v).setSum d ⟨.inProgress, .none, 0⟩) } := by
  cases d <;> rfl

theorem State.opened_notices (s : State) (v : Voice) (d : Tuned) : (s.opened v d).notices = s.notices := by
  cases d <;> rfl

@[simp] theorem State.beginDest_service (s : State) (v : Voice) (d : Tuned) :
    (s.beginDest v d).tune.service = some (s.freshWork v d) := by
  rw [State.beginDest_eq, State.requestTrial_service]

@[simp] theorem State.beginDest_check (s : State) (v : Voice) (d : Tuned) : (s.beginDest v d).tune.check = s.tune.check := by
  rw [State.beginDest_eq, State.requestTrial_check, State.opened_tune]

@[simp] theorem State.beginDest_outcome (s : State) (v : Voice) (d : Tuned) :
    (s.beginDest v d).tune.outcome = s.tune.outcome := by
  rw [State.beginDest_eq, State.requestTrial_eq, State.arbitrate_outcome]
  cases d <;> rfl

@[simp] theorem State.beginDest_notices (s : State) (v : Voice) (d : Tuned) : (s.beginDest v d).notices = s.notices := by
  rw [State.beginDest_eq, State.requestTrial_eq, State.arbitrate_notices]
  exact State.opened_notices s v d

/-- The entries after a destination began: its summary shows IN_PROGRESS (R111). -/
theorem State.entry_beginDest (s : State) (v : Voice) (d : Tuned) (w : Voice) :
    (s.beginDest v d).entry w = if v = w then (s.entry v).setSum d ⟨.inProgress, .none, 0⟩ else s.entry w := by
  rw [State.beginDest_eq]
  have h : ((s.opened v d).requestTrial (s.freshWork v d)).entry w = (s.opened v d).entry w := by simp [State.entry]
  rw [h]
  cases d <;> exact State.entry_setEntry s v w _

/-- A destination begins as the statements write it (R104, R110, R111). -/
theorem State.beginDest_destBegins (s : State) (v : Voice) (d : Tuned) :
    s.destBegins (s.beginDest v d) v d (s.tune.unit = none) := by
  have hunit : (s.opened v d).tune.unit = s.tune.unit := by cases d <;> rfl
  have hset : (s.opened v d).settings = s.settings := (State.opened_passWork s v d).settings
  refine ⟨?_, ?_, ?_⟩
  · have h := State.requestTrial_requests (s.opened v d) (s.freshWork v d)
    rw [← State.beginDest_eq, hunit] at h
    unfold State.requests State.grants State.measures at h ⊢
    rw [hunit, hset] at h
    cases d <;> exact h
  · rw [State.entry_beginDest, if_pos rfl, PassEntry.sum_setSum, if_pos rfl]
  · rintro rfl
    rw [State.beginDest_eq]
    rcases State.overrideAt_arbitrate ((s.opened v .cutoff).asked (s.freshWork v .cutoff)) v 3 with h | ⟨x, hx, -, hd⟩
    · refine h.trans ?_
      exact (State.overrideAt_setOverride (s.setEntry v ((s.entry v).setSum .cutoff ⟨.inProgress, .none, 0⟩)) v v 3 3
        (some 0xFFFF)).trans (if_pos ⟨rfl, rfl⟩)
    · exfalso
      cases h : x.dest <;> rw [h] at hd <;> exact absurd hd (by decide)

/-- With the unit free the new destination's measurement is the unit's; with the unit busy its request waits (R104). -/
theorem State.beginDest_unit (s : State) (v : Voice) (d : Tuned) :
    (s.tune.unit = none → ∃ m, (s.beginDest v d).tune.unit = some m ∧ m.requester = .pass ∧ m.voice = v) ∧
    ∀ m, s.tune.unit = some m → (s.beginDest v d).tune.unit = some m ∧ (s.beginDest v d).tune.requestWaiting = true := by
  obtain ⟨-, hfree, hbusy⟩ := (State.beginDest_destBegins s v d).1
  refine ⟨fun hu => ?_, fun m hm => ?_⟩
  · obtain ⟨-, m, hm, hq, hv, -⟩ := hfree hu
    exact ⟨m, hm.1, hq, hv⟩
  · obtain ⟨h1, h2⟩ := hbusy (by simp [hm])
    exact ⟨h1.trans hm, h2⟩

/-! ### The pass's next voice (R109, R110, R118) -/

theorem State.passRunning_iff (s : State) : s.passRunning = true ↔ s.tune.outcome = .running := by
  unfold State.passRunning; exact beq_iff_eq

/-- The first destination of a set that names one (R110). -/
def PassEntry.firstDest (e : PassEntry) : Tuned := if e.inA then .a else if e.inB then .b else .cutoff

theorem PassEntry.firstOf_of_named {e : PassEntry} (h : e.named) : e.firstOf [.a, .b, .cutoff] = some e.firstDest := by
  unfold PassEntry.firstOf PassEntry.firstDest
  simp only [List.find?_cons, PassEntry.has]
  rcases h with h | h | h <;> cases ha : e.inA <;> cases hb : e.inB <;> simp_all

/-- The entry found for a state is the lowest-numbered one in it. -/
theorem State.firstEntry_eq_some {s : State} {x : EntryState} {v : Voice} :
    s.firstEntry x = some v ↔ (s.entry v).state = x ∧ ∀ u : Voice, (s.entry u).state = x → v.val ≤ u.val := by
  unfold State.firstEntry allVoices
  rw [List.find?_eq_some_iff_getElem]
  simp only [beq_iff_eq, List.getElem_finRange, List.length_finRange]
  constructor
  · rintro ⟨hv, i, hi, he, hlt⟩
    subst he
    refine ⟨hv, fun u hu => ?_⟩
    by_contra hlt'
    have := hlt u.val (by simpa using hlt')
    simp_all
  · rintro ⟨hv, hmin⟩
    refine ⟨hv, v.val, v.isLt, rfl, fun j hj => ?_⟩
    have := hmin ⟨j, by omega⟩
    simp only [Bool.not_eq_eq_eq_not, Bool.not_true, beq_eq_false_iff_ne, ne_eq]
    intro h
    have := this h
    simp at this
    omega

theorem State.firstEntry_eq_none {s : State} {x : EntryState} : s.firstEntry x = none ↔ ∀ v, (s.entry v).state ≠ x := by
  unfold State.firstEntry
  rw [List.find?_eq_none]
  simp [mem_allVoices]

/-- A pass that stands, or that has a voice in service, chooses none (R110). -/
theorem State.settlePass_of_busy {s : State} (h : s.passRunning = false ∨ s.tune.service.isSome = true) :
    s.settlePass = s := by
  unfold State.settlePass
  rw [if_neg]
  rcases h with h | h
  · simp [h]
  · simp [Option.isNone_iff_eq_none, Option.isSome_iff_ne_none.mp h]

/-- A running pass with no voice in service takes the lowest-numbered voice that waits (R110). -/
theorem State.settlePass_of_waiting {s : State} {v : Voice} (hr : s.passRunning = true) (hs : s.tune.service = none)
    (hv : (s.entry v).state = .waiting) (hmin : ∀ u : Voice, (s.entry u).state = .waiting → v.val ≤ u.val) :
    s.settlePass = s.beginService v := by
  unfold State.settlePass
  rw [if_pos (by simp [hr, hs]), State.firstEntry_eq_some.mpr ⟨hv, hmin⟩]

/-- With none waiting and one to come, a running pass stands by (R110, R118). -/
theorem State.settlePass_of_pending {s : State} (hw : ∀ v, (s.entry v).state ≠ .waiting)
    (hp : ∃ v, (s.entry v).state = .pending) : s.settlePass = s := by
  unfold State.settlePass
  rw [State.firstEntry_eq_none.mpr hw]
  split
  · refine if_pos ?_
    rw [Option.isSome_iff_ne_none, ne_eq, State.firstEntry_eq_none]
    push Not
    exact hp
  · rfl

/-- With no voice still to be served a running pass ends (R118). -/
theorem State.settlePass_of_done {s : State} (hr : s.passRunning = true) (hs : s.tune.service = none)
    (hw : ∀ v, (s.entry v).state ≠ .waiting) (hp : ∀ v, (s.entry v).state ≠ .pending) : s.settlePass = s.endPass := by
  unfold State.settlePass
  rw [if_pos (by simp [hr, hs]), State.firstEntry_eq_none.mpr hw, State.firstEntry_eq_none.mpr hp]
  rfl

/-- A voice is taken into service with the first destination of its set (R110). -/
theorem State.beginService_of_named {s : State} {v : Voice} (h : (s.entry v).named) :
    s.beginService v = (s.setEntry v { s.entry v with state := .inService }).beginDest v (s.entry v).firstDest := by
  unfold State.beginService
  have h' : ({ s.entry v with state := .inService } : PassEntry).firstOf [.a, .b, .cutoff] = some (s.entry v).firstDest :=
    PassEntry.firstOf_of_named (e := { s.entry v with state := .inService }) h
  simp only [h']

/-- A destination begins from the replaced entry as it does from the entry as it was. -/
theorem State.destBegins_setEntry {s t : State} {v w : Voice} {e : PassEntry} {d : Tuned} {free : Prop}
    (h : (s.setEntry w e).destBegins t v d free) : s.destBegins t v d free := h

/-- What a voice taken into service finds: its destination begun, its entry IN_SERVICE, the others as they were (R110). -/
theorem State.beginService_spec {s : State} {v : Voice} (h : (s.entry v).named) :
    (s.beginService v).tune.service = some (s.freshWork v (s.entry v).firstDest)
    ∧ s.destBegins (s.beginService v) v (s.entry v).firstDest (s.tune.unit = none)
    ∧ (s.beginService v).entry v =
      ({ s.entry v with state := .inService }).setSum (s.entry v).firstDest ⟨.inProgress, .none, 0⟩
    ∧ (∀ w, w ≠ v → (s.beginService v).entry w = s.entry w)
    ∧ (s.beginService v).tune.outcome = s.tune.outcome ∧ (s.beginService v).notices = s.notices
    ∧ (s.beginService v).tune.check = s.tune.check := by
  rw [State.beginService_of_named h]
  refine ⟨State.beginDest_service .., State.destBegins_setEntry (State.beginDest_destBegins ..), ?_, fun w hw => ?_,
    State.beginDest_outcome .., State.beginDest_notices .., State.beginDest_check ..⟩
  · rw [State.entry_beginDest, if_pos rfl, State.entry_setEntry, if_pos rfl]
  · rw [State.entry_beginDest, if_neg (Ne.symm hw), State.entry_setEntry, if_neg (Ne.symm hw)]

/-- A running pass with no voice in service and voices that wait takes its next, as the statements write it (R104, R110, R111). -/
theorem State.settlePass_serves {s : State} (hr : s.passRunning = true) (hs : s.tune.service = none)
    (hw : ∃ v, (s.entry v).state = .waiting) :
    ∃ v, (s.entry v).state = .waiting ∧ (∀ u : Voice, (s.entry u).state = .waiting → v.val ≤ u.val)
      ∧ s.settlePass = s.beginService v := by
  obtain ⟨v, hv⟩ : ∃ v, s.firstEntry .waiting = some v := by
    rw [← Option.isSome_iff_exists, Option.isSome_iff_ne_none, ne_eq, State.firstEntry_eq_none]
    push Not
    exact hw
  obtain ⟨h1, h2⟩ := State.firstEntry_eq_some.mp hv
  exact ⟨v, h1, h2, State.settlePass_of_waiting hr hs h1 h2⟩

end Sys2Proof.Machine
end

