-- ==== Sys2Proof/Proofs/Choices.lean ====
section
/-! PROOFS. The choice of a voice: what the scans for the oldest and the newest stamp find (R22), and with them the free-voice and
the steal step (R28, R29). -/

namespace Sys2Proof.Machine

/-! ### A scan that keeps the better of two -/

/-- A scan that takes each item which is better than the best before it. -/
def scanBest {α : Type} (better : α → α → Prop) [DecidableRel better] (x : α) (xs : List α) : α :=
  xs.foldl (fun best y => if better y best then y else best) x

/-- `v` stands in the list where everything before it is worse and nothing after it is better. -/
def IsBest {α : Type} (better : α → α → Prop) (l : List α) (v : α) : Prop :=
  ∃ before after, l = before ++ v :: after ∧ (∀ w ∈ before, better v w) ∧ ∀ w ∈ after, ¬ better w v

/-- At most one place of a list is its best. -/
theorem IsBest.unique {α : Type} {better : α → α → Prop} {l : List α} {v w : α} (hv : IsBest better l v)
    (hw : IsBest better l w) : v = w := by
  obtain ⟨a, b, rfl, ha, hb⟩ := hv
  obtain ⟨c, d, he, hc, hd⟩ := hw
  rcases List.append_eq_append_iff.mp he with ⟨m, rfl, hm⟩ | ⟨m, rfl, hm⟩
  · cases m with
    | nil => exact (List.cons.inj hm).1
    | cons x m =>
      obtain ⟨rfl, rfl⟩ := List.cons.inj hm
      exact absurd (hc v (by simp)) (hb w (by simp))
  · cases m with
    | nil => exact (List.cons.inj hm).1.symm
    | cons x m =>
      obtain ⟨rfl, rfl⟩ := List.cons.inj hm
      exact absurd (ha w (by simp)) (hd v (by simp))

/-- A scan finds the best place of its list, where "better" is a weak order on the list. -/
theorem scanBest_isBest {α : Type} (better : α → α → Prop) [DecidableRel better] (x : α) (xs : List α)
    (htrans : ∀ a ∈ x :: xs, ∀ b ∈ x :: xs, ∀ c ∈ x :: xs, better a b → better b c → better a c)
    (hnot : ∀ a ∈ x :: xs, ∀ b ∈ x :: xs, ∀ c ∈ x :: xs, better a b → ¬ better c b → better a c) :
    IsBest better (x :: xs) (scanBest better x xs) := by
  induction xs using List.reverseRecOn with
  | nil => exact ⟨[], [], rfl, by simp, by simp⟩
  | append_singleton xs y ih =>
    have hsub : ∀ a ∈ x :: xs, a ∈ x :: (xs ++ [y]) := by simp; tauto
    obtain ⟨before, after, he, hb, ha⟩ := ih
      (fun a ha b hb c hc => htrans a (hsub a ha) b (hsub b hb) c (hsub c hc))
      (fun a ha b hb c hc => hnot a (hsub a ha) b (hsub b hb) c (hsub c hc))
    have hmem : ∀ w ∈ before ++ scanBest better x xs :: after, w ∈ x :: (xs ++ [y]) := fun w hw => hsub w (he ▸ hw)
    have hbest : scanBest better x (xs ++ [y]) = if better y (scanBest better x xs) then y else scanBest better x xs := by
      unfold scanBest; rw [List.foldl_append]; rfl
    rw [hbest]
    split
    · rename_i hy
      refine ⟨x :: xs, [], by simp, fun w hw => ?_, by simp⟩
      rw [he] at hw
      rcases List.mem_append.mp hw with hw' | hw'
      · exact htrans y (by simp) _ (hmem _ (by simp)) w (hmem w hw) hy (hb w hw')
      · rcases List.mem_cons.mp hw' with rfl | hw''
        · exact hy
        · exact hnot y (by simp) _ (hmem _ (by simp)) w (hmem w hw) hy (ha w hw'')
    · rename_i hy
      refine ⟨before, after ++ [y], by rw [← List.cons_append, he, List.append_assoc, List.cons_append], hb, fun w hw => ?_⟩
      rcases List.mem_append.mp hw with hw' | hw'
      · exact ha w hw'
      · rwa [List.mem_singleton.mp hw']

/-! ### Stamps compared (R22) -/

/-- Of two stamps within half the counter's range of `now`, the older is the one of the greater age (R22). -/
theorem older_iff {now a b : Stamp} (ha : (now - a).toNat < 2 ^ 31) (hb : (now - b).toNat < 2 ^ 31) :
    older a b = true ↔ (now - b).toNat < (now - a).toNat := by
  have h : (a - b).toNat = ((now - b).toNat + (2 ^ 32 - (now - a).toNat)) % 2 ^ 32 := by
    have e : a - b = (now - b) - (now - a) := by ring
    rw [e, BitVec.toNat_sub]
    congr 1
    omega
  rw [older, BitVec.msb_eq_decide, h, decide_eq_true_iff]
  omega

theorem oldestBy_eq_none {α : Type} {stamp : α → Stamp} {l : List α} : oldestBy stamp l = none ↔ l = [] := by
  cases l <;> simp [oldestBy]

theorem newestBy_eq_none {α : Type} {stamp : α → Stamp} {l : List α} : newestBy stamp l = none ↔ l = [] := by
  cases l <;> simp [newestBy]

/-- The scan for the oldest stamp answers the first item of the greatest age (R22). -/
theorem oldestBy_isBest {α : Type} {stamp : α → Stamp} {l : List α} {v : α} (now : Stamp)
    (hl : ∀ w ∈ l, (now - stamp w).toNat < 2 ^ 31) (h : oldestBy stamp l = some v) :
    IsBest (fun a b => (now - stamp b).toNat < (now - stamp a).toNat) l v := by
  cases l with
  | nil => cases h
  | cons x xs =>
    have key : IsBest (fun a b => older (stamp a) (stamp b) = true) (x :: xs) v := by
      rw [← Option.some.inj h]
      refine scanBest_isBest (fun a b => older (stamp a) (stamp b) = true) x xs (fun a ha b hb c hc => ?_)
        (fun a ha b hb c hc => ?_)
      all_goals
        rw [older_iff (hl a ha) (hl b hb), older_iff (hl a ha) (hl c hc)]
      · rw [older_iff (hl b hb) (hl c hc)]; omega
      · rw [older_iff (hl c hc) (hl b hb)]; omega
    obtain ⟨before, after, he, hb, ha⟩ := key
    rw [he] at hl ⊢
    have hv := hl v (by simp)
    exact ⟨before, after, rfl, fun w hw => (older_iff hv (hl w (by simp [hw]))).mp (hb w hw),
      fun w hw => fun hlt => ha w hw ((older_iff (hl w (by simp [hw])) hv).mpr hlt)⟩

/-- The scan for the newest stamp answers the first item of the least age (R22). -/
theorem newestBy_isBest {α : Type} {stamp : α → Stamp} {l : List α} {v : α} (now : Stamp)
    (hl : ∀ w ∈ l, (now - stamp w).toNat < 2 ^ 31) (h : newestBy stamp l = some v) :
    IsBest (fun a b => (now - stamp a).toNat < (now - stamp b).toNat) l v := by
  cases l with
  | nil => cases h
  | cons x xs =>
    have key : IsBest (fun a b => older (stamp b) (stamp a) = true) (x :: xs) v := by
      rw [← Option.some.inj h]
      refine scanBest_isBest (fun a b => older (stamp b) (stamp a) = true) x xs (fun a ha b hb c hc => ?_)
        (fun a ha b hb c hc => ?_)
      all_goals
        rw [older_iff (hl b hb) (hl a ha), older_iff (hl c hc) (hl a ha)]
      · rw [older_iff (hl c hc) (hl b hb)]; omega
      · rw [older_iff (hl b hb) (hl c hc)]; omega
    obtain ⟨before, after, he, hb, ha⟩ := key
    rw [he] at hl ⊢
    have hv := hl v (by simp)
    exact ⟨before, after, rfl, fun w hw => (older_iff (hl w (by simp [hw])) hv).mp (hb w hw),
      fun w hw => fun hlt => ha w hw ((older_iff hv (hl w (by simp [hw]))).mpr hlt)⟩

theorem IsBest.mem {α : Type} {better : α → α → Prop} {l : List α} {v : α} (h : IsBest better l v) : v ∈ l := by
  obtain ⟨a, b, rfl, -, -⟩ := h; simp

/-- No item is better than the best by a measure. -/
theorem IsBest.le {α : Type} {key : α → Nat} {l : List α} {v : α} (h : IsBest (fun a b => key b < key a) l v) {w : α}
    (hw : w ∈ l) : key w ≤ key v := by
  obtain ⟨a, b, rfl, ha, hb⟩ := h
  rcases List.mem_append.mp hw with hw | hw
  · exact (ha w hw).le
  · rcases List.mem_cons.mp hw with rfl | hw
    · exact le_rfl
    · exact Nat.le_of_not_lt (hb w hw)

theorem IsBest.ge {α : Type} {key : α → Nat} {l : List α} {v : α} (h : IsBest (fun a b => key a < key b) l v) {w : α}
    (hw : w ∈ l) : key v ≤ key w := by
  obtain ⟨a, b, rfl, ha, hb⟩ := h
  rcases List.mem_append.mp hw with hw | hw
  · exact (ha w hw).le
  · rcases List.mem_cons.mp hw with rfl | hw
    · exact le_rfl
    · exact Nat.le_of_not_lt (hb w hw)

theorem scanBest_mem {α : Type} (better : α → α → Prop) [DecidableRel better] (x : α) (xs : List α) :
    scanBest better x xs ∈ x :: xs := by
  induction xs generalizing x with
  | nil => simp [scanBest]
  | cons y ys ih =>
    have h := ih (if better y x then y else x)
    change scanBest better x (y :: ys) ∈ _ at h
    split at h
    · exact List.mem_cons_of_mem x h
    · rcases List.mem_cons.mp h with h | h
      · rw [h]; exact List.mem_cons_self
      · exact List.mem_cons_of_mem x (List.mem_cons_of_mem y h)

theorem oldestBy_mem {α : Type} {stamp : α → Stamp} {l : List α} {v : α} (h : oldestBy stamp l = some v) : v ∈ l := by
  cases l with
  | nil => cases h
  | cons x xs =>
    exact Option.some.inj h ▸ scanBest_mem (fun a b => older (stamp a) (stamp b) = true) x xs

theorem newestBy_mem {α : Type} {stamp : α → Stamp} {l : List α} {v : α} (h : newestBy stamp l = some v) : v ∈ l := by
  cases l with
  | nil => cases h
  | cons x xs =>
    exact Option.some.inj h ▸ scanBest_mem (fun a b => older (stamp b) (stamp a) = true) x xs

/-! ### The free-voice step (R28) -/

theorem VoiceRec.assignedRight.isSome {r : VoiceRec} (h : r.assignedRight)
    (hs : r.state = .sounding ∨ r.state = .releasing ∨ r.state = .stealGap) : r.asg.isSome := h.mpr hs

theorem State.filter_allVoices_eq_nil {f : Voice → Bool} : allVoices.filter f = [] ↔ ∀ v, f v = false := by
  simp [List.filter_eq_nil_iff, mem_allVoices]

/-- The free-voice step finds none exactly where no voice is a candidate of any tier (R28). -/
theorem State.freeChoice_eq_none {s : State} {note : Nat} : s.freeChoice note = none ↔ ∀ v, ¬ (s.voice v).free := by
  unfold State.freeChoice
  simp only [Option.or_eq_none_iff, oldestBy_eq_none, List.filter_filter, State.filter_allVoices_eq_nil]
  constructor
  · rintro ⟨h1, h2, h3, h4⟩ v (h | ⟨h, ht, ho⟩ | h)
    · have a := h1 v
      have b := h2 v
      simp_all
    · simpa [h, ht, ho] using h3 v
    · simpa [h] using h4 v
  · intro h
    have hi : ∀ v, (s.voice v).state ≠ .idle := fun v e => h v (.inl e)
    refine ⟨fun v => by simp [hi v], fun v => by simp [hi v], fun v => ?_, fun v => ?_⟩
    · by_contra hc
      simp only [Bool.not_eq_false, Bool.and_eq_true, beq_iff_eq, Bool.not_eq_eq_eq_not, Bool.not_true] at hc
      exact h v (.inr (.inl ⟨hc.1.1, hc.1.2, hc.2⟩))
    · by_contra hc
      simp only [Bool.not_eq_false, beq_iff_eq] at hc
      exact h v (.inr (.inr hc))

/-- The voice of the free-voice step is a candidate of one of the tiers (R28). -/
theorem State.freeChoice_free {s : State} {note : Nat} {v : Voice} (h : s.freeChoice note = some v) : (s.voice v).free := by
  unfold State.freeChoice at h
  simp only [Option.or_eq_some_iff] at h
  rcases h with h | ⟨-, h | ⟨-, h | ⟨-, h⟩⟩⟩ <;> have hm := oldestBy_mem h <;>
    simp only [List.mem_filter, mem_allVoices, true_and, Bool.and_eq_true, beq_iff_eq, Bool.not_eq_eq_eq_not,
      Bool.not_true] at hm
  · exact .inl hm.1
  · exact .inl hm.1
  · exact .inr (.inl ⟨hm.1.1, hm.1.2, hm.2⟩)
  · exact .inr (.inr hm)

/-- The voice of the free-voice step is the one that R28 names. -/
theorem State.freeChoice_choosesFree {s : State} (ha : ∀ v, (s.voice v).assignedRight) (hc : s.stampsClose) {note : Nat}
    {v : Voice} (h : s.freeChoice note = some v) : s.choosesFree note v := by
  unfold State.freeChoice at h
  simp only [Option.or_eq_some_iff, oldestBy_eq_none, List.filter_filter, State.filter_allVoices_eq_nil] at h
  have hidle : ∀ (f : Voice → Bool) (w : Voice), w ∈ allVoices.filter (fun v => f v && (s.voice v).state == .idle) →
      (s.stamp - (s.voice w).lastFree).toNat < 2 ^ 31 := fun f w hw => by
    simp only [List.mem_filter, mem_allVoices, true_and, Bool.and_eq_true, beq_iff_eq] at hw
    exact hc.1 w (.inl hw.2)
  rcases h with h | ⟨h1, h | ⟨h2, h | ⟨h3, h⟩⟩⟩
  · have hb := oldestBy_isBest s.stamp (hidle _) h
    have hm := hb.mem
    simp only [List.mem_filter, mem_allVoices, true_and, Bool.and_eq_true, beq_iff_eq] at hm
    refine .inl ⟨hm.2, fun _ => hm.1, fun w hw hn => ?_⟩
    exact hb.le (key := fun v => (s.stamp - (s.voice v).lastFree).toNat) (by simp [mem_allVoices, hw, hn.mpr hm.1])
  · have hb := oldestBy_isBest s.stamp (hidle _) h
    have hm := hb.mem
    simp only [List.mem_filter, mem_allVoices, true_and, Bool.and_eq_true, beq_iff_eq, bne_iff_ne] at hm
    refine .inl ⟨hm.2, ?_, fun w hw hn => ?_⟩
    · rintro ⟨w, hw, hn⟩
      simpa [hw, hn] using h1 w
    · refine hb.le (key := fun v => (s.stamp - (s.voice v).lastFree).toNat) ?_
      simpa [mem_allVoices, hw] using fun e => hm.1 (hn.mp e)
  all_goals
    have hno : ∀ w, (s.voice w).state ≠ .idle := fun w hw => by
      have a := h1 w
      have b := h2 w
      simp_all
  · have hb := oldestBy_isBest s.stamp (l := allVoices.filter fun v => (s.voice v).state == .releasing
      && !(s.voice v).tunePending && !(s.voice v).offlinePending) (fun w hw => by
        simp only [List.mem_filter, mem_allVoices, true_and, Bool.and_eq_true, beq_iff_eq] at hw
        exact hc.2 w ((ha w).isSome (.inr (.inl hw.1.1)))) h
    have hm := hb.mem
    simp only [List.mem_filter, mem_allVoices, true_and, Bool.and_eq_true, beq_iff_eq, Bool.not_eq_eq_eq_not,
      Bool.not_true] at hm
    refine .inr (.inl ⟨hno, ⟨hm.1.1, hm.1.2, hm.2⟩, fun w hw => ?_⟩)
    exact hb.le (key := fun v => (s.stamp - (s.voice v).asgStamp).toNat)
      (by simp [mem_allVoices, hw.1, hw.2.1, hw.2.2])
  · have hb := oldestBy_isBest s.stamp (l := allVoices.filter fun v => (s.voice v).state == .retuning) (fun w hw => by
      simp only [List.mem_filter, mem_allVoices, true_and, beq_iff_eq] at hw
      exact hc.1 w (.inr hw)) h
    have hm := hb.mem
    simp only [List.mem_filter, mem_allVoices, true_and, beq_iff_eq] at hm
    refine .inr (.inr ⟨hno, fun w hw => ?_, hm, fun w hw => ?_⟩)
    · simpa [hw.1, hw.2.1, hw.2.2] using h3 w
    · exact hb.le (key := fun v => (s.stamp - (s.voice v).lastFree).toNat) (by simp [mem_allVoices, hw])

/-! ### The steal step (R29) -/

/-- A candidate of the steal step that may not be spared as the part's own (R29, R33). -/
def State.stealableIf (s : State) (p : PartNo) (limit : Nat) (spareOwn : Bool) (v : Voice) : Prop :=
  s.stealable p limit v ∧ (spareOwn = true → (s.voice v).asgPart ≠ some p)

@[simp] theorem State.stealableIf_false {s : State} {p : PartNo} {limit : Nat} {v : Voice} :
    s.stealableIf p limit false v ↔ s.stealable p limit v := by simp [State.stealableIf]

@[simp] theorem State.stealableIf_true {s : State} {p : PartNo} {limit : Nat} {v : Voice} :
    s.stealableIf p limit true v ↔ s.stealableOther p limit v := by simp [State.stealableIf, State.stealableOther]

/-- The candidates of the steal step are those of R29, where every SOUNDING voice has an assignment (R23). -/
theorem State.mem_stealCandidates {s : State} (ha : ∀ v, (s.voice v).assignedRight) {p : PartNo} {limit : Nat}
    {spareOwn : Bool} {v : Voice} : v ∈ s.stealCandidates p limit spareOwn ↔ s.stealableIf p limit spareOwn v := by
  have hpart : ∀ a, (s.voice v).asg = some a → (s.voice v).asgPart = some a.part := fun a h => by simp [VoiceRec.asgPart, h]
  have hunp : ∀ a, (s.voice v).asg = some a → (s.unprotected v = true ↔ (s.part a.part).reserve < s.count a.part) :=
    fun a h => by simp [State.unprotected, h]
  simp only [State.stealCandidates, List.mem_filter, mem_allVoices, true_and, Bool.and_eq_true, beq_iff_eq,
    Bool.not_eq_eq_eq_not, Bool.not_true, Bool.and_eq_false_imp]
  unfold State.stealableIf State.stealable VoiceRec.unmarked
  constructor
  · rintro ⟨⟨⟨⟨hs, ht⟩, ho⟩, hc⟩, hown⟩
    obtain ⟨a, hav⟩ := Option.isSome_iff_exists.mp ((ha v).isSome (.inl hs))
    refine ⟨⟨hs, ⟨ht, ho⟩, a, hav, fun hlt => ?_, fun hge => ?_⟩, fun h => by simpa using hown h⟩
    · rw [if_pos hlt] at hc
      exact (hunp a hav).mp hc
    · rw [if_neg (by omega)] at hc
      simpa [hpart a hav] using hc
  · rintro ⟨⟨hs, ⟨ht, ho⟩, a, hav, hlt, hge⟩, hown⟩
    refine ⟨⟨⟨⟨hs, ht⟩, ho⟩, ?_⟩, fun h => by simpa using hown h⟩
    split
    · exact (hunp a hav).mpr (hlt ‹_›)
    · simpa [hpart a hav] using hge (by omega)

/-- The steal step takes a candidate (R29). -/
theorem State.stealChoice_mem {s : State} {p : PartNo} {limit : Nat} {spareOwn : Bool} {v : Voice}
    (h : s.stealChoice p limit spareOwn = some v) : v ∈ s.stealCandidates p limit spareOwn := by
  unfold State.stealChoice at h
  simp only [Option.or_eq_some_iff] at h
  rcases h with h | ⟨-, h⟩
  · exact (List.mem_filter.mp (oldestBy_mem h)).1
  · exact (List.mem_filter.mp (oldestBy_mem h)).1

/-- The steal step finds none exactly where there is no candidate (R29). -/
theorem State.stealChoice_eq_none {s : State} (ha : ∀ v, (s.voice v).assignedRight) {p : PartNo} {limit : Nat}
    {spareOwn : Bool} : s.stealChoice p limit spareOwn = none ↔ ∀ v, ¬ s.stealableIf p limit spareOwn v := by
  simp only [← State.mem_stealCandidates ha]
  unfold State.stealChoice
  simp only [Option.or_eq_none_iff, oldestBy_eq_none, List.filter_eq_nil_iff]
  constructor
  · rintro ⟨h1, h2⟩ v hv
    have a := h1 v hv
    have b := h2 v hv
    simp_all
  · intro h
    exact ⟨fun v hv => absurd hv (h v), fun v hv => absurd hv (h v)⟩

/-- The voice of the steal step is the one that R29 names: a sustained candidate before the others, then the oldest. -/
theorem State.stealChoice_spec {s : State} (ha : ∀ v, (s.voice v).assignedRight) (hc : s.stampsClose) {p : PartNo}
    {limit : Nat} {spareOwn : Bool} {v : Voice} (h : s.stealChoice p limit spareOwn = some v) :
    s.stealableIf p limit spareOwn v
    ∧ ((∃ w, s.stealableIf p limit spareOwn w ∧ (s.voice w).isSustained = true) → (s.voice v).isSustained = true)
    ∧ ∀ w, s.stealableIf p limit spareOwn w → (s.voice w).isSustained = (s.voice v).isSustained → s.keyAge w ≤ s.keyAge v := by
  simp only [← State.mem_stealCandidates ha]
  refine ⟨State.stealChoice_mem h, ?_⟩
  have hage : ∀ (f : Voice → Bool) (w : Voice), w ∈ (s.stealCandidates p limit spareOwn).filter f →
      (s.stamp - (s.voice w).asgStamp).toNat < 2 ^ 31 := fun f w hw => by
    obtain ⟨⟨-, -, a, hav, -⟩, -⟩ := (State.mem_stealCandidates ha).mp (List.mem_filter.mp hw).1
    exact hc.2 w (by simp [hav])
  unfold State.stealChoice at h
  simp only [Option.or_eq_some_iff, oldestBy_eq_none, List.filter_eq_nil_iff] at h
  rcases h with h | ⟨hn, h⟩
  · have hb := oldestBy_isBest s.stamp (hage _) h
    have hv := (List.mem_filter.mp hb.mem).2
    refine ⟨fun _ => hv, fun w hw he => ?_⟩
    exact hb.le (key := fun v => (s.stamp - (s.voice v).asgStamp).toNat) (List.mem_filter.mpr ⟨hw, he.trans hv⟩)
  · have hb := oldestBy_isBest s.stamp (hage _) h
    have hv := (List.mem_filter.mp hb.mem).2
    refine ⟨fun ⟨w, hw, hs⟩ => absurd hs (hn w hw), fun w hw he => ?_⟩
    exact hb.le (key := fun v => (s.stamp - (s.voice v).asgStamp).toNat) (List.mem_filter.mpr ⟨hw, by simpa [he] using hv⟩)

end Sys2Proof.Machine
end

