-- ==== Sys2Proof/Proofs/PolyKeyOn.lean ====
section
/-! PROOFS. The free-voice and the steal step as the statements write them (R28 to R30), and a POLY key-on: O22. -/

namespace Sys2Proof.Machine

/-! ### A voice that takes a key (R25) -/

/-- What an assignment makes of the voice's service state (R25). -/
theorem VoiceRec.assigned_gap (r : VoiceRec) (p : PartNo) (h : HeldKey) (j : Nat) (g : GlideStart) (part : Part)
    (stamp : Stamp) (gap : Nat) :
    if r.state.counted = true ∧ gap ≠ 0 then
      (r.assigned p h j g part stamp gap).state = .stealGap ∧ (r.assigned p h j g part stamp gap).gap = gap
    else (r.assigned p h j g part stamp gap).state = .sounding := by
  rw [VoiceRec.assigned_eq]
  split
  · rename_i hc
    rw [assignedState_of_counted hc.1 hc.2]
    exact ⟨rfl, rfl⟩
  · rename_i hc
    exact assignedState_fst_of_not hc

/-- A state that differs from an assignment's in part counts and free choices alone has had the key taken. -/
theorem State.keyTaken_of_eq {s t : State} {v : Voice} {p : PartNo} {h : HeldKey} {j : Nat} {g : GlideStart}
    (ht : t = { s.assign v p h j g with parts := t.parts, freePicks := t.freePicks })
    (hq : ∀ q, q ≠ p → t.part q = s.part q) : s.keyTaken t v p h j g := by
  have hvoice : ∀ w, t.voice w = (s.assign v p h j g).voice w := fun w => by rw [ht]; rfl
  have hv := (hvoice v).trans (State.voice_assign_self s v p h j g)
  refine ⟨ht, ?_, ?_, ?_, ?_, fun w hw => ?_, hq, ?_⟩
  · rw [ht]; exact State.assign_stamp s v p h j g
  · rw [hv]; exact congrArg VoiceRec.asg (VoiceRec.assigned_eq ..)
  · rw [hv]; exact congrArg VoiceRec.target (VoiceRec.assigned_eq ..)
  · rw [hv]; exact VoiceRec.assigned_gap ..
  · rw [hvoice w]; exact State.voice_assign_of_ne hw p h j g
  · rw [ht]; exact State.assign_settings s v p h j g

theorem State.keyTaken_assign (s : State) (v : Voice) (p : PartNo) (h : HeldKey) (j : Nat) (g : GlideStart) :
    s.keyTaken (s.assign v p h j g) v p h j g :=
  State.keyTaken_of_eq rfl fun q hq => by rw [State.part_assign, if_neg (Ne.symm hq)]

/-- The part that a key is taken for has a new last pitch (R26). -/
theorem State.part_assign_self (s : State) (v : Voice) (p : PartNo) (h : HeldKey) (j : Nat) (g : GlideStart) :
    (s.assign v p h j g).part p = { s.part p with lastPitch := 64 * h.note } := by rw [State.part_assign, if_pos rfl]

/-- An assignment by a steal: it counts as one of the part's steals (R29). -/
def State.stolen (s : State) (v : Voice) (p : PartNo) (h : HeldKey) (j : Nat) (g : GlideStart) : State :=
  (s.assign v p h j g).modPart p fun q => { q with steals := saturate 65535 (q.steals + 1) }

theorem State.keyTaken_stolen (s : State) (v : Voice) (p : PartNo) (h : HeldKey) (j : Nat) (g : GlideStart) :
    s.keyTaken (s.stolen v p h j g) v p h j g := by
  refine State.keyTaken_of_eq rfl fun q hq => ?_
  unfold State.stolen
  rw [State.part_modPart, if_neg (Ne.symm hq), State.part_assign, if_neg (Ne.symm hq)]

theorem State.part_stolen_self (s : State) (v : Voice) (p : PartNo) (h : HeldKey) (j : Nat) (g : GlideStart) :
    (s.stolen v p h j g).part p =
      { s.part p with lastPitch := 64 * h.note, steals := min 65535 ((s.part p).steals + 1) } := by
  unfold State.stolen
  rw [State.part_modPart, if_pos rfl, State.part_assign_self]
  rfl

theorem State.dropKey_keyDropped (s : State) (p : PartNo) : s.keyDropped (s.dropKey p) p := by
  refine ⟨rfl, fun q hq => ?_, ?_⟩ <;> unfold State.dropKey <;> rw [State.part_modPart]
  · rw [if_neg (Ne.symm hq)]
  · rw [if_pos rfl]; rfl

/-! ### The two steps (R28, R29) -/

/-- The free-voice step finds a voice exactly below the limit with a candidate at hand (R28). -/
theorem State.freeStep_eq_none {s : State} {p : PartNo} {h : HeldKey} {j : Nat} {g : GlideStart} {n : Nat} :
    s.freeStep p h j g n = none ↔ n ≤ s.count p ∨ ∀ v, ¬ (s.voice v).free := by
  unfold State.freeStep
  split
  · rw [Option.map_eq_none_iff, State.freeChoice_eq_none]
    constructor
    · exact .inr
    · rintro (h | h)
      · omega
      · exact h
  · simp only [true_iff]
    exact .inl (by omega)

theorem State.freeStep_eq_some {s t : State} {p : PartNo} {h : HeldKey} {j : Nat} {g : GlideStart} {n : Nat} :
    s.freeStep p h j g n = some t ↔ s.count p < n ∧ ∃ v, s.freeChoice h.note = some v ∧ t = s.assign v p h j g := by
  unfold State.freeStep
  split
  · rename_i hn
    simp [hn, eq_comm]
  · rename_i hn
    simp [hn]

theorem State.stealStep_eq_none {s : State} (ha : ∀ v, (s.voice v).assignedRight) {p : PartNo} {h : HeldKey} {j : Nat}
    {g : GlideStart} {n : Nat} {own : Bool} :
    s.stealStep p h j g n own = none ↔ ∀ v, ¬ s.stealableIf p n own v := by
  unfold State.stealStep
  rw [Option.map_eq_none_iff, State.stealChoice_eq_none ha]

theorem State.stealStep_eq_some {s t : State} {p : PartNo} {h : HeldKey} {j : Nat} {g : GlideStart} {n : Nat} {own : Bool} :
    s.stealStep p h j g n own = some t ↔ ∃ v, s.stealChoice p n own = some v ∧ t = s.stolen v p h j g := by
  unfold State.stealStep State.stolen
  simp [eq_comm]

/-- The free-voice and the steal step find none where neither has a candidate. -/
theorem State.acquire_eq_none {s : State} (ha : ∀ v, (s.voice v).assignedRight) {p : PartNo} {h : HeldKey} {j : Nat}
    {g : GlideStart} {n : Nat} {own : Bool} :
    s.acquire p h j g n own = none ↔ ¬ s.findsFree p n ∧ ∀ v, ¬ s.stealableIf p n own v := by
  unfold State.acquire State.findsFree
  rw [Option.or_eq_none_iff, State.freeStep_eq_none, State.stealStep_eq_none ha]
  refine and_congr_left fun _ => ?_
  push Not
  constructor
  · rintro (h | h)
    · intro; omega
    · exact fun _ => h
  · intro h
    by_cases hn : n ≤ s.count p
    · exact .inl hn
    · exact .inr (h (by omega))

/-- What the free-voice and the steal step answer: an assignment of the free choice, or else of the steal's (R28, R29). -/
theorem State.acquire_eq_some {s t : State} {p : PartNo} {h : HeldKey} {j : Nat} {g : GlideStart} {n : Nat} {own : Bool}
    (e : s.acquire p h j g n own = some t) :
    (s.count p < n ∧ ∃ v, s.freeChoice h.note = some v ∧ t = s.assign v p h j g)
    ∨ ¬ s.findsFree p n ∧ ∃ v, s.stealChoice p n own = some v ∧ t = s.stolen v p h j g := by
  unfold State.acquire at e
  rcases Option.or_eq_some_iff.mp e with e | ⟨hn, e⟩
  · exact .inl (State.freeStep_eq_some.mp e)
  · refine .inr ⟨?_, State.stealStep_eq_some.mp e⟩
    rintro ⟨hlt, v, hv⟩
    rcases State.freeStep_eq_none.mp hn with h | h
    · omega
    · exact h v hv

theorem State.acquire_of_findsFree {s : State} {p : PartNo} {n : Nat} (hf : s.findsFree p n) (h : HeldKey) (j : Nat)
    (g : GlideStart) (own : Bool) :
    ∃ v, s.freeChoice h.note = some v ∧ s.acquire p h j g n own = some (s.assign v p h j g) := by
  obtain ⟨hlt, v, hv⟩ := hf
  obtain ⟨w, hw⟩ : ∃ w, s.freeChoice h.note = some w := by
    rw [← Option.isSome_iff_exists, Option.isSome_iff_ne_none, ne_eq, State.freeChoice_eq_none]
    exact fun h => h v hv
  refine ⟨w, hw, ?_⟩
  unfold State.acquire
  rw [State.freeStep_eq_some.mpr ⟨hlt, w, hw, rfl⟩, Option.some_or]

theorem State.acquire_of_not_findsFree {s : State} {p : PartNo} {n : Nat} (hf : ¬ s.findsFree p n) (h : HeldKey) (j : Nat)
    (g : GlideStart) (own : Bool) : s.acquire p h j g n own = s.stealStep p h j g n own := by
  have hn : s.freeStep p h j g n = none := by
    rw [State.freeStep_eq_none]
    by_contra hc
    push Not at hc
    exact hf ⟨hc.1, hc.2⟩
  unfold State.acquire
  rw [hn, Option.none_or]

/-- The steal step, or a drop, as the statements write it (R29, R30). -/
theorem State.stealStep_keyStolen {s : State} (ha : ∀ v, (s.voice v).assignedRight) (hc : s.stampsClose) (p : PartNo)
    (h : HeldKey) (g : GlideStart) (n : Nat) :
    s.keyStolen ((s.stealStep p h 0 g n false).getD (s.dropKey p)) p h n g := by
  cases e : s.stealStep p h 0 g n false with
  | none =>
    have hno := (State.stealStep_eq_none ha).mp e
    simp only [State.stealableIf_false] at hno
    exact ⟨fun ⟨v, hv⟩ => absurd hv (hno v), fun _ => State.dropKey_keyDropped s p⟩
  | some t =>
    obtain ⟨v, hv, rfl⟩ := State.stealStep_eq_some.mp e
    have hspec := State.stealChoice_spec ha hc hv
    simp only [State.stealableIf_false] at hspec
    exact ⟨fun _ => ⟨v, hspec, State.keyTaken_stolen .., State.part_stolen_self ..⟩, fun hno => absurd hspec.1 (hno v)⟩

/-- Where a check's voice is assigned to, the check is given up (R25, R133). -/
theorem State.assign_check (s : State) {v : Voice} (hv : (s.voice v).state = .retuning) {c : Check}
    (hc : s.tune.check = some c) (he : c.voice = v) (p : PartNo) (h : HeldKey) (j : Nat) (g : GlideStart) :
    (s.assign v p h j g).tune.check = none := by
  rw [State.assign_tune, State.cleared, if_pos hv]
  exact ((State.abandonCheck_abandons s v).1 c hc he).1

/-- The free-voice and steal steps, or a drop, as the statements write them (R28 to R30). -/
theorem State.acquire_keyServed {s : State} (ha : ∀ v, (s.voice v).assignedRight) (hc : s.stampsClose) (p : PartNo)
    (h : HeldKey) (g : GlideStart) (n : Nat) :
    s.keyServed ((s.acquire p h 0 g n false).getD (s.dropKey p)) p h n g := by
  refine ⟨fun hlt hfree => ?_, fun hno => ?_⟩
  · obtain ⟨v, hv, e⟩ := State.acquire_of_findsFree ⟨hlt, hfree⟩ h 0 g false
    rw [e]
    exact ⟨v, State.freeChoice_choosesFree ha hc hv, State.keyTaken_assign .., State.part_assign_self ..,
      fun c hch he hr => State.assign_check s hr hch he ..⟩
  · rw [State.acquire_of_not_findsFree]
    · exact State.stealStep_keyStolen ha hc p h g n
    · rintro ⟨hlt, v, hv⟩
      rcases hno with hno | hno
      · omega
      · exact hno v hv

/-! ### A POLY key-on (R27) -/

theorem State.mem_carriers {s : State} {p : PartNo} {h : HeldKey} {v : Voice} :
    v ∈ s.carriers p h ↔ (s.voice v).carries p h = true ∧ (s.voice v).unmarked := by
  simp [State.carriers, mem_allVoices, VoiceRec.unmarked, and_assoc]

/-- The re-strike picks one of its carriers, and none only where there is none (R27; log entry 4). -/
theorem State.pickCarrier_spec (s : State) (l : List Voice) :
    ((s.pickCarrier l).2 = none ↔ l = []) ∧ (∀ v, (s.pickCarrier l).2 = some v → v ∈ l)
      ∧ (s.pickCarrier l).1 = { s with freePicks := (s.pickCarrier l).1.freePicks } := by
  match l with
  | [] => simp [State.pickCarrier]
  | [w] => simp [State.pickCarrier, eq_comm]
  | w :: x :: l =>
    refine ⟨by simp [State.pickCarrier], fun v hv => ?_, rfl⟩
    have e : (w :: x :: l).getD (Config.restrikePick s.freePicks % (l.length + 2)) w = v := Option.some.inj hv
    have hlt : Config.restrikePick s.freePicks % (l.length + 2) < (w :: x :: l).length := by
      simpa using Nat.mod_lt _ (Nat.succ_pos _)
    rw [List.getD_eq_getElem _ _ hlt] at e
    exact e ▸ List.getElem_mem hlt

/-- An assignment of a voice that is not RETUNING does not look at the count of free choices. -/
theorem State.assign_freePicks {s : State} {v : Voice} (hv : (s.voice v).state ≠ .retuning) (n : Nat) (p : PartNo)
    (h : HeldKey) (j : Nat) (g : GlideStart) :
    ({ s with freePicks := n }).assign v p h j g = { s.assign v p h j g with freePicks := n } := by
  rw [State.assign_eq, State.assign_eq, State.cleared_of_ne hv, State.cleared_of_ne (s := { s with freePicks := n }) hv]
  rfl

theorem State.allocKeyOn_poly {s : State} {p : PartNo} (hm : (s.part p).live.voiceMode = .poly) (h : HeldKey)
    (legato : Bool) : s.allocKeyOn p h legato = s.polyKeyOn p h legato := by
  unfold State.allocKeyOn; rw [hm]

/-- The re-strike of a POLY key-on (R27). -/
theorem State.polyKeyOn_of_live {s : State} {p : PartNo} {h : HeldKey} (legato : Bool)
    (hl : ∃ v, v ∈ s.carriers p h ∧ (s.voice v).state.counted = true) :
    ∃ (v : Voice) (n : Nat), v ∈ s.carriers p h ∧ (s.voice v).state.counted = true
      ∧ s.polyKeyOn p h legato = { s.assign v p h 0 (.fromLast legato) with freePicks := n } := by
  obtain ⟨hnone, hmem, hfst⟩ := s.pickCarrier_spec ((s.carriers p h).filter fun v => (s.voice v).state.counted)
  unfold State.polyKeyOn
  simp only
  split
  · rename_i v hv
    obtain ⟨hc, hs⟩ := List.mem_filter.mp (hmem v hv)
    have hne : (s.voice v).state ≠ .retuning := by rintro e; rw [e] at hs; cases hs
    refine ⟨v, (s.pickCarrier ((s.carriers p h).filter fun v => (s.voice v).state.counted)).1.freePicks, hc, hs, ?_⟩
    rw [hfst, State.assign_freePicks hne]
  · rename_i hn
    obtain ⟨v, hv, hs⟩ := hl
    have hin : v ∈ (s.carriers p h).filter fun v => (s.voice v).state.counted := List.mem_filter.mpr ⟨hv, hs⟩
    rw [hnone.mp hn] at hin
    cases hin

/-- A POLY key-on whose key no counted voice carries (R27 to R30). -/
theorem State.polyKeyOn_of_not_live {s : State} {p : PartNo} {h : HeldKey} (legato : Bool)
    (hl : ∀ v, v ∈ s.carriers p h → (s.voice v).state.counted = false) :
    s.polyKeyOn p h legato =
      match newestBy (fun v => (s.voice v).asgStamp) ((s.carriers p h).filter fun v => (s.voice v).state == .releasing) with
      | some v =>
        if s.count p < s.limit p then s.assign v p h 0 (.fromLast legato)
        else (s.stealStep p h 0 (.fromLast legato) (s.limit p) false).getD (s.dropKey p)
      | none => (s.acquire p h 0 (.fromLast legato) (s.limit p) false).getD (s.dropKey p) := by
  have hnil : (s.carriers p h).filter (fun v => (s.voice v).state.counted) = [] := by
    simpa [List.filter_eq_nil_iff] using hl
  unfold State.polyKeyOn
  rw [hnil]
  rfl

/-- Settles O22, by the branches of a POLY key-on: a live carrier, a tail that carries the key, or none. -/
theorem polyKeyOnTakesItsVoice : Obligations.PolyKeyOnTakesItsVoice := by
  intro s p h legato hm ha hclose
  simp only [State.allocKeyOn_poly hm, ← State.mem_carriers, ← Service.counted_iff]
  have hmem : ∀ v, v ∈ (s.carriers p h).filter (fun v => (s.voice v).state == .releasing) ↔
      v ∈ s.carriers p h ∧ (s.voice v).state = .releasing := by simp [List.mem_filter]
  have hrest := fun (hno : ∀ v, ¬ (v ∈ s.carriers p h ∧ (s.voice v).state.counted = true)) =>
    State.polyKeyOn_of_not_live (s := s) legato fun v hv => by simpa using fun hs => hno v ⟨hv, hs⟩
  refine ⟨fun hlive => ?_, fun hno ⟨w, hw⟩ => ?_, fun hno hnt => ?_⟩
  · obtain ⟨v, n, hv, hs, e⟩ := State.polyKeyOn_of_live legato hlive
    rw [e]
    refine ⟨v, ⟨hv, hs⟩, State.keyTaken_of_eq rfl fun q hq => ?_, State.part_assign_self ..⟩
    exact (State.part_assign s v p h 0 _ q).trans (if_neg (Ne.symm hq))
  · rw [hrest hno]
    split
    · rename_i v hv
      have hbest := newestBy_isBest s.stamp (fun u hu => hclose.2 u ((ha u).isSome (.inr (.inl ((hmem u).mp hu).2)))) hv
      refine ⟨fun hlt => ?_, fun hge => ?_⟩
      · rw [if_pos hlt]
        exact ⟨v, (hmem v).mp hbest.mem,
          fun u hu => hbest.ge (key := fun v => (s.stamp - (s.voice v).asgStamp).toNat) ((hmem u).mpr hu),
          State.keyTaken_assign .., State.part_assign_self ..⟩
      · rw [if_neg (by omega)]
        exact State.stealStep_keyStolen ha hclose ..
    · rename_i hn
      exact absurd ((hmem w).mpr hw) (by simp [newestBy_eq_none.mp hn])
  · rw [hrest hno]
    split
    · rename_i v hv
      exact absurd ((hmem v).mp (newestBy_mem hv)) (hnt v)
    · exact State.acquire_keyServed ha hclose ..

end Sys2Proof.Machine
end

