-- ==== Sys2Proof/Proofs/Releases.lean ====
section
/-! PROOFS. Voices taken one after another, with the stamps they take (R22), and releases with the ends of their tails (R34, R36,
R38). -/

namespace Sys2Proof.Machine

/-! ### Voices taken one after another (R22) -/

/-- The stamp that follows `n` stamps taken from `x` on (R22). -/
def stampAfter (x : Stamp) (n : Nat) : Stamp := x + 1 + BitVec.ofNat 32 n

theorem stampAfter_zero (x : Stamp) : stampAfter x 0 = x + 1 := by simp [stampAfter]

theorem stampAfter_succ (x : Stamp) (n : Nat) : stampAfter (x + 1) n = stampAfter x (n + 1) := by
  unfold stampAfter
  rw [BitVec.ofNat_add, show BitVec.ofNat 32 1 = (1 : Stamp) from rfl]
  ring

/-- What a fold over voices does whose every step changes one voice, by its record and the next stamp, and takes that stamp or not.
`inv` is what the steps rest on, with the voices still to come. -/
structure VoiceFold (f : State → Voice → State) (g : Voice → VoiceRec → Stamp → VoiceRec) (takes : Voice → VoiceRec → Bool)
    (inv : List Voice → State → Prop) : Prop where
  keeps : ∀ s v l, inv (v :: l) s → inv l (f s v)
  voice : ∀ s v l, inv (v :: l) s → ∀ w, (f s v).voice w = if v = w then g v (s.voice v) (s.stamp + 1) else s.voice w
  stamp : ∀ s v l, inv (v :: l) s → (f s v).stamp = if takes v (s.voice v) then s.stamp + 1 else s.stamp

section
variable {f : State → Voice → State} {g : Voice → VoiceRec → Stamp → VoiceRec} {takes : Voice → VoiceRec → Bool}
  {inv : List Voice → State → Prop}

/-- Voices outside the list stay. -/
theorem VoiceFold.voice_of_not_mem (hf : VoiceFold f g takes inv) {l : List Voice} {s : State} (h : inv l s) {w : Voice}
    (hw : w ∉ l) : (l.foldl f s).voice w = s.voice w := by
  induction l generalizing s with
  | nil => rfl
  | cons v l ih =>
    have hne : v ≠ w := fun e => hw (by simp [e])
    rw [List.foldl_cons, ih (hf.keeps s v l h) (fun hm => hw (by simp [hm])), hf.voice s v l h, if_neg hne]

/-- The steps that take a stamp are counted by the records the voices had before. -/
theorem VoiceFold.stamp_foldl (hf : VoiceFold f g takes inv) {l : List Voice} (hl : l.Nodup) {s : State} (h : inv l s) :
    (l.foldl f s).stamp = s.stamp + BitVec.ofNat 32 (l.filter fun v => takes v (s.voice v)).length := by
  induction l generalizing s with
  | nil => simp
  | cons v l ih =>
    obtain ⟨hv, hl⟩ := List.nodup_cons.mp hl
    have hsame : (l.filter fun w => takes w ((f s v).voice w)) = l.filter fun w => takes w (s.voice w) :=
      List.filter_congr fun w hw => by rw [hf.voice s v l h, if_neg fun e : v = w => hv (e ▸ hw)]
    rw [List.foldl_cons, ih hl (hf.keeps s v l h), hsame, hf.stamp s v l h, List.filter_cons]
    split
    · rw [List.length_cons, BitVec.ofNat_add, show BitVec.ofNat 32 1 = (1 : Stamp) from rfl]; ring
    · rfl

/-- A voice of the list is changed once, by its record and the stamp that follows those taken before it. -/
theorem VoiceFold.voice_of_split (hf : VoiceFold f g takes inv) {l₁ l₂ : List Voice} {v : Voice}
    (hl : (l₁ ++ v :: l₂).Nodup) {s : State} (h : inv (l₁ ++ v :: l₂) s) :
    ((l₁ ++ v :: l₂).foldl f s).voice v =
      g v (s.voice v) (stampAfter s.stamp (l₁.filter fun w => takes w (s.voice w)).length) := by
  induction l₁ generalizing s with
  | nil =>
    obtain ⟨hv, -⟩ := List.nodup_cons.mp hl
    rw [List.nil_append, List.foldl_cons, hf.voice_of_not_mem (hf.keeps s v l₂ h) hv, hf.voice s v l₂ h, if_pos rfl]
    simp [stampAfter_zero]
  | cons u l₁ ih =>
    obtain ⟨hu, hl⟩ := List.nodup_cons.mp hl
    have hne : u ≠ v := fun e => hu (by simp [e])
    have hsame : (l₁.filter fun w => takes w ((f s u).voice w)) = l₁.filter fun w => takes w (s.voice w) :=
      List.filter_congr fun w hw => by rw [hf.voice s u _ h, if_neg fun e : u = w => hu (by simp [e, hw])]
    rw [List.cons_append, List.foldl_cons, ih hl (hf.keeps s u _ h), hf.voice s u _ h, if_neg hne, hsame, hf.stamp s u _ h,
      List.filter_cons]
    split
    · rw [List.length_cons, stampAfter_succ]
    · rfl

theorem VoiceFold.exists_voice (hf : VoiceFold f g takes inv) {l : List Voice} (hl : l.Nodup) {s : State} (h : inv l s)
    {v : Voice} (hv : v ∈ l) : ∃ n, (l.foldl f s).voice v = g v (s.voice v) (stampAfter s.stamp n) := by
  obtain ⟨l₁, l₂, rfl⟩ := List.append_of_mem hv
  exact ⟨_, hf.voice_of_split hl h⟩

end

/-- In ascending voice number, what stands before a voice is what is below it. -/
theorem filter_lt_of_split {l₁ l₂ : List Voice} {v : Voice} (hl : (l₁ ++ v :: l₂).Pairwise (· < ·)) (q : Voice → Bool) :
    l₁.filter q = (l₁ ++ v :: l₂).filter fun w => q w && decide (w.val < v.val) := by
  obtain ⟨-, h2, h3⟩ := List.pairwise_append.mp hl
  have hbefore : l₁.filter q = l₁.filter fun w => q w && decide (w.val < v.val) :=
    List.filter_congr fun w hw => by
      have : w.val < v.val := h3 w hw v (by simp)
      simp [this]
  have hafter : (v :: l₂).filter (fun w => q w && decide (w.val < v.val)) = [] := by
    rw [List.filter_eq_nil_iff]
    intro w hw
    have : ¬ w.val < v.val := by
      rcases List.mem_cons.mp hw with rfl | hw
      · exact lt_irrefl _
      · exact not_lt.mpr (le_of_lt ((List.pairwise_cons.mp h2).1 w hw))
    simp [this]
  rw [List.filter_append, ← hbefore, hafter, List.append_nil]

theorem sorted_allVoices : allVoices.Pairwise (· < ·) := List.pairwise_lt_finRange 16

/-- A fold over all voices of a class, in ascending number: the record of each is changed once, by its own stamp (R22). -/
theorem VoiceFold.voice_ascending {f : State → Voice → State} {g : Voice → VoiceRec → Stamp → VoiceRec}
    {takes : Voice → VoiceRec → Bool} {inv : List Voice → State → Prop} (hf : VoiceFold f g takes inv) {c : Voice → Bool}
    {s : State} (h : inv (allVoices.filter c) s) {v : Voice} (hv : c v = true) :
    ((allVoices.filter c).foldl f s).voice v = g v (s.voice v) (stampAfter s.stamp
      (allVoices.filter fun w => (c w && takes w (s.voice w)) && decide (w.val < v.val)).length) := by
  obtain ⟨l₁, l₂, e⟩ := List.append_of_mem (List.mem_filter.mpr ⟨mem_allVoices v, hv⟩)
  have hsorted : (l₁ ++ v :: l₂).Pairwise (· < ·) := e ▸ sorted_allVoices.filter _
  have hnodup : (l₁ ++ v :: l₂).Nodup := e ▸ nodup_allVoices.filter _
  rw [e] at h ⊢
  rw [hf.voice_of_split hnodup h, filter_lt_of_split hsorted, ← e, List.filter_filter]
  congr 3
  refine List.filter_congr fun w _ => ?_
  cases c w <;> simp

theorem VoiceFold.stamp_ascending {f : State → Voice → State} {g : Voice → VoiceRec → Stamp → VoiceRec}
    {takes : Voice → VoiceRec → Bool} {inv : List Voice → State → Prop} (hf : VoiceFold f g takes inv) {c : Voice → Bool}
    {s : State} (h : inv (allVoices.filter c) s) :
    ((allVoices.filter c).foldl f s).stamp =
      s.stamp + BitVec.ofNat 32 (allVoices.filter fun w => c w && takes w (s.voice w)).length := by
  rw [hf.stamp_foldl (nodup_allVoices.filter _) h, List.filter_filter]
  congr 4
  funext w
  exact Bool.and_comm _ _

/-- A fold over a class of voices whose stamp-taking steps give the stamp as last-free stamp leaves the stamps that the statements
describe (R22). -/
theorem VoiceFold.stampedFrom {f : State → Voice → State} {g : Voice → VoiceRec → Stamp → VoiceRec}
    {takes : Voice → VoiceRec → Bool} {inv : List Voice → State → Prop} (hf : VoiceFold f g takes inv) {c : Voice → Bool}
    {s : State} (h : inv (allVoices.filter c) s) (hg : ∀ v r x, takes v r = true → (g v r x).lastFree = x)
    {freed : Voice → Bool} (hfreed : ∀ v, freed v = (c v && takes v (s.voice v))) :
    ((allVoices.filter c).foldl f s).stampedFrom s.stamp freed := by
  obtain rfl : freed = fun v => c v && takes v (s.voice v) := funext hfreed
  refine ⟨hf.stamp_ascending h, fun v hv => ?_⟩
  obtain ⟨hc, ht⟩ := Bool.and_eq_true_iff.mp hv
  rw [hf.voice_ascending h hc, hg _ _ _ ht]
  rfl

theorem filter_true_allVoices : allVoices.filter (fun _ => true) = allVoices := by simp

/-! ### The end of a tail (R34, R38) -/

/-- A record whose tail is over, `x` being the next stamp (R34, R38). -/
def VoiceRec.tailEnded (r : VoiceRec) (x : Stamp) : VoiceRec :=
  if r.tunePending then { r.drop with state := .calibrating, tunePending := false }
  else if r.offlinePending then { r.drop with state := .offline, offlinePending := false }
  else { r.drop with state := .idle, idle := 0, lastFree := x }

/-- Neither pending flag is set: the voice goes to IDLE at its tail's end (R38). -/
def VoiceRec.unmarkedB (r : VoiceRec) : Bool := !r.tunePending && !r.offlinePending

theorem State.endTail_of_tunePending {s : State} {v : Voice} (h : (s.voice v).tunePending = true) :
    s.endTail v = (s.setVoice v ((s.voice v).tailEnded (s.stamp + 1))).joinPass v := by
  unfold State.endTail VoiceRec.tailEnded
  simp only [h, if_true]
  rw [State.modVoice_eq, State.modVoice_eq, State.setVoice_setVoice, State.voice_setVoice, if_pos rfl]

theorem State.endTail_of_offlinePending {s : State} {v : Voice} (h : (s.voice v).tunePending = false)
    (ho : (s.voice v).offlinePending = true) :
    s.endTail v = s.setVoice v ((s.voice v).tailEnded (s.stamp + 1)) := by
  unfold State.endTail VoiceRec.tailEnded
  simp only [h, ho, if_true, Bool.false_eq_true, if_false]
  rw [State.modVoice_eq, State.modVoice_eq, State.setVoice_setVoice, State.voice_setVoice, if_pos rfl]

theorem State.endTail_of_unmarked {s : State} {v : Voice} (h : (s.voice v).unmarked) :
    s.endTail v = s.bump.setVoice v ((s.voice v).tailEnded (s.stamp + 1)) := by
  obtain ⟨ht, ho⟩ := h
  unfold State.endTail VoiceRec.tailEnded State.enterIdle
  simp only [ht, ho, Bool.false_eq_true, if_false]
  have e : (s.modVoice v VoiceRec.drop).bump = s.bump.setVoice v (s.voice v).drop := rfl
  rw [e, State.modVoice_eq, State.setVoice_setVoice, State.voice_setVoice, if_pos rfl]
  rfl

theorem VoiceRec.unmarked_iff (r : VoiceRec) : r.unmarked ↔ r.unmarkedB = true := by
  simp [VoiceRec.unmarked, VoiceRec.unmarkedB]

/-- The voices after the end of a tail: only the voice itself is new (R38). -/
theorem State.voice_endTail (s : State) (v w : Voice) :
    (s.endTail v).voice w = if v = w then (s.voice v).tailEnded (s.stamp + 1) else s.voice w := by
  cases ht : (s.voice v).tunePending
  · cases ho : (s.voice v).offlinePending
    · rw [State.endTail_of_unmarked ⟨ht, ho⟩]
      exact State.voice_setVoice s.bump v w _
    · rw [State.endTail_of_offlinePending ht ho, State.voice_setVoice]
  · rw [State.endTail_of_tunePending ht, (State.joinPass_passWork _ v).voice, State.voice_setVoice]

/-- A new stamp comes with IDLE alone (R22, R38). -/
theorem State.endTail_stamp (s : State) (v : Voice) :
    (s.endTail v).stamp = if (s.voice v).unmarkedB then s.stamp + 1 else s.stamp := by
  unfold VoiceRec.unmarkedB
  cases ht : (s.voice v).tunePending
  · cases ho : (s.voice v).offlinePending
    · rw [State.endTail_of_unmarked ⟨ht, ho⟩]; rfl
    · rw [State.endTail_of_offlinePending ht ho]; rfl
  · rw [State.endTail_of_tunePending ht, (State.joinPass_passWork _ v).stamp]; rfl

/-- The end of a tail, from records that read as these do, is the one the statements describe (R34, R38). -/
theorem State.tailOver_of_voice {s t : State} {v : Voice} {x : Stamp} (h : t.voice v = (s.voice v).tailEnded x) :
    s.tailOver t v := by
  refine ⟨fun ht => ?_, fun ht ho => ?_, fun ht ho => ?_⟩ <;> rw [h] <;> unfold VoiceRec.tailEnded VoiceRec.drop
  · rw [if_pos ht]
  · simp [ht, ho]
  · simp [ht, ho]

/-- Without a pending flag the end of a tail changes voices and stamps alone (R38). -/
theorem State.endTail_frame {s : State} {v : Voice} (h : (s.voice v).tunePending = false) :
    s.endTail v = { s with voices := (s.endTail v).voices, stamp := (s.endTail v).stamp } := by
  cases ho : (s.voice v).offlinePending
  · rw [State.endTail_of_unmarked ⟨h, ho⟩]; rfl
  · rw [State.endTail_of_offlinePending h ho]; rfl

/-! ### Releases (R34, R36) -/

/-- The tail frames of a voice's part, 0 for a voice without one (R34). -/
def State.tailOf (s : State) (v : Voice) : Nat :=
  match (s.voice v).asgPart with
  | some p => (s.part p).live.tailFrames
  | none => 0

/-- A record released with a tail of `n` frames, `x` being the next stamp (R34). -/
def VoiceRec.released (r : VoiceRec) (n : Nat) (x : Stamp) : VoiceRec :=
  if n = 0 then r.tailEnded x else { r with state := .releasing, tail := n, gap := 0 }

theorem State.release_eq (s : State) (v : Voice) :
    s.release v = if s.tailOf v = 0 then (s.setVoice v { s.voice v with state := .releasing, tail := s.tailOf v, gap := 0 }).endTail v
      else s.setVoice v { s.voice v with state := .releasing, tail := s.tailOf v, gap := 0 } := rfl

/-- A tail's end does not look at the state, the tail and the gap it ends. -/
theorem VoiceRec.tailEnded_releasing (r : VoiceRec) (n : Nat) (x : Stamp) :
    ({ r with state := .releasing, tail := n, gap := 0 } : VoiceRec).tailEnded x = r.tailEnded x := by
  unfold VoiceRec.tailEnded VoiceRec.drop; rfl

theorem State.voice_release (s : State) (v w : Voice) :
    (s.release v).voice w = if v = w then (s.voice v).released (s.tailOf v) (s.stamp + 1) else s.voice w := by
  rw [State.release_eq]
  unfold VoiceRec.released
  split
  · rw [State.voice_endTail, State.voice_setVoice, if_pos rfl, VoiceRec.tailEnded_releasing]
    by_cases e : v = w
    · rw [if_pos e, if_pos e]; rfl
    · rw [if_neg e, if_neg e, State.voice_setVoice, if_neg e]
  · rw [State.voice_setVoice]

theorem State.release_stamp (s : State) (v : Voice) :
    (s.release v).stamp = if s.tailOf v = 0 && (s.voice v).unmarkedB then s.stamp + 1 else s.stamp := by
  rw [State.release_eq]
  by_cases h : s.tailOf v = 0
  · rw [if_pos h, State.endTail_stamp, State.voice_setVoice, if_pos rfl]
    simp [h, State.setVoice, VoiceRec.unmarkedB]
  · simp [h, State.setVoice]

/-- The tail does not depend on the sustained mark. -/
theorem State.tailOf_setSustained (s : State) (v : Voice) (b : Bool) :
    (s.setVoice v ((s.voice v).setSustained b)).tailOf v = s.tailOf v := by
  unfold State.tailOf VoiceRec.asgPart VoiceRec.setSustained
  rw [State.voice_setVoice, if_pos rfl, Option.map_map]
  rfl

theorem VoiceRec.tailEnded_setSustained (r : VoiceRec) (b : Bool) (x : Stamp) :
    (r.setSustained b).tailEnded x = r.tailEnded x := by
  unfold VoiceRec.tailEnded VoiceRec.drop VoiceRec.setSustained; rfl

/-- The voices after a release without regard to sustain (R36). -/
theorem State.voice_releaseClear (s : State) (v w : Voice) :
    (s.releaseClear v).voice w =
      if v = w then ((s.voice v).setSustained false).released (s.tailOf v) (s.stamp + 1) else s.voice w := by
  unfold State.releaseClear
  rw [State.modVoice_eq, State.voice_release, State.tailOf_setSustained, State.voice_setVoice, if_pos rfl]
  by_cases e : v = w
  · rw [if_pos e, if_pos e]; rfl
  · rw [if_neg e, if_neg e, State.voice_setVoice, if_neg e]

theorem State.releaseClear_stamp (s : State) (v : Voice) :
    (s.releaseClear v).stamp = if s.tailOf v = 0 && (s.voice v).unmarkedB then s.stamp + 1 else s.stamp := by
  unfold State.releaseClear
  rw [State.modVoice_eq, State.release_stamp, State.tailOf_setSustained, State.voice_setVoice, if_pos rfl]
  rfl

/-- With a tail a release changes voices alone (R34). -/
theorem State.releaseClear_of_tail {s : State} {v : Voice} (h : s.tailOf v ≠ 0) :
    s.releaseClear v = { s with voices := (s.releaseClear v).voices } := by
  unfold State.releaseClear
  rw [State.modVoice_eq, State.release_eq, State.tailOf_setSustained, if_neg h]
  rfl

/-- A voice that is not tune-pending is released with voices and stamps alone changing (R34, R38). -/
theorem State.releaseClear_of_not_tunePending {s : State} {v : Voice} (h : (s.voice v).tunePending = false) :
    s.releaseClear v = { s with voices := (s.releaseClear v).voices, stamp := (s.releaseClear v).stamp } := by
  unfold State.releaseClear
  rw [State.modVoice_eq, State.release_eq]
  split
  · rw [State.endTail_frame (by rw [State.voice_setVoice, if_pos rfl, State.voice_setVoice, if_pos rfl]; exact h)]
    rfl
  · rfl

/-- The check in hand has no part in releases (R126). -/
theorem State.settlePass_check (s : State) : s.settlePass.tune.check = s.tune.check := by
  unfold State.settlePass
  split
  · split
    · unfold State.beginService
      simp only
      split
      · rw [State.beginDest_check]; rfl
      · rfl
    · split <;> rfl
  · rfl

theorem State.joinPass_check (s : State) (v : Voice) : (s.joinPass v).tune.check = s.tune.check := by
  unfold State.joinPass
  split
  · rw [State.settlePass_check]; rfl
  · rfl

theorem State.endTail_check (s : State) (v : Voice) : (s.endTail v).tune.check = s.tune.check := by
  cases ht : (s.voice v).tunePending
  · rw [State.endTail_frame ht]
  · rw [State.endTail_of_tunePending ht, State.joinPass_check]; rfl

theorem State.release_check (s : State) (v : Voice) : (s.release v).tune.check = s.tune.check := by
  rw [State.release_eq]
  split
  · rw [State.endTail_check]; rfl
  · rfl

theorem State.releaseClear_check (s : State) (v : Voice) : (s.releaseClear v).tune.check = s.tune.check := by
  unfold State.releaseClear
  rw [State.release_check]; rfl

/-- Releases one after another: each voice goes with the tail of its part, as it was before the first of them (R34, R36). -/
theorem State.releaseClear_fold (tails : Voice → Nat) :
    VoiceFold State.releaseClear (fun v r x => (r.setSustained false).released (tails v) x)
      (fun v r => tails v == 0 && r.unmarkedB) (fun l s => l.Nodup ∧ ∀ v ∈ l, s.tailOf v = tails v) := by
  refine ⟨fun s v l h => ⟨(List.nodup_cons.mp h.1).2, fun w hw => ?_⟩, fun s v l h w => ?_, fun s v l h => ?_⟩
  · have hne : v ≠ w := fun e => (List.nodup_cons.mp h.1).1 (e ▸ hw)
    rw [← h.2 w (by simp [hw])]
    unfold State.tailOf
    rw [State.voice_releaseClear, if_neg hne]
    simp only [(State.releaseClear_voiceWork s v).part]
  · rw [State.voice_releaseClear, h.2 v (by simp)]
  · rw [State.releaseClear_stamp, h.2 v (by simp)]
    rfl

/-- A voice is freed at once by its release where its tail is 0 and no flag is pending (R34, R38). -/
theorem State.freedAtOnce_eq {s : State} {v : Voice} (h : (s.voice v).asgPart.isSome) :
    s.freedAtOnce v = (s.tailOf v == 0 && (s.voice v).unmarkedB) := by
  obtain ⟨p, hp⟩ := Option.isSome_iff_exists.mp h
  unfold State.freedAtOnce State.tailOf VoiceRec.unmarkedB
  simp only [hp]
  have e : decide (((s.part p).live.params[(6 : Fin 25)]).toNat < 2) = ((s.part p).live.tailFrames == 0) := by
    rw [Bool.eq_iff_iff]
    simp only [decide_eq_true_eq, beq_iff_eq, Patch.tailFrames, Patch.param]
    omega
  rw [e, Bool.and_assoc]

/-- A released record is RELEASING with its tail, or past it at once, as the statements write it (R34, R36). -/
theorem State.noteEnded_of_voice {s t : State} {v : Voice} {x : Stamp}
    (h : t.voice v = ((s.voice v).setSustained false).released (s.tailOf v) x) : s.noteEnded t v := by
  intro a ha
  have htail : s.tailOf v = ((s.part a.part).live.params[(6 : Fin 25)]).toNat / 2 := by
    unfold State.tailOf VoiceRec.asgPart; rw [ha]; rfl
  refine ⟨fun hn => ⟨a, ha, ?_⟩, fun hn => ?_⟩
  · rw [h, VoiceRec.released, if_neg (by omega), htail]
    unfold VoiceRec.setSustained
    rw [ha]; rfl
  · rw [VoiceRec.released, if_pos (by omega), VoiceRec.tailEnded_setSustained] at h
    exact State.tailOver_of_voice h

end Sys2Proof.Machine
end

