-- ==== Sys2Proof/Proofs/Claims.lean ====
section
/-! PROOFS. The claims on the voices (R23, R106, R126), and that the tune controller's work keeps them. -/

namespace Sys2Proof.Machine

/-! ### The invariant, and what an operation keeps of it -/

/-- An entry that claims its voice: WAITING or IN_SERVICE (R106). -/
def PassEntry.claimed (e : PassEntry) : Prop := e.state = .waiting ∨ e.state = .inService

/-- The invariant of the voices and the tune controller but for the parts' counts. -/
structure State.ClaimsRight (s : State) : Prop where
  assigned : ∀ v, (s.voice v).assignedRight
  serving : ∀ x, s.tune.service = some x → (s.voice x.voice).state = .calibrating
  entered : ∀ v, (s.entry v).claimed → (s.voice v).state = .calibrating
  checking : ∀ c, s.tune.check = some c → (s.voice c.voice).state = .retuning
  fails : s.failsFit
  tune : s.tuneFit
  patches : s.patchesFit

/-- The invariant of the voices and the tune controller (R23, R24, R106, R110, R123, R126, R135). -/
structure State.VoicesSound (s : State) : Prop extends s.ClaimsRight where
  counts : s.countsFit

theorem State.voicesSound_iff (s : State) :
    s.VoicesSound ↔ s.voicesRight ∧ s.countsFit ∧ s.failsFit ∧ s.tuneFit ∧ s.patchesFit :=
  ⟨fun ⟨⟨h1, h2, h3, h4, h5, h6, h7⟩, h8⟩ => ⟨⟨h1, h2, h3, h4⟩, h8, h5, h6, h7⟩,
    fun ⟨⟨h1, h2, h3, h4⟩, h8, h5, h6, h7⟩ => ⟨⟨h1, h2, h3, h4, h5, h6, h7⟩, h8⟩⟩

/-- From `s` to `t` the claims stand, no part has gained a voice, and the limits are as they were. -/
structure State.Kept (s t : State) : Prop where
  claims : t.ClaimsRight
  serves : ∀ p v, t.serves p v → s.serves p v
  limit : ∀ p, t.limit p = s.limit p

theorem State.Kept.trans {s t u : State} (h : s.Kept t) (k : t.Kept u) : s.Kept u :=
  ⟨k.claims, fun p v hv => h.serves p v (k.serves p v hv), fun p => (k.limit p).trans (h.limit p)⟩

theorem State.ClaimsRight.kept {s : State} (h : s.ClaimsRight) : s.Kept s := ⟨h, fun _ _ => id, fun _ => rfl⟩

theorem State.VoicesSound.kept {s t : State} (h : s.VoicesSound) (k : s.Kept t) : t.VoicesSound :=
  ⟨k.claims, fun p => (State.count_mono (k.serves p)).trans ((h.counts p).trans_eq (k.limit p).symm)⟩

/-- Work that moves no voice, makes no claim and changes neither the plan nor a patch. -/
theorem State.ClaimsRight.kept_of_less {s t : State} (h : s.ClaimsRight) (hv : t.voices = s.voices)
    (hx : ∀ x, t.tune.service = some x → s.tune.service = some x)
    (he : ∀ v, (t.entry v).claimed → (s.entry v).claimed) (hc : ∀ c, t.tune.check = some c → s.tune.check = some c)
    (hp : t.tune.plan = s.tune.plan) (hl : ∀ p, (t.part p).live = (s.part p).live)
    (hs : t.patches.slots = s.patches.slots) : s.Kept t := by
  have hvoice : ∀ v, t.voice v = s.voice v := fun v => by unfold State.voice; rw [hv]
  have hcache : ∀ c, t.cache c = s.cache c := fun c => by unfold State.cache; rw [hs]
  obtain ⟨h1, h2, h3, h4, h5⟩ := h.tune
  refine ⟨⟨fun v => ?_, fun x hx' => ?_, fun v hv' => ?_, fun c hc' => ?_, fun v => ?_, ?_, fun p => ?_, fun c x hx' => ?_⟩,
    fun p v => ?_, fun p => ?_⟩
  · rw [hvoice]; exact h.assigned v
  · rw [hvoice]; exact h.serving x (hx x hx')
  · rw [hvoice]; exact h.entered v (he v hv')
  · rw [hvoice]; exact h.checking c (hc c hc')
  · rw [hvoice]; exact h.fails v
  · unfold State.tuneFit
    rw [hp]
    exact ⟨h1, h2, h3, h4, fun x hx' => h5 x (hx x hx')⟩
  · rw [hl]; exact h.patches.1 p
  · rw [hcache] at hx'; exact h.patches.2 c x hx'
  · unfold State.serves; rw [hvoice]; exact id
  · unfold State.limit; rw [hl]

/-- A voice replaced: a claim on the old record is one on the new, or is no claim on this voice. -/
theorem State.ClaimsRight.kept_setVoice {s : State} (h : s.ClaimsRight) {v : Voice} {r : VoiceRec} (ha : r.assignedRight)
    (hf : r.fails ≤ 255)
    (hc : (s.voice v).state = .calibrating → r.state = .calibrating ∨
      ¬ (s.entry v).claimed ∧ ∀ x, s.tune.service = some x → x.voice ≠ v)
    (hr : (s.voice v).state = .retuning → r.state = .retuning ∨ ∀ c, s.tune.check = some c → c.voice ≠ v)
    (hk : r.state.counted = true → (s.voice v).state.counted = true ∧ r.asgPart = (s.voice v).asgPart) :
    s.Kept (s.setVoice v r) := by
  have other : ∀ w, v ≠ w → (s.setVoice v r).voice w = s.voice w := fun w hw => by rw [State.voice_setVoice, if_neg hw]
  have self : (s.setVoice v r).voice v = r := by rw [State.voice_setVoice, if_pos rfl]
  refine ⟨⟨fun w => ?_, fun x hx => ?_, fun w hw => ?_, fun c hc' => ?_, fun w => ?_, h.tune, h.patches⟩, fun p w hw => ?_,
    fun p => rfl⟩
  · by_cases e : v = w
    · subst e; rw [self]; exact ha
    · rw [other w e]; exact h.assigned w
  · by_cases e : v = x.voice
    · rw [← e, self]
      have old := h.serving x hx
      rcases hc (e ▸ old) with hc | ⟨-, hc⟩
      · exact hc
      · exact absurd e.symm (hc x hx)
    · rw [other _ e]; exact h.serving x hx
  · by_cases e : v = w
    · subst e
      rw [self]
      rcases hc (h.entered v hw) with hc | ⟨hc, -⟩
      · exact hc
      · exact absurd hw hc
    · rw [other w e]; exact h.entered w hw
  · by_cases e : v = c.voice
    · rw [← e, self]
      have old := h.checking c hc'
      rcases hr (e ▸ old) with hr | hr
      · exact hr
      · exact absurd e.symm (hr c hc')
    · rw [other _ e]; exact h.checking c hc'
  · by_cases e : v = w
    · subst e; rw [self]; exact hf
    · rw [other w e]; exact h.fails w
  · rw [State.serves_iff] at hw ⊢
    by_cases e : v = w
    · subst e
      rw [self] at hw
      obtain ⟨h1, h2⟩ := hk hw.1
      exact ⟨h1, h2.symm.trans hw.2⟩
    · rwa [other w e] at hw

/-- A record changed in fields that no claim looks at. -/
theorem State.ClaimsRight.kept_modVoice {s : State} (h : s.ClaimsRight) {v : Voice} {f : VoiceRec → VoiceRec}
    (hs : ∀ r, (f r).state = r.state) (ha : ∀ r, (f r).asg.isSome = r.asg.isSome ∧ (f r).asgPart = r.asgPart)
    (hf : (f (s.voice v)).fails ≤ 255) : s.Kept (s.modVoice v f) := by
  refine h.kept_setVoice ?_ hf (fun hc => .inl ((hs _).trans hc)) (fun hr => .inl ((hs _).trans hr)) fun hk => ?_
  · unfold VoiceRec.assignedRight
    rw [(ha _).1, hs]
    exact h.assigned v
  · exact ⟨hs (s.voice v) ▸ hk, (ha _).2⟩

/-- A voice that no claim names takes a record without assignment, in a state that no claim asks for. -/
theorem State.ClaimsRight.kept_free {s : State} (h : s.ClaimsRight) {v : Voice} {r : VoiceRec} (ha : r.asg = none)
    (hs : ¬ (r.state = .sounding ∨ r.state = .releasing ∨ r.state = .stealGap)) (hf : r.fails ≤ 255)
    (hc : (s.voice v).state = .calibrating → ¬ (s.entry v).claimed ∧ ∀ x, s.tune.service = some x → x.voice ≠ v)
    (hr : (s.voice v).state = .retuning → ∀ c, s.tune.check = some c → c.voice ≠ v) : s.Kept (s.setVoice v r) := by
  refine h.kept_setVoice ⟨fun e => ?_, fun e => absurd e hs⟩ hf (fun e => .inr (hc e)) (fun e => .inr (hr e)) fun e => ?_
  · rw [ha] at e; cases e
  · rw [Service.counted_iff] at e
    exact absurd e (by tauto)

theorem VoiceRec.assignedRight.asg_eq_none {r : VoiceRec} (h : r.assignedRight)
    (hs : ¬ (r.state = .sounding ∨ r.state = .releasing ∨ r.state = .stealGap)) : r.asg = none := by
  rw [← Option.not_isSome_iff_eq_none]
  exact fun e => hs (h.mp e)

/-- An entry replaced by one that claims its voice only where the voice is CALIBRATING. -/
theorem State.ClaimsRight.kept_setEntry {s : State} (h : s.ClaimsRight) {v : Voice} {e : PassEntry}
    (he : e.claimed → (s.voice v).state = .calibrating) : s.Kept (s.setEntry v e) := by
  refine ⟨⟨h.assigned, h.serving, fun w hw => ?_, h.checking, h.fails, h.tune, h.patches⟩, fun _ _ => id, fun _ => rfl⟩
  rw [State.entry_setEntry] at hw
  split at hw
  · rename_i e'; exact e' ▸ he hw
  · exact h.entered w hw

/-- A destination in progress of a CALIBRATING voice, at a breakpoint of its plan (R110). -/
def State.mayServe (s : State) (x : InService) : Prop :=
  (s.voice x.voice).state = .calibrating ∧ x.work.hi ≤ 11 ∧ x.work.lo ≤ x.work.bp ∧ x.work.bp ≤ x.work.hi

theorem State.ClaimsRight.mayServe {s : State} (h : s.ClaimsRight) {x : InService} (hx : s.tune.service = some x) :
    s.mayServe x := by
  obtain ⟨-, -, -, -, h5⟩ := h.tune
  exact ⟨h.serving x hx, h5 x hx⟩

/-! ### The pass (R104, R109 to R118) -/

/-- Work of the pass that keeps service, entries' states and check, or takes from them. -/
theorem State.ClaimsRight.kept_of_passWork {s t : State} (h : s.ClaimsRight) (hw : s.PassWork t)
    (hx : ∀ x, t.tune.service = some x → s.tune.service = some x)
    (he : ∀ v, (t.entry v).claimed → (s.entry v).claimed) (hc : ∀ c, t.tune.check = some c → s.tune.check = some c) :
    s.Kept t :=
  h.kept_of_less hw.voices hx he hc hw.plan (fun p => by rw [hw.part]) (by rw [hw.patches])

theorem State.ClaimsRight.arbitrate {s : State} (h : s.ClaimsRight) : s.Kept s.arbitrate :=
  h.kept_of_passWork s.arbitrate_passWork (by simp) (by simp) (by simp)

theorem State.ClaimsRight.setOverride {s : State} (h : s.ClaimsRight) (v : Voice) (d : DestNo) (x : Option Code) :
    s.Kept (s.setOverride v d x) :=
  h.kept_of_less rfl (fun _ => id) (fun _ => id) (fun _ => id) rfl (fun _ => rfl) rfl

theorem State.ClaimsRight.withdrawDest {s : State} (h : s.ClaimsRight) (v : Voice) (d : Tuned) :
    s.Kept (s.withdrawDest v d) := by
  cases d
  · exact h.setOverride v _ none
  · exact h.setOverride v _ none
  · exact (h.setOverride v _ none).trans ((h.setOverride v _ none).claims.setOverride v 3 none)

/-- A summary replaced: the entry claims what it claimed (R124). -/
theorem State.ClaimsRight.setSum {s : State} (h : s.ClaimsRight) (v : Voice) (d : Tuned) (x : DestSummary) :
    s.Kept (s.setEntry v ((s.entry v).setSum d x)) := by
  refine h.kept_setEntry fun he => h.entered v ?_
  unfold PassEntry.claimed at he ⊢
  rwa [PassEntry.setSum_state] at he

theorem State.ClaimsRight.requestTrial {s : State} (h : s.ClaimsRight) {x : InService} (hx : s.mayServe x) :
    s.Kept (s.requestTrial x) := by
  obtain ⟨h1, h2, h3, h4, -⟩ := h.tune
  have hasked : s.Kept (s.asked x) := by
    refine ⟨⟨h.assigned, fun y hy => ?_, h.entered, h.checking, h.fails, ⟨h1, h2, h3, h4, fun y hy => ?_⟩, h.patches⟩,
      fun _ _ => id, fun _ => rfl⟩
    all_goals obtain rfl : x = y := Option.some.inj hy
    · exact hx.1
    · exact hx.2
  exact hasked.trans hasked.claims.arbitrate

theorem State.ClaimsRight.freshWork_mayServe {s : State} (h : s.ClaimsRight) {v : Voice}
    (hv : (s.voice v).state = .calibrating) (d : Tuned) : s.mayServe (s.freshWork v d) := by
  obtain ⟨h1, h2, h3, h4, -⟩ := h.tune
  refine ⟨hv, ?_⟩
  cases d
  · exact ⟨h1, le_rfl, h2.le⟩
  · exact ⟨h1, le_rfl, h2.le⟩
  · exact ⟨h3, le_rfl, h4.le⟩

theorem State.ClaimsRight.opened {s : State} (h : s.ClaimsRight) (v : Voice) (d : Tuned) : s.Kept (s.opened v d) := by
  cases d
  · exact h.setSum v _ _
  · exact h.setSum v _ _
  · exact (h.setSum v _ _).trans ((h.setSum v _ _).claims.setOverride v 3 _)

theorem State.ClaimsRight.beginDest {s : State} (h : s.ClaimsRight) {v : Voice} (hv : (s.voice v).state = .calibrating)
    (d : Tuned) : s.Kept (s.beginDest v d) := by
  rw [State.beginDest_eq]
  have hx := h.freshWork_mayServe hv d
  refine (h.opened v d).trans ((h.opened v d).claims.requestTrial ⟨?_, hx.2⟩)
  rw [(State.opened_passWork s v d).voice]
  exact hv

theorem State.ClaimsRight.beginService {s : State} (h : s.ClaimsRight) {v : Voice} (hv : (s.voice v).state = .calibrating) :
    s.Kept (s.beginService v) := by
  have he : s.Kept (s.setEntry v { s.entry v with state := .inService }) := h.kept_setEntry fun _ => hv
  unfold State.beginService
  simp only
  split
  · exact he.trans (he.claims.beginDest hv _)
  · exact he

theorem State.ClaimsRight.endPass {s : State} (h : s.ClaimsRight) : s.Kept s.endPass :=
  h.kept_of_less rfl (fun _ => id) (fun _ => id) (fun _ => id) rfl (fun _ => rfl) rfl

theorem State.ClaimsRight.settlePass {s : State} (h : s.ClaimsRight) : s.Kept s.settlePass := by
  unfold State.settlePass
  split
  · split
    · rename_i v hv
      exact h.beginService (h.entered v (.inl (State.firstEntry_eq_some.mp hv).1))
    · split
      · exact h.kept
      · exact h.endPass
  · exact h.kept

theorem State.ClaimsRight.joinPass {s : State} (h : s.ClaimsRight) {v : Voice} (hv : (s.voice v).state = .calibrating) :
    s.Kept (s.joinPass v) := by
  have he : s.Kept (s.markEntry v .waiting .none) := h.kept_setEntry fun _ => hv
  unfold State.joinPass
  split
  · exact he.trans he.claims.settlePass
  · exact h.kept

/-- An entry marked with a state that claims nothing. -/
theorem State.ClaimsRight.markEntry {s : State} (h : s.ClaimsRight) (v : Voice) {x : EntryState} (why : EntryReason)
    (hx : x ≠ .waiting ∧ x ≠ .inService) : s.Kept (s.markEntry v x why) :=
  h.kept_setEntry fun he => by rcases he with he | he <;> simp_all

theorem State.ClaimsRight.leavePass {s : State} (h : s.ClaimsRight) (v : Voice) : s.Kept (s.leavePass v) := by
  have he : s.Kept (s.markEntry v .left .offline) := h.markEntry v .offline (by simp)
  unfold State.leavePass
  split
  · exact he.trans he.claims.settlePass
  · exact h.kept

theorem State.ClaimsRight.dropCheck {s : State} (h : s.ClaimsRight) (v : Voice) : s.Kept (s.dropCheck v) := by
  refine h.kept_of_passWork (State.dropCheck_passWork s v) ?_ ?_ fun c hc => (State.dropCheck_check s v c hc).2
  all_goals
    unfold State.dropCheck
    split
    · exact fun _ => id
    · split <;> exact fun _ => id

theorem State.ClaimsRight.abandonCheck {s : State} (h : s.ClaimsRight) (v : Voice) : s.Kept (s.abandonCheck v) :=
  (h.dropCheck v).trans (h.dropCheck v).claims.arbitrate

/-- No check of a voice is in hand once it is given up (R133). -/
theorem State.abandonCheck_check {s : State} {v : Voice} {c : Check} (h : (s.abandonCheck v).tune.check = some c) :
    c.voice ≠ v := (State.dropCheck_check s v c (by simpa [State.abandonCheck] using h)).1

theorem State.dropService_service (s : State) : s.dropService.tune.service = none := by
  unfold State.dropService
  split
  · assumption
  · rename_i x _
    cases h : x.dest <;> simp [State.withdrawDest, State.setOverride, State.setEntry]

theorem State.dropService_check (s : State) : s.dropService.tune.check = s.tune.check := by
  unfold State.dropService
  split
  · rfl
  · rename_i x _
    cases h : x.dest <;> simp [State.withdrawDest, State.setOverride, State.setEntry]

/-- Discarding the destination in progress changes an entry's summary and no entry's state (R119, R120). -/
theorem State.entry_dropService (s : State) (v : Voice) :
    (s.dropService.entry v).state = (s.entry v).state ∧ (s.dropService.entry v).reason = (s.entry v).reason := by
  unfold State.dropService
  split
  · exact ⟨rfl, rfl⟩
  · rename_i x _
    rw [State.entry_setEntry]
    split
    · rename_i e
      rw [PassEntry.setSum_state, PassEntry.setSum_reason, e]
      exact ⟨rfl, rfl⟩
    · cases h : x.dest <;> exact ⟨rfl, rfl⟩

theorem State.ClaimsRight.dropService {s : State} (h : s.ClaimsRight) : s.Kept s.dropService := by
  refine h.kept_of_passWork s.dropService_passWork (by simp [State.dropService_service]) (fun v hv => ?_)
    (by simp [State.dropService_check])
  unfold PassEntry.claimed at hv ⊢
  rwa [(State.entry_dropService s v).1] at hv

theorem State.ClaimsRight.postHealth {s : State} (h : s.ClaimsRight) (v : Voice) : s.Kept (s.postHealth v) :=
  h.kept_of_less rfl (fun _ => id) (fun _ => id) (fun _ => id) rfl (fun _ => rfl) rfl

theorem State.ClaimsRight.failOnce {s : State} (h : s.ClaimsRight) (v : Voice) : s.Kept (s.failOnce v).1 := by
  unfold State.failOnce
  simp only
  split
  · exact h.kept
  · rename_i hn
    have hm : s.Kept (s.modVoice v fun r => { r with fails := (s.voice v).fails + 1 }) :=
      h.kept_modVoice (fun _ => rfl) (fun _ => ⟨rfl, rfl⟩) (by simp only; omega)
    exact hm.trans (hm.claims.postHealth v)

theorem State.failOnce_voice (s : State) (v w : Voice) : ((s.failOnce v).1.voice w).state = (s.voice w).state := by
  unfold State.failOnce
  simp only
  split
  · rfl
  · rw [State.voice_postHealth, State.voice_modVoice]
    split <;> rfl

/-- A voice without assignment that no claim names any more enters QUARANTINED (R117, R136). -/
theorem State.ClaimsRight.enterQuarantine {s : State} (h : s.ClaimsRight) {v : Voice} (ha : (s.voice v).asg = none)
    (hc : ¬ (s.entry v).claimed) (hx : ∀ x, s.tune.service = some x → x.voice ≠ v)
    (hk : ∀ c, s.tune.check = some c → c.voice ≠ v) : s.Kept (s.enterQuarantine v) :=
  have hm := h.kept_free (v := v) (r := { s.voice v with state := .quarantined }) ha (by simp) (h.fails v)
    (fun _ => ⟨hc, hx⟩) (fun _ => hk)
  hm.trans (hm.claims.postHealth v)

theorem State.ClaimsRight.bump {s : State} (h : s.ClaimsRight) : s.Kept s.bump :=
  h.kept_of_less rfl (fun _ => id) (fun _ => id) (fun _ => id) rfl (fun _ => rfl) rfl

/-- A voice without assignment that no claim names any more enters IDLE (R22). -/
theorem State.ClaimsRight.enterIdle {s : State} (h : s.ClaimsRight) {v : Voice} (ha : (s.voice v).asg = none)
    (hc : ¬ (s.entry v).claimed) (hx : ∀ x, s.tune.service = some x → x.voice ≠ v)
    (hk : ∀ c, s.tune.check = some c → c.voice ≠ v) : s.Kept (s.enterIdle v) :=
  h.bump.trans (h.bump.claims.kept_free (v := v) (r := { s.voice v with state := .idle, lastFree := s.stamp + 1, idle := 0 })
    ha (by simp) (h.fails v) (fun _ => ⟨hc, hx⟩) (fun _ => hk))

/-- The voice in service has no check in hand. -/
theorem State.ClaimsRight.check_ne {s : State} (h : s.ClaimsRight) {v : Voice} (hv : (s.voice v).state ≠ .retuning) (c : Check)
    (hc : s.tune.check = some c) : c.voice ≠ v := fun e => hv (e ▸ h.checking c hc)

/-- The voice in service given up, with a quarantine request held or not (R114, R116, R117). -/
def State.clearService (s : State) (held : Bool) : State :=
  { s with tune := { s.tune with service := none, heldQuarantine := held } }

theorem State.ClaimsRight.clearService {s : State} (h : s.ClaimsRight) (held : Bool) : s.Kept (s.clearService held) :=
  h.kept_of_less rfl (by simp [State.clearService]) (fun _ => id) (fun _ => id) rfl (fun _ => rfl) rfl

/-- The voice in service with its work done, before its return (R117). -/
def State.served (s : State) (v : Voice) : State := (s.setEntry v { s.entry v with state := .done }).clearService false

theorem State.finishVoice_eq (s : State) (v : Voice) :
    s.finishVoice v =
      (if s.tune.heldQuarantine then (s.served v).enterQuarantine v else (s.served v).enterIdle v).settlePass := rfl

theorem State.ClaimsRight.finishVoice {s : State} (h : s.ClaimsRight) {v : Voice} (hv : (s.voice v).state = .calibrating) :
    s.Kept (s.finishVoice v) := by
  have he : s.Kept (s.setEntry v { s.entry v with state := .done }) :=
    h.kept_setEntry fun e => by rcases e with e | e <;> cases e
  have hs : s.Kept (s.served v) := he.trans (he.claims.clearService false)
  have hasg : ((s.served v).voice v).asg = none := (h.assigned v).asg_eq_none (by simp [hv])
  have hdone : ¬ ((s.served v).entry v).claimed := by
    have e : (s.served v).entry v = { s.entry v with state := .done } :=
      (State.entry_setEntry s v v _).trans (if_pos rfl)
    rw [e]
    simp [PassEntry.claimed]
  have hservice : ∀ x, (s.served v).tune.service = some x → x.voice ≠ v := by simp [State.served, State.clearService]
  have hcheck := h.check_ne (v := v) (by simp [hv])
  rw [State.finishVoice_eq]
  split
  · have hq := hs.trans (hs.claims.enterQuarantine hasg hdone hservice hcheck)
    exact hq.trans hq.claims.settlePass
  · have hi := hs.trans (hs.claims.enterIdle hasg hdone hservice hcheck)
    exact hi.trans hi.claims.settlePass

theorem State.ClaimsRight.nextDest {s : State} (h : s.ClaimsRight) {v : Voice} (hv : (s.voice v).state = .calibrating)
    (d : Tuned) : s.Kept (s.nextDest v d) := by
  unfold State.nextDest
  split
  · exact h.beginDest hv _
  · exact h.finishVoice hv

theorem State.ClaimsRight.setCal {s : State} (h : s.ClaimsRight) (v : Voice) (d : Tuned) (e : CalEntry) :
    s.Kept (s.setCal v d e) :=
  h.kept_of_less rfl (fun _ => id) (fun _ => id) (fun _ => id) rfl (fun _ => rfl) rfl

/-- A destination's end: the voice leaves service, its summary is filled, and its next destination or its return follows (R114,
R116, R117). -/
def State.closeDest (s : State) (x : InService) (sum : DestSummary) (held : Bool) : State :=
  ((s.clearService held).setEntry x.voice ((s.entry x.voice).setSum x.dest sum)).nextDest x.voice x.dest

theorem State.ClaimsRight.closeDest {s : State} (h : s.ClaimsRight) {x : InService}
    (hv : (s.voice x.voice).state = .calibrating) (sum : DestSummary) (held : Bool) : s.Kept (s.closeDest x sum held) := by
  have h1 := h.clearService held
  have h2 := h1.trans (h1.claims.setSum x.voice x.dest sum)
  exact h2.trans (h2.claims.nextDest hv x.dest)

/-- The destination of a failure with its overrides withdrawn and its status FAILED (R114). -/
def State.markFailed (s : State) (x : InService) : State :=
  (s.withdrawDest x.voice x.dest).setCal x.voice x.dest
    { (s.withdrawDest x.voice x.dest).cal x.voice x.dest with status := .failed }

theorem State.failDest_eq (s : State) (x : InService) (cause : FailCause) :
    s.failDest x cause = ((s.markFailed x).failOnce x.voice).1.closeDest x
      ⟨.failed, cause, x.work.convergedList.length⟩
      (((s.markFailed x).failOnce x.voice).1.tune.heldQuarantine || ((s.markFailed x).failOnce x.voice).2) := rfl

theorem State.ClaimsRight.failDest {s : State} (h : s.ClaimsRight) {x : InService}
    (hv : (s.voice x.voice).state = .calibrating) (cause : FailCause) : s.Kept (s.failDest x cause) := by
  have h1 := h.withdrawDest x.voice x.dest
  have h2 : s.Kept (s.markFailed x) := h1.trans (h1.claims.setCal x.voice x.dest _)
  have h3 := h2.trans (h2.claims.failOnce x.voice)
  rw [State.failDest_eq]
  refine h3.trans (h3.claims.closeDest ?_ _ _)
  rw [State.failOnce_voice]
  exact (congrArg VoiceRec.state ((State.withdrawDest_passWork s x.voice x.dest).voice x.voice)).trans hv

/-- The destination of a commit with its calibration, its overrides withdrawn and its drift at 0 (R116). -/
def State.markCommitted (s : State) (x : InService) : State :=
  ((s.setCal x.voice x.dest (x.work.commit x.dest s.settings.checkBreakpoint)).withdrawDest x.voice x.dest).modVoice x.voice
    fun r => r.zeroDrift x.dest

theorem State.commitDest_eq (s : State) (x : InService) :
    s.commitDest x = (s.markCommitted x).closeDest x
      ⟨if x.work.complete then .calibrated else .part, .none, x.work.convergedList.length⟩
      (s.markCommitted x).tune.heldQuarantine := rfl

theorem VoiceRec.zeroDrift_frame (r : VoiceRec) (d : Tuned) :
    r.zeroDrift d = { r with driftA := (r.zeroDrift d).driftA, driftB := (r.zeroDrift d).driftB } := by
  cases d <;> rfl

theorem State.ClaimsRight.commitDest {s : State} (h : s.ClaimsRight) {x : InService}
    (hv : (s.voice x.voice).state = .calibrating) : s.Kept (s.commitDest x) := by
  have h1 := h.setCal x.voice x.dest (x.work.commit x.dest s.settings.checkBreakpoint)
  have h2 := h1.trans (h1.claims.withdrawDest x.voice x.dest)
  have h3 : s.Kept (s.markCommitted x) := h2.trans <| h2.claims.kept_modVoice (fun r => by rw [VoiceRec.zeroDrift_frame])
    (fun r => by rw [VoiceRec.zeroDrift_frame]; exact ⟨rfl, rfl⟩)
    (by rw [VoiceRec.zeroDrift_frame]; exact h2.claims.fails x.voice)
  rw [State.commitDest_eq]
  refine h3.trans (h3.claims.closeDest ?_ _ _)
  unfold State.markCommitted
  rw [State.voice_modVoice, if_pos rfl, VoiceRec.zeroDrift_frame]
  exact (congrArg VoiceRec.state ((State.withdrawDest_passWork _ x.voice x.dest).voice x.voice)).trans hv

theorem State.ClaimsRight.nextBreakpoint {s : State} (h : s.ClaimsRight) {x : InService} (hx : s.mayServe x) :
    s.Kept (s.nextBreakpoint x) := by
  obtain ⟨hv, h11, hlo, hhi⟩ := hx
  unfold State.nextBreakpoint
  split
  · refine h.requestTrial ⟨hv, h11, ?_, ?_⟩ <;> simp only [Working.goto] <;> omega
  · split
    · exact h.failDest hv _
    · exact h.commitDest hv

theorem State.ClaimsRight.passReading {s : State} (h : s.ClaimsRight) {x : InService} (hx : s.mayServe x) (tg : Nat)
    (r : Reading) : s.Kept (s.passReading x tg r) := by
  unfold State.passReading
  split
  · exact h.failDest hx.1 _
  · simp only
    split
    · exact (h.setSum x.voice x.dest _).trans ((h.setSum x.voice x.dest _).claims.nextBreakpoint hx)
    · split
      · exact h.nextBreakpoint hx
      · exact h.requestTrial hx

/-! ### Checks (R126 to R134) -/

theorem VoiceRec.setDrift_frame (r : VoiceRec) (d : Osc) (x : Drift) :
    r.setDrift d x = { r with driftA := (r.setDrift d x).driftA, driftB := (r.setDrift d x).driftB } := by
  cases d <;> rfl

theorem State.ClaimsRight.setDrift {s : State} (h : s.ClaimsRight) (v : Voice) (d : Osc) (x : Drift) :
    s.Kept (s.modVoice v fun q => q.setDrift d x) :=
  h.kept_modVoice (fun r => by rw [VoiceRec.setDrift_frame]) (fun r => by rw [VoiceRec.setDrift_frame]; exact ⟨rfl, rfl⟩)
    (by rw [VoiceRec.setDrift_frame]; exact h.fails v)

theorem State.ClaimsRight.applyFinding {s : State} (h : s.ClaimsRight) (c : Check) (r : Reading) :
    s.Kept (s.applyFinding c r).1 := by
  unfold State.applyFinding
  simp only
  split
  · exact (h.setDrift ..).trans ((h.setDrift ..).claims.failOnce _)
  · split
    · exact (h.setDrift ..).trans ((h.setDrift ..).claims.failOnce _)
    · exact h.setDrift ..

theorem State.ClaimsRight.applyAlarm {s : State} (h : s.ClaimsRight) (c : Check) (r : Reading) :
    s.Kept (s.applyAlarm c r) := by
  unfold State.applyAlarm
  split
  · exact h.kept
  · simp only
    split
    · exact h.setDrift ..
    · exact (h.setDrift ..).trans ((h.setDrift ..).claims.postHealth _)

/-- The check in hand forgotten (R132). -/
def State.withoutCheck (s : State) : State := { s with tune := { s.tune with check := none } }

theorem State.ClaimsRight.withoutCheck {s : State} (h : s.ClaimsRight) : s.Kept s.withoutCheck :=
  h.kept_of_less rfl (fun _ => id) (fun _ => id) (by simp [State.withoutCheck]) rfl (fun _ => rfl) rfl

/-- A finding, its alarm and the next check's destination, before the voice's return (R132). -/
def State.checked (s : State) (c : Check) (r : Reading) : State :=
  (((s.setOverride c.voice c.dest.tuned.number none).applyFinding c r).1.applyAlarm c r).modVoice c.voice
    fun q => { q with nextCheck := c.dest.other }

/-- The return of a checked voice does not look at the check in hand. -/
theorem State.returnChecked_withoutCheck (s : State) (v : Voice) (b : Bool) :
    (s.returnChecked v b).withoutCheck = s.withoutCheck.returnChecked v b := by
  unfold State.returnChecked
  cases b <;> rfl

theorem State.finishCheck_eq (s : State) (c : Check) (r : Reading) :
    s.finishCheck c r = (s.checked c r).withoutCheck.returnChecked c.voice
      ((s.setOverride c.voice c.dest.tuned.number none).applyFinding c r).2 :=
  State.returnChecked_withoutCheck (s.checked c r) c.voice _

theorem State.applyFinding_voice (s : State) (c : Check) (r : Reading) (v : Voice) :
    ((s.applyFinding c r).1.voice v).state = (s.voice v).state := by
  have hset : ∀ (d : Osc) (x : Drift), ((s.modVoice c.voice fun q => q.setDrift d x).voice v).state = (s.voice v).state := by
    intro d x
    rw [State.voice_modVoice]
    split
    · rw [VoiceRec.setDrift_frame]
    · rfl
  unfold State.applyFinding
  simp only
  split
  · rw [State.failOnce_voice, hset]
  · split
    · rw [State.failOnce_voice, hset]
    · exact hset _ _

theorem State.applyAlarm_voice (s : State) (c : Check) (r : Reading) (v : Voice) :
    ((s.applyAlarm c r).voice v).state = (s.voice v).state := by
  unfold State.applyAlarm
  split
  · rfl
  · simp only
    split
    all_goals
      first | rw [State.voice_postHealth, State.voice_modVoice] | rw [State.voice_modVoice]
      split
      · rw [VoiceRec.setDrift_frame]
      · rfl

/-- A RETUNING voice that no check in hand names goes to a state without assignment. -/
theorem State.ClaimsRight.leaveCheck {s : State} (h : s.ClaimsRight) {v : Voice} (hv : (s.voice v).state = .retuning)
    (hc : ∀ c, s.tune.check = some c → c.voice ≠ v) {x : Service}
    (hx : ¬ (x = .sounding ∨ x = .releasing ∨ x = .stealGap)) : s.Kept (s.modVoice v fun r => { r with state := x }) :=
  h.kept_free (r := { s.voice v with state := x }) ((h.assigned v).asg_eq_none (by simp [hv])) hx (h.fails v) (by simp [hv])
    (fun _ => hc)

theorem State.ClaimsRight.returnChecked {s : State} (h : s.ClaimsRight) {v : Voice}
    (hv : (s.voice v).state = .retuning) (hc : s.tune.check = none) (quarantine : Bool) :
    s.Kept (s.returnChecked v quarantine) := by
  have h1 : s.Kept (s.bump.modVoice v fun r => { r with lastCheckStamp := s.stamp + 1 }) :=
    h.bump.trans (h.bump.claims.kept_modVoice (fun _ => rfl) (fun _ => ⟨rfl, rfl⟩) (h.fails v))
  have hstate : ((s.bump.modVoice v fun r => { r with lastCheckStamp := s.stamp + 1 }).voice v).state = .retuning := by
    rw [State.voice_modVoice, if_pos rfl]; exact hv
  have hcheck : ∀ c, s.tune.check = some c → c.voice ≠ v := by simp [hc]
  have h2 := fun x => h1.claims.leaveCheck (x := x) hstate hcheck
  unfold State.returnChecked
  simp only
  split
  · exact h1.trans ((h2 .quarantined (by simp)).trans ((h2 .quarantined (by simp)).claims.postHealth v))
  · exact h1.trans (h2 .idle (by simp))

theorem State.ClaimsRight.finishCheck {s : State} (h : s.ClaimsRight) {c : Check}
    (hv : (s.voice c.voice).state = .retuning) (r : Reading) : s.Kept (s.finishCheck c r) := by
  have h1 := h.setOverride c.voice c.dest.tuned.number none
  have h2 := h1.trans (h1.claims.applyFinding c r)
  have h3 := h2.trans (h2.claims.applyAlarm c r)
  have h4 : s.Kept (s.checked c r) := h3.trans (h3.claims.kept_modVoice (v := c.voice)
    (f := fun q => { q with nextCheck := c.dest.other }) (fun _ => rfl) (fun _ => ⟨rfl, rfl⟩) (h3.claims.fails _))
  have h5 := h4.trans h4.claims.withoutCheck
  have hstate : ((s.checked c r).withoutCheck.voice c.voice).state = .retuning := by
    have e : ((s.checked c r).voice c.voice).state = (s.voice c.voice).state := by
      unfold State.checked
      rw [State.voice_modVoice, if_pos rfl]
      exact (State.applyAlarm_voice _ c r c.voice).trans (State.applyFinding_voice _ c r c.voice)
    exact e.trans hv
  rw [State.finishCheck_eq]
  exact h5.trans (h5.claims.returnChecked hstate rfl _)

theorem State.ClaimsRight.startCheck {s : State} (h : s.ClaimsRight) {v : Voice} (hv : (s.voice v).state = .idle) (d : Osc) :
    s.Kept (s.startCheck v d) := by
  have hasg := (h.assigned v).asg_eq_none (by simp [hv])
  have h1 : s.Kept (s.modVoice v fun r => { r with state := .retuning }) :=
    h.kept_free (r := { s.voice v with state := .retuning }) hasg (by simp) (h.fails v) (by simp [hv]) (by simp [hv])
  unfold State.startCheck
  simp only
  set c : Check := ⟨v, d, s.settings.checkBreakpoint, _, _⟩
  set t : State := s.modVoice v fun r => { r with state := .retuning }
  have h2 : s.Kept { t with tune := { t.tune with check := some c } } := by
    refine h1.trans ⟨⟨h1.claims.assigned, h1.claims.serving, h1.claims.entered, fun c' hc => ?_, h1.claims.fails, h1.claims.tune,
      h1.claims.patches⟩, fun _ _ => id, fun _ => rfl⟩
    obtain rfl : c = c' := Option.some.inj hc
    change (t.voice v).state = .retuning
    rw [State.voice_modVoice, if_pos rfl]
  exact h2.trans (h2.claims.kept_of_passWork (State.startMeasurement_passWork ..) (fun _ => id) (fun _ => id) (fun _ => id))

theorem State.ClaimsRight.seekCheck {s : State} (h : s.ClaimsRight) : s.Kept s.seekCheck := by
  unfold State.seekCheck
  split
  · split
    · rename_i v hv
      have he : s.eligible v = true := (List.mem_filter.mp (oldestBy_mem hv)).2
      have hidle : (s.voice v).state = .idle := by
        unfold State.eligible at he
        simp only [Bool.and_eq_true, beq_iff_eq] at he
        exact he.1.1.2
      split
      · exact h.startCheck hidle _
      · exact h.kept
    · exact h.kept
  · exact h.kept

/-! ### Measurements (R100 to R102) -/

/-- The measurement unit's own progress claims nothing. -/
theorem State.ClaimsRight.setUnit {s : State} (h : s.ClaimsRight) (m : Option Measurement) :
    s.Kept { s with tune := { s.tune with unit := m } } :=
  h.kept_of_less rfl (fun _ => id) (fun _ => id) (fun _ => id) rfl (fun _ => rfl) rfl

theorem State.ClaimsRight.endMeasurement {s : State} (h : s.ClaimsRight) (m : Measurement) (r : Reading) :
    s.Kept (s.endMeasurement m r) := by
  have h1 := h.setUnit none
  have h2 : s.Kept (match m.requester with
      | .pass => match s.tune.service with
        | some x => ({ s with tune := { s.tune with unit := none } } : State).passReading x m.tg r
        | none => { s with tune := { s.tune with unit := none } }
      | .check => match s.tune.check with
        | some c => ({ s with tune := { s.tune with unit := none } } : State).finishCheck c r
        | none => { s with tune := { s.tune with unit := none } }) := by
    split
    · split
      · rename_i x hx
        exact h1.trans (h1.claims.passReading (h1.claims.mayServe hx) _ _)
      · exact h1
    · split
      · rename_i c hc
        exact h1.trans (h1.claims.finishCheck (h1.claims.checking c hc) _)
      · exact h1
  exact h2.trans h2.claims.arbitrate

theorem State.ClaimsRight.passTicks {s : State} (h : s.ClaimsRight) (n : Nat) : s.Kept (s.passTicks n).1 := by
  unfold State.passTicks
  split
  · exact h.kept
  · split
    · exact h.kept
    · exact h.kept
    · split
      · exact h.endMeasurement _ _
      · exact h.setUnit _
    · split
      · exact h.endMeasurement _ _
      · exact h.setUnit _

theorem State.ClaimsRight.lineEdge {s : State} (h : s.ClaimsRight) : s.Kept s.lineEdge := by
  unfold State.lineEdge
  split
  · exact h.kept
  · split
    · exact h.kept
    · exact h.kept
    · exact h.setUnit _
    · split
      · exact h.endMeasurement _ _
      · exact h.setUnit _

theorem State.ClaimsRight.settleFrame {s : State} (h : s.ClaimsRight) : s.Kept s.settleFrame := by
  unfold State.settleFrame
  split
  · exact h.kept
  · split
    · split
      · exact h.setUnit _
      · exact h.setUnit _
    all_goals exact h.kept

theorem State.ClaimsRight.channelWritten {s : State} (h : s.ClaimsRight) (v : Voice) (d : DestNo) (code : Code) :
    s.Kept (s.channelWritten v d code) := by
  unfold State.channelWritten
  split
  · exact h.kept
  · split
    · split
      · exact h.setUnit _
      · exact h.kept
    all_goals exact h.kept

end Sys2Proof.Machine
end

