-- ==== Sys2Proof/Proofs/AllocatorClaims.lean ====
section
/-! PROOFS. The allocator keeps the claims on the voices and the limits of the parts (R23, R24). -/

namespace Sys2Proof.Machine

/-! ### Releases (R34 to R38) -/

/-- A voice with an assignment: SOUNDING, RELEASING or STEAL_GAP (R23). -/
def VoiceRec.keyed (r : VoiceRec) : Prop := r.state = .sounding ∨ r.state = .releasing ∨ r.state = .stealGap

theorem VoiceRec.keyed.ne {r : VoiceRec} (h : r.keyed) : r.state ≠ .calibrating ∧ r.state ≠ .retuning := by
  rcases h with h | h | h <;> simp [h]

theorem State.serves.keyed {s : State} {p : PartNo} {v : Voice} (h : s.serves p v) : (s.voice v).keyed :=
  h.1.elim .inl fun h => .inr (.inr h)

/-- A voice with an assignment changes in what no claim looks at, its part kept. -/
theorem State.ClaimsRight.kept_keyed {s : State} (h : s.ClaimsRight) {v : Voice} {r : VoiceRec} (hv : (s.voice v).keyed)
    (hr : r.keyed) (ha : r.asg.isSome) (hf : r.fails ≤ 255)
    (hk : r.state.counted = true → (s.voice v).state.counted = true ∧ r.asgPart = (s.voice v).asgPart) :
    s.Kept (s.setVoice v r) :=
  h.kept_setVoice ⟨fun _ => hr, fun _ => ha⟩ hf (fun e => absurd e hv.ne.1) (fun e => absurd e hv.ne.2) hk

theorem VoiceRec.tailEnded_frame (r : VoiceRec) (x : Stamp) :
    (r.tailEnded x).asg = none ∧ ¬ (r.tailEnded x).keyed ∧ (r.tailEnded x).fails = r.fails
      ∧ (r.tunePending = true → (r.tailEnded x).state = .calibrating) := by
  unfold VoiceRec.tailEnded
  split
  · exact ⟨rfl, by simp [VoiceRec.keyed], rfl, fun _ => rfl⟩
  · split
    · exact ⟨rfl, by simp [VoiceRec.keyed], rfl, by simp_all⟩
    · exact ⟨rfl, by simp [VoiceRec.keyed], rfl, by simp_all⟩

theorem State.ClaimsRight.endTail {s : State} (h : s.ClaimsRight) {v : Voice} (hv : (s.voice v).keyed) :
    s.Kept (s.endTail v) := by
  obtain ⟨ha, hs, hf, hc⟩ := (s.voice v).tailEnded_frame (s.stamp + 1)
  have hset : ∀ t : State, t.ClaimsRight → t.voice v = s.voice v → t.Kept (t.setVoice v ((s.voice v).tailEnded (s.stamp + 1))) :=
    fun t ht e => ht.kept_free ha hs (hf ▸ h.fails v) (fun hc => absurd (e ▸ hc) hv.ne.1) (fun hr => absurd (e ▸ hr) hv.ne.2)
  cases ht : (s.voice v).tunePending
  · cases ho : (s.voice v).offlinePending
    · rw [State.endTail_of_unmarked ⟨ht, ho⟩]
      exact h.bump.trans (hset _ h.bump.claims rfl)
    · rw [State.endTail_of_offlinePending ht ho]
      exact hset s h rfl
  · rw [State.endTail_of_tunePending ht]
    refine (hset s h rfl).trans ((hset s h rfl).claims.joinPass ?_)
    rw [State.voice_setVoice, if_pos rfl]
    exact hc ht

theorem State.ClaimsRight.release {s : State} (h : s.ClaimsRight) {v : Voice} (hv : (s.voice v).keyed) :
    s.Kept (s.release v) := by
  have h1 : s.Kept (s.setVoice v { s.voice v with state := .releasing, tail := s.tailOf v, gap := 0 }) :=
    h.kept_keyed hv (.inr (.inl rfl)) ((h.assigned v).isSome hv) (h.fails v) (by simp [Service.counted])
  rw [State.release_eq]
  split
  · exact h1.trans (h1.claims.endTail (by rw [State.voice_setVoice, if_pos rfl]; exact .inr (.inl rfl)))
  · exact h1

theorem State.ClaimsRight.setSustained {s : State} (h : s.ClaimsRight) (v : Voice) (b : Bool) :
    s.Kept (s.modVoice v fun r => r.setSustained b) := by
  refine h.kept_modVoice (fun _ => rfl) (fun r => ?_) (h.fails v)
  unfold VoiceRec.setSustained VoiceRec.asgPart
  cases r.asg <;> exact ⟨rfl, rfl⟩

theorem State.ClaimsRight.releaseClear {s : State} (h : s.ClaimsRight) {v : Voice} (hv : (s.voice v).keyed) :
    s.Kept (s.releaseClear v) :=
  (h.setSustained v false).trans ((h.setSustained v false).claims.release (by
    rw [State.voice_modVoice, if_pos rfl]; exact hv))

/-- Voices taken one after another, each change touching its own voice alone. -/
theorem State.ClaimsRight.foldl {f : State → Voice → State} {ok : VoiceRec → Prop}
    (hf : ∀ s v, State.ClaimsRight s → ok (s.voice v) → s.Kept (f s v))
    (hother : ∀ s v w, w ≠ v → (f s v).voice w = s.voice w) {l : List Voice} (hl : l.Nodup) {s : State} (h : s.ClaimsRight)
    (hok : ∀ v ∈ l, ok (s.voice v)) : s.Kept (l.foldl f s) := by
  induction l generalizing s with
  | nil => exact h.kept
  | cons v l ih =>
    obtain ⟨hv, hl⟩ := List.nodup_cons.mp hl
    have h1 := hf s v h (hok v (by simp))
    refine h1.trans (ih hl h1.claims fun w hw => ?_)
    rw [hother s v w fun e => hv (e ▸ hw)]
    exact hok w (by simp [hw])

theorem State.voice_releaseClear_of_ne (s : State) (v w : Voice) (hw : w ≠ v) : (s.releaseClear v).voice w = s.voice w := by
  rw [State.voice_releaseClear, if_neg (Ne.symm hw)]

theorem State.ClaimsRight.releaseAll {s : State} (h : s.ClaimsRight) {l : List Voice} (hl : l.Nodup)
    (hk : ∀ v ∈ l, (s.voice v).keyed) : s.Kept (l.foldl State.releaseClear s) :=
  State.ClaimsRight.foldl (fun _ _ h hv => State.ClaimsRight.releaseClear h hv) State.voice_releaseClear_of_ne hl h hk

theorem State.ClaimsRight.allocAllOff {s : State} (h : s.ClaimsRight) (p : PartNo) : s.Kept (s.allocAllOff p) :=
  h.releaseAll (s.nodup_partVoices p) fun _ hv => (State.mem_partVoices.mp hv).keyed

theorem State.ClaimsRight.sustainUp {s : State} (h : s.ClaimsRight) (p : PartNo) : s.Kept (s.sustainUp p) :=
  h.releaseAll ((s.nodup_partVoices p).filter _) fun _ hv =>
    (State.mem_partVoices.mp (List.mem_filter.mp hv).1).keyed

theorem State.byAge_perm (s : State) (p : PartNo) : (s.byAge p).Perm (s.partVoices p) := List.perm_insertionSort _ _

theorem State.mem_byAge {s : State} {p : PartNo} {v : Voice} : v ∈ s.byAge p ↔ s.serves p v := by
  rw [(s.byAge_perm p).mem_iff, State.mem_partVoices]

theorem State.nodup_byAge (s : State) (p : PartNo) : (s.byAge p).Nodup := (s.byAge_perm p).nodup_iff.mpr (s.nodup_partVoices p)

theorem State.ClaimsRight.reduce {s : State} (h : s.ClaimsRight) (p : PartNo) : s.Kept (s.reduce p) :=
  h.releaseAll ((s.nodup_byAge p).sublist (List.take_sublist _ _)) fun _ hv =>
    (State.mem_byAge.mp (List.mem_of_mem_take hv)).keyed

theorem State.ClaimsRight.keyOffVoice {s : State} (h : s.ClaimsRight) (p : PartNo) (v : Voice) :
    s.Kept (s.keyOffVoice p v) := by
  unfold State.keyOffVoice
  split
  · split
    · exact h.setSustained v true
    · exact h.release (.inl ‹_›)
  · exact h.release (.inr (.inr ‹_›))
  all_goals exact h.kept

theorem State.ClaimsRight.foldl_always {α : Type} {f : State → α → State}
    (hf : ∀ s v, State.ClaimsRight s → s.Kept (f s v)) {s : State} (h : s.ClaimsRight) (l : List α) : s.Kept (l.foldl f s) := by
  induction l generalizing s with
  | nil => exact h.kept
  | cons v l ih => exact (hf s v h).trans (ih (hf s v h).claims)

theorem VoiceRec.glideFrame_frame (r : VoiceRec) :
    r.glideFrame = { r with pitch := r.glideFrame.pitch, glide := r.glideFrame.glide } := by
  unfold VoiceRec.glideFrame
  split
  · rfl
  · split <;> rfl

/-- The counts of an expiry move no voice (R37 to R40). -/
theorem VoiceRec.countFrame_frame (r : VoiceRec) :
    r.countFrame = { r with
      pitch := r.glideFrame.pitch, glide := r.glideFrame.glide, gap := r.countFrame.gap, tail := r.countFrame.tail
      idle := r.countFrame.idle } := by
  unfold VoiceRec.countFrame
  split <;> rw [VoiceRec.glideFrame_frame]

theorem State.ClaimsRight.countFrame {s : State} (h : s.ClaimsRight) (v : Voice) :
    s.Kept (s.modVoice v VoiceRec.countFrame) :=
  h.kept_modVoice (fun r => by rw [VoiceRec.countFrame_frame]) (fun r => by rw [VoiceRec.countFrame_frame]; exact ⟨rfl, rfl⟩)
    (by rw [VoiceRec.countFrame_frame]; exact h.fails v)

/-- A gap's end: STEAL_GAP becomes SOUNDING (R37). -/
theorem State.ClaimsRight.endGap {s : State} (h : s.ClaimsRight) {v : Voice} (hv : (s.voice v).state = .stealGap) {r : VoiceRec}
    (hr : r = { s.voice v with state := .sounding, gap := r.gap }) : s.Kept (s.setVoice v r) := by
  rw [hr]
  exact h.kept_keyed (.inr (.inr hv)) (.inl rfl) ((h.assigned v).isSome (.inr (.inr hv))) (h.fails v)
    fun _ => ⟨by simp [hv, Service.counted], rfl⟩

theorem State.ClaimsRight.frameVoice {s : State} (h : s.ClaimsRight) (v : Voice) : s.Kept (s.frameVoice v) := by
  have h1 := h.countFrame v
  have hstate : ((s.modVoice v VoiceRec.countFrame).voice v).state = (s.voice v).state := by
    rw [State.voice_modVoice, if_pos rfl, VoiceRec.countFrame_frame]
  unfold State.frameVoice
  simp only
  split
  · split
    · exact h1.trans (h1.claims.endGap (hstate.trans ‹_›) rfl)
    · exact h1
  · split
    · exact h1.trans (h1.claims.endTail (.inr (.inl (hstate.trans ‹_›))))
    · exact h1
  all_goals exact h1

/-! ### Assignments (R25) -/

theorem State.ClaimsRight.cleared {s : State} (h : s.ClaimsRight) (v : Voice) : s.Kept (s.cleared v) := by
  unfold State.cleared
  split
  · exact h.abandonCheck v
  · exact h.kept

theorem VoiceRec.assigned_sound (r : VoiceRec) (p : PartNo) (h : HeldKey) (j : Nat) (g : GlideStart) (part : Part) (x : Stamp)
    (gap : Nat) :
    (r.assigned p h j g part x gap).state.counted = true ∧ (r.assigned p h j g part x gap).asg.isSome
      ∧ (r.assigned p h j g part x gap).asgPart = some p ∧ (r.assigned p h j g part x gap).fails = r.fails := by
  rw [VoiceRec.assigned_eq]
  exact ⟨assignedState_counted _ _, rfl, rfl, rfl⟩

/-- A voice that is not CALIBRATING takes an assignment, and every claim still stands (R25, R133). -/
theorem State.ClaimsRight.assign {s : State} (h : s.ClaimsRight) {v : Voice} (hv : (s.voice v).state ≠ .calibrating)
    (p : PartNo) (k : HeldKey) (j : Nat) (g : GlideStart) : (s.assign v p k j g).ClaimsRight := by
  obtain ⟨hc, ha, -, hf⟩ := (s.voice v).assigned_sound p k j g (s.part p) (s.stamp + 1) s.settings.stealGap
  have h1 := (h.cleared v).claims
  have hself := State.voice_assign_self s v p k j g
  have hother : ∀ w, w ≠ v → (s.assign v p k j g).voice w = s.voice w := fun w hw => State.voice_assign_of_ne hw p k j g
  have hvoice : ∀ w, (s.cleared v).voice w = s.voice w := (s.cleared_passWork v).voice
  have htune := State.assign_tune s v p k j g
  have hslots : (s.assign v p k j g).patches = s.patches := (State.assign_keyWork s v p k j g).patches
  refine ⟨fun w => ?_, fun x hx => ?_, fun w hw => ?_, fun c hc' => ?_, fun w => ?_, ?_, fun q => ?_, fun c x hx => ?_⟩
  · by_cases e : w = v
    · subst e
      rw [hself]
      refine ⟨fun _ => ?_, fun _ => ha⟩
      rw [Service.counted_iff] at hc
      tauto
    · rw [hother w e]; exact h.assigned w
  · rw [htune] at hx
    have hx' := h1.serving x hx
    rw [hvoice] at hx'
    rw [hother _ fun e => hv (e ▸ hx')]
    exact hx'
  · have hw' := h1.entered w (by unfold State.entry at hw ⊢; rwa [htune] at hw)
    rw [hvoice] at hw'
    rw [hother _ fun e => hv (e ▸ hw')]
    exact hw'
  · rw [htune] at hc'
    have hr := h1.checking c hc'
    rw [hvoice] at hr
    rw [hother c.voice fun e => ?_]
    · exact hr
    · unfold State.cleared at hc'
      rw [if_pos (e ▸ hr)] at hc'
      exact State.abandonCheck_check hc' e
  · by_cases e : w = v
    · subst e; rw [hself, hf]; exact h.fails w
    · rw [hother w e]; exact h.fails w
  · unfold State.tuneFit
    rw [htune]
    exact h1.tune
  · rw [State.part_assign]
    split
    · exact h.patches.1 p
    · exact h.patches.1 q
  · unfold State.cache at hx
    rw [hslots] at hx
    exact h.patches.2 c x hx

theorem State.serves_assign (s : State) (v : Voice) (p : PartNo) (k : HeldKey) (j : Nat) (g : GlideStart) (q : PartNo)
    (w : Voice) : (s.assign v p k j g).serves q w ↔ if w = v then q = p else s.serves q w := by
  obtain ⟨hc, -, hp, -⟩ := (s.voice v).assigned_sound p k j g (s.part p) (s.stamp + 1) s.settings.stealGap
  rw [State.serves_iff]
  split
  · rename_i e
    rw [e, State.voice_assign_self, hp]
    exact ⟨fun h => (Option.some.inj h.2).symm, fun e => ⟨hc, e ▸ rfl⟩⟩
  · rename_i e
    rw [State.voice_assign_of_ne e, State.serves_iff]

@[simp] theorem State.limit_assign (s : State) (v : Voice) (p : PartNo) (k : HeldKey) (j : Nat) (g : GlideStart) (q : PartNo) :
    (s.assign v p k j g).limit q = s.limit q := by
  unfold State.limit
  rw [(State.assign_keyWork s v p k j g).live]

/-- A part's own voice takes another key: no part gains one (R27, R32). -/
theorem State.ClaimsRight.reassign {s : State} (h : s.ClaimsRight) {v : Voice} {p : PartNo} (hv : s.serves p v) (k : HeldKey)
    (j : Nat) (g : GlideStart) : s.Kept (s.assign v p k j g) := by
  refine ⟨h.assign hv.keyed.ne.1 p k j g, fun q w hw => ?_, State.limit_assign s v p k j g⟩
  rw [State.serves_assign] at hw
  split at hw
  · rename_i e; rw [e, hw]; exact hv
  · exact hw

/-- A voice for a part below its limit: no part exceeds its limit (R24). -/
theorem State.VoicesSound.assign {s : State} (h : s.VoicesSound) {v : Voice} (hv : (s.voice v).state ≠ .calibrating)
    {p : PartNo} (hp : s.count p < s.limit p ∨ s.serves p v) (k : HeldKey) (j : Nat) (g : GlideStart) :
    (s.assign v p k j g).VoicesSound := by
  rcases hp with hp | hp
  · refine ⟨h.toClaimsRight.assign hv p k j g, fun q => ?_⟩
    rw [State.limit_assign]
    by_cases e : q = p
    · subst e
      have := State.count_le_succ (s := s) (t := s.assign v q k j g) (p := q) (v := v) fun w hw hs => by
        rwa [State.serves_assign, if_neg hw] at hs
      omega
    · refine (State.count_mono fun w hw => ?_).trans (h.counts q)
      rw [State.serves_assign] at hw
      split at hw
      · exact absurd hw e
      · exact hw
  · exact h.kept (h.toClaimsRight.reassign hp k j g)

theorem VoiceRec.free.ne_calibrating {r : VoiceRec} (h : r.free) : r.state ≠ .calibrating := by
  rcases h with h | ⟨h, -⟩ | h <;> simp [h]

/-- A part record's last pitch and interval counts are no claim's. -/
theorem State.ClaimsRight.modPart {s : State} (h : s.ClaimsRight) (p : PartNo) {f : Part → Part}
    (hf : ∀ q, (f q).live = q.live) : s.Kept (s.modPart p f) := by
  refine h.kept_of_less rfl (fun _ => id) (fun _ => id) (fun _ => id) rfl (fun q => ?_) rfl
  rw [State.part_modPart]
  split
  · exact hf _
  · rfl

theorem State.VoicesSound.modPart {s : State} (h : s.VoicesSound) (p : PartNo) {f : Part → Part}
    (hf : ∀ q, (f q).live = q.live) : (s.modPart p f).VoicesSound := h.kept (h.toClaimsRight.modPart p hf)

theorem State.VoicesSound.freeStep {s t : State} (h : s.VoicesSound) {p : PartNo} {k : HeldKey} {j : Nat} {g : GlideStart}
    {n : Nat} (hn : n ≤ s.limit p) (e : s.freeStep p k j g n = some t) : t.VoicesSound := by
  obtain ⟨hlt, v, hv, rfl⟩ := State.freeStep_eq_some.mp e
  exact h.assign (State.freeChoice_free hv).ne_calibrating (.inl (by omega)) k j g

theorem State.VoicesSound.stealStep {s t : State} (h : s.VoicesSound) {p : PartNo} {k : HeldKey} {j : Nat} {g : GlideStart}
    {n : Nat} {own : Bool} (hn : n ≤ s.limit p) (e : s.stealStep p k j g n own = some t) : t.VoicesSound := by
  obtain ⟨v, hv, rfl⟩ := State.stealStep_eq_some.mp e
  obtain ⟨⟨hs, -, a, ha, -, hown⟩, -⟩ := (State.mem_stealCandidates h.assigned).mp (State.stealChoice_mem hv)
  refine State.VoicesSound.modPart (h.assign (by simp [hs]) ?_ k j g) p fun _ => rfl
  by_cases hlt : s.count p < n
  · exact .inl (by omega)
  · refine .inr ⟨.inl hs, ?_⟩
    unfold VoiceRec.asgPart
    rw [ha, ← hown (by omega)]
    rfl

theorem State.VoicesSound.acquire {s t : State} (h : s.VoicesSound) {p : PartNo} {k : HeldKey} {j : Nat} {g : GlideStart}
    {n : Nat} {own : Bool} (hn : n ≤ s.limit p) (e : s.acquire p k j g n own = some t) : t.VoicesSound := by
  unfold State.acquire at e
  rcases Option.or_eq_some_iff.mp e with e | ⟨-, e⟩
  · exact h.freeStep hn e
  · exact h.stealStep hn e

theorem State.VoicesSound.dropKey {s : State} (h : s.VoicesSound) (p : PartNo) : (s.dropKey p).VoicesSound :=
  h.modPart p fun _ => rfl

theorem State.VoicesSound.getD {o : Option State} (h : ∀ t, o = some t → t.VoicesSound) {d : State}
    (hd : d.VoicesSound) : (o.getD d).VoicesSound := by
  cases o with
  | some t => exact h t rfl
  | none => exact hd

theorem State.VoicesSound.acquireOrDrop {s : State} (h : s.VoicesSound) {p : PartNo} {k : HeldKey} {j : Nat} {g : GlideStart}
    {n : Nat} {own : Bool} (hn : n ≤ s.limit p) : ((s.acquire p k j g n own).getD (s.dropKey p)).VoicesSound :=
  State.VoicesSound.getD (fun _ e => h.acquire hn e) (h.dropKey p)

/-! ### Key-ons and key-offs (R27 to R36) -/

theorem VoiceRec.carries.part {r : VoiceRec} {p : PartNo} {k : HeldKey} (h : r.carries p k = true) : r.asgPart = some p := by
  unfold VoiceRec.carries at h
  unfold VoiceRec.asgPart
  split at h
  · rename_i a ha
    simp only [Assignment.carries, Bool.and_eq_true, beq_iff_eq] at h
    rw [ha, Option.map_some, h.1.1.1]
  · cases h

theorem State.VoicesSound.setFreePicks {s : State} (h : s.VoicesSound) (n : Nat) : ({ s with freePicks := n }).VoicesSound :=
  h.kept (h.toClaimsRight.kept_of_less rfl (fun _ => id) (fun _ => id) (fun _ => id) rfl (fun _ => rfl) rfl)

theorem State.VoicesSound.polyKeyOn {s : State} (h : s.VoicesSound) (p : PartNo) (k : HeldKey) (legato : Bool) :
    (s.polyKeyOn p k legato).VoicesSound := by
  by_cases hlive : ∃ v, v ∈ s.carriers p k ∧ (s.voice v).state.counted = true
  · obtain ⟨v, n, hv, hs, e⟩ := State.polyKeyOn_of_live legato hlive
    rw [e]
    have hserves : s.serves p v := (State.serves_iff ..).mpr ⟨hs, VoiceRec.carries.part (State.mem_carriers.mp hv).1⟩
    exact (h.kept (h.toClaimsRight.reassign hserves k 0 _)).setFreePicks n
  · rw [State.polyKeyOn_of_not_live legato fun v hv => by simpa using fun hs => hlive ⟨v, hv, hs⟩]
    split
    · rename_i v hv
      have hrel : (s.voice v).state = .releasing := by simpa using (List.mem_filter.mp (newestBy_mem hv)).2
      split
      · exact h.assign (by simp [hrel]) (.inl ‹_›) k 0 _
      · exact State.VoicesSound.getD (fun _ e => h.stealStep le_rfl e) (h.dropKey p)
    · exact h.acquireOrDrop le_rfl

theorem State.ClaimsRight.legatoChange {s : State} (h : s.ClaimsRight) (v : Voice) (k : HeldKey) (live : Patch) (last : Nat) :
    s.Kept (s.modVoice v fun r => r.legatoChange k live last) := by
  have hframe : ∀ r : VoiceRec, (r.legatoChange k live last).state = r.state ∧ (r.legatoChange k live last).fails = r.fails
      ∧ (r.legatoChange k live last).asg.isSome = r.asg.isSome ∧ (r.legatoChange k live last).asgPart = r.asgPart := by
    intro r
    unfold VoiceRec.legatoChange VoiceRec.asgPart
    rw [VoiceRec.startGlide_frame]
    cases r.asg <;> exact ⟨rfl, rfl, rfl, rfl⟩
  exact h.kept_modVoice (fun r => (hframe r).1) (fun r => (hframe r).2.2) (by rw [(hframe _).2.1]; exact h.fails v)

/-- A part's voices in order of their unison index (R32). -/
def State.byIndex (s : State) (p : PartNo) : List Voice :=
  (s.partVoices p).insertionSort fun a b => (s.voice a).unisonIndex ≤ (s.voice b).unisonIndex

theorem State.byIndex_perm (s : State) (p : PartNo) : (s.byIndex p).Perm (s.partVoices p) := List.perm_insertionSort _ _

theorem State.mem_byIndex {s : State} {p : PartNo} {v : Voice} : v ∈ s.byIndex p ↔ s.serves p v := by
  rw [(s.byIndex_perm p).mem_iff, State.mem_partVoices]

theorem State.nodup_byIndex (s : State) (p : PartNo) : (s.byIndex p).Nodup :=
  (s.byIndex_perm p).nodup_iff.mpr (s.nodup_partVoices p)

theorem State.ClaimsRight.noteChange {s : State} (h : s.ClaimsRight) (p : PartNo) (k : HeldKey) :
    s.Kept (s.noteChange p k) := by
  unfold State.noteChange
  simp only
  split
  · have h1 := State.ClaimsRight.foldl_always (fun t v ht => State.ClaimsRight.legatoChange ht v k (s.part p).live
      (s.part p).lastPitch) h (s.partVoices p)
    exact h1.trans (h1.claims.modPart p fun _ => rfl)
  · have h1 := State.ClaimsRight.foldl (f := fun t v => t.assign v p k (s.voice v).unisonIndex .fromCurrent)
      (ok := fun r => r.state.counted = true ∧ r.asgPart = some p)
      (fun t v ht hv => ht.reassign ((State.serves_iff ..).mpr hv) k _ _) (fun t v w hw => State.voice_assign_of_ne hw ..)
      (s.nodup_byIndex p) h fun v hv => (State.serves_iff ..).mp (State.mem_byIndex.mp hv)
    exact h1.trans (h1.claims.modPart p fun _ => rfl)

theorem State.ClaimsRight.followChosen {s : State} (h : s.ClaimsRight) (p : PartNo) (k e : HeldKey) (v : Voice) :
    s.Kept (s.followChosen p k e v) := by
  unfold State.followChosen
  split
  · split
    · exact h.noteChange p e
    · exact h.kept
  · exact h.noteChange p e

theorem State.limit_of_mono {s : State} {p : PartNo} (h : (s.part p).live.voiceMode = .mono) : s.limit p = 1 := by
  unfold State.limit Patch.limit; rw [h]

theorem State.limit_of_unison {s : State} {p : PartNo} (h : (s.part p).live.voiceMode = .unison) :
    s.limit p = (s.part p).live.unisonCount := by
  unfold State.limit Patch.limit; rw [h]

theorem State.limit_of_poly {s : State} {p : PartNo} (h : (s.part p).live.voiceMode = .poly) :
    s.limit p = (s.part p).live.voiceLimit := by
  unfold State.limit Patch.limit; rw [h]

theorem State.VoicesSound.monoKeyOn {s : State} (h : s.VoicesSound) {p : PartNo} (hm : (s.part p).live.voiceMode = .mono)
    (k : HeldKey) (legato : Bool) : (s.monoKeyOn p k legato).VoicesSound := by
  unfold State.monoKeyOn
  split
  · exact h
  · split
    · exact h.acquireOrDrop (State.limit_of_mono hm).ge
    · exact h.kept (h.toClaimsRight.followChosen ..)

theorem State.VoicesSound.acquireStack {p : PartNo} {e : HeldKey} {g : GlideStart} {u : Nat} (js : List Nat) {s : State}
    (h : s.VoicesSound) (hu : u ≤ s.limit p) : (s.acquireStack p e g u js).VoicesSound := by
  induction js generalizing s with
  | nil => exact h
  | cons j js ih =>
    unfold State.acquireStack
    split
    · exact ih h hu
    · split
      · rename_i t ht
        refine ih (h.acquire hu ht) ?_
        unfold State.limit at hu ⊢
        rwa [(State.acquire_keyWork ht).live]
      · exact h

theorem State.VoicesSound.fillStack {s : State} (h : s.VoicesSound) {p : PartNo} (hm : (s.part p).live.voiceMode = .unison)
    (e : HeldKey) (g : GlideStart) : (s.fillStack p e g).VoicesSound := by
  have h1 : (if s.count p < (s.part p).live.unisonCount then
      s.acquireStack p e g (s.part p).live.unisonCount (List.range (s.part p).live.unisonCount) else s).VoicesSound := by
    split
    · exact h.acquireStack _ (State.limit_of_unison hm).ge
    · exact h
  have h2 : ∀ t : State, t.VoicesSound → (if t.count p = 0 then t.dropKey p else t).VoicesSound := fun t ht => by
    split
    · exact ht.dropKey p
    · exact ht
  exact h2 _ h1

theorem State.VoicesSound.unisonKeyOn {s : State} (h : s.VoicesSound) {p : PartNo}
    (hm : (s.part p).live.voiceMode = .unison) (k : HeldKey) (legato : Bool) : (s.unisonKeyOn p k legato).VoicesSound := by
  unfold State.unisonKeyOn
  split
  · exact h
  · simp only
    split
    · exact h.fillStack hm _ _
    · exact (h.kept (h.toClaimsRight.followChosen ..)).fillStack (by rw [(State.followChosen_keyWork ..).live]; exact hm) _ _

theorem State.VoicesSound.allocKeyOn {s : State} (h : s.VoicesSound) (p : PartNo) (k : HeldKey) (legato : Bool) :
    (s.allocKeyOn p k legato).VoicesSound := by
  unfold State.allocKeyOn
  split
  · exact h.polyKeyOn p k legato
  · exact h.monoKeyOn ‹_› k legato
  · exact h.unisonKeyOn ‹_› k legato

theorem State.ClaimsRight.allocKeyOff {s : State} (h : s.ClaimsRight) (p : PartNo) (k : HeldKey) :
    s.Kept (s.allocKeyOff p k) := by
  have hv := fun l => State.ClaimsRight.foldl_always (fun t v ht => State.ClaimsRight.keyOffVoice ht p v) h l
  unfold State.allocKeyOff
  split
  · exact hv _
  all_goals
    split
    · split
      · exact h.noteChange p _
      · exact hv _
    · exact h.kept

/-! ### Recalls, lost voices and slots (R41 to R44) -/

/-- Released voices are no part's voices any more (R24, R34). -/
theorem State.serves_releaseAll {s : State} {l : List Voice} (hl : l.Nodup) (q : PartNo) (w : Voice) :
    (l.foldl State.releaseClear s).serves q w ↔ s.serves q w ∧ w ∉ l := by
  have hinv : l.Nodup ∧ ∀ v ∈ l, s.tailOf v = s.tailOf v := ⟨hl, fun _ _ => rfl⟩
  rw [State.serves_iff]
  by_cases hw : w ∈ l
  · obtain ⟨n, hn⟩ := (State.releaseClear_fold s.tailOf).exists_voice hl hinv hw
    simp only [hw, not_true_eq_false, and_false, iff_false, not_and]
    intro hc
    exfalso
    rw [hn, Service.counted_iff] at hc
    unfold VoiceRec.released at hc
    split at hc
    · exact (((s.voice w).setSustained false).tailEnded_frame (stampAfter s.stamp n)).2.1 (by
        rcases hc with hc | hc
        · exact .inl hc
        · exact .inr (.inr hc))
    · simp at hc
  · rw [(State.releaseClear_fold s.tailOf).voice_of_not_mem hinv hw, ← State.serves_iff]
    simp [hw]

/-- The release of a part's oldest voices leaves it with its limit, or with the voices it had (R42). -/
theorem State.count_reduce (s : State) (p : PartNo) : (s.reduce p).count p = min (s.count p) (s.limit p) := by
  set n := s.count p - s.limit p with hn
  have hsub : ((s.byAge p).take n).Nodup := (s.nodup_byAge p).sublist (List.take_sublist _ _)
  have hmem : ∀ w, (s.reduce p).serves p w ↔ w ∈ (s.byAge p).drop n := fun w => by
    have hd : w ∈ (s.byAge p).drop n ↔ w ∈ s.byAge p ∧ w ∉ (s.byAge p).take n := by
      have hsplit : (s.byAge p).take n ++ (s.byAge p).drop n = s.byAge p := List.take_append_drop _ _
      have hdis := List.nodup_append.mp (hsplit ▸ s.nodup_byAge p)
      constructor
      · exact fun h => ⟨List.mem_of_mem_drop h, fun h' => hdis.2.2 w h' w h rfl⟩
      · rintro ⟨h1, h2⟩
        rw [← hsplit] at h1
        exact (List.mem_append.mp h1).resolve_left h2
    rw [hd, State.mem_byAge]
    exact State.serves_releaseAll hsub p w
  have hcard : (s.reduce p).count p = ((s.byAge p).drop n).length := by
    rw [State.count_eq_card, ← List.toFinset_card_of_nodup ((s.nodup_byAge p).sublist (List.drop_sublist _ _))]
    congr 1
    ext w
    simpa using hmem w
  have hlen : (s.byAge p).length = s.count p := (s.byAge_perm p).length_eq
  rw [hcard, List.length_drop, hlen]
  omega

theorem State.count_allocAllOff (s : State) (p : PartNo) : (s.allocAllOff p).count p = 0 := by
  rw [State.count_eq_zero]
  intro v hv
  obtain ⟨h1, h2⟩ := (State.serves_releaseAll (s.nodup_partVoices p) p v).mp hv
  exact h2 (State.mem_partVoices.mpr h1)

theorem State.VoicesSound.replayPoly {p : PartNo} (hs : List HeldKey) {s : State} (h : s.VoicesSound) :
    (s.replayPoly p hs).VoicesSound := by
  induction hs generalizing s with
  | nil => exact h
  | cons k ks ih => exact ih (s := (s.acquire p k 0 .none (s.limit p) false).getD (s.dropKey p)) (h.acquireOrDrop le_rfl)

/-- A part's change of patch leaves no part above its limit, whatever the part's count was (R41, R42). -/
theorem State.ClaimsRight.afterPatch {s : State} (h : s.ClaimsRight) {p : PartNo} (hc : ∀ q, q ≠ p → s.count q ≤ s.limit q)
    (old : VoiceMode) : (s.afterPatch p old).VoicesSound := by
  have sound : ∀ t : State, s.Kept t → t.count p ≤ s.limit p → t.VoicesSound := fun t k hp => by
    refine ⟨k.claims, fun q => ?_⟩
    rw [k.limit]
    by_cases e : q = p
    · exact e ▸ hp
    · exact (State.count_mono (k.serves q)).trans (hc q e)
  unfold State.afterPatch
  split
  · exact sound _ (h.reduce p) ((s.count_reduce p).trans_le (Nat.min_le_right _ _))
  · have h1 := sound _ (h.allocAllOff p) (by rw [State.count_allocAllOff]; exact Nat.zero_le _)
    unfold State.reseat
    simp only
    split
    · exact h1.replayPoly _
    · split
      · exact h1.acquireOrDrop (State.limit_of_mono ‹_›).ge
      · exact h1
    · split
      · exact h1.fillStack ‹_› _ _
      · exact h1

theorem State.VoicesSound.ite {c : Prop} [Decidable c] {s t : State} (hs : s.VoicesSound) (ht : t.VoicesSound) :
    (if c then s else t).VoicesSound := by
  split
  · exact hs
  · exact ht

theorem State.VoicesSound.reHomeOne {s : State} (h : s.VoicesSound) (a : Assignment) : (s.reHomeOne a).VoicesSound := by
  have hget : ∀ (k : HeldKey) (j n : Nat), n ≤ s.limit a.part → ((s.freeStep a.part k j .none n).getD s).VoicesSound :=
    fun k j n hn => State.VoicesSound.getD (fun _ e => h.freeStep hn e) h
  unfold State.reHomeOne
  split
  · exact h
  · cases hm : (s.part a.part).live.voiceMode with
    | poly => exact hget _ _ _ le_rfl
    | mono => exact (hget _ _ _ (State.limit_of_mono hm).ge).ite h
    | unison => exact (hget _ _ _ le_rfl).ite h

theorem State.VoicesSound.foldl {α : Type} {f : State → α → State} (hf : ∀ s a, State.VoicesSound s → (f s a).VoicesSound)
    (l : List α) {s : State} (h : s.VoicesSound) : (l.foldl f s).VoicesSound := by
  induction l generalizing s with
  | nil => exact h
  | cons a l ih => exact ih (hf s a h)

theorem State.VoicesSound.reHome {s : State} (h : s.VoicesSound) (l : List Assignment) : (s.reHome l).VoicesSound :=
  State.VoicesSound.foldl (fun _ a h => State.VoicesSound.reHomeOne h a) l h

end Sys2Proof.Machine
end

