-- ==== Sys2Proof/Proofs/VoiceMoves.lean ====
section
/-! PROOFS. Slots that go down and come up, passes that begin and end, and the commands of voices keep the invariant of the
voices and the tune controller (R44, R46, R107, R108, R119). -/

namespace Sys2Proof.Machine

/-! ### A lost voice (R44, R109, R120, R133) -/

/-- The voice in service given up where it is the one lost, with its quarantine request (R120). -/
def State.loseService (s : State) (v : Voice) : State :=
  match s.tune.service with
  | some x => if x.voice = v then { s.dropService with tune := { s.dropService.tune with heldQuarantine := false } } else s
  | none => s

theorem State.loseService_of_eq {s : State} {x : InService} (h : s.tune.service = some x) :
    s.loseService x.voice = { s.dropService with tune := { s.dropService.tune with heldQuarantine := false } } := by
  unfold State.loseService
  rw [h]
  exact if_pos rfl

theorem State.loseService_of_ne {s : State} {v : Voice} (h : ∀ x, s.tune.service = some x → x.voice ≠ v) :
    s.loseService v = s := by
  unfold State.loseService
  split
  · rename_i x hx
    rw [if_neg (h x hx)]
  · rfl

/-- A voice's check and its service given up, before its entry is marked. -/
def State.unclaimed (s : State) (v : Voice) : State := (s.dropCheck v).loseService v

theorem State.loseVoice_of_toServe {s : State} {v : Voice} (h : ((s.unclaimed v).entry v).toServe) :
    s.loseVoice v = (s.unclaimed v).markEntry v .left .lost := by
  change (match ((s.unclaimed v).entry v).state with
    | .pending | .waiting | .inService => (s.unclaimed v).markEntry v .left .lost
    | _ => s.unclaimed v) = _
  rcases h with h | h | h <;> rw [h]

theorem State.loseVoice_of_not_toServe {s : State} {v : Voice} (h : ¬ ((s.unclaimed v).entry v).toServe) :
    s.loseVoice v = s.unclaimed v := by
  change (match ((s.unclaimed v).entry v).state with
    | .pending | .waiting | .inService => (s.unclaimed v).markEntry v .left .lost
    | _ => s.unclaimed v) = _
  unfold PassEntry.toServe at h
  split
  · exact absurd (.inl ‹_›) h
  · exact absurd (.inr (.inl ‹_›)) h
  · exact absurd (.inr (.inr ‹_›)) h
  · rfl

theorem State.entry_dropCheck (s : State) (v w : Voice) : (s.dropCheck v).entry w = s.entry w := by
  unfold State.dropCheck
  split
  · rfl
  · split <;> rfl

theorem State.entry_unclaimed (s : State) (v w : Voice) :
    ((s.unclaimed v).entry w).state = (s.entry w).state ∧ ((s.unclaimed v).entry w).reason = (s.entry w).reason := by
  rw [← State.entry_dropCheck s v w]
  unfold State.unclaimed State.loseService
  split
  · split
    · exact State.entry_dropService _ w
    · exact ⟨rfl, rfl⟩
  · exact ⟨rfl, rfl⟩

theorem State.unclaimed_service {s : State} {v : Voice} {x : InService} (h : (s.unclaimed v).tune.service = some x) :
    x.voice ≠ v := by
  unfold State.unclaimed State.loseService at h
  split at h
  · rename_i y hy
    split at h
    · simp [State.dropService_service] at h
    · rw [h] at hy
      obtain rfl := Option.some.inj hy
      assumption
  · simp_all

theorem State.unclaimed_check {s : State} {v : Voice} {c : Check} (h : (s.unclaimed v).tune.check = some c) : c.voice ≠ v := by
  refine (State.dropCheck_check s v c ?_).1
  unfold State.unclaimed State.loseService at h
  split at h
  · split at h
    · simpa [State.dropService_check] using h
    · exact h
  · exact h

theorem State.ClaimsRight.setHeld {s : State} (h : s.ClaimsRight) (b : Bool) :
    s.Kept { s with tune := { s.tune with heldQuarantine := b } } :=
  h.kept_of_less rfl (fun _ => id) (fun _ => id) (fun _ => id) rfl (fun _ => rfl) rfl

theorem State.ClaimsRight.unclaimed {s : State} (h : s.ClaimsRight) (v : Voice) : s.Kept (s.unclaimed v) := by
  have h1 := h.dropCheck v
  have h2 := h1.trans h1.claims.dropService
  unfold State.unclaimed State.loseService
  split
  · split
    · exact h2.trans (h2.claims.setHeld false)
    · exact h1
  · exact h1

/-- No claim names the voice `v`. -/
structure State.Unclaimed (s : State) (v : Voice) : Prop where
  entry : ¬ (s.entry v).claimed
  service : ∀ x, s.tune.service = some x → x.voice ≠ v
  check : ∀ c, s.tune.check = some c → c.voice ≠ v

theorem State.ClaimsRight.loseVoice {s : State} (h : s.ClaimsRight) (v : Voice) :
    s.Kept (s.loseVoice v) ∧ (s.loseVoice v).Unclaimed v := by
  have h1 := h.unclaimed v
  by_cases ht : ((s.unclaimed v).entry v).toServe
  · rw [State.loseVoice_of_toServe ht]
    refine ⟨h1.trans (h1.claims.markEntry v .lost (by simp)), ?_, fun _ => State.unclaimed_service, fun _ => State.unclaimed_check⟩
    unfold State.markEntry
    rw [State.entry_setEntry, if_pos rfl]
    simp [PassEntry.claimed]
  · rw [State.loseVoice_of_not_toServe ht]
    exact ⟨h1, fun hc => ht (.inr hc), fun _ => State.unclaimed_service, fun _ => State.unclaimed_check⟩

theorem State.ClaimsRight.removeVoice {s : State} (h : s.ClaimsRight) (v : Voice) : s.Kept (s.removeVoice v) := by
  obtain ⟨h1, hu⟩ := h.loseVoice v
  exact h1.trans (h1.claims.kept_free rfl (by simp) (h1.claims.fails v) (fun _ => ⟨hu.entry, hu.service⟩) fun _ => hu.check)

theorem State.VoicesSound.slotDown {s : State} (h : s.VoicesSound) (k : CardNo) : (s.slotDown k).VoicesSound := by
  have h1 := State.ClaimsRight.foldl_always (fun _ v h => State.ClaimsRight.removeVoice h v) h.toClaimsRight (voicesOf k)
  have h2 := h1.trans h1.claims.settlePass
  exact (h.kept (h2.trans h2.claims.arbitrate)).reHome _

/-! ### A slot-up (R44) -/

/-- A voice in a state that no claim asks for, and without assignment. -/
theorem State.ClaimsRight.unclaimed_of_state {s : State} (h : s.ClaimsRight) {v : Voice} (hc : (s.voice v).state ≠ .calibrating)
    (hr : (s.voice v).state ≠ .retuning) : s.Unclaimed v :=
  ⟨fun e => hc (h.entered v e), fun x hx e => hc (e ▸ h.serving x hx), fun c hx e => hr (e ▸ h.checking c hx)⟩

/-- A voice without assignment and without a claim takes a state of the same kind (R44, R49, R50, R137). -/
theorem State.ClaimsRight.moveFree {s : State} (h : s.ClaimsRight) {v : Voice} (hk : ¬ (s.voice v).keyed) (hu : s.Unclaimed v)
    {x : Service} (hx : ¬ (x = .sounding ∨ x = .releasing ∨ x = .stealGap)) :
    s.Kept (s.modVoice v fun r => { r with state := x }) :=
  h.kept_free ((h.assigned v).asg_eq_none hk) hx (h.fails v) (fun _ => ⟨hu.entry, hu.service⟩) fun _ => hu.check

theorem State.ClaimsRight.enterIdle' {s : State} (h : s.ClaimsRight) {v : Voice} (hk : ¬ (s.voice v).keyed)
    (hu : s.Unclaimed v) : s.Kept (s.enterIdle v) :=
  h.enterIdle ((h.assigned v).asg_eq_none hk) hu.entry hu.service hu.check

theorem State.ClaimsRight.slotUp {s : State} (h : s.ClaimsRight) (k : CardNo) (vs : List Voice) : s.Kept (s.slotUp k vs) := by
  unfold State.slotUp
  have h1 := State.ClaimsRight.foldl_always (f := fun (t : State) v =>
    if (t.voice v).state = .absent then t.modVoice v fun r => { r with state := .offline } else t) (fun t v ht => by
      split
      · rename_i hs
        exact ht.moveFree (by simp [VoiceRec.keyed, hs]) (ht.unclaimed_of_state (by simp [hs]) (by simp [hs])) (by simp)
      · exact ht.kept) h (voicesOf k)
  refine h1.trans (State.ClaimsRight.foldl_always (fun t v ht => ?_) h1.claims (voicesOf k))
  split
  · rename_i hs
    have hs : (t.voice v).state = .offline := by simp_all
    exact ht.enterIdle' (by simp [VoiceRec.keyed, hs]) (ht.unclaimed_of_state (by simp [hs]) (by simp [hs]))
  · exact ht.kept

/-! ### Claims and passes (R46, R47, R107, R108) -/

/-- A claim leaves the claims standing; a voice taken is CALIBRATING (R46, R47). -/
theorem State.ClaimsRight.claim {s : State} (h : s.ClaimsRight) (v : Voice) (force insert : Bool) :
    s.Kept (s.claim v force insert).1
      ∧ ((s.claim v force insert).2.1 = .taken → ((s.claim v force insert).1.voice v).state = .calibrating) := by
  have hget : ∀ (t : State) (r : VoiceRec), (t.setVoice v r).voice v = r := fun t r => by rw [State.voice_setVoice, if_pos rfl]
  have hmove : ∀ x : Service, (s.voice v).state = x → x ≠ .calibrating → x ≠ .retuning → ¬ (s.voice v).keyed →
      s.Kept (s.modVoice v fun q => { q with state := .calibrating }) := fun x hx h1 h2 hk =>
    h.moveFree hk (h.unclaimed_of_state (hx ▸ h1) (hx ▸ h2)) (by simp)
  have hkeyed : (s.voice v).keyed →
      s.Kept (s.modVoice v fun q => { q.drop with state := .calibrating, tunePending := false }) := fun hk =>
    h.kept_free rfl (by simp) (h.fails v) (fun e => absurd e hk.ne.1) fun e => absurd e hk.ne.2
  have hpend : s.Kept (s.modVoice v fun q => { q with tunePending := true }) :=
    h.kept_modVoice (fun _ => rfl) (fun _ => ⟨rfl, rfl⟩) (h.fails v)
  have htake : ∀ hk : (s.voice v).keyed, ∀ why : EntryReason,
      let c : State × Claim × Option Assignment :=
        if (s.voice v).offlinePending then (s, .refused why, none)
        else if force then (s.modVoice v fun q => { q.drop with state := .calibrating, tunePending := false }, .taken,
          (s.voice v).lostKey)
        else (s.modVoice v fun q => { q with tunePending := true }, .pending, none)
      s.Kept c.1 ∧ (c.2.1 = .taken → (c.1.voice v).state = .calibrating) := by
    intro hk why
    simp only
    split
    · exact ⟨h.kept, by simp⟩
    · split
      · exact ⟨hkeyed hk, fun _ => by unfold State.modVoice; rw [hget]⟩
      · exact ⟨hpend, by simp⟩
  unfold State.claim
  simp only
  split
  · exact ⟨hmove _ ‹_› (by simp) (by simp) (by simp_all [VoiceRec.keyed]), fun _ => by unfold State.modVoice; rw [hget]⟩
  · rename_i hs
    refine ⟨?_, fun _ => by unfold State.modVoice; rw [hget]⟩
    have h1 := h.abandonCheck v
    have hv : (s.abandonCheck v).voice v = s.voice v := (s.abandonCheck_passWork v).voice v
    refine h1.trans (h1.claims.moveFree (by rw [hv]; simp [VoiceRec.keyed, hs]) ⟨fun e => ?_, fun x hx e => ?_,
      fun _ => State.abandonCheck_check⟩ (by simp))
    · have := h1.claims.entered v e
      simp [hv, hs] at this
    · have := h1.claims.serving x hx
      simp [e, hv, hs] at this
  · exact htake (.inl ‹_›) _
  · exact htake (.inr (.inl ‹_›)) _
  · exact htake (.inr (.inr ‹_›)) _
  · split
    · exact ⟨hmove _ ‹_› (by simp) (by simp) (by simp_all [VoiceRec.keyed]), fun _ => by unfold State.modVoice; rw [hget]⟩
    · exact ⟨h.kept, by simp⟩
  all_goals exact ⟨h.kept, by simp⟩

/-- A claim changes no other voice's record. -/
theorem State.voice_claim_of_ne {s : State} {v w : Voice} (hw : w ≠ v) (force insert : Bool) :
    (s.claim v force insert).1.voice w = s.voice w := by
  have hset : ∀ (t : State) (f : VoiceRec → VoiceRec), t.voice w = s.voice w → (t.modVoice v f).voice w = s.voice w :=
    fun t f e => by rw [State.voice_modVoice, if_neg (Ne.symm hw), e]
  unfold State.claim
  simp only
  split
  · exact hset _ _ rfl
  · exact hset _ _ ((s.abandonCheck_passWork v).voice w)
  iterate 3
    · split
      · rfl
      · split
        · exact hset _ _ rfl
        · exact hset _ _ rfl
  · split
    · exact hset _ _ rfl
    · rfl
  all_goals rfl

/-- The claims made so far are sound: the voices answered as taken are CALIBRATING, and all answered are among `done`. -/
structure Claims.Sound (s : State) (done : List Voice) (c : Claims) : Prop where
  kept : s.Kept c.state
  taken : ∀ x ∈ c.answers, x.answer = .taken → (c.state.voice x.voice).state = .calibrating
  named : ∀ x ∈ c.answers, x.voice ∈ done

theorem Claims.Sound.add {s : State} {done : List Voice} {c : Claims} (h : c.Sound s done) {v : Voice} (hv : v ∉ done)
    (force insert : Bool) : (c.add force insert v).Sound s (v :: done) := by
  obtain ⟨hk, ht⟩ := h.kept.claims.claim v force insert
  refine ⟨h.kept.trans hk, fun x hx e => ?_, fun x hx => ?_⟩
  all_goals
    simp only [Claims.add, List.mem_append, List.mem_singleton] at hx
  · rcases hx with hx | rfl
    · exact (congrArg _ (State.voice_claim_of_ne (w := x.voice) (fun e => hv (by rw [← e]; exact h.named x hx)) force insert)).trans (h.taken x hx e)
    · exact ht e
  · rcases hx with hx | rfl
    · exact List.mem_cons_of_mem _ (h.named x hx)
    · exact List.mem_cons_self

theorem Claims.Sound.foldl {s : State} (force insert : Bool) {vs : List Voice} (hvs : vs.Nodup) {done : List Voice} {c : Claims}
    (h : c.Sound s done) (hd : ∀ v ∈ vs, v ∉ done) : ∃ all, (vs.foldl (Claims.add force insert) c).Sound s all := by
  induction vs generalizing done c with
  | nil => exact ⟨done, h⟩
  | cons v vs ih =>
    obtain ⟨hv, hvs⟩ := List.nodup_cons.mp hvs
    refine ih hvs (h.add (hd v (by simp)) force insert) fun w hw e => ?_
    rcases List.mem_cons.mp e with rfl | e
    · exact hv hw
    · exact hd w (by simp [hw]) e

theorem State.ClaimsRight.claimAll {s : State} (h : s.ClaimsRight) {vs : List Voice} (hvs : vs.Nodup) (force insert : Bool) :
    ∃ all, (s.claimAll vs force insert).Sound s all :=
  Claims.Sound.foldl force insert hvs (done := []) ⟨h.kept, by simp, by simp⟩ (by simp)

/-- Entries set by the allocator's answers: a claimed one is of a voice taken (R107). -/
theorem State.ClaimsRight.setEntries {s : State} (h : s.ClaimsRight) {l : List ClaimAnswer} (ds : DestSet)
    (hl : ∀ x ∈ l, x.answer = .taken → (s.voice x.voice).state = .calibrating) :
    s.Kept (l.foldl (fun (t : State) x => t.setEntry x.voice (x.answer.entry ds)) s) := by
  induction l generalizing s with
  | nil => exact h.kept
  | cons x l ih =>
    have h1 : s.Kept (s.setEntry x.voice (x.answer.entry ds)) := h.kept_setEntry fun e => hl x (by simp) (by
      rcases hx : x.answer with _ | _ | why
      · rfl
      all_goals simp [hx, Claim.entry, PassEntry.fresh, PassEntry.claimed] at e)
    exact h1.trans (ih h1.claims fun y hy => hl y (by simp [hy]))

theorem State.ClaimsRight.beginPass {s : State} (h : s.ClaimsRight) (force : Bool) {l : List ClaimAnswer} (ds : DestSet)
    (hl : ∀ x ∈ l, x.answer = .taken → (s.voice x.voice).state = .calibrating) : s.Kept (s.beginPass force l ds) := by
  have h1 : s.Kept { s with tune := { s.tune with
      outcome := .running, force := force, entries := Vector.replicate 16 .reset, service := none, heldQuarantine := false,
      requestWaiting := false } } := by
    refine h.kept_of_less rfl (fun _ e => nomatch e) (fun v e => ?_) (fun _ => id) rfl (fun _ => rfl) rfl
    exfalso
    revert e
    simp [PassEntry.claimed, State.entry, PassEntry.reset]
  have h2 := h1.trans (h1.claims.setEntries ds hl)
  exact h2.trans h2.claims.settlePass

theorem State.VoicesSound.answer {s : State} (h : s.VoicesSound) (x : Status) (b : List Byte) : (s.answer x b).VoicesSound :=
  h.kept (h.toClaimsRight.kept_of_less rfl (fun _ => id) (fun _ => id) (fun _ => id) rfl (fun _ => rfl) rfl)

theorem State.VoicesSound.refuse {s : State} (h : s.VoicesSound) (x : Status) : (s.refuse x).VoicesSound := h.answer x []

theorem State.ClaimsRight.autoTune {s : State} (h : s.ClaimsRight) {vs : List Voice} (hvs : vs.Nodup) :
    s.Kept (s.autoTune vs) := by
  obtain ⟨all, hc⟩ := h.claimAll hvs false true
  have hg : ∀ x ∈ (s.claimAll vs false true).answers.filter fun x => x.answer.granted, x.answer = .taken →
      ((s.claimAll vs false true).state.voice x.voice).state = .calibrating := fun x hx => hc.taken x (List.mem_filter.mp hx).1
  unfold State.autoTune
  simp only
  split
  · exact hc.kept
  · split
    · have h1 := hc.kept.trans (hc.kept.claims.setEntries ⟨true, true, true⟩ hg)
      exact h1.trans h1.claims.settlePass
    · exact hc.kept.trans (hc.kept.claims.beginPass false _ hg)

/-- A lost key takes no CALIBRATING voice (R28, R43). -/
theorem State.reHomeOne_calibrating {s : State} (a : Assignment) {v : Voice} (hv : (s.voice v).state = .calibrating) :
    ((s.reHomeOne a).voice v).state = .calibrating := by
  have hfree : ∀ (k : HeldKey) (j n : Nat), (((s.freeStep a.part k j .none n).getD s).voice v).state = .calibrating := by
    intro k j n
    cases e : s.freeStep a.part k j .none n with
    | none => exact hv
    | some t =>
      obtain ⟨-, w, hw, rfl⟩ := State.freeStep_eq_some.mp e
      have hne : v ≠ w := fun e => (State.freeChoice_free hw).ne_calibrating (e ▸ hv)
      exact (congrArg _ (State.voice_assign_of_ne hne ..)).trans hv
  have hite : ∀ (b : Bool) (t : State), (t.voice v).state = .calibrating → ((if b then t else s).voice v).state = .calibrating :=
    fun b t ht => by split <;> assumption
  unfold State.reHomeOne
  split
  · exact hv
  · cases (s.part a.part).live.voiceMode with
    | poly => exact hfree _ _ _
    | mono => exact hite _ _ (hfree _ _ _)
    | unison => exact hite _ _ (hfree _ _ _)

theorem State.reHome_calibrating (l : List Assignment) {s : State} {v : Voice} (hv : (s.voice v).state = .calibrating) :
    ((s.reHome l).voice v).state = .calibrating := by
  induction l generalizing s with
  | nil => exact hv
  | cons a l ih => exact ih (s := s.reHomeOne a) (State.reHomeOne_calibrating a hv)

theorem State.VoicesSound.beginTune {s : State} (h : s.VoicesSound) (voices : BitVec 16) (ds : DestSet) (force : Bool) :
    (s.beginTune voices ds force).VoicesSound := by
  obtain ⟨all, hc⟩ := h.toClaimsRight.claimAll (nodup_allVoices.filter fun v => voices.getLsbD v.val) force false
  have h1 := (h.kept hc.kept).reHome (s.claimAll (allVoices.filter fun v => voices.getLsbD v.val) force false).lost
  unfold State.beginTune
  simp only
  split
  · exact (h1.kept (h1.toClaimsRight.beginPass force ds fun x hx e => State.reHome_calibrating _ (hc.taken x hx e))).answer _ _
  · exact h1.answer _ _

/-! ### The abort of a pass (R119) -/

/-- One voice's return at an abort, with no voice in service (R119). -/
theorem State.ClaimsRight.abortVoice {s : State} (h : s.ClaimsRight) (hs : s.tune.service = none) (held : Bool) (v : Voice) :
    s.Kept (s.abortVoice held v) := by
  have hm := h.markEntry v (x := .done) .aborted (by simp)
  have hu : (s.entry v).claimed → (s.markEntry v .done .aborted).Unclaimed v ∧ ¬ (s.voice v).keyed := fun e => by
    have hv := h.entered v e
    refine ⟨⟨?_, fun x hx => by simp [State.markEntry, hs] at hx, fun c hc => h.check_ne (by simp [hv]) c hc⟩,
      by simp [VoiceRec.keyed, hv]⟩
    unfold State.markEntry
    rw [State.entry_setEntry, if_pos rfl]
    simp [PassEntry.claimed]
  have hi : (s.entry v).claimed → s.Kept ((s.markEntry v .done .aborted).enterIdle v) := fun e =>
    hm.trans (hm.claims.enterIdle' (hu e).2 (hu e).1)
  have hq : (s.entry v).claimed → s.Kept ((s.markEntry v .done .aborted).enterQuarantine v) := fun e =>
    hm.trans (hm.claims.enterQuarantine ((h.assigned v).asg_eq_none (hu e).2) (hu e).1.entry (hu e).1.service (hu e).1.check)
  have hp : s.Kept ((s.markEntry v .done .aborted).modVoice v fun r => { r with tunePending := false }) :=
    hm.trans (hm.claims.kept_modVoice (fun _ => rfl) (fun _ => ⟨rfl, rfl⟩) (h.fails v))
  unfold State.abortVoice
  split
  · split
    · exact hq (.inr ‹_›)
    · exact hi (.inr ‹_›)
  · exact hi (.inl ‹_›)
  · exact hp
  all_goals exact h.kept

theorem State.abortVoice_service (held : Bool) (s : State) (v : Voice) :
    (s.abortVoice held v).tune.service = s.tune.service := by
  unfold State.abortVoice
  split
  · split <;> rfl
  all_goals rfl

theorem State.ClaimsRight.abortAll (held : Bool) (l : List Voice) {s : State} (h : s.ClaimsRight) (hs : s.tune.service = none) :
    s.Kept (l.foldl (State.abortVoice held) s) := by
  induction l generalizing s with
  | nil => exact h.kept
  | cons v l ih =>
    have h1 := h.abortVoice hs held v
    exact h1.trans (ih h1.claims ((State.abortVoice_service held s v).trans hs))

/-- A pass shown as aborted, with its notice (R119). -/
def State.passAborted (s : State) : State :=
  ({ s with tune := { s.tune with outcome := .aborted, heldQuarantine := false } }).postTune

theorem State.abortPass_eq (s : State) :
    s.abortPass = (allVoices.foldl (State.abortVoice s.tune.heldQuarantine) s.dropService).passAborted := rfl

theorem State.ClaimsRight.passAborted {s : State} (h : s.ClaimsRight) : s.Kept s.passAborted :=
  h.kept_of_less rfl (fun _ => id) (fun _ => id) (fun _ => id) rfl (fun _ => rfl) rfl

theorem State.ClaimsRight.abortPass {s : State} (h : s.ClaimsRight) : s.Kept s.abortPass := by
  have h1 := h.dropService
  have h2 := h1.trans (h1.claims.abortAll s.tune.heldQuarantine allVoices s.dropService_service)
  rw [State.abortPass_eq]
  exact h2.trans h2.claims.passAborted

/-! ### The commands of voices (R49, R50) -/

theorem State.ClaimsRight.markOffline {s : State} (h : s.ClaimsRight) (v : Voice) : s.Kept (s.markOffline v) := by
  have h1 := h.kept_modVoice (v := v) (f := fun r => { r with tunePending := false, offlinePending := true }) (fun _ => rfl)
    (fun _ => ⟨rfl, rfl⟩) (h.fails v)
  exact h1.trans (h1.claims.leavePass v)

theorem State.voice_markOffline (s : State) (v w : Voice) :
    (s.markOffline v).voice w = if v = w then { s.voice w with tunePending := false, offlinePending := true } else s.voice w := by
  unfold State.markOffline
  rw [(State.leavePass_passWork _ v).voice, State.voice_modVoice]

theorem State.ClaimsRight.abandoned {s : State} (h : s.ClaimsRight) {v : Voice} (hv : (s.voice v).state = .retuning) :
    (s.abandonCheck v).Unclaimed v ∧ ¬ ((s.abandonCheck v).voice v).keyed := by
  have e : (s.abandonCheck v).voice v = s.voice v := (s.abandonCheck_passWork v).voice v
  have h1 := (h.abandonCheck v).claims
  refine ⟨⟨fun hc => ?_, fun x hx hxv => ?_, fun _ => State.abandonCheck_check⟩, by rw [e]; simp [VoiceRec.keyed, hv]⟩
  · have := h1.entered v hc
    simp [e, hv] at this
  · have := h1.serving x hx
    simp [hxv, e, hv] at this

theorem State.ClaimsRight.takeOffline {s t : State} (h : s.ClaimsRight) {v : Voice} (e : s.takeOffline v = some t) :
    s.Kept t := by
  have hrel : (s.voice v).keyed → s.Kept ((s.markOffline v).releaseClear v) := fun hk =>
    (h.markOffline v).trans ((h.markOffline v).claims.releaseClear (by
      rw [State.voice_markOffline, if_pos rfl]
      exact hk))
  have hoff : ¬ (Service.offline = .sounding ∨ Service.offline = .releasing ∨ Service.offline = .stealGap) := by simp
  unfold State.takeOffline at e
  split at e
  · rename_i hs
    obtain rfl := Option.some.inj e
    exact h.moveFree (by simp [VoiceRec.keyed, hs]) (h.unclaimed_of_state (by simp [hs]) (by simp [hs])) hoff
  · rename_i hs
    obtain rfl := Option.some.inj e
    obtain ⟨hu, hk⟩ := h.abandoned hs
    exact (h.abandonCheck v).trans ((h.abandonCheck v).claims.moveFree hk hu hoff)
  · obtain rfl := Option.some.inj e
    exact hrel (.inl ‹_›)
  · obtain rfl := Option.some.inj e
    exact hrel (.inr (.inr ‹_›))
  · obtain rfl := Option.some.inj e
    exact h.markOffline v
  · obtain rfl := Option.some.inj e
    exact h.kept
  all_goals cases e

end Sys2Proof.Machine
end

