-- ==== Sys2Proof/Proofs/KeysAndSlots.lean ====
section
/-! PROOFS. Every step keeps the invariant of the voices and the tune controller (R23, R24, R106, R110, R123, R126, R135). -/

namespace Sys2Proof.Machine

/-! ### Work beside the voices -/

/-- Work that leaves voices and tune controller, with every patch in range after it. -/
theorem State.ClaimsRight.patched {s t : State} (h : s.ClaimsRight) (hv : t.voices = s.voices) (ht : t.tune = s.tune)
    (hp : t.patchesFit) : t.ClaimsRight := by
  have hvoice : ∀ v, t.voice v = s.voice v := fun v => by unfold State.voice; rw [hv]
  have hentry : ∀ v, t.entry v = s.entry v := fun v => by unfold State.entry; rw [ht]
  refine ⟨fun v => ?_, fun x hx => ?_, fun v hc => ?_, fun c hc => ?_, fun v => ?_, ?_, hp⟩
  · rw [hvoice]; exact h.assigned v
  · rw [ht] at hx; rw [hvoice]; exact h.serving x hx
  · rw [hentry] at hc; rw [hvoice]; exact h.entered v hc
  · rw [ht] at hc; rw [hvoice]; exact h.checking c hc
  · rw [hvoice]; exact h.fails v
  · unfold State.tuneFit; rw [ht]; exact h.tune

theorem State.count_of_voices {s t : State} (hv : t.voices = s.voices) (p : PartNo) : t.count p = s.count p :=
  State.count_congr fun v => by
    unfold State.serves State.voice
    rw [hv]

theorem State.limit_of_live {s t : State} {p : PartNo} (h : (t.part p).live = (s.part p).live) : t.limit p = s.limit p := by
  unfold State.limit; rw [h]

/-- Work that leaves voices, tune controller and live patches, and puts only patches in range into slots. -/
theorem State.VoicesSound.patched {s t : State} (h : s.VoicesSound) (hv : t.voices = s.voices) (ht : t.tune = s.tune)
    (hl : ∀ p, (t.part p).live = (s.part p).live) (hs : ∀ c x, (t.cache c).contents = some x → x.inRange) :
    t.VoicesSound :=
  ⟨h.toClaimsRight.patched hv ht ⟨fun p => by rw [hl]; exact h.patches.1 p, hs⟩,
    fun p => by rw [State.count_of_voices hv, State.limit_of_live (hl p)]; exact h.counts p⟩

/-- Work that leaves voices, tune controller, parts and slots. -/
theorem State.VoicesSound.aside {s t : State} (h : s.VoicesSound) (hv : t.voices = s.voices) (ht : t.tune = s.tune)
    (hp : t.parts = s.parts) (hs : t.patches.slots = s.patches.slots) : t.VoicesSound :=
  h.patched hv ht (fun p => by unfold State.part; rw [hp]) fun c x hx => h.patches.2 c x (by
    unfold State.cache at hx ⊢
    rwa [hs] at hx)

/-! ### The key path (R1 to R15) -/

theorem State.VoicesSound.setHeld {s : State} (h : s.VoicesSound) (p : PartNo) (l : List HeldKey) :
    (s.setHeld p l).VoicesSound := h.modPart p fun _ => rfl

theorem State.VoicesSound.allocKeyOff {s : State} (h : s.VoicesSound) (p : PartNo) (k : HeldKey) :
    (s.allocKeyOff p k).VoicesSound := h.kept (h.toClaimsRight.allocKeyOff p k)

theorem State.VoicesSound.hold {s : State} (h : s.VoicesSound) (p : PartNo) (k : HeldKey) : (s.hold p k).VoicesSound := by
  unfold State.hold
  simp only
  split
  · exact h.setHeld p _
  · split
    · split
      · exact ((h.setHeld p _).allocKeyOff p _).setHeld p _
      · exact h.setHeld p _
    · exact h.setHeld p _

theorem State.VoicesSound.keyOnZone {s : State} (h : s.VoicesSound) (channel key velocity : Nat) (z : ZoneNo) :
    (s.keyOnZone channel key velocity z).VoicesSound := by
  unfold State.keyOnZone
  simp only
  split
  · split
    · exact (h.hold _ _).allocKeyOn _ _ _
    · exact h
  · exact h

theorem State.VoicesSound.keyOff {s : State} (h : s.VoicesSound) (channel key : Nat) : (s.keyOff channel key).VoicesSound :=
  State.VoicesSound.foldl (fun _ x h => State.VoicesSound.allocKeyOff h x.1 x.2) _
    (State.VoicesSound.foldl (fun _ p h => State.VoicesSound.setHeld h p _) _ h)

theorem State.VoicesSound.setSustain {s : State} (h : s.VoicesSound) (p : PartNo) (down : Bool) :
    (s.setSustain p down).VoicesSound := by
  have h1 : (s.modPart p fun q => { q with sustain := down }).VoicesSound := h.modPart p fun _ => rfl
  unfold State.setSustain
  simp only
  split
  · exact h1.kept (h1.toClaimsRight.sustainUp p)
  · exact h1

theorem State.VoicesSound.perform {s : State} (h : s.VoicesSound) (e : PerfEvent) : (s.perform e).VoicesSound := by
  cases e with
  | keyOn channel key velocity => exact State.VoicesSound.foldl (fun _ z h => State.VoicesSound.keyOnZone h _ _ _ z) _ h
  | keyOff channel key => exact h.keyOff channel key
  | sustain p down => exact h.setSustain p down
  | bend p x => exact h.modPart p (f := fun q => { q with bend := x }) fun _ => rfl
  | allOff p => exact (h.setHeld p []).kept ((h.setHeld p []).toClaimsRight.allocAllOff p)

theorem State.VoicesSound.takeEvents {s : State} (h : s.VoicesSound) (l : List RawEvent) : (s.takeEvents l).VoicesSound := by
  refine State.VoicesSound.foldl (fun t e ht => ?_) l h
  unfold State.takeEvent
  split
  · exact (ht.perform _).aside rfl rfl rfl rfl
  · exact ht.aside rfl rfl rfl rfl

theorem State.VoicesSound.endPlay {s : State} (h : s.VoicesSound) : s.endPlay.VoicesSound := h.answer _ _

theorem State.VoicesSound.playEvent {s : State} (h : s.VoicesSound) (e : RawEvent) : (playEvent e s).VoicesSound := by
  unfold Machine.playEvent
  split
  · exact h
  · split
    · exact h.perform _
    · split
      · exact h
      · split
        · simp only
          split
          · exact ((h.takeEvents _).takeEvents _).endPlay
          · exact h.takeEvents _
        · exact h

/-! ### Slots (R44, R84 to R92) -/

theorem State.VoicesSound.modCard {s : State} (h : s.VoicesSound) (k : CardNo) (f : Card → Card) : (s.modCard k f).VoicesSound :=
  h.aside rfl rfl rfl rfl

theorem State.VoicesSound.postCard {s : State} (h : s.VoicesSound) (k : CardNo) : (s.postCard k).VoicesSound :=
  h.aside rfl rfl rfl rfl

theorem nodup_voicesOf (k : CardNo) : (voicesOf k).Nodup := nodup_allVoices.filter _

theorem State.VoicesSound.enterPowered {s : State} (h : s.VoicesSound) (k : CardNo) : (s.enterPowered k).VoicesSound := by
  have h1 := (h.modCard k fun c => { c with state := .powered }).postCard k
  have hvs : ∀ (b : Bool) (f : Voice → Bool), (if b then (voicesOf k).filter f else []).Nodup := fun b f => by
    split
    · exact (nodup_voicesOf k).filter f
    · exact List.nodup_nil
  have h2 := h1.toClaimsRight.slotUp k (if s.settings.autoTune then (voicesOf k).filter
    ((s.modCard k fun c => { c with state := .powered }).postCard k).needsTuning else [])
  exact h1.kept (h2.trans (h2.claims.autoTune (hvs _ _)))

theorem State.VoicesSound.enterFault {s : State} (h : s.VoicesSound) (k : CardNo) (why : FaultCause) :
    (s.enterFault k why).VoicesSound := by
  have h1 := h.modCard k fun c => { c with power := false, cause := why }
  unfold State.enterFault
  exact (((h1.slotDown k).ite h1).modCard k _).postCard k

theorem State.VoicesSound.cardGone {s : State} (h : s.VoicesSound) (k : CardNo) : (s.cardGone k).VoicesSound := by
  refine State.VoicesSound.foldl (fun t v ht => ?_) (voicesOf k) h
  exact ht.kept (ht.toClaimsRight.kept_of_less rfl (fun _ => id) (fun _ => id) (fun _ => id) rfl (fun _ => rfl) rfl)

theorem State.VoicesSound.removeCard {s : State} (h : s.VoicesSound) (k : CardNo) : (s.removeCard k).VoicesSound := by
  have h1 := h.modCard k fun c => { c with power := false, readyTimer := 0 }
  exact (((((h1.slotDown k).ite h1).cardGone k).modCard k _).postCard k)

theorem State.VoicesSound.insertion {s : State} (h : s.VoicesSound) (k : CardNo) : (s.insertion k).VoicesSound := by
  have h1 := (h.modCard k fun c => { c with state := .seated, removalPending := false }).postCard k
  exact (h1.modCard k _).ite h1

theorem State.VoicesSound.takeDebounce {s : State} (h : s.VoicesSound) (k : CardNo) : (s.takeDebounce k).VoicesSound := by
  have h1 := h.modCard k fun c => { c with settledLeft := c.rawLeft, settledRight := c.rawRight, debounce := 0 }
  unfold State.takeDebounce
  simp only
  split
  · split
    · exact h1.modCard k _
    · exact h1.modCard k _
    · exact h1.insertion k
  · split
    iterate 2
      · split
        · exact h1.modCard k _
        · exact h1.modCard k _
        · exact h1.insertion k
    all_goals exact h1

theorem State.VoicesSound.debounceFrame {s : State} (h : s.VoicesSound) (k : CardNo) : (s.debounceFrame k).VoicesSound := by
  unfold State.debounceFrame
  split
  · exact h
  · exact h.takeDebounce k
  · exact h.modCard k _

theorem State.VoicesSound.readReady {s : State} (h : s.VoicesSound) (k : CardNo) (level : Bool) :
    (s.readReady k level).VoicesSound := by
  have h1 := h.modCard k fun c => { c with readySeen := level }
  unfold State.readReady
  simp only
  split
  · refine (h1.enterPowered k).ite ?_
    exact ((h1.modCard k _).enterFault k _).ite (h1.modCard k _)
  · exact h1.ite (h1.enterFault k _)
  all_goals exact h

theorem State.VoicesSound.slotFrame {s : State} (h : s.VoicesSound) (ready : BitVec 4) (k : CardNo) :
    (s.slotFrame ready k).VoicesSound := by
  unfold State.slotFrame
  simp only
  split
  · exact (h.debounceFrame k).readReady k _
  · exact (h.debounceFrame k).readReady k _
  all_goals exact h.debounceFrame k

theorem State.VoicesSound.cardOff {s : State} (h : s.VoicesSound) (k : CardNo) : (s.cardOff k).VoicesSound := by
  unfold State.cardOff
  split
  iterate 3 · exact h
  · exact h.modCard k _
  · exact ((h.modCard k _).slotDown k).modCard k _
  · exact h.modCard k _

theorem State.VoicesSound.cardOn {s t : State} (h : s.VoicesSound) {k : CardNo} (e : s.cardOn k = some t) : t.VoicesSound := by
  have hp : (s.enterPowering k).VoicesSound := h.modCard k _
  unfold State.cardOn at e
  split at e
  · cases e
  · cases e
  · split at e
    · cases e
    · exact Option.some.inj e ▸ hp
  · exact Option.some.inj e ▸ h
  · exact Option.some.inj e ▸ h
  · exact Option.some.inj e ▸ hp

end Sys2Proof.Machine
end

