-- ==== Sys2Proof/Proofs/PatchWork.lean ====
section
/-! PROOFS. The patch manager keeps the invariant of the voices and the tune controller (R159 to R182). -/

namespace Sys2Proof.Machine

/-! ### Jobs and the store-link -/

/-- `t` is `s` but for the queue, the head's step and the transactions sent (R168, R172). -/
def State.LinkWork (s t : State) : Prop :=
  t = { s with patches := { s.patches with queue := t.patches.queue, head := t.patches.head, sent := t.patches.sent } }

theorem State.LinkWork.refl (s : State) : s.LinkWork s := rfl

theorem State.LinkWork.trans {s t u : State} (h : s.LinkWork t) (k : t.LinkWork u) : s.LinkWork u := by
  unfold State.LinkWork at *
  rw [h] at k
  exact k

theorem State.setQueue_linkWork (s : State) (q : List Job) : s.LinkWork (s.setQueue q) := rfl

theorem State.setHead_linkWork (s : State) (x : Option JobStep) : s.LinkWork (s.setHead x) := rfl

theorem State.send_linkWork (s : State) (l : List FlashTx) : s.LinkWork (s.send l) := rfl

theorem State.beginLink_linkWork (s : State) : s.LinkWork s.beginLink := rfl

theorem State.unlink_linkWork (s : State) (f : CacheNo → PartNo → Bool) : s.LinkWork (s.unlink f) := rfl

theorem State.setWaiting_linkWork (s : State) (l : List Job) : s.LinkWork (s.setWaiting l) := rfl

theorem State.passReady_linkWork (s : State) (j : Job) : s.LinkWork (s.passReady j) := by cases j <;> rfl

theorem State.startHead_linkWork (s : State) : s.LinkWork s.startHead := by
  have h : s.startHead.patches.queue = s.patches.queue := by rw [s.startHead_frame]
  unfold State.LinkWork
  rw [h]
  exact s.startHead_frame

theorem State.nextJob_linkWork (s : State) : s.LinkWork s.nextJob :=
  (s.setQueue_linkWork _).trans (State.startHead_linkWork _)

theorem State.queueJob_linkWork (s : State) (j : Job) : s.LinkWork (s.queueJob j) := by
  unfold State.queueJob
  simp only
  split
  · exact (s.setQueue_linkWork _).trans ((State.beginLink_linkWork _).trans (State.startHead_linkWork _))
  · exact s.setQueue_linkWork _

theorem State.resolveFetch_linkWork (s : State) (l : Nat) : s.LinkWork (s.resolveFetch l) := s.setQueue_linkWork _

theorem State.VoicesSound.linkWork {s t : State} (h : s.VoicesSound) (k : s.LinkWork t) : t.VoicesSound := by
  unfold State.LinkWork at k
  exact h.aside (by rw [k]) (by rw [k]) (by rw [k]) (by rw [k])

/-! ### Patches in range (R159) -/

theorem nameChar_inRange (b : Byte) : 0x20 ≤ (nameChar b).toNat ∧ (nameChar b).toNat ≤ 0x7E := by
  unfold nameChar
  split
  · assumption
  · decide

theorem clampNat_inRange {lo hi : Nat} (h : lo ≤ hi) (n : Nat) : lo ≤ clampNat lo hi n ∧ clampNat lo hi n ≤ hi := by
  unfold clampNat
  omega

theorem patchOf_inRange (bytes : List Byte) : (patchOf bytes).inRange := by
  refine ⟨clampNat_inRange (by decide) _, clampNat_inRange (by decide) _, (clampNat_inRange (by decide) _).2,
    (clampNat_inRange (by decide) _).2, fun i => ?_⟩
  have e : (patchOf bytes).name[i] = nameChar (recordByte bytes (60 + i.val)) := by simp [patchOf]
  rw [e]
  exact nameChar_inRange _

theorem default_inRange : Patch.default.inRange := by
  refine ⟨by decide, by decide, by decide, by decide, fun i => ?_⟩
  have e : Patch.default.name[i] = 0x20 := by simp [Patch.default]
  rw [e]
  decide

theorem Patch.inRange.setParam {x : Patch} (h : x.inRange) (i : Fin 25) (v : Val12) : (x.setParam i v).inRange := h

theorem Patch.inRange.setDiscrete {x : Patch} (h : x.inRange) (d : Discrete) (n : Nat) : (x.setDiscrete d n).inRange := by
  obtain ⟨h1, h2, h3, h4, h5⟩ := h
  cases d with
  | voiceLimit => exact ⟨clampNat_inRange (by decide) _, h2, h3, h4, h5⟩
  | unisonCount => exact ⟨h1, clampNat_inRange (by decide) _, h3, h4, h5⟩
  | unisonSpread => exact ⟨h1, h2, (clampNat_inRange (by decide) _).2, h4, h5⟩
  | bendRange => exact ⟨h1, h2, h3, (clampNat_inRange (by decide) _).2, h5⟩
  | voiceMode | glideMode | keyPriority | monoTrigger => exact ⟨h1, h2, h3, h4, h5⟩

theorem Patch.inRange.setName {x : Patch} (h : x.inRange) (value : List Byte) : ({ x with name := nameOf value }).inRange := by
  obtain ⟨h1, h2, h3, h4, -⟩ := h
  refine ⟨h1, h2, h3, h4, fun i => ?_⟩
  have e : (nameOf value)[i] = nameChar (recordByte value i.val) := by simp [nameOf]
  rw [e]
  exact nameChar_inRange _

/-! ### A part's patch replaced -/

/-- A part's record takes another patch, in range: the claims stand, and every other part keeps its limit. -/
theorem State.VoicesSound.setLive {s : State} (h : s.VoicesSound) (p : PartNo) {f : Part → Part}
    (hf : (f (s.part p)).live.inRange) :
    (s.modPart p f).ClaimsRight ∧ ∀ q, q ≠ p → (s.modPart p f).count q ≤ (s.modPart p f).limit q := by
  refine ⟨h.toClaimsRight.patched rfl rfl ⟨fun q => ?_, h.patches.2⟩, fun q hq => ?_⟩
  · rw [State.part_modPart]
    split
    · rename_i e
      exact e ▸ hf
    · exact h.patches.1 q
  · have hl : ((s.modPart p f).part q).live = (s.part q).live := by rw [State.part_modPart, if_neg (Ne.symm hq)]
    rw [State.limit_of_live hl]
    exact h.counts q

/-- A part takes another patch without a smaller limit. -/
theorem State.VoicesSound.editLive {s : State} (h : s.VoicesSound) (p : PartNo) {f : Part → Part}
    (hf : (f (s.part p)).live.inRange) (hlim : (f (s.part p)).live.limit = (s.part p).live.limit) :
    (s.modPart p f).VoicesSound := by
  obtain ⟨h1, h2⟩ := h.setLive p hf
  refine ⟨h1, fun q => ?_⟩
  by_cases e : q = p
  · subst e
    have hl : (s.modPart q f).limit q = s.limit q := by
      unfold State.limit
      rw [State.part_modPart, if_pos rfl, hlim]
    rw [hl]
    exact h.counts q
  · exact h2 q e

/-- The work of a voice change beside the link work leaves claims and counts (R41, R42, R175). -/
theorem State.VoicesSound.newPatch {s t : State} (h : s.VoicesSound) (p : PartNo) {f : Part → Part}
    (hf : (f (s.part p)).live.inRange) (k : (s.modPart p f).LinkWork t) (old : VoiceMode) :
    (t.afterPatch p old).VoicesSound := by
  obtain ⟨h1, h2⟩ := h.setLive p hf
  unfold State.LinkWork at k
  have hpart : ∀ q, t.part q = (s.modPart p f).part q := fun q => by unfold State.part; rw [k]
  have ht : t.ClaimsRight := h1.patched (by rw [k]) (by rw [k])
    ⟨fun q => by rw [hpart]; exact h1.patches.1 q, by rw [k]; exact h1.patches.2⟩
  refine ht.afterPatch (fun q hq => ?_) old
  rw [State.count_of_voices (s := s.modPart p f) (by rw [k]), State.limit_of_live (s := s.modPart p f) (by rw [hpart])]
  exact h2 q hq

theorem State.VoicesSound.armWhere {s : State} (h : s.VoicesSound) (pick : ChannelNo → Bool) : (s.armWhere pick).VoicesSound := by
  rw [State.armWhere_frame]
  exact h.aside rfl rfl rfl rfl

theorem State.contents_inRange {s : State} (h : s.VoicesSound) (c : CacheNo) :
    ((s.cache c).contents.getD .default).inRange := by
  cases e : (s.cache c).contents with
  | none => exact default_inRange
  | some x => exact h.patches.2 c x e

theorem State.VoicesSound.copyInto {s : State} (h : s.VoicesSound) (c : CacheNo) (p : PartNo) : (s.copyInto c p).VoicesSound := by
  have h1 := h.newPatch p (f := fun q => { q with
      live := (s.cache c).contents.getD .default, origin := (s.cache c).location, dirty := false, wanted := none
      lastRecall := .ok }) (State.contents_inRange h c) (State.unlink_linkWork _ fun _ q => q == p) (s.part p).live.voiceMode
  exact ((h1.armWhere _).ite h1).aside rfl rfl rfl rfl

theorem State.VoicesSound.copyToWanting {s : State} (h : s.VoicesSound) (c : CacheNo) (l : Nat) :
    (s.copyToWanting c l).VoicesSound :=
  State.VoicesSound.foldl (fun _ p h => State.VoicesSound.copyInto h c p) _ h

/-! ### Slots, recalls and stores (R165 to R182) -/

/-- A slot replaced by one whose contents, if any, are in range. -/
theorem State.VoicesSound.setCache {s : State} (h : s.VoicesSound) (c : CacheNo) {r : CacheSlot}
    (hr : ∀ x, r.contents = some x → x.inRange) : (s.setCache c r).VoicesSound := by
  refine h.patched rfl rfl (fun _ => rfl) fun d x hx => ?_
  rw [State.cache_setCache] at hx
  split at hx
  · exact hr x hx
  · exact h.patches.2 d x hx

theorem State.VoicesSound.touchCache {s : State} (h : s.VoicesSound) (c : CacheNo) : (s.touchCache c).VoicesSound := by
  refine h.patched rfl rfl (fun _ => rfl) fun d x hx => ?_
  rw [State.cache_touchCache] at hx
  exact h.patches.2 d x hx

theorem State.VoicesSound.emptyCache {s : State} (h : s.VoicesSound) (c : CacheNo) : (s.emptyCache c).VoicesSound :=
  h.setCache c nofun

theorem State.VoicesSound.giveSlot {s : State} (h : s.VoicesSound) (c : CacheNo) (l : Nat) (x : CacheState) :
    (s.giveSlot c l x none).VoicesSound := (h.setCache c (by simp)).touchCache c

theorem State.VoicesSound.cancelFetch {s : State} (h : s.VoicesSound) (l : Nat) : (s.cancelFetch l).VoicesSound := by
  unfold State.cancelFetch
  split
  · exact (h.linkWork (s.setWaiting_linkWork _)).emptyCache _
  · exact h

theorem State.VoicesSound.displace {s : State} (h : s.VoicesSound) (p : PartNo) (l : Nat) : (s.displace p l).VoicesSound := by
  have h1 : (s.modPart p fun q => { q with wanted := none, lastRecall := .superseded }).VoicesSound := h.modPart p fun _ => rfl
  unfold State.displace
  split
  · exact h
  · split
    · exact h
    · exact h1.ite (h1.cancelFetch _)

theorem State.VoicesSound.want {s : State} (h : s.VoicesSound) (p : PartNo) (l : Nat) : (s.want p l).VoicesSound :=
  h.modPart p fun _ => rfl

theorem State.VoicesSound.retarget {s : State} (h : s.VoicesSound) (p : PartNo) (l : Nat) (j : Job) :
    (s.retarget p l j).VoicesSound := by
  unfold State.retarget
  simp only
  split
  · exact h
  · exact (((h.emptyCache _).giveSlot _ l _).linkWork (State.setWaiting_linkWork _ _)).modPart p fun _ => rfl

theorem State.VoicesSound.recallMiss {s : State} (h : s.VoicesSound) (p : PartNo) (l : Nat) : (s.recallMiss p l).VoicesSound := by
  unfold State.recallMiss
  split
  · exact (h.retarget p l _).answer _ _
  · split
    · exact h.refuse _
    · split
      · exact h.refuse _
      · exact ((((h.giveSlot _ l _).linkWork (State.queueJob_linkWork _ _)).displace p l).want p l).answer _ _

theorem State.VoicesSound.recallPatch {s : State} (h : s.VoicesSound) (p : PartNo) (l : Nat) : (s.recallPatch p l).VoicesSound := by
  unfold State.recallPatch
  split
  · split
    · exact (((h.displace p l).touchCache _).copyInto _ p).answer _ _
    · exact ((h.displace p l).want p l).answer _ _
    · exact h.recallMiss p l
  · exact h.recallMiss p l

theorem State.VoicesSound.storeInto {s : State} (h : s.VoicesSound) (p : PartNo) (l : Nat) (c : CacheNo) (filling : Bool) :
    (s.storeInto p l c filling).VoicesSound := by
  have h1 : (s.snapshotInto p c l).VoicesSound :=
    (h.setCache c (by rintro x ⟨⟩; exact h.patches.1 p)).touchCache c
  have h2 := h1.linkWork (State.unlink_linkWork _ fun x _ => x == c)
  have h3 := (h2.linkWork (State.resolveFetch_linkWork _ l)).ite (c := filling = true) h2
  have h4 := h3.linkWork (State.queueJob_linkWork _ (.store l c p (s.part p).editCount true))
  exact (h4.copyToWanting c l).ite h4

theorem State.VoicesSound.storePatch {s : State} (h : s.VoicesSound) (p : PartNo) (l : Nat) : (s.storePatch p l).VoicesSound := by
  unfold State.storePatch
  split
  · exact h.refuse _
  · split
    · exact h.refuse _
    · split
      · exact (h.storeInto p l _ _).answer _ _
      · split
        · exact (h.storeInto p l _ _).answer _ _
        · exact h.refuse _

theorem State.VoicesSound.nextJob {s : State} (h : s.VoicesSound) : s.nextJob.VoicesSound := h.linkWork s.nextJob_linkWork

theorem State.VoicesSound.endFetch {s : State} (h : s.VoicesSound) (l : Nat) (c : CacheNo) (d : Bool) (why : PatchResult)
    {x : Option Patch} (hx : ∀ y, x = some y → y.inRange) : (s.endFetch l c d why x).VoicesSound := by
  unfold State.endFetch
  split
  · exact h.nextJob
  · split
    · rename_i y
      exact (((h.setCache c (by rintro z ⟨⟩; exact hx y rfl)).touchCache c).copyToWanting c l).nextJob
    · refine State.VoicesSound.nextJob (State.VoicesSound.foldl (fun t p ht => ?_) _ (h.emptyCache c))
      exact (ht.modPart p (f := fun q => { q with wanted := none, lastRecall := why }) fun _ => rfl).aside rfl rfl rfl rfl

theorem State.VoicesSound.unpin {s : State} (h : s.VoicesSound) (c : CacheNo) : (s.unpin c).VoicesSound :=
  h.setCache c (h.patches.2 c)

theorem State.VoicesSound.storeResult {s : State} (h : s.VoicesSound) (l : Nat) (why : PatchResult) :
    (s.storeResult l why).VoicesSound := h.aside rfl rfl rfl rfl

theorem State.VoicesSound.storeDone {s : State} (h : s.VoicesSound) (l : Nat) (c : CacheNo) (p : PartNo) (n : BitVec 16)
    (linked : Bool) : (s.storeDone l c p n linked).VoicesSound := by
  have h1 := (h.unpin c).modPart p (f := fun q => { q with dirty := false, origin := some l }) fun _ => rfl
  exact ((h1.ite (h.unpin c)).storeResult l _).nextJob

theorem State.VoicesSound.storeFailed {s : State} (h : s.VoicesSound) (l : Nat) (c : CacheNo) (why : PatchResult) :
    (s.storeFailed l c why).VoicesSound :=
  ((((h.unpin c).emptyCache c).ite (h.unpin c)).storeResult l why).nextJob

theorem State.VoicesSound.failHead {s : State} (h : s.VoicesSound) (why : PatchResult) : (s.failHead why).VoicesSound := by
  unfold State.failHead
  split
  · exact h
  · exact h.endFetch _ _ _ _ nofun
  · exact h.storeFailed _ _ _

theorem State.VoicesSound.pollFlash {s : State} (h : s.VoicesSound) (n limit : Nat) (again : JobStep) (fail : Option PatchResult)
    {go : State → State} (hgo : ∀ t, State.VoicesSound t → (go t).VoicesSound) :
    (s.pollFlash n limit again fail go).VoicesSound := by
  have h1 := h.linkWork (s.send_linkWork [.statusRead])
  have hset := h1.linkWork (State.setHead_linkWork _ (some again))
  unfold State.pollFlash
  simp only
  split
  · exact (h1.failHead _).ite hset
  · split
    · exact (h1.failHead _).ite (hgo _ h1)
    · exact hgo _ h1

theorem State.programPage_linkWork (s : State) (j : Job) : s.LinkWork (s.programPage j) := by cases j <;> rfl

theorem State.verifyPage_linkWork (s : State) (j : Job) (page : List Byte) : s.LinkWork (s.verifyPage j page) := by
  cases j <;> rfl

theorem State.VoicesSound.linkFrame {s : State} (h : s.VoicesSound) : s.linkFrame.VoicesSound := by
  have h1 := h.linkWork s.beginLink_linkWork
  unfold State.linkFrame
  split
  · split
    · exact h1.pollFlash _ _ _ _ fun t ht => ht.linkWork (t.passReady_linkWork _)
    · exact h1.pollFlash _ _ _ _ fun t ht => ht.linkWork (t.programPage_linkWork _)
    · exact h1.pollFlash _ _ _ _ fun t ht => ht.linkWork (t.verifyPage_linkWork _ _)
    all_goals exact h
  · exact h

/-! ### WRITE_PARAM (R161, R162) -/

theorem State.VoicesSound.writeLive {s : State} (h : s.VoicesSound) (p : PartNo) (i : Fin 25) (v : Val12) :
    (s.writeLive p i v).VoicesSound := h.editLive p (h.patches.1 p) rfl

theorem State.VoicesSound.writeDiscrete {s : State} (h : s.VoicesSound) (p : PartNo) (d : Discrete) (n : Nat) :
    (s.writeDiscrete p d n).VoicesSound := by
  set f : Part → Part := fun q => { q with live := q.live.setDiscrete d n, editCount := q.editCount + 1, dirty := true } with hf
  have hr : (f (s.part p)).live.inRange := (h.patches.1 p).setDiscrete d n
  have hafter : ∀ old, ((s.modPart p f).afterPatch p old).VoicesSound := h.newPatch p hr (.refl _)
  have hsame : (f (s.part p)).live.limit = (s.part p).live.limit → (s.modPart p f).VoicesSound := h.editLive p hr
  have hreduce : ((s.modPart p f).reduce p).VoicesSound := by
    have := hafter ((s.modPart p f).part p).live.voiceMode
    unfold State.afterPatch at this
    rwa [if_pos rfl] at this
  have hreseat : ((s.modPart p f).part p).live.voiceMode ≠ (s.part p).live.voiceMode →
      ((s.modPart p f).reseat p).VoicesSound := fun e => by
    have := hafter (s.part p).live.voiceMode
    unfold State.afterPatch at this
    rwa [if_neg e] at this
  cases d with
  | voiceMode =>
    unfold State.writeDiscrete
    simp only
    split
    · rename_i e
      refine hsame ?_
      have e : ((s.modPart p f).part p).live.voiceMode = (s.part p).live.voiceMode := e
      rw [State.part_modPart, if_pos rfl] at e
      unfold Patch.limit
      rw [e]
      rfl
    · exact hreseat ‹_›
  | voiceLimit | unisonCount => exact hreduce
  | unisonSpread | bendRange | glideMode | keyPriority | monoTrigger => exact hsame rfl

theorem State.VoicesSound.writeField {s : State} (h : s.VoicesSound) (p : PartNo) (f : Field) (value : List Byte) :
    (s.writeField p f value).VoicesSound := by
  unfold State.writeField
  split
  · refine State.VoicesSound.answer ?_ _ _
    exact ((h.writeLive p _ _).armWhere _).ite (h.writeLive p _ _)
  · exact (h.writeDiscrete p _ _).answer _ _
  · split
    · exact (h.editLive p ((h.patches.1 p).setName value) rfl).answer _ _
    · exact h.refuse _
  · exact h.refuse _

end Sys2Proof.Machine
end

