-- ==== Sys2Proof/Proofs/PanelAndResets.lean ====
section
/-! PROOFS. Every step keeps the invariant of the voices and the tune controller: the panel, the refresh engine, the port and
the resets, and then every command. -/

namespace Sys2Proof.Machine

/-! ### The panel (R142 to R158) -/

theorem State.VoicesSound.addChange {s : State} (h : s.VoicesSound) (e : Change) : (s.addChange e).VoicesSound := by
  have h1 : State.VoicesSound { s with panel := { s.panel with changes := noteChangeIn s.panel.changes e } } :=
    h.aside rfl rfl rfl rfl
  refine State.VoicesSound.ite ?_ h1
  exact h1.aside rfl rfl rfl rfl

theorem State.VoicesSound.panelWrite {s : State} (h : s.VoicesSound) (c : ChannelNo) (i : Fin 25) (v : Val12) :
    (s.panelWrite c i v).VoicesSound := by
  have h1 := h.writeLive s.panel.focus i v
  exact ((h1.addChange _).ite h1).armWhere _

theorem State.VoicesSound.setChannel {s : State} (h : s.VoicesSound) (c : ChannelNo) (r : Channel) :
    (s.setChannel c r).VoicesSound := h.aside rfl rfl rfl rfl

theorem State.part_panelBend (s : State) (b : Int) (p : PartNo) :
    (s.panelBend b).part p = if (s.part p).panelBend then { s.part p with bend := b } else s.part p := by
  simp [State.panelBend, State.part]

theorem State.VoicesSound.accept {s : State} (h : s.VoicesSound) (c : ChannelNo) : (s.accept c).VoicesSound := by
  unfold State.accept
  simp only
  split
  · split
    · exact (h.setChannel c _).panelWrite c _ _
    · exact h
  · refine h.patched rfl rfl (fun p => ?_) h.patches.2
    rw [State.part_panelBend]
    split <;> rfl
  · exact h.aside rfl rfl rfl rfl
  · exact h.aside rfl rfl rfl rfl
  · exact h

theorem State.VoicesSound.initialConversion {s : State} (h : s.VoicesSound) (c : ChannelNo) (raw : Val12) :
    (s.initialConversion c raw).VoicesSound := by
  have h1 := h.setChannel c
    { s.channel c with raw := raw, filtered := 16 * raw.toNat, reported := raw, initialised := true }
  unfold State.initialConversion
  simp only
  split
  · exact (h1.setChannel c _).ite h1
  · exact h1.accept c
  · exact h1.accept c
  · exact h1.accept c
  · exact h

theorem State.VoicesSound.convert {s : State} (h : s.VoicesSound) (c : ChannelNo) (raw : Val12) : (s.convert c raw).VoicesSound := by
  have h1 : (s.filterConversion c raw).VoicesSound := ((h.setChannel c _).accept c).ite (h.setChannel c _)
  unfold State.convert
  split
  · exact h
  all_goals exact h1.ite (h.initialConversion c raw)

theorem State.VoicesSound.takeChanges {s : State} (h : s.VoicesSound) (n : Nat) : (s.takeChanges n).VoicesSound := by
  have h1 : State.VoicesSound { s with panel := { s.panel with changes := s.panel.changes.drop n } } := h.aside rfl rfl rfl rfl
  refine State.VoicesSound.ite ?_ h1
  exact h1.aside rfl rfl rfl rfl

/-! ### The refresh engine (R70 to R75) -/

theorem State.VoicesSound.reportWrite {s : State} (h : s.VoicesSound) (m : MonSel) : (s.reportWrite m).VoicesSound := by
  unfold State.reportWrite
  split
  · split
    · exact h.kept (h.toClaimsRight.channelWritten _ _ _)
    · exact (h.aside (t := s.postClamp _) rfl rfl rfl rfl).ite h
  · exact h
  · exact h

theorem State.VoicesSound.writeChannel {s : State} (h : s.VoicesSound) (c : Fin 386) : (s.writeChannel c).VoicesSound := by
  unfold State.writeChannel
  refine State.VoicesSound.reportWrite ?_ _
  exact h.aside rfl rfl rfl rfl

/-- Work that changes voices in what no claim looks at, and leaves tune controller, parts and slots. -/
theorem State.VoicesSound.tinted {s t : State} (h : s.VoicesSound)
    (hv : ∀ v, (t.voice v).state = (s.voice v).state ∧ (t.voice v).asg = (s.voice v).asg ∧ (t.voice v).fails = (s.voice v).fails)
    (ht : t.tune = s.tune) (hp : t.parts = s.parts) (hs : t.patches = s.patches) : t.VoicesSound := by
  have hr : ∀ p v, t.serves p v ↔ s.serves p v := fun p v => by
    unfold State.serves VoiceRec.asgPart
    rw [(hv v).1, (hv v).2.1]
  have hentry : ∀ v, t.entry v = s.entry v := fun v => by unfold State.entry; rw [ht]
  have hpart : ∀ p, t.part p = s.part p := fun p => by unfold State.part; rw [hp]
  have hcache : ∀ c, t.cache c = s.cache c := fun c => by unfold State.cache; rw [hs]
  refine ⟨⟨fun v => ?_, fun x hx => ?_, fun v hc => ?_, fun c hc => ?_, fun v => ?_, ?_, fun p => ?_, fun c x hx => ?_⟩,
    fun p => ?_⟩
  · unfold VoiceRec.assignedRight
    rw [(hv v).1, (hv v).2.1]
    exact h.assigned v
  · rw [(hv _).1]; rw [ht] at hx; exact h.serving x hx
  · rw [(hv v).1]; rw [hentry] at hc; exact h.entered v hc
  · rw [(hv _).1]; rw [ht] at hc; exact h.checking c hc
  · rw [(hv v).2.2]; exact h.fails v
  · unfold State.tuneFit; rw [ht]; exact h.tune
  · rw [hpart]; exact h.patches.1 p
  · rw [hcache] at hx; exact h.patches.2 c x hx
  · rw [State.count_congr (hr p), State.limit_of_live (s := s) (by rw [hpart])]
    exact h.counts p

/-- A round completion gears drifts and changes nothing that a claim looks at (R75). -/
theorem State.VoicesSound.completeRound {s : State} (h : s.VoicesSound) : s.completeRound.VoicesSound := by
  have hv : ∀ v, s.completeRound.voice v = (s.voice v).gear s.settings.gearStep := fun v => by
    simp [State.completeRound, State.voice]
  refine h.tinted (fun v => ?_) (by simp only [State.completeRound]) (by simp only [State.completeRound])
    (by simp only [State.completeRound])
  rw [hv]
  exact ⟨rfl, rfl, rfl⟩

theorem State.VoicesSound.settleRound {s : State} (h : s.VoicesSound) : s.settleRound.VoicesSound := h.completeRound.ite h

/-! ### Settings, the port and the resets (R96, R182 to R193) -/

theorem State.VoicesSound.renominate {s : State} (h : s.VoicesSound) : s.renominate.VoicesSound := by
  unfold State.renominate
  generalize (Vector.ofFn fun v : Fin 16 => (s.calRecord v).renominate _) = cal
  exact h.kept (h.toClaimsRight.kept_of_less rfl (fun _ => id) (fun _ => id) (fun _ => id) rfl (fun _ => rfl) rfl)

theorem State.VoicesSound.putSettings {s : State} (h : s.VoicesSound) (n : Nat) (x : Settings) : (s.putSettings n x).VoicesSound := by
  have h1 : State.VoicesSound { s with settings := x } := h.aside rfl rfl rfl rfl
  exact h1.renominate.ite h1

/-- No voice has an assignment or a claim, every part has the default patch, and no slot holds a patch: what a reset leaves. -/
theorem State.voicesSound_of_reset {s : State} (hv : ∀ v, (s.voice v).asg = none ∧ ¬ (s.voice v).keyed)
    (hx : s.tune.service = none) (hc : s.tune.check = none) (he : ∀ v, (s.entry v).state = .notInPass) (hf : s.failsFit)
    (ht : s.tuneFit) (hp : ∀ p, (s.part p).live = .default) (hs : ∀ c, (s.cache c).contents = none) : s.VoicesSound := by
  refine ⟨⟨fun v => ?_, by simp [hx], fun v hv => ?_, by simp [hc], hf, ht, fun p => hp p ▸ default_inRange, fun c x hx => ?_⟩,
    fun p => ?_⟩
  · obtain ⟨h1, h2⟩ := hv v
    unfold VoiceRec.assignedRight
    rw [h1]
    exact ⟨nofun, fun e => absurd e h2⟩
  · simp [PassEntry.claimed, he v] at hv
  · rw [hs c] at hx
    cases hx
  · have h0 : s.count p = 0 := State.count_eq_zero.mpr fun v hs => (hv v).2 hs.keyed
    omega

theorem State.powerOn_voicesSound (detect : BitVec 8) (l : List Instr) (n : Nat) :
    State.VoicesSound { State.powerOn detect l with freePicks := n } := by
  refine State.voicesSound_of_reset (fun v => ?_) rfl rfl (fun v => ?_) (fun v => ?_) ?_ (fun p => ?_) fun c => ?_
  · have e : State.voice { State.powerOn detect l with freePicks := n } v = .reset := by simp [State.voice, State.powerOn]
    rw [e]
    exact ⟨rfl, by simp [VoiceRec.keyed, VoiceRec.reset]⟩
  · have e : State.entry { State.powerOn detect l with freePicks := n } v = .reset := by
      simp [State.entry, State.powerOn, Tune.reset]
    rw [e]
    rfl
  · have e : State.voice { State.powerOn detect l with freePicks := n } v = .reset := by simp [State.voice, State.powerOn]
    rw [e]
    exact Nat.zero_le _
  · have ht : Tune.reset.plan.pitchHi ≤ 11 ∧ Tune.reset.plan.pitchLo < Tune.reset.plan.pitchHi
        ∧ Tune.reset.plan.cutoffHi ≤ 11 ∧ Tune.reset.plan.cutoffLo < Tune.reset.plan.cutoffHi := by decide
    exact ⟨ht.1, ht.2.1, ht.2.2.1, ht.2.2.2, nofun⟩
  · have e : State.part { State.powerOn detect l with freePicks := n } p = .reset p := by simp [State.part, State.powerOn]
    rw [e]
    rfl
  · have e : State.cache { State.powerOn detect l with freePicks := n } c = .reset c := by
      simp [State.cache, State.powerOn, PatchMgr.reset]
    rw [e]
    rfl

theorem State.voice_softBase (s : State) (v : Voice) : s.softBase.voice v = (s.voice v).soft (s.powered v) := by
  simp [State.voice, State.softBase]

theorem State.part_softBase (s : State) (p : PartNo) : s.softBase.part p = .reset p := by simp [State.part, State.softBase]

theorem State.entry_softBase (s : State) (v : Voice) : s.softBase.entry v = .reset := by
  simp [State.entry, State.softBase, Tune.soft, Tune.reset]

theorem State.cache_softBase (s : State) (c : CacheNo) : s.softBase.cache c = .reset c := by
  simp [State.cache, State.softBase, PatchMgr.soft, PatchMgr.reset]

theorem VoiceRec.soft_frame (r : VoiceRec) (b : Bool) :
    (r.soft b).asg = none ∧ ((r.soft b).state = .offline ∨ (r.soft b).state = .absent) ∧ (r.soft b).fails = r.fails := by
  cases b <;> simp [VoiceRec.soft, VoiceRec.reset]

theorem State.VoicesSound.softBase {s : State} (h : s.VoicesSound) : s.softBase.VoicesSound := by
  obtain ⟨h1, h2, h3, h4, -⟩ := h.tune
  refine State.voicesSound_of_reset (fun v => ?_) rfl rfl (fun v => ?_) (fun v => ?_) ⟨h1, h2, h3, h4, nofun⟩ (fun p => ?_)
    fun c => ?_
  · rw [State.voice_softBase]
    obtain ⟨ha, hs, -⟩ := (s.voice v).soft_frame (s.powered v)
    refine ⟨ha, ?_⟩
    rcases hs with hs | hs <;> simp [VoiceRec.keyed, hs]
  · rw [State.entry_softBase]; rfl
  · rw [State.voice_softBase, ((s.voice v).soft_frame _).2.2]
    exact h.fails v
  · rw [State.part_softBase]; rfl
  · rw [State.cache_softBase]; rfl

/-- Auto online after a soft reset: the voices are taken one by one, each in a state that no claim asks for (R21). -/
theorem State.VoicesSound.softReset {s : State} (h : s.VoicesSound) : s.softReset.VoicesSound := by
  have h1 := h.softBase
  refine State.VoicesSound.ite (h1.kept (State.ClaimsRight.foldl (f := State.enterIdle)
    (ok := fun r => r.state = .offline ∨ r.state = .absent) (fun t v ht hv => ?_) (fun t v w hw => ?_)
    (nodup_allVoices.filter s.powered) h1.toClaimsRight fun v _ => ?_)) h1
  · refine ht.enterIdle' ?_ (ht.unclaimed_of_state ?_ ?_)
    all_goals rcases hv with hv | hv <;> simp [VoiceRec.keyed, hv]
  · unfold State.enterIdle
    rw [State.voice_modVoice, if_neg (Ne.symm hw)]
    rfl
  · rw [State.voice_softBase]
    exact ((s.voice v).soft_frame _).2.1

theorem State.VoicesSound.fetch {s : State} (h : s.VoicesSound) (n : Nat) : (s.fetch n).VoicesSound := by
  have h1 : ∀ out, (s.endTransaction out).VoicesSound := fun out => h.aside rfl rfl rfl rfl
  have h2 : ∀ out, (s.endTransaction out).giveUpAnswer.VoicesSound := fun out => h.aside rfl rfl rfl rfl
  unfold State.fetch
  simp only
  split
  · exact (h2 _).softReset.ite (h2 _)
  · exact h1 _
  · exact h1 _

theorem State.VoicesSound.takeFrame {s : State} (h : s.VoicesSound) (bytes : List Byte) : (s.takeFrame bytes).VoicesSound := by
  rw [State.takeFrame_frame]
  exact h.aside rfl rfl rfl rfl

theorem State.VoicesSound.takeTransaction {s : State} (h : s.VoicesSound) (bytes : List Byte) :
    (s.takeTransaction bytes).VoicesSound := by
  unfold State.takeTransaction
  split
  · exact h.aside rfl rfl rfl rfl
  · exact (h.fetch _).ite (h.takeFrame _)

/-- A host command keeps the invariant where serving its request does (R187). -/
theorem State.VoicesSound.hostCommand {s : State} (h : s.VoicesSound) (c : Instr) {serve : State → State}
    (hs : ∀ t, State.VoicesSound t → (serve t).VoicesSound) : (hostCommand c serve s).VoicesSound := by
  unfold Machine.hostCommand
  refine (hs s h).ite ?_
  split
  · exact h
  · exact (hs _ (h.takeFrame _)).ite (h.takeFrame _)

end Sys2Proof.Machine
end

