-- ==== Sys2Proof/Proofs/EveryStep.lean ====
section
/-! PROOFS. Every command keeps the invariant of the voices and the tune controller, and so does every step. -/

namespace Sys2Proof.Machine

theorem State.VoicesSound.withVoice {s : State} (h : s.VoicesSound) (voice : Byte) {f : Voice → State}
    (hf : ∀ v, (f v).VoicesSound) : (s.withVoice voice f).VoicesSound := by
  unfold State.withVoice
  split
  · exact hf _
  · exact h.refuse _

theorem State.VoicesSound.next {t u : State} (h : u.VoicesSound)
    (e : (Host.Outcome.next u : Host.Outcome State Fault Refusal) = .next t) : t.VoicesSound := by
  cases e
  exact h

theorem State.VoicesSound.plan {s : State} (h : s.VoicesSound) {x : Plan}
    (hx : x.pitchHi ≤ 11 ∧ x.pitchLo < x.pitchHi ∧ x.cutoffHi ≤ 11 ∧ x.cutoffLo < x.cutoffHi) :
    State.VoicesSound { s with tune := { s.tune with plan := x } } := by
  obtain ⟨h1, h2, h3, h4⟩ := hx
  obtain ⟨-, -, -, -, h5⟩ := h.tune
  exact ⟨⟨h.assigned, h.serving, h.entered, h.checking, h.fails, ⟨h1, h2, h3, h4, h5⟩, h.patches⟩, h.counts⟩

/-! ### Commands of the host (R190) -/

section
variable {s t : State} (h : s.VoicesSound)
include h

theorem State.VoicesSound.execPlay {events : List RawEvent} (e : execPlay events s = .next t) : t.VoicesSound := by
  refine State.VoicesSound.next (h.hostCommand _ fun u hu => ?_) e
  exact (hu.takeEvents _).endPlay

theorem State.VoicesSound.execSetZone {zone enabled source lowKey highKey lowVel highVel part transpose : Byte}
    (e : execSetZone zone enabled source lowKey highKey lowVel highVel part transpose s = .next t) : t.VoicesSound := by
  refine State.VoicesSound.next (h.hostCommand _ fun u hu => ?_) e
  split
  · exact (hu.aside (t := u.setZone _ _) rfl rfl rfl rfl).answer _ _
  · exact hu.refuse _

theorem State.VoicesSound.execSetPart {part reserve fineTune panelBend : Byte}
    (e : execSetPart part reserve fineTune panelBend s = .next t) : t.VoicesSound := by
  refine State.VoicesSound.next (h.hostCommand _ fun u hu => ?_) e
  split
  · refine State.VoicesSound.ite ?_ (hu.refuse _)
    exact (hu.modPart _ (f := fun q => { q with
      reserve := reserve.toNat, fineTune := fineTune.toInt, panelBend := _ }) fun _ => rfl).answer _ _
  · exact hu.refuse _

theorem State.VoicesSound.execVoiceOnline {voice : Byte} (e : execVoiceOnline voice s = .next t) : t.VoicesSound := by
  refine State.VoicesSound.next (h.hostCommand _ fun u hu => hu.withVoice voice fun v => ?_) e
  split
  · rename_i hv
    have h1 := hu.toClaimsRight
    exact (hu.kept (h1.enterIdle' (by simp [VoiceRec.keyed, hv]) (h1.unclaimed_of_state (by simp [hv]) (by simp [hv])))).answer _ _
  · exact hu.refuse _

theorem State.VoicesSound.execVoiceOffline {voice : Byte} (e : execVoiceOffline voice s = .next t) : t.VoicesSound := by
  refine State.VoicesSound.next (h.hostCommand _ fun u hu => hu.withVoice voice fun v => ?_) e
  split
  · exact (hu.kept (hu.toClaimsRight.takeOffline ‹_›)).answer _ _
  · exact hu.refuse _

theorem State.VoicesSound.execReleaseQuarantine {voice : Byte} (e : execReleaseQuarantine voice s = .next t) :
    t.VoicesSound := by
  refine State.VoicesSound.next (h.hostCommand _ fun u hu => hu.withVoice voice fun v => ?_) e
  split
  · rename_i hv
    have h1 := hu.toClaimsRight
    exact (hu.kept (h1.moveFree (by simp [VoiceRec.keyed, hv]) (h1.unclaimed_of_state (by simp [hv]) (by simp [hv]))
      (by simp))).answer _ _
  · exact hu.refuse _

theorem State.VoicesSound.execClearFails {voice : Byte} (e : execClearFails voice s = .next t) : t.VoicesSound := by
  refine State.VoicesSound.next (h.hostCommand _ fun u hu => hu.withVoice voice fun v => ?_) e
  exact (hu.kept (hu.toClaimsRight.kept_modVoice (f := fun r => { r with fails := 0 }) (fun _ => rfl) (fun _ => ⟨rfl, rfl⟩)
    (Nat.zero_le _))).answer _ _

theorem State.VoicesSound.execTune {voices : BitVec 16} {dests force : Byte} (e : execTune voices dests force s = .next t) :
    t.VoicesSound := by
  refine State.VoicesSound.next (h.hostCommand _ fun u hu => (hu.refuse _).ite ?_) e
  split
  · exact (hu.refuse _).ite (hu.beginTune _ _ _)
  · exact hu.refuse _

theorem State.VoicesSound.execTuneAbort (e : execTuneAbort s = .next t) : t.VoicesSound :=
  State.VoicesSound.next (h.hostCommand _ fun _ hu =>
    ((hu.kept hu.toClaimsRight.abortPass).answer _ _).ite (hu.refuse _)) e

theorem State.VoicesSound.execSetTunePlan {pitchLo pitchHi cutoffLo cutoffHi : Byte}
    (e : execSetTunePlan pitchLo pitchHi cutoffLo cutoffHi s = .next t) : t.VoicesSound := by
  refine State.VoicesSound.next (h.hostCommand _ fun u hu => (hu.refuse _).ite ?_) e
  split
  · rename_i hx
    obtain ⟨h1, h2, h3, h4⟩ := hx
    exact (hu.plan (x := ⟨pitchLo.toNat, pitchHi.toNat, cutoffLo.toNat, cutoffHi.toNat⟩) ⟨h1, h3, h2, h4⟩).answer _ _
  · exact hu.refuse _

/-- A calibration record written, with drift targets and applied drifts at 0 (R98). -/
theorem State.VoicesSound.writtenCal (v : Voice) (r : CalRecord) :
    ((s.setCalRecord v r).modVoice v fun r => (r.zeroDrift .a).zeroDrift .b).VoicesSound := by
  have h1 : (s.setCalRecord v r).VoicesSound :=
    h.kept (h.toClaimsRight.kept_of_less rfl (fun _ => id) (fun _ => id) (fun _ => id) rfl (fun _ => rfl) rfl)
  refine h1.kept (h1.toClaimsRight.kept_modVoice (fun r => ?_) (fun r => ?_) ?_)
  · rfl
  · exact ⟨rfl, rfl⟩
  · exact h.fails v

theorem State.VoicesSound.execWriteCal {voice : Byte} {record : List Byte} (e : execWriteCal voice record s = .next t) :
    t.VoicesSound := by
  refine State.VoicesSound.next (h.hostCommand _ fun u hu => hu.withVoice voice fun v => (hu.refuse _).ite ?_) e
  exact ((hu.writtenCal v _).answer _ _).ite (hu.refuse _)

theorem State.VoicesSound.execSetMonitor {selector dest : Byte} (e : execSetMonitor selector dest s = .next t) :
    t.VoicesSound := by
  refine State.VoicesSound.next (h.hostCommand _ fun u hu => ?_) e
  split
  · refine State.VoicesSound.answer ?_ _ _
    exact hu.aside rfl rfl rfl rfl
  · exact hu.refuse _

theorem State.VoicesSound.execCardPower {slot power : Byte} (e : execCardPower slot power s = .next t) : t.VoicesSound := by
  refine State.VoicesSound.next (h.hostCommand _ fun u hu => ?_) e
  split
  · split
    · exact (hu.cardOn ‹_›).answer _ _
    · exact hu.refuse _
  · exact (hu.cardOff _).answer _ _
  · exact hu.refuse _

theorem State.VoicesSound.execSetChannel {channel role mode notify : Byte}
    (e : execSetChannel channel role mode notify s = .next t) : t.VoicesSound := by
  refine State.VoicesSound.next (h.hostCommand _ fun u hu => ?_) e
  split
  · exact ((hu.setChannel _ _).answer _ _).ite (hu.refuse _)
  · exact hu.refuse _

theorem State.VoicesSound.execSetFocus {part : Byte} (e : execSetFocus part s = .next t) : t.VoicesSound := by
  refine State.VoicesSound.next (h.hostCommand _ fun u hu => ?_) e
  split
  · refine State.VoicesSound.answer (State.VoicesSound.armWhere ?_ _) _ _
    exact hu.aside rfl rfl rfl rfl
  · exact hu.refuse _

theorem State.VoicesSound.execSetPanel {shift deadband : Byte} (e : execSetPanel shift deadband s = .next t) : t.VoicesSound := by
  refine State.VoicesSound.next (h.hostCommand _ fun u hu => State.VoicesSound.ite (State.VoicesSound.answer ?_ _ _) (hu.refuse _)) e
  exact hu.aside rfl rfl rfl rfl

theorem State.VoicesSound.execReadChanges {maximum : Byte} (e : execReadChanges maximum s = .next t) : t.VoicesSound :=
  State.VoicesSound.next (h.hostCommand _ fun _ hu => ((hu.takeChanges _).answer _ _).ite (hu.refuse _)) e

theorem State.VoicesSound.execRecall {part : Byte} {location : BitVec 16} (e : execRecall part location s = .next t) :
    t.VoicesSound := by
  refine State.VoicesSound.next (h.hostCommand _ fun u hu => ?_) e
  split
  · exact hu.recallPatch _ _
  · exact hu.refuse _

theorem State.VoicesSound.execStore {part : Byte} {location : BitVec 16} (e : execStore part location s = .next t) :
    t.VoicesSound := by
  refine State.VoicesSound.next (h.hostCommand _ fun u hu => ?_) e
  split
  · exact hu.storePatch _ _
  · exact hu.refuse _

theorem State.VoicesSound.execWriteParam {part field : Byte} {value : List Byte}
    (e : execWriteParam part field value s = .next t) : t.VoicesSound := by
  refine State.VoicesSound.next (h.hostCommand _ fun u hu => ?_) e
  split
  · exact hu.writeField _ _ _
  · exact hu.refuse _

/-- A slot's lock set or cleared (R167). -/
theorem State.VoicesSound.setLock (c : CacheNo) (b : Bool) : (s.setCache c { s.cache c with lock := b }).VoicesSound :=
  h.setCache c (h.patches.2 c)

theorem State.VoicesSound.execCacheLock {mode : Byte} {location : BitVec 16} (e : execCacheLock mode location s = .next t) :
    t.VoicesSound := by
  refine State.VoicesSound.next (h.hostCommand _ fun u hu => ?_) e
  split
  · refine State.VoicesSound.ite ?_ (hu.refuse _)
    unfold State.lockLocation
    split
    · exact hu.refuse _
    · exact (hu.answer _ _).ite (((hu.setLock _ true).answer _ _).ite (hu.refuse _))
  · exact hu.refuse _

theorem State.VoicesSound.execCacheUnlock {location : BitVec 16} (e : execCacheUnlock location s = .next t) : t.VoicesSound := by
  refine State.VoicesSound.next (h.hostCommand _ fun u hu => ?_) e
  split
  · split
    · exact (hu.setLock _ false).answer _ _
    · exact hu.answer _ _
  · exact hu.refuse _

theorem State.VoicesSound.setNotices (x : Notices) : State.VoicesSound { s with notices := x } := h.aside rfl rfl rfl rfl

theorem State.VoicesSound.execAckNotices {mode : Byte} {fields : List Byte} (e : execAckNotices mode fields s = .next t) :
    t.VoicesSound := by
  refine State.VoicesSound.next (h.hostCommand _ fun u hu => (hu.refuse _).ite ((hu.refuse _).ite ?_)) e
  split
  · exact hu.refuse _
  · exact ((hu.setNotices _).answer _ _).ite (hu.refuse _)

theorem State.VoicesSound.execSetDevice {number : Byte} {value : BitVec 32} (e : execSetDevice number value s = .next t) :
    t.VoicesSound := by
  refine State.VoicesSound.next (h.hostCommand _ fun u hu => ?_) e
  split
  · exact hu.refuse _
  · exact (hu.refuse _).ite ((hu.putSettings _ _).answer _ _)

theorem State.VoicesSound.execSoftReset (e : execSoftReset s = .next t) : t.VoicesSound := by
  refine State.VoicesSound.next (h.hostCommand _ fun u hu => ?_) e
  exact (hu.answer .ok []).aside rfl rfl rfl rfl

/-! ### Events (1.4) -/

theorem State.VoicesSound.execStealGapEnd {v : Voice} (e : execStealGapEnd v s = .next t) : t.VoicesSound := by
  refine State.VoicesSound.next ?_ e
  split
  · rename_i hv
    exact h.kept (h.toClaimsRight.endGap hv.1 rfl)
  · exact h

theorem State.VoicesSound.execReleaseTailEnd {v : Voice} (e : execReleaseTailEnd v s = .next t) : t.VoicesSound := by
  refine State.VoicesSound.next ?_ e
  split
  · rename_i hv
    exact h.kept (h.toClaimsRight.endTail (.inr (.inl hv.1)))
  · exact h

theorem State.VoicesSound.execGlideEnd {v : Voice} (e : execGlideEnd v s = .next t) : t.VoicesSound := by
  refine State.VoicesSound.next (State.VoicesSound.ite ?_ h) e
  exact h.kept (h.toClaimsRight.kept_modVoice (fun _ => rfl) (fun _ => ⟨rfl, rfl⟩) (h.fails v))

theorem State.VoicesSound.execIntervalTimerExpiry (e : execIntervalTimerExpiry s = .next t) : t.VoicesSound := by
  refine State.VoicesSound.next ?_ e
  refine h.patched rfl rfl (fun p => ?_) h.patches.2
  simp [State.part, Part.snapshot]

theorem State.VoicesSound.execChannelSlotExpiry (e : execChannelSlotExpiry s = .next t) : t.VoicesSound := by
  refine State.VoicesSound.next ?_ e
  exact (h.settleRound.writeChannel _).aside rfl rfl rfl rfl

theorem State.VoicesSound.execDetectEdge {slot : CardNo} {line : DetectLine} {closed : Bool}
    (e : execDetectEdge slot line closed s = .next t) : t.VoicesSound := by
  have h1 := h.modCard slot fun c => c.edge line closed
  exact State.VoicesSound.next (h.ite ((h1.removeCard slot).ite h1)) e

theorem State.VoicesSound.execSettleEnd (e : execSettleEnd s = .next t) : t.VoicesSound := by
  refine State.VoicesSound.next ?_ e
  split
  · exact h
  · split
    · exact (h.kept (h.toClaimsRight.setUnit _)).ite h
    all_goals exact h

theorem State.VoicesSound.endMeasurement (m : Measurement) (r : Reading) : (s.endMeasurement m r).VoicesSound :=
  h.kept (h.toClaimsRight.endMeasurement m r)

theorem State.VoicesSound.execTuneLineEdge {elapsed : Nat} (e : execTuneLineEdge elapsed s = .next t) : t.VoicesSound := by
  have h1 := h.kept (h.toClaimsRight.passTicks elapsed)
  exact State.VoicesSound.next ((h1.kept h1.toClaimsRight.lineEdge).ite h1) e

theorem State.VoicesSound.execMeasurementComplete {m : Nat} (e : execMeasurementComplete m s = .next t) : t.VoicesSound := by
  refine State.VoicesSound.next ?_ e
  split
  · exact h
  · split
    · exact (h.endMeasurement _ _).ite h
    all_goals exact h

theorem State.VoicesSound.execNoSignal (e : execNoSignal s = .next t) : t.VoicesSound := by
  refine State.VoicesSound.next ?_ e
  split
  · exact h
  · split
    · exact h.endMeasurement _ _
    all_goals exact h

theorem State.VoicesSound.execTooSlow (e : execTooSlow s = .next t) : t.VoicesSound := by
  refine State.VoicesSound.next ?_ e
  split
  · exact h
  · split
    · exact h.endMeasurement _ _
    all_goals exact h

theorem State.VoicesSound.execScanSlotExpiry {adc : Val12} (e : execScanSlotExpiry adc s = .next t) : t.VoicesSound := by
  refine State.VoicesSound.next ?_ e
  exact (h.convert _ adc).aside rfl rfl rfl rfl

theorem State.VoicesSound.setFlash (x : Byte) : (s.setFlash x).VoicesSound := h.aside rfl rfl rfl rfl

theorem State.VoicesSound.execFlashTimeout (e : execFlashTimeout s = .next t) : t.VoicesSound := by
  refine State.VoicesSound.next ?_ e
  split
  · exact (h.setFlash _).linkFrame.ite h
  · exact h

theorem State.VoicesSound.execFetchReadComplete {bytes : List Byte} (e : execFetchReadComplete bytes s = .next t) :
    t.VoicesSound := by
  unfold Machine.execFetchReadComplete at e
  split at e
  · split at e
    · refine State.VoicesSound.next ((h.linkWork s.beginLink_linkWork).endFetch _ _ _ _ fun y hy => ?_) e
      rw [Option.ite_none_right_eq_some] at hy
      rw [← Option.some.inj hy.2]
      exact patchOf_inRange bytes
    · cases e
  · exact h.next e

theorem State.VoicesSound.execVerifyComplete {bytes : List Byte} (e : execVerifyComplete bytes s = .next t) :
    t.VoicesSound := by
  have h1 := h.linkWork s.beginLink_linkWork
  unfold Machine.execVerifyComplete at e
  split at e
  · split at e
    · exact State.VoicesSound.next ((h1.storeDone _ _ _ _ _).ite (h1.storeFailed _ _ _)) e
    · cases e
  · exact h.next e

theorem State.VoicesSound.execChipSelectFall (e : execChipSelectFall s = .next t) : t.VoicesSound := by
  refine State.VoicesSound.next ?_ e
  exact h.aside rfl rfl rfl rfl

/-- Every command keeps the invariant. -/
theorem State.VoicesSound.exec {c : Instr} (e : exec c s = .next t) : t.VoicesSound := by
  cases c with
  | powerOnReset detect => exact State.VoicesSound.next (State.powerOn_voicesSound detect s.pending s.freePicks) e
  | requestFrame bytes => exact State.VoicesSound.next (h.takeTransaction bytes) e
  | emptyTransaction => exact State.VoicesSound.next (h.takeTransaction []) e
  | responseFetch clocked => exact State.VoicesSound.next (h.takeTransaction _) e
  | play events => exact h.execPlay e
  | keyOn channel key velocity => exact State.VoicesSound.next (h.playEvent _) e
  | keyOff channel key => exact State.VoicesSound.next (h.playEvent _) e
  | sustain part position => exact State.VoicesSound.next (h.playEvent _) e
  | bend part value => exact State.VoicesSound.next (h.playEvent _) e
  | allOff part => exact State.VoicesSound.next (h.playEvent _) e
  | allocatorFrameExpiry =>
    exact State.VoicesSound.next (State.VoicesSound.foldl (fun _ v h => h.kept (h.toClaimsRight.frameVoice v)) _ h) e
  | stealGapEnd v => exact h.execStealGapEnd e
  | releaseTailEnd v => exact h.execReleaseTailEnd e
  | glideEnd v => exact h.execGlideEnd e
  | intervalTimerExpiry => exact h.execIntervalTimerExpiry e
  | setZone => exact h.execSetZone e
  | readZone zone =>
    refine State.VoicesSound.next (h.hostCommand _ fun u hu => ?_) e
    split
    · exact hu.answer _ _
    · exact hu.refuse _
  | setPart => exact h.execSetPart e
  | readPart part =>
    refine State.VoicesSound.next (h.hostCommand _ fun u hu => ?_) e
    split
    · exact hu.answer _ _
    · exact hu.refuse _
  | readVoice voice => exact State.VoicesSound.next (h.hostCommand _ fun u hu => hu.withVoice voice fun v => hu.answer _ _) e
  | voiceOnline voice => exact h.execVoiceOnline e
  | voiceOffline voice => exact h.execVoiceOffline e
  | releaseQuarantine voice => exact h.execReleaseQuarantine e
  | clearFails voice => exact h.execClearFails e
  | tune => exact h.execTune e
  | tuneAbort => exact h.execTuneAbort e
  | readTune => exact State.VoicesSound.next (h.hostCommand _ fun u hu => hu.answer _ _) e
  | setTunePlan => exact h.execSetTunePlan e
  | readCal voice => exact State.VoicesSound.next (h.hostCommand _ fun u hu => hu.withVoice voice fun v => hu.answer _ _) e
  | writeCal => exact h.execWriteCal e
  | setMonitor => exact h.execSetMonitor e
  | readMonitor => exact State.VoicesSound.next (h.hostCommand _ fun u hu => hu.answer _ _) e
  | cardPower => exact h.execCardPower e
  | readCards => exact State.VoicesSound.next (h.hostCommand _ fun u hu => hu.answer _ _) e
  | setChannel => exact h.execSetChannel e
  | readChannel channel =>
    refine State.VoicesSound.next (h.hostCommand _ fun u hu => ?_) e
    split
    · exact hu.answer _ _
    · exact hu.refuse _
  | setFocus => exact h.execSetFocus e
  | setPanel => exact h.execSetPanel e
  | readChanges => exact h.execReadChanges e
  | recallPart => exact h.execRecall e
  | store => exact h.execStore e
  | writeParam => exact h.execWriteParam e
  | readLive part =>
    refine State.VoicesSound.next (h.hostCommand _ fun u hu => ?_) e
    split
    · exact hu.answer _ _
    · exact hu.refuse _
  | cacheLock => exact h.execCacheLock e
  | cacheUnlock => exact h.execCacheUnlock e
  | readCache => exact State.VoicesSound.next (h.hostCommand _ fun u hu => hu.answer _ _) e
  | readNotices => exact State.VoicesSound.next (h.hostCommand _ fun u hu => (hu.setNotices _).answer _ _) e
  | ackNotices => exact h.execAckNotices e
  | ackNoticesSetEnables kinds => exact State.VoicesSound.next (h.hostCommand _ fun u hu => (hu.setNotices _).answer _ _) e
  | readDevice => exact State.VoicesSound.next (h.hostCommand _ fun u hu => hu.answer _ _) e
  | setDevice => exact h.execSetDevice e
  | softReset => exact h.execSoftReset e
  | channelSlotExpiry => exact h.execChannelSlotExpiry e
  | roundCompletion => exact State.VoicesSound.next h.settleRound e
  | detectEdge => exact h.execDetectEdge e
  | slotFrameExpiry ready =>
    exact State.VoicesSound.next (State.VoicesSound.foldl (fun _ k h => State.VoicesSound.slotFrame h ready k) _ h) e
  | debounceTaken slot => exact State.VoicesSound.next ((h.takeDebounce slot).ite h) e
  | readyTimeout slot => exact State.VoicesSound.next ((h.readReady slot false).ite h) e
  | tuneFrameExpiry =>
    have h1 := h.kept h.toClaimsRight.settleFrame
    exact State.VoicesSound.next (h1.kept h1.toClaimsRight.seekCheck) e
  | settleEnd => exact h.execSettleEnd e
  | tuneLineEdge => exact h.execTuneLineEdge e
  | measurementComplete => exact h.execMeasurementComplete e
  | noSignal => exact h.execNoSignal e
  | tooSlow => exact h.execTooSlow e
  | scanSlotExpiry => exact h.execScanSlotExpiry e
  | storelinkFrameExpiry status => exact State.VoicesSound.next (h.setFlash status).linkFrame e
  | flashTimeout => exact h.execFlashTimeout e
  | fetchReadComplete => exact h.execFetchReadComplete e
  | verifyComplete => exact h.execVerifyComplete e
  | chipSelectFall => exact h.execChipSelectFall e

end

/-- A step keeps the invariant: a command with the queue's rest, or a tick (R23, R24, R106, R126). -/
theorem State.VoicesSound.step {s t : State} (h : s.VoicesSound) (e : step s = .next t) : t.VoicesSound := by
  unfold Machine.step at e
  split at e
  · exact State.VoicesSound.next (h.kept (h.toClaimsRight.passTicks 1)) e
  · rename_i c cs _
    have h1 : (s.withPending cs).VoicesSound := h.aside rfl rfl rfl rfl
    exact h1.exec e

/-- Settles O58: each command keeps the invariant, by the operations it is made of. -/
theorem everyStepKeepsVoices : Obligations.EveryStepKeepsVoices := by
  intro s t hs e
  exact t.voicesSound_iff.mp ((s.voicesSound_iff.mpr hs).step e)

end Sys2Proof.Machine
end

