-- ==== Sys2Proof/Proofs/VoiceCommands.lean ====
section
/-! PROOFS. The commands that name one voice (R49, R50), and the voices that leave a pass (R109, R118). -/

namespace Sys2Proof.Machine

/-! ### Operands -/

theorem voice?_of_eq {b : Byte} {v : Voice} (h : b.toNat = v.val) : voice? b = some v := index?_eq_some.mpr h

theorem voice?_of_gt {b : Byte} (h : 15 < b.toNat) : voice? b = none := index?_eq_none.mpr h

theorem State.withVoice_of_eq (s : State) {b : Byte} {v : Voice} (h : b.toNat = v.val) (f : Voice → State) :
    s.withVoice b f = f v := by
  unfold State.withVoice
  rw [voice?_of_eq h]

theorem State.withVoice_of_gt (s : State) {b : Byte} (h : 15 < b.toNat) (f : Voice → State) :
    s.withVoice b f = s.onlyAnswered .badValue [] := by
  unfold State.withVoice
  rw [voice?_of_gt h]
  rfl

theorem State.answer_port {s t : State} (h : t.port = s.port) (x : Status) (b : List Byte) :
    (t.answer x b).port = s.answered x b := by
  unfold State.answer State.answered
  rw [h]

/-! ### Voices that leave a pass (R109, R118) -/

theorem State.entry_beginService_of_ne {s : State} {v w : Voice} (hw : w ≠ v) : (s.beginService v).entry w = s.entry w := by
  have he : ∀ e : PassEntry, (s.setEntry v e).entry w = s.entry w := fun e => by
    rw [State.entry_setEntry, if_neg (Ne.symm hw)]
  unfold State.beginService
  simp only
  split
  · rw [State.entry_beginDest, if_neg (Ne.symm hw), he]
  · exact he _

/-- The choice of the pass's next voice leaves the entries of all that do not wait (R110). -/
theorem State.entry_settlePass {s : State} {v : Voice} (h : (s.entry v).state ≠ .waiting) : s.settlePass.entry v = s.entry v := by
  unfold State.settlePass
  split
  · split
    · rename_i w hw
      exact State.entry_beginService_of_ne fun e => h (e ▸ (State.firstEntry_eq_some.mp hw).1)
    · split <;> rfl
  · rfl

/-- A PENDING voice leaves its pass as the statements write it (R109, R118). -/
theorem State.leavePass_leavesPass {s : State} {v : Voice} (h : (s.entry v).state = .pending) :
    s.leavesPass (s.leavePass v) v := by
  set l := s.setEntry v { s.entry v with state := .left, reason := .offline } with hl
  have he : s.leavePass v = l.settlePass := by unfold State.leavePass; rw [if_pos h]; rfl
  have hself : (l.entry v).state = .left := by rw [hl, State.entry_setEntry, if_pos rfl]
  have hother : ∀ u, u ≠ v → l.entry u = s.entry u := fun u hu => by rw [hl, State.entry_setEntry, if_neg (Ne.symm hu)]
  have hnot : ∀ x : EntryState, x ≠ .left → (∀ u, u ≠ v → (s.entry u).state ≠ x) → ∀ u, (l.entry u).state ≠ x := by
    intro x hx hn u
    by_cases e : u = v
    · rw [e, hself]
      exact hx.symm
    · rw [hother u e]
      exact hn u e
  rw [he]
  refine ⟨State.entry_settlePass (by simp [hself]), fun hb => ?_, fun _ _ hw hp => ?_, fun hr hs hd => ?_⟩
  · rw [State.settlePass_of_busy (s := l) hb]
    exact ⟨rfl, rfl⟩
  · obtain ⟨u, hu, hp⟩ := hp
    rw [State.settlePass_of_pending (s := l) (hnot .waiting (by simp) hw) ⟨u, by rw [hother u hu]; exact hp⟩]
    exact ⟨rfl, rfl⟩
  · rw [State.settlePass_of_done (s := l) hr hs (hnot .waiting (by simp) fun u hu e => hd u hu (.inr (.inl e)))
      (hnot .pending (by simp) fun u hu e => hd u hu (.inl e))]
    exact ⟨rfl, rfl⟩

/-- Leaving a pass is a matter of the tune controller and the notices alone. -/
theorem State.leavesPass_congr {s t u : State} {v : Voice} (h : s.leavesPass t v) (ht : u.tune = t.tune)
    (hn : u.notices = t.notices) : s.leavesPass u v := by
  unfold State.leavesPass State.entry at h ⊢
  rw [ht, hn]
  exact h

theorem State.voice_enterIdle (s : State) (v w : Voice) :
    (s.enterIdle v).voice w =
      if v = w then { s.voice w with state := .idle, lastFree := s.stamp + 1, idle := 0 } else s.voice w :=
  State.voice_modVoice s.bump v w _

/-! ### VOICE_ONLINE and VOICE_OFFLINE (R49, R50) -/

/-- Settles O28: the command is the voice's entry into IDLE. -/
theorem voiceOnlineFromOffline : Obligations.VoiceOnlineFromOffline := by
  intro voice s hi
  have hexec : exec (.voiceOnline voice) s = .next (s.withVoice voice fun v =>
      if (s.voice v).state = .offline then (s.enterIdle v).answer .ok [] else s.refuse .wrongState) :=
    congrArg Host.Outcome.next (hostCommand_of_inHand hi _)
  refine ⟨fun v hv ho => ?_, fun v hv ho => ?_, fun hv => ?_⟩
  · refine ⟨_, hexec, ?_⟩
    rw [s.withVoice_of_eq hv, if_pos ho]
    refine ⟨rfl, ?_, fun w hw => ?_⟩
    · rw [State.voice_answer, State.voice_enterIdle, if_pos rfl]
    · rw [State.voice_answer, State.voice_enterIdle, if_neg (Ne.symm hw)]
  · rw [hexec, s.withVoice_of_eq hv, if_neg ho]
    rfl
  · rw [hexec, s.withVoice_of_gt hv]

theorem State.tailOf_of_asg {s : State} {v : Voice} {a : Assignment} (h : (s.voice v).asg = some a) :
    s.tailOf v = ((s.part a.part).live.params[(6 : Fin 25)]).toNat / 2 := by
  unfold State.tailOf VoiceRec.asgPart
  rw [h]
  rfl

theorem State.markOffline_eq (s : State) (v : Voice) :
    s.markOffline v = (s.modVoice v fun r => { r with tunePending := false, offlinePending := true }).leavePass v := rfl

theorem State.tailOf_markOffline (s : State) (v : Voice) : (s.markOffline v).tailOf v = s.tailOf v := by
  unfold State.tailOf
  rw [State.voice_markOffline, if_pos rfl, State.markOffline_eq]
  simp only [(State.leavePass_passWork _ v).part]
  rfl

/-- What the release of a voice marked for OFFLINE leaves of the other voices, the parts and the tune controller (R50). -/
theorem State.offlineReleased_frame (s : State) (v : Voice) :
    ((s.markOffline v).releaseClear v).parts = s.parts ∧ ((s.markOffline v).releaseClear v).stamp = s.stamp
      ∧ (∀ w, w ≠ v → ((s.markOffline v).releaseClear v).voice w = s.voice w)
      ∧ ((s.markOffline v).releaseClear v).tune = (s.markOffline v).tune
      ∧ ((s.markOffline v).releaseClear v).notices = (s.markOffline v).notices
      ∧ ((s.markOffline v).releaseClear v).port = s.port := by
  have hw : ∀ t : State, t.PassWork (t.leavePass v) := fun t => State.leavePass_passWork t v
  have hmark : (s.markOffline v).voice v = { s.voice v with tunePending := false, offlinePending := true } := by
    rw [State.voice_markOffline, if_pos rfl]
  have hpart : (s.markOffline v).parts = s.parts := (hw _).parts
  have hstamp : (s.markOffline v).stamp = s.stamp := (hw _).stamp
  have hport : (s.markOffline v).port = s.port := (hw _).port
  have hrel := State.releaseClear_of_not_tunePending (s := s.markOffline v) (v := v) (by rw [hmark])
  refine ⟨?_, ?_, fun w hne => ?_, ?_, ?_, ?_⟩
  · rw [(State.releaseClear_voiceWork _ v).parts, hpart]
  · rw [State.releaseClear_stamp, hmark, hstamp]
    simp [VoiceRec.unmarkedB]
  · rw [State.voice_releaseClear, if_neg (Ne.symm hne), State.voice_markOffline, if_neg (Ne.symm hne)]
  · rw [hrel]
  · rw [hrel]
  · rw [(State.releaseClear_voiceWork _ v).port, hport]

/-- The voice itself after that release (R34, R50). -/
theorem State.voice_offlineReleased (s : State) (v : Voice) :
    ((s.markOffline v).releaseClear v).voice v =
      (({ s.voice v with tunePending := false, offlinePending := true } : VoiceRec).setSustained false).released (s.tailOf v)
        (s.stamp + 1) := by
  have hstamp : (s.markOffline v).stamp = s.stamp := (State.leavePass_passWork _ v).stamp
  rw [State.voice_releaseClear, if_pos rfl, State.tailOf_markOffline, State.voice_markOffline, if_pos rfl, hstamp]

theorem State.takeOffline_of_counted {s : State} {v : Voice} (h : (s.voice v).state = .sounding ∨ (s.voice v).state = .stealGap) :
    s.takeOffline v = some ((s.markOffline v).releaseClear v) := by
  unfold State.takeOffline
  rcases h with h | h <;> rw [h]

theorem State.takeOffline_of_releasing {s : State} {v : Voice} (h : (s.voice v).state = .releasing) :
    s.takeOffline v = some (s.markOffline v) := by
  unfold State.takeOffline
  rw [h]

theorem State.takeOffline_of_retuning {s : State} {v : Voice} (h : (s.voice v).state = .retuning) :
    s.takeOffline v = some ((s.abandonCheck v).modVoice v fun r => { r with state := .offline }) := by
  unfold State.takeOffline
  rw [h]

theorem State.takeOffline_of_refused {s : State} {v : Voice}
    (h : (s.voice v).state = .absent ∨ (s.voice v).state = .calibrating ∨ (s.voice v).state = .quarantined) :
    s.takeOffline v = none := by
  unfold State.takeOffline
  rcases h with h | h | h <;> rw [h]

theorem State.markOffline_leavesPass {s : State} {v : Voice} (h : (s.entry v).state = .pending) :
    s.leavesPass (s.markOffline v) v :=
  State.leavePass_leavesPass (s := s.modVoice v fun r => { r with tunePending := false, offlinePending := true }) h

/-- Settles O29: VOICE_OFFLINE by the voice's state. -/
theorem voiceOfflineByState : Obligations.VoiceOfflineByState := by
  intro voice s hi
  have hexec : exec (.voiceOffline voice) s = .next (s.withVoice voice fun v =>
      match s.takeOffline v with
      | some u => u.answer .ok []
      | none => s.refuse .wrongState) := congrArg Host.Outcome.next (hostCommand_of_inHand hi _)
  refine ⟨fun hv => by rw [hexec, s.withVoice_of_gt hv], fun v hv => ?_⟩
  rw [s.withVoice_of_eq hv] at hexec
  have some_of : ∀ u, s.takeOffline v = some u → exec (.voiceOffline voice) s = .next (u.answer .ok []) := fun u hu => by
    rw [hexec, hu]
  refine ⟨fun h => ?_, fun h => ?_, fun h => ?_, fun h => ?_, fun h => ?_, fun h ht he => ?_, fun h a ha hp => ?_,
    fun h a ha hp => ?_⟩
  · rw [hexec, State.takeOffline_of_refused h]
    rfl
  · exact some_of s (by unfold State.takeOffline; rw [h])
  · exact some_of _ (by unfold State.takeOffline; rw [h]; rfl)
  · have hw := s.abandonCheck_passWork v
    refine ⟨_, some_of _ (State.takeOffline_of_retuning h), ?_, ?_, ?_, fun c hc hcv => ?_⟩
    · rw [State.voice_answer, State.voice_modVoice, if_pos rfl, hw.voice]
    · exact State.answer_port hw.port .ok []
    · exact State.abandons_congr (s.abandonCheck_abandons v) rfl rfl
    · exact ((s.abandonCheck_abandons v).1 c hc hcv).1
  · refine ⟨_, some_of _ (State.takeOffline_of_releasing h), ?_, ?_⟩
    · rw [State.voice_answer, State.voice_markOffline, if_pos rfl]
    · exact State.answer_port (State.leavePass_passWork _ v).port .ok []
  · obtain ⟨-, -, -, htune, hnotices, hport⟩ := s.offlineReleased_frame v
    by_cases hr : (s.voice v).state = .releasing
    · refine ⟨_, some_of _ (State.takeOffline_of_releasing hr), ?_, ?_⟩
      · exact State.answer_port (State.leavePass_passWork _ v).port .ok []
      · exact State.leavesPass_congr (State.markOffline_leavesPass he) rfl rfl
    · refine ⟨_, some_of _ (State.takeOffline_of_counted (by tauto)), ?_, ?_⟩
      · exact State.answer_port hport .ok []
      · exact State.leavesPass_congr (State.markOffline_leavesPass he) htune hnotices
  · obtain ⟨hparts, -, hother, -, -, hport⟩ := s.offlineReleased_frame v
    have htail := State.tailOf_of_asg ha
    have hrec := s.voice_offlineReleased v
    rw [VoiceRec.released, if_neg (by omega), htail] at hrec
    refine ⟨_, some_of _ (State.takeOffline_of_counted h), ?_⟩
    simp only [State.voice_answer, hrec]
    refine ⟨trivial, rfl, rfl, trivial, ?_, ?_, fun p => ?_, fun w hw => hother w hw⟩
    · simp [VoiceRec.setSustained, ha]
    · exact State.answer_port hport .ok []
    · unfold State.part
      exact congrArg (fun x : Vector Part 4 => x[p]) hparts
  · obtain ⟨hparts, hstamp, hother, -, -, hport⟩ := s.offlineReleased_frame v
    have htail := State.tailOf_of_asg ha
    have hrec := s.voice_offlineReleased v
    rw [VoiceRec.released, if_pos (by omega), VoiceRec.tailEnded_setSustained] at hrec
    refine ⟨_, some_of _ (State.takeOffline_of_counted h), ?_⟩
    simp only [State.voice_answer, State.answer_parts, State.answer_stamp]
    exact ⟨hrec, State.answer_port hport .ok [], hparts, hstamp, hother⟩

end Sys2Proof.Machine
end

