-- ==== Sys2Proof/Proofs/CheckStarts.lean ====
section
/-! PROOFS. The start of a background check (R127 to R129). -/

namespace Sys2Proof.Machine

/-- What stands before the best place of a list is worse, so of equals the best is the first. -/
theorem IsBest.first {α : Type} {better lt : α → α → Prop} {l : List α} {v w : α} (h : IsBest better l v)
    (hl : l.Pairwise lt) (hw : w ∈ l) (he : ¬ better v w) : w = v ∨ lt v w := by
  obtain ⟨a, b, rfl, ha, -⟩ := h
  rcases List.mem_append.mp hw with hw | hw
  · exact absurd (ha w hw) he
  · rcases List.mem_cons.mp hw with rfl | hw
    · exact .inl rfl
    · exact .inr ((List.pairwise_cons.mp (List.pairwise_append.mp hl).2.1).1 w hw)

theorem clampInt_eq {lo hi : Int} (h : lo ≤ hi) (x : Int) : clampInt lo hi x = max lo (min hi x) := by
  unfold clampInt
  split
  · omega
  · split <;> omega

/-- A code is the sum clamped to 0..65535 (1.6). -/
theorem toNat_toCode (x : Int) : ((toCode x).toNat : Int) = max 0 (min 65535 x) := by
  unfold toCode
  rw [BitVec.toNat_ofNat, clampInt_eq (by decide)]
  omega

theorem CalStatus.checkable_iff (x : CalStatus) : x.checkable = true ↔ x = .calibrated ∨ x = .part := by
  cases x <;> simp [CalStatus.checkable]

/-- The check of a voice takes its next destination where that is calibrated, and else the other (R127). -/
theorem State.checkDest_eq_some {s : State} {v : Voice} {d : Osc} :
    s.checkDest v = some d ↔ (s.cal v d.tuned).status.checkable = true
      ∧ ((s.cal v (s.voice v).nextCheck.tuned).status.checkable = true → d = (s.voice v).nextCheck) := by
  unfold State.checkDest
  simp only
  split
  · rename_i h
    simp only [Option.some.injEq, h, forall_const]
    exact ⟨fun e => ⟨e ▸ h, e.symm⟩, fun e => e.2.symm⟩
  · rename_i h
    have hd : ∀ d : Osc, (s.cal v d.tuned).status.checkable = true → d = (s.voice v).nextCheck.other := by
      intro d hd
      cases hn : (s.voice v).nextCheck <;> cases d <;> simp_all [Osc.other]
    split
    · rename_i h'
      simp only [Option.some.injEq, h, Bool.false_eq_true, false_implies, and_true]
      exact ⟨fun e => e ▸ h', fun e => (hd d e).symm⟩
    · rename_i h'
      simp only [reduceCtorEq, false_iff, not_and]
      exact fun e => absurd (hd d e ▸ e) h'

theorem State.checkDest_isSome {s : State} {v : Voice} :
    (s.checkDest v).isSome = true ↔ (s.cal v .a).status.checkable = true ∨ (s.cal v .b).status.checkable = true := by
  rw [Option.isSome_iff_exists]
  constructor
  · rintro ⟨d, hd⟩
    have := (State.checkDest_eq_some.mp hd).1
    cases d
    · exact .inl this
    · exact .inr this
  · intro h
    unfold State.checkDest
    simp only
    by_cases hd : (s.cal v (s.voice v).nextCheck.tuned).status.checkable = true
    · exact ⟨_, if_pos hd⟩
    · rw [if_neg hd]
      refine ⟨_, if_pos ?_⟩
      cases hn : (s.voice v).nextCheck <;> simp_all [Osc.other, Osc.tuned]

/-- With no work in hand the search takes the eligible voice checked longest ago, if there is one (R128). -/
theorem State.seekCheck_eq {s : State} (hu : s.tune.unit = none) (hc : s.tune.check = none)
    (hw : s.tune.requestWaiting = false) :
    s.seekCheck = match oldestBy (fun v => (s.voice v).lastCheckStamp) (allVoices.filter s.eligible) with
      | some v => match s.checkDest v with
        | some d => s.startCheck v d
        | none => s
      | none => s := by
  unfold State.seekCheck
  rw [hu, hc, hw]
  rfl

/-- A check that starts (R45, R99, R129). -/
theorem State.startCheck_spec (s : State) (v : Voice) (d : Osc) :
    ∃ c m, (s.startCheck v d).tune.check = some c ∧ c.voice = v ∧ c.dest = d ∧ c.bp = s.settings.checkBreakpoint
      ∧ c.code = toCode ((tableAt (s.cal v d.tuned).codes c.bp 0).toNat + ((s.voice v).drift d).target)
      ∧ s.measures (s.startCheck v d) m ∧ m.requester = .check ∧ m.voice = v ∧ m.dest = d.tuned ∧ m.bp = c.bp
      ∧ m.code = c.code ∧ m.tg = c.tg := by
  set code := toCode ((tableAt (s.cal v d.tuned).codes s.settings.checkBreakpoint 0).toNat + ((s.voice v).drift d).target)
  obtain ⟨m, hm, h1, h2, h3, h4, h5, h6⟩ := State.startMeasurement_measures
    { s with
      voices := (s.modVoice v fun r => { r with state := .retuning }).voices
      tune := { s.tune with check := some ⟨v, d, s.settings.checkBreakpoint, code,
        targetCount s.settings.tRef s.settings.windowShift s.settings.checkBreakpoint⟩ } }
    .check v d.tuned s.settings.checkBreakpoint code
  exact ⟨⟨v, d, s.settings.checkBreakpoint, code,
    targetCount s.settings.tRef s.settings.windowShift s.settings.checkBreakpoint⟩, m, rfl, rfl, rfl, rfl, rfl, hm, h1, h2, h3,
    h4, h5, h6⟩

theorem State.voice_startCheck (s : State) (v w : Voice) (d : Osc) :
    (s.startCheck v d).voice w = if v = w then { s.voice w with state := .retuning } else s.voice w :=
  State.voice_modVoice s v w fun r => { r with state := .retuning }

/-- Settles O37: the search is a scan for the oldest last-check stamp in ascending voice number. -/
theorem checkBeginsOnTheVoiceCheckedLongestAgo : Obligations.CheckBeginsOnTheVoiceCheckedLongestAgo := by
  intro s hu hc hw tuned ready
  have hexec : exec .tuneFrameExpiry s = .next s.seekCheck := by
    have e : s.settleFrame = s := by unfold State.settleFrame; rw [hu]
    change Host.Outcome.next s.settleFrame.seekCheck = _
    rw [e]
  have htuned : ∀ v d, tuned v d ↔ (s.cal v (Osc.tuned d)).status.checkable = true := fun v d =>
    (CalStatus.checkable_iff _).symm
  have hready : ∀ v, ready v ↔ s.eligible v = true := by
    intro v
    have ha := htuned v .a
    have hb := htuned v .b
    unfold State.eligible
    simp only [Bool.and_eq_true, Bool.not_eq_true', beq_iff_eq, decide_eq_true_eq, State.checkDest_isSome]
    simp only [ready, ha, hb, Osc.tuned]
    tauto
  have hlist : ∀ v, v ∈ allVoices.filter s.eligible ↔ ready v := fun v => by
    rw [List.mem_filter, hready]
    exact ⟨fun h => h.2, fun h => ⟨mem_allVoices v, h⟩⟩
  refine ⟨fun hn => ?_, fun ⟨w, hw'⟩ hclose => ?_⟩
  · have hnil : oldestBy (fun v => (s.voice v).lastCheckStamp) (allVoices.filter s.eligible) = none :=
      oldestBy_eq_none.mpr (List.eq_nil_iff_forall_not_mem.mpr fun v hv => hn v ((hlist v).mp hv))
    rw [hexec, State.seekCheck_eq hu hc hw, hnil]
  · obtain ⟨v, hv⟩ : ∃ v, oldestBy (fun v => (s.voice v).lastCheckStamp) (allVoices.filter s.eligible) = some v := by
      rw [← Option.ne_none_iff_exists']
      exact fun e => List.ne_nil_of_mem ((hlist w).mpr hw') (oldestBy_eq_none.mp e)
    have hbest := oldestBy_isBest s.stamp (fun w _ => hclose w) hv
    have hvr := (hlist v).mp hbest.mem
    obtain ⟨d, hd⟩ : ∃ d, s.checkDest v = some d := by
      have := (hready v).mp hvr
      unfold State.eligible at this
      rw [Bool.and_eq_true] at this
      exact Option.isSome_iff_exists.mp this.2
    obtain ⟨hchk, hnext⟩ := State.checkDest_eq_some.mp hd
    obtain ⟨c, m, hcheck, hcv, hcd, hbp, hcode, hm, h1, h2, h3, h4, h5, h6⟩ := s.startCheck_spec v d
    refine ⟨s.startCheck v d, by rw [hexec, State.seekCheck_eq hu hc hw, hv]; simp only [hd], c, m, hcheck, ?_⟩
    rw [hcv, hcd]
    refine ⟨hvr, fun w hw => hbest.le ((hlist w).mpr hw), fun w hw e => ?_, (htuned v d).mpr hchk, fun ht => ?_, hbp, ?_, hm, h1, h2,
      h3, h4, h5, h6, ?_, rfl, rfl, ?_, fun w hw => ?_⟩
    · rcases hbest.first (sorted_allVoices.filter _) ((hlist w).mpr hw) (by rw [e]; exact lt_irrefl _) with rfl | hlt
      · exact le_rfl
      · exact le_of_lt hlt
    · exact hnext ((htuned v _).mp ht)
    · rw [hcode, toNat_toCode]
    · obtain ⟨-, -, -, -, -, ho, -⟩ := hm
      rwa [h5, h2, h3] at ho
    · rw [State.voice_startCheck, if_pos rfl]
    · rw [State.voice_startCheck, if_neg (Ne.symm hw)]

end Sys2Proof.Machine
end

