-- ==== Sys2Proof/Proofs/PassAbort.lean ====
section
/-! PROOFS. The abort of a pass (R119). -/

namespace Sys2Proof.Machine

/-! ### The destination in progress discarded (R119, R120) -/

theorem State.dropService_of_none {s : State} (h : s.tune.service = none) : s.dropService = s := by
  unfold State.dropService
  rw [h]

/-- The tune controller after the destination in progress is discarded: entries apart, only service, request and unit are new. -/
theorem State.dropService_tune {s : State} {x : InService} (h : s.tune.service = some x) :
    s.dropService.tune = { s.tune with
      service := none, requestWaiting := false, unit := dropPassUnit s.tune.unit, entries := s.dropService.tune.entries } := by
  unfold State.dropService
  simp only [h]
  cases x.dest <;> rfl

theorem State.overrideAt_withdrawDest (s : State) (v : Voice) (d : Tuned) :
    (s.withdrawDest v d).overrideAt v d.number = none ∧ (d = .cutoff → (s.withdrawDest v d).overrideAt v 3 = none) := by
  have hself : ∀ (t : State) (k : DestNo), (t.setOverride v k none).overrideAt v k = none := fun t k =>
    (State.overrideAt_setOverride t v v k k none).trans (if_pos ⟨rfl, rfl⟩)
  cases d with
  | a => exact ⟨hself s _, nofun⟩
  | b => exact ⟨hself s _, nofun⟩
  | cutoff =>
    refine ⟨?_, fun _ => hself (s.setOverride v _ none) 3⟩
    exact (State.overrideAt_setOverride _ v v 3 _ none).trans ((if_neg fun h => absurd h.2 (by decide)).trans (hself s _))

/-- The discarded destination has no override left, and its summary shows RESTORED (R111, R119). -/
theorem State.dropService_dest {s : State} {x : InService} (h : s.tune.service = some x) :
    s.dropService.overrideAt x.voice x.dest.number = none ∧ (x.dest = .cutoff → s.dropService.overrideAt x.voice 3 = none)
      ∧ ((s.dropService.entry x.voice).sum x.dest).state = .restored := by
  obtain ⟨h1, h2⟩ := State.overrideAt_withdrawDest { s with tune := { s.tune with
    service := none, requestWaiting := false, unit := dropPassUnit s.tune.unit } } x.voice x.dest
  have he : s.dropService.entry x.voice = (s.entry x.voice).setSum x.dest
      ⟨.restored, .none, ((s.entry x.voice).sum x.dest).converged⟩ := by
    unfold State.dropService
    simp only [h]
    rw [State.entry_setEntry, if_pos rfl]
    rfl
  refine ⟨?_, fun hd => ?_, ?_⟩
  · unfold State.dropService
    simp only [h]
    exact h1
  · unfold State.dropService
    simp only [h]
    exact h2 hd
  · rw [he, PassEntry.sum_setSum, if_pos rfl]

/-! ### The voices given back (R119) -/

/-- The entry is of a voice still to be served (R106). -/
def EntryState.serving : EntryState → Bool
  | .inService | .waiting | .pending => true
  | .notInPass | .skipped | .done | .left => false

/-- An entry after the abort: of a voice still to be served it becomes DONE with ABORTED. -/
def PassEntry.aborted (e : PassEntry) : PassEntry :=
  if e.state.serving then { e with state := .done, reason := .aborted } else e

theorem PassEntry.aborted_sum (e : PassEntry) (d : Tuned) : e.aborted.sum d = e.sum d := by
  unfold PassEntry.aborted
  split <;> cases d <;> rfl

theorem PassEntry.aborted_aborted (e : PassEntry) : e.aborted.aborted = e.aborted := by
  unfold PassEntry.aborted
  by_cases h : e.state.serving = true
  · rw [if_pos h]
    rfl
  · rw [if_neg h, if_neg h]

/-- A voice given back, its entry apart (R119). -/
def State.giveBack (held : Bool) (s : State) (v : Voice) : State :=
  match (s.entry v).state with
  | .inService => if held then s.enterQuarantine v else s.enterIdle v
  | .waiting => s.enterIdle v
  | .pending => s.modVoice v fun r => { r with tunePending := false }
  | .notInPass | .skipped | .done | .left => s

theorem State.abortVoice_eq (held : Bool) (s : State) (v : Voice) :
    s.abortVoice held v =
      if (s.entry v).state.serving then (s.giveBack held v).markEntry v .done .aborted else s := by
  unfold State.abortVoice State.giveBack
  cases h : (s.entry v).state <;> rfl

/-- A voice's record after the abort, from its entry, the held quarantine request and the next stamp (R119). -/
def VoiceRec.givenBack (r : VoiceRec) (held : Bool) (e : EntryState) (x : Stamp) : VoiceRec :=
  match e with
  | .inService => if held then { r with state := .quarantined } else { r with state := .idle, lastFree := x, idle := 0 }
  | .waiting => { r with state := .idle, lastFree := x, idle := 0 }
  | .pending => { r with tunePending := false }
  | .notInPass | .skipped | .done | .left => r

/-- The entry of a voice that becomes IDLE at the abort. -/
def EntryState.freedBy (held : Bool) : EntryState → Bool
  | .inService => !held
  | .waiting => true
  | .pending | .notInPass | .skipped | .done | .left => false

theorem State.voice_giveBack (held : Bool) (s : State) (v w : Voice) :
    (s.giveBack held v).voice w =
      if v = w then (s.voice w).givenBack held (s.entry v).state (s.stamp + 1) else s.voice w := by
  unfold State.giveBack
  cases h : (s.entry v).state
  case inService =>
    cases held
    · exact State.voice_enterIdle s v w
    · exact State.voice_modVoice s v w fun r => { r with state := .quarantined }
  case waiting => exact State.voice_enterIdle s v w
  case pending => exact State.voice_modVoice s v w fun r => { r with tunePending := false }
  all_goals exact (ite_self _).symm

theorem State.giveBack_stamp (held : Bool) (s : State) (v : Voice) :
    (s.giveBack held v).stamp = if (s.entry v).state.freedBy held then s.stamp + 1 else s.stamp := by
  unfold State.giveBack
  cases (s.entry v).state
  case inService => cases held <;> rfl
  all_goals rfl

/-- A voice given back: voices, the stamp and a HEALTH event, and nothing else. -/
theorem State.giveBack_frame (held : Bool) (s : State) (v : Voice) :
    s.giveBack held v = { s with
      voices := (s.giveBack held v).voices, stamp := (s.giveBack held v).stamp
      notices := { s.notices with health := (s.giveBack held v).notices.health } } := by
  unfold State.giveBack
  cases (s.entry v).state
  case inService => cases held <;> rfl
  all_goals rfl

theorem VoiceRec.givenBack_of_not_serving {r : VoiceRec} {held : Bool} {e : EntryState} {x : Stamp} (h : e.serving = false) :
    r.givenBack held e x = r := by
  cases e <;> first | rfl | cases h

theorem EntryState.freedBy_of_not_serving {held : Bool} {e : EntryState} (h : e.serving = false) : e.freedBy held = false := by
  cases e <;> first | rfl | cases h

theorem VoiceRec.givenBack_of_freed {r : VoiceRec} {held : Bool} {e : EntryState} (h : e.freedBy held = true) (x : Stamp) :
    r.givenBack held e x = { r with state := .idle, lastFree := x, idle := 0 } := by
  cases e
  case inService => cases held; rfl; cases h
  case waiting => rfl
  all_goals cases h

theorem EntryState.freedBy_eq (held : Bool) (e : EntryState) :
    e.freedBy held = (e == .waiting || e == .inService && !held) := by
  cases e <;> cases held <;> rfl

theorem State.voice_abortVoice (held : Bool) (s : State) (v w : Voice) :
    (s.abortVoice held v).voice w =
      if v = w then (s.voice w).givenBack held (s.entry v).state (s.stamp + 1) else s.voice w := by
  rw [State.abortVoice_eq]
  cases h : (s.entry v).state.serving
  · rw [VoiceRec.givenBack_of_not_serving h, ite_self]
    rfl
  · exact State.voice_giveBack held s v w

theorem State.abortVoice_stamp (held : Bool) (s : State) (v : Voice) :
    (s.abortVoice held v).stamp = if (s.entry v).state.freedBy held then s.stamp + 1 else s.stamp := by
  rw [State.abortVoice_eq]
  cases h : (s.entry v).state.serving
  · rw [EntryState.freedBy_of_not_serving h]
    rfl
  · exact State.giveBack_stamp held s v

theorem State.entry_abortVoice (held : Bool) (s : State) (v w : Voice) :
    (s.abortVoice held v).entry w = if v = w then (s.entry w).aborted else s.entry w := by
  have hgive : ∀ u, (s.giveBack held v).entry u = s.entry u := fun u => by rw [State.giveBack_frame]; rfl
  rw [State.abortVoice_eq]
  unfold PassEntry.aborted
  by_cases e : v = w
  · subst e
    rw [if_pos rfl]
    split
    · unfold State.markEntry
      rw [State.entry_setEntry, if_pos rfl, hgive]
    · rfl
  · rw [if_neg e]
    split
    · unfold State.markEntry
      rw [State.entry_setEntry, if_neg e, hgive]
    · rfl

/-- `t` is `s` but for what the return of voices at an abort changes. -/
def State.AbortWork (s t : State) : Prop :=
  t = { s with
    voices := t.voices, stamp := t.stamp, tune := { s.tune with entries := t.tune.entries }
    notices := { s.notices with health := t.notices.health } }

theorem State.AbortWork.trans {s t u : State} (h : s.AbortWork t) (k : t.AbortWork u) : s.AbortWork u := by
  unfold State.AbortWork at *
  rw [h] at k
  exact k

theorem State.abortVoice_work (held : Bool) (s : State) (v : Voice) : s.AbortWork (s.abortVoice held v) := by
  rw [State.abortVoice_eq]
  split
  · have h1 : s.AbortWork (s.giveBack held v) := by
      unfold State.AbortWork
      rw [State.giveBack_frame]
    exact h1.trans rfl
  · rfl

/-- The voices of a list given back. -/
def State.abortAll (s : State) (held : Bool) (l : List Voice) : State := l.foldl (State.abortVoice held) s

theorem State.abortAll_work (held : Bool) (l : List Voice) (s : State) : s.AbortWork (s.abortAll held l) := by
  induction l generalizing s with
  | nil => rfl
  | cons v l ih => exact (State.abortVoice_work held s v).trans (ih (s.abortVoice held v))

theorem State.entry_abortAll (held : Bool) (l : List Voice) (s : State) (w : Voice) :
    (s.abortAll held l).entry w = if w ∈ l then (s.entry w).aborted else s.entry w := by
  induction l generalizing s with
  | nil => simp [State.abortAll]
  | cons v l ih =>
    have e := ih (s.abortVoice held v)
    rw [State.entry_abortVoice] at e
    refine e.trans ?_
    by_cases hw : v = w
    · subst hw
      simp [PassEntry.aborted_aborted]
    · simp [hw, Ne.symm hw]

/-- The voices given back one after another, each by the entry it had before (R119). -/
theorem State.abortVoice_fold (held : Bool) (es : Voice → EntryState) :
    VoiceFold (State.abortVoice held) (fun v r x => r.givenBack held (es v) x) (fun v _ => (es v).freedBy held)
      (fun l s => l.Nodup ∧ ∀ v ∈ l, (s.entry v).state = es v) := by
  refine ⟨fun s v l h => ⟨(List.nodup_cons.mp h.1).2, fun w hw => ?_⟩, fun s v l h w => ?_, fun s v l h => ?_⟩
  · have hne : v ≠ w := fun e => (List.nodup_cons.mp h.1).1 (e ▸ hw)
    rw [State.entry_abortVoice, if_neg hne]
    exact h.2 w (by simp [hw])
  · rw [State.voice_abortVoice, h.2 v (by simp)]
    by_cases e : v = w
    · rw [if_pos e, if_pos e, e]
    · rw [if_neg e, if_neg e]
  · rw [State.abortVoice_stamp, h.2 v (by simp)]

/-! ### The HEALTH events of the voices quarantined (R119, R136) -/

theorem State.health_postHealth (s : State) (v w : Voice) :
    (s.postHealth v).notices.health.getLsbD w.val = (s.notices.health.getLsbD w.val || decide (v = w)) := by
  have hw := w.isLt
  unfold State.postHealth
  simp only [BitVec.getLsbD_or, BitVec.getLsbD_shiftLeft, BitVec.getLsbD_one]
  congr 1
  by_cases e : v = w
  · subst e; simp
  · have hne : v.val ≠ w.val := fun h => e (Fin.ext h)
    simp only [e, decide_false, Bool.and_eq_false_iff, decide_eq_false_iff_not]
    by_cases hlt : w.val < v.val
    · simp [hlt]
    · right
      omega

theorem State.health_abortVoice (held : Bool) (s : State) (v w : Voice) :
    (s.abortVoice held v).notices.health.getLsbD w.val =
      (s.notices.health.getLsbD w.val || (held && ((s.entry v).state == .inService && decide (v = w)))) := by
  have hkeep : ∀ b : Bool, s.notices.health.getLsbD w.val = (s.notices.health.getLsbD w.val || (held && (false && b))) := by
    simp
  unfold State.abortVoice
  cases (s.entry v).state
  case inService =>
    cases held
    · exact (Bool.or_false _).symm
    · exact State.health_postHealth (s.modVoice v fun r => { r with state := .quarantined }) v w
  all_goals exact hkeep _

/-- The return of a voice in service with a held quarantine request posts its HEALTH event (R117, R119). -/
theorem State.health_abortAll {l : List Voice} {s : State} {w : Voice}
    (h : s.notices.health.getLsbD w.val = true ∨ w ∈ l ∧ (s.entry w).state = .inService) :
    (s.abortAll true l).notices.health.getLsbD w.val = true := by
  induction l generalizing s with
  | nil => exact h.resolve_right (by simp)
  | cons v l ih =>
    refine ih (s := s.abortVoice true v) ?_
    rw [State.health_abortVoice]
    rcases h with h | ⟨hw, he⟩
    · exact .inl (by simp [h])
    · by_cases e : v = w
      · exact .inl (by simp [e, he])
      · refine .inr ⟨(List.mem_cons.mp hw).resolve_left (Ne.symm e), ?_⟩
        rwa [State.entry_abortVoice, if_neg e]

/-! ### TUNE_ABORT -/

/-- What the abort changes: voices, the stamp, the override table, the tune controller and the notices. -/
theorem State.AbortWork.passAborted {s t : State} (h : s.AbortWork t) :
    t.passAborted.port = s.port ∧ t.passAborted.parts = s.parts
      ∧ t.passAborted.notices = { s.notices with tune := true, health := t.notices.health }
      ∧ t.passAborted.refresh = s.refresh
      ∧ t.passAborted.tune = { s.tune with outcome := .aborted, heldQuarantine := false, entries := t.tune.entries } := by
  have hport : t.port = s.port := by unfold State.AbortWork at h; rw [h]
  have hparts : t.parts = s.parts := by unfold State.AbortWork at h; rw [h]
  have hrefresh : t.refresh = s.refresh := by unfold State.AbortWork at h; rw [h]
  have hnotices : t.notices = { s.notices with health := t.notices.health } := by unfold State.AbortWork at h; rw [h]
  have htune : t.tune = { s.tune with entries := t.tune.entries } := by unfold State.AbortWork at h; rw [h]
  refine ⟨hport, hparts, ?_, hrefresh, ?_⟩
  · change { t.notices with tune := true } = _
    rw [hnotices]
  · change { t.tune with outcome := .aborted, heldQuarantine := false } = _
    rw [htune]

theorem State.voice_passAborted (s : State) (v : Voice) : s.passAborted.voice v = s.voice v := rfl

theorem State.entry_passAborted (s : State) (v : Voice) : s.passAborted.entry v = s.entry v := rfl

theorem State.health_passAborted (s : State) : s.passAborted.notices.health = s.notices.health := rfl

theorem State.stampedFrom_passAborted {s : State} {n : Stamp} {f : Voice → Bool} (h : s.stampedFrom n f) :
    s.passAborted.stampedFrom n f := h

theorem State.abortPass_eq' (s : State) :
    s.abortPass = (s.dropService.abortAll s.tune.heldQuarantine allVoices).passAborted := s.abortPass_eq

theorem State.abortPass_frame (s : State) :
    s.abortPass.port = s.port ∧ s.abortPass.parts = s.parts
      ∧ s.abortPass.notices = { s.notices with tune := true, health := s.abortPass.notices.health }
      ∧ s.abortPass.refresh = s.dropService.refresh
      ∧ s.abortPass.tune = { s.dropService.tune with
          outcome := .aborted, heldQuarantine := false, entries := s.abortPass.tune.entries } := by
  have hw := s.dropService_passWork
  have hn : ∀ n m : Notices, { n with tune := m.tune } = m → ∀ x,
      ({ n with tune := true, health := x } : Notices) = { m with tune := true, health := x } := by
    intro n m h x
    rw [← h]
  rw [State.abortPass_eq']
  obtain ⟨h1, h2, h3, h4, h5⟩ := (State.abortAll_work s.tune.heldQuarantine allVoices s.dropService).passAborted
  generalize s.dropService.abortAll s.tune.heldQuarantine allVoices = u at *
  refine ⟨h1.trans hw.port, h2.trans hw.parts, ?_, h4, ?_⟩
  · rw [h3]
    exact hn _ _ hw.notices _
  · rw [h5]

theorem State.abortPass_inv (s : State) :
    (allVoices.filter fun _ => true).Nodup ∧ ∀ v ∈ allVoices.filter fun _ => true,
      (s.dropService.entry v).state = (s.entry v).state := ⟨nodup_allVoices.filter _, fun v _ => (s.entry_dropService v).1⟩

theorem State.voice_abortPass (s : State) (v : Voice) :
    ∃ x, s.abortPass.voice v = (s.voice v).givenBack s.tune.heldQuarantine (s.entry v).state x := by
  have e := (State.abortVoice_fold s.tune.heldQuarantine fun v => (s.entry v).state).voice_ascending s.abortPass_inv
    (v := v) rfl
  rw [filter_true_allVoices, s.dropService_passWork.voice] at e
  rw [State.abortPass_eq', State.voice_passAborted]
  exact ⟨_, e⟩

theorem State.entry_abortPass (s : State) (v : Voice) : s.abortPass.entry v = (s.dropService.entry v).aborted := by
  rw [State.abortPass_eq', State.entry_passAborted, State.entry_abortAll, if_pos (mem_allVoices v)]

theorem State.abortPass_stampedFrom (s : State) :
    s.abortPass.stampedFrom s.stamp fun v => (s.entry v).state.freedBy s.tune.heldQuarantine := by
  have h := (State.abortVoice_fold s.tune.heldQuarantine fun v => (s.entry v).state).stampedFrom s.abortPass_inv
    (fun v r x h => by rw [VoiceRec.givenBack_of_freed h]) (fun v => (Bool.true_and _).symm)
  rw [filter_true_allVoices, s.dropService_passWork.stamp] at h
  rw [State.abortPass_eq']
  exact State.stampedFrom_passAborted h

theorem State.health_abortPass {s : State} {v : Voice} (he : (s.entry v).state = .inService)
    (hh : s.tune.heldQuarantine = true) : s.abortPass.notices.health.getLsbD v.val = true := by
  have h := State.health_abortAll (l := allVoices) (s := s.dropService) (w := v)
    (.inr ⟨mem_allVoices v, (s.entry_dropService v).1.trans he⟩)
  rw [State.abortPass_eq', hh, State.health_passAborted]
  exact h

/-- Settles O32: the destination in progress is discarded, and then the voices go back one after another. -/
theorem tuneAbortEndsThePass : Obligations.TuneAbortEndsThePass := by
  intro s hi
  have hexec : exec .tuneAbort s = .next (if s.passRunning then s.abortPass.answer .ok [] else s.refuse .wrongState) :=
    congrArg Host.Outcome.next (hostCommand_of_inHand hi _)
  refine ⟨fun hr => by rw [hexec, hr]; rfl, fun hr => ?_⟩
  rw [hr, if_pos rfl] at hexec
  obtain ⟨hport, hparts, hnotices, hrefresh, htune⟩ := s.abortPass_frame
  have hoverride : ∀ v d, s.abortPass.overrideAt v d = s.dropService.overrideAt v d := fun v d => by
    unfold State.overrideAt
    rw [hrefresh]
  have hservice : s.dropService.tune.service = none := s.dropService_service
  have hfreed : (fun v => (s.entry v).state.freedBy s.tune.heldQuarantine) =
      fun v => (s.entry v).state == .waiting || (s.entry v).state == .inService && !s.tune.heldQuarantine :=
    funext fun v => EntryState.freedBy_eq _ _
  have hvoice := s.voice_abortPass
  have hentry := s.entry_abortPass
  have hstamped := s.abortPass_stampedFrom
  have hhealth := fun v => s.health_abortPass (v := v)
  refine ⟨_, hexec, ?_⟩
  generalize s.abortPass = t at *
  simp only [State.answer_tune, State.answer_notices, State.answer_parts, State.voice_answer, State.entry_answer]
  have hes : ∀ v, (s.dropService.entry v).state = (s.entry v).state := fun v => (s.entry_dropService v).1
  refine ⟨?_, ?_, hnotices, ?_, ?_, fun x hx => ⟨?_, fun m hm hq => ?_, ?_, fun hd => ?_, ?_⟩, fun m hm hq => ?_, ?_, hparts, ?_,
    ?_, fun v => ⟨fun hf => ?_, fun he hh => ⟨?_, hhealth v he hh⟩, fun he => ?_, fun he => ?_, fun he => ?_⟩⟩
  · exact State.answer_port hport .ok []
  · rw [htune]
  · rw [htune]
    exact s.dropService_passWork.cal
  · rw [htune]
    exact s.dropService_service
  · rw [htune, State.dropService_tune hx]
  · rw [htune, State.dropService_tune hx]
    simp only [hm, dropPassUnit, hq]
  · exact (hoverride _ _).trans (State.dropService_dest hx).1
  · exact (hoverride _ _).trans ((State.dropService_dest hx).2.1 hd)
  · rw [hentry, PassEntry.aborted_sum]
    exact (State.dropService_dest hx).2.2
  · rw [htune]
    cases hx : s.tune.service with
    | none => rw [State.dropService_of_none hx]; exact hm
    | some x =>
      rw [State.dropService_tune hx]
      simp only [hm, dropPassUnit, hq]
  · rw [← hfreed]
    exact hstamped
  · rw [htune]
    exact s.dropService_check
  · rw [htune]
  · obtain ⟨x, hx⟩ := hvoice v
    rw [← EntryState.freedBy_eq] at hf
    rw [hx, VoiceRec.givenBack_of_freed hf]
  · obtain ⟨x, hx⟩ := hvoice v
    rw [hx, he, hh]
    rfl
  · obtain ⟨x, hx⟩ := hvoice v
    rw [hx, he]
    rfl
  · rw [hentry]
    unfold PassEntry.aborted
    rw [if_pos (by rw [hes]; rcases he with he | he | he <;> rw [he] <;> rfl)]
    exact ⟨rfl, rfl⟩
  · have hs : (s.entry v).state.serving = false := by rcases he with he | he | he | he <;> rw [he] <;> rfl
    obtain ⟨x, hx⟩ := hvoice v
    rw [hx, VoiceRec.givenBack_of_not_serving hs, hentry]
    unfold PassEntry.aborted
    rw [if_neg (by rw [hes, hs]; exact Bool.false_ne_true)]
    exact ⟨rfl, s.entry_dropService v⟩

end Sys2Proof.Machine
end

