-- ==== Sys2Proof/Proofs/AllocatorFrames.lean ====
section
/-! PROOFS. The frame timer of the allocator and the ends of its counts (R37 to R40), and the voices that join a pass (R109). -/

namespace Sys2Proof.Machine

/-! ### Entries through the choice of the pass's next voice (R110) -/

/-- From `s` to `t`, an entry stands, or is that of a voice which waited and was taken into service. -/
def State.EntryMoves (s t : State) (v : Voice) : Prop :=
  t.entry v = s.entry v ∨ (s.entry v).state = .waiting ∧ s.tune.service = none ∧ s.passRunning = true
    ∧ (t.entry v).state = .inService ∧ (t.entry v).reason = (s.entry v).reason

theorem State.entry_beginService_self (s : State) (v : Voice) :
    ((s.beginService v).entry v).state = .inService ∧ ((s.beginService v).entry v).reason = (s.entry v).reason := by
  unfold State.beginService
  simp only
  split
  · rw [State.entry_beginDest, if_pos rfl, PassEntry.setSum_state, PassEntry.setSum_reason, State.entry_setEntry, if_pos rfl]
    exact ⟨rfl, rfl⟩
  · rw [State.entry_setEntry, if_pos rfl]
    exact ⟨rfl, rfl⟩

theorem State.settlePass_entryMoves (s : State) (v : Voice) : s.EntryMoves s.settlePass v := by
  by_cases hb : s.passRunning = false ∨ s.tune.service.isSome = true
  · rw [State.settlePass_of_busy hb]
    exact .inl rfl
  · have hr : s.passRunning = true := by simpa using fun e => hb (.inl e)
    have hs : s.tune.service = none := Option.not_isSome_iff_eq_none.mp fun e => hb (.inr e)
    by_cases hw : (s.entry v).state = .waiting
    · obtain ⟨w, -, -, e⟩ := State.settlePass_serves hr hs ⟨v, hw⟩
      rw [e]
      by_cases hv : v = w
      · subst hv
        exact .inr ⟨hw, hs, hr, s.entry_beginService_self v⟩
      · exact .inl (State.entry_beginService_of_ne hv)
    · exact .inl (State.entry_settlePass hw)

/-- A service in hand is not given up by the choice of the next voice. -/
theorem State.settlePass_service {s : State} {x : InService} (h : s.tune.service = some x) :
    s.settlePass.tune.service = some x := by
  rw [State.settlePass_of_busy (.inr (by rw [h]; rfl)), h]

/-- A running pass with no voice in service and voices that wait, all with a destination, takes its next (R104, R110, R111). -/
theorem State.settlePass_nextServed {s l : State} {waits : Voice → Prop} (hr : l.passRunning = true)
    (hs : l.tune.service = none) (hw : ∀ u, waits u ↔ (l.entry u).state = .waiting) (he : ∃ u, waits u)
    (hn : ∀ u, waits u → (l.entry u).named)
    (hset : ∀ u, (l.entry u).inA = (s.entry u).inA ∧ (l.entry u).inB = (s.entry u).inB) :
    s.nextServed l.settlePass waits ∧ l.serviceBegins l.settlePass (l.tune.unit = none)
      ∧ (∀ u, ¬ waits u → l.settlePass.entry u = l.entry u)
      ∧ (l.tune.unit = none → ∃ m, l.settlePass.tune.unit = some m ∧ m.requester = .pass ∧ waits m.voice)
      ∧ ∀ m, l.tune.unit = some m → l.settlePass.tune.unit = some m ∧ l.settlePass.tune.requestWaiting = true := by
  obtain ⟨v, hv, hmin, e⟩ := State.settlePass_serves hr hs (he.imp fun u hu => (hw u).mp hu)
  have hnamed := hn v ((hw v).mpr hv)
  obtain ⟨hservice, hbegins, hentry, hother, houtcome, -, -⟩ := State.beginService_spec hnamed
  have hunit := State.beginDest_unit (l.setEntry v { l.entry v with state := .inService }) v (l.entry v).firstDest
  rw [← State.beginService_of_named hnamed] at hunit
  rw [e]
  refine ⟨⟨houtcome.trans ((l.passRunning_iff).mp hr), _, hservice, (hw v).mpr hv, fun u hu => hmin u ((hw u).mp hu), ?_, ?_,
    fun u hne hu => ?_⟩, fun x hx => ?_, fun u hu => ?_, fun hfree => ?_, hunit.2⟩
  · exact (State.entry_beginService_self l v).1
  · change (l.entry v).firstDest = _
    unfold PassEntry.firstDest
    rw [(hset v).1, (hset v).2]
    rfl
  · rw [hother u hne]
    exact (hw u).mp hu
  · obtain rfl := Option.some.inj (hservice.symm.trans hx)
    exact hbegins
  · exact hother u fun e => hu (e ▸ (hw v).mpr hv)
  · obtain ⟨m, hm, hq, hmv⟩ := hunit.1 hfree
    exact ⟨m, hm, hq, hmv ▸ (hw v).mpr hv⟩

/-- A PENDING voice whose tail has ended joins its pass as the statements write it (R109, R110). -/
theorem State.joinPass_joinsPass {s : State} {v : Voice} (h : (s.entry v).state = .pending) :
    s.joinsPass (s.joinPass v) v := by
  have he : s.joinPass v = (s.markEntry v .waiting .none).settlePass := if_pos h
  have hentry : ∀ u, (s.markEntry v .waiting .none).entry u =
      if v = u then { s.entry v with state := .waiting, reason := .none } else s.entry u := fun u => State.entry_setEntry ..
  rw [he]
  refine ⟨fun hb => ?_, fun hr hs hn => ?_⟩
  · rw [State.settlePass_of_busy (s := s.markEntry v .waiting .none) hb]
    rfl
  · have hw : ∀ u, (u = v ∨ (s.entry u).state = .waiting) ↔ ((s.markEntry v .waiting .none).entry u).state = .waiting := by
      intro u
      rw [hentry]
      by_cases e : v = u
      · rw [if_pos e]
        exact ⟨fun _ => rfl, fun _ => .inl e.symm⟩
      · rw [if_neg e]
        exact or_iff_right fun e' => e e'.symm
    have hnamed : ∀ u, (u = v ∨ (s.entry u).state = .waiting) → ((s.markEntry v .waiting .none).entry u).named := by
      intro u hu
      rw [hentry]
      by_cases e : v = u
      · rw [if_pos e]
        exact hn v (.inl rfl)
      · rw [if_neg e]
        exact hn u hu
    have hset : ∀ u, ((s.markEntry v .waiting .none).entry u).inA = (s.entry u).inA
        ∧ ((s.markEntry v .waiting .none).entry u).inB = (s.entry u).inB := by
      intro u
      rw [hentry]
      by_cases e : v = u
      · rw [if_pos e, e]
        exact ⟨rfl, rfl⟩
      · rw [if_neg e]
        exact ⟨rfl, rfl⟩
    obtain ⟨h1, h2, h3, h4, h5⟩ := State.settlePass_nextServed (s := s)
      (l := s.markEntry v .waiting .none) (waits := fun u => u = v ∨ (s.entry u).state = .waiting) hr hs hw ⟨v, .inl rfl⟩ hnamed
      hset
    refine ⟨h1, h2, fun u hu => (h3 u hu).trans ?_, h4, h5⟩
    rw [hentry, if_neg fun e => hu (.inl e.symm)]

/-- Joining a pass looks at the tune controller, the settings and the notices of the state it starts from alone. -/
theorem State.joinsPass_setVoice {s t : State} {v w : Voice} {r : VoiceRec} (h : (s.setVoice w r).joinsPass t v) :
    s.joinsPass t v := h

/-! ### One voice's share of an expiry (R37 to R40) -/

/-- A record after an expiry, `x` being the next stamp. -/
def VoiceRec.framed (r : VoiceRec) (x : Stamp) : VoiceRec :=
  match r.state with
  | .stealGap => if r.gap ≤ 1 then { r.countFrame with state := .sounding } else r.countFrame
  | .releasing => if r.tail ≤ 1 then r.countFrame.tailEnded x else r.countFrame
  | .absent | .offline | .idle | .sounding | .calibrating | .retuning | .quarantined => r.countFrame

/-- The voice becomes IDLE at the expiry: its tail ends and no flag is pending (R38). -/
def VoiceRec.frees (r : VoiceRec) : Bool := r.state == .releasing && decide (r.tail ≤ 1) && r.unmarkedB

theorem VoiceRec.countFrame_unmarkedB (r : VoiceRec) : r.countFrame.unmarkedB = r.unmarkedB := by
  unfold VoiceRec.unmarkedB
  rw [VoiceRec.countFrame_frame]

theorem VoiceRec.countFrame_tunePending (r : VoiceRec) : r.countFrame.tunePending = r.tunePending := by
  rw [VoiceRec.countFrame_frame]

theorem VoiceRec.countFrame_gap {r : VoiceRec} (h : r.state = .stealGap) : r.countFrame.gap = r.gap - 1 := by
  unfold VoiceRec.countFrame
  rw [h]

theorem VoiceRec.countFrame_tail {r : VoiceRec} (h : r.state = .releasing) : r.countFrame.tail = r.tail - 1 := by
  unfold VoiceRec.countFrame
  rw [h]

theorem State.voice_setVoice_self (s : State) (v : Voice) (r : VoiceRec) : (s.setVoice v r).voice v = r := by
  rw [State.voice_setVoice, if_pos rfl]

theorem State.frameVoice_of_gap {s : State} {v : Voice} (h : (s.voice v).state = .stealGap) :
    s.frameVoice v = s.setVoice v ((s.voice v).framed (s.stamp + 1)) := by
  unfold State.frameVoice VoiceRec.framed
  simp only [h, State.modVoice_eq, State.voice_setVoice_self, VoiceRec.countFrame_gap h]
  by_cases hg : (s.voice v).gap ≤ 1
  · rw [if_pos hg, if_pos (by omega), State.setVoice_setVoice]
  · rw [if_neg hg, if_neg (by omega)]

theorem State.frameVoice_of_tail {s : State} {v : Voice} (h : (s.voice v).state = .releasing) :
    s.frameVoice v = if (s.voice v).tail ≤ 1 then (s.setVoice v (s.voice v).countFrame).endTail v
      else s.setVoice v (s.voice v).countFrame := by
  unfold State.frameVoice
  simp only [h, State.modVoice_eq, State.voice_setVoice_self, VoiceRec.countFrame_tail h]
  by_cases ht : (s.voice v).tail ≤ 1
  · rw [if_pos ht, if_pos (by omega)]
  · rw [if_neg ht, if_neg (by omega)]

theorem State.frameVoice_of_other {s : State} {v : Voice} (h1 : (s.voice v).state ≠ .stealGap)
    (h2 : (s.voice v).state ≠ .releasing) : s.frameVoice v = s.setVoice v ((s.voice v).framed (s.stamp + 1)) := by
  unfold State.frameVoice VoiceRec.framed
  cases h : (s.voice v).state
  case stealGap => exact absurd h h1
  case releasing => exact absurd h h2
  all_goals rfl

theorem State.voice_frameVoice (s : State) (v w : Voice) :
    (s.frameVoice v).voice w = if v = w then (s.voice v).framed (s.stamp + 1) else s.voice w := by
  by_cases hr : (s.voice v).state = .releasing
  · rw [State.frameVoice_of_tail hr]
    unfold VoiceRec.framed
    rw [hr]
    by_cases ht : (s.voice v).tail ≤ 1
    · simp only [if_pos ht]
      rw [State.voice_endTail, State.voice_setVoice_self, State.voice_setVoice]
      by_cases e : v = w
      · rw [if_pos e, if_pos e]
        rfl
      · rw [if_neg e, if_neg e, if_neg e]
    · simp only [if_neg ht]
      exact State.voice_setVoice ..
  · by_cases hg : (s.voice v).state = .stealGap
    · rw [State.frameVoice_of_gap hg, State.voice_setVoice]
    · rw [State.frameVoice_of_other hg hr, State.voice_setVoice]

theorem State.frameVoice_stamp (s : State) (v : Voice) :
    (s.frameVoice v).stamp = if (s.voice v).frees then s.stamp + 1 else s.stamp := by
  unfold VoiceRec.frees
  by_cases hr : (s.voice v).state = .releasing
  · rw [State.frameVoice_of_tail hr, hr]
    by_cases ht : (s.voice v).tail ≤ 1
    · rw [if_pos ht, State.endTail_stamp, State.voice_setVoice_self, VoiceRec.countFrame_unmarkedB]
      simp [ht, State.setVoice]
    · rw [if_neg ht]
      simp [ht, State.setVoice]
  · have hb : ((s.voice v).state == Service.releasing) = false := by simpa using hr
    rw [hb, Bool.false_and, Bool.false_and]
    by_cases hg : (s.voice v).state = .stealGap
    · rw [State.frameVoice_of_gap hg]
      rfl
    · rw [State.frameVoice_of_other hg hr]
      rfl

/-- The voices of an expiry, one after another (R37 to R40). -/
theorem State.frameVoice_fold :
    VoiceFold State.frameVoice (fun _ r x => r.framed x) (fun _ r => r.frees) (fun _ _ => True) :=
  ⟨fun _ _ _ _ => trivial, fun s v _ _ w => s.voice_frameVoice v w, fun s v _ _ => s.frameVoice_stamp v⟩

/-- A voice that is not tune-pending changes voices and stamps alone. -/
theorem State.frameVoice_frame {s : State} {v : Voice} (h : (s.voice v).tunePending = false) :
    s.frameVoice v = { s with voices := (s.frameVoice v).voices, stamp := (s.frameVoice v).stamp } := by
  by_cases hr : (s.voice v).state = .releasing
  · rw [State.frameVoice_of_tail hr]
    split
    · rw [State.endTail_frame (by rw [State.voice_setVoice_self, VoiceRec.countFrame_tunePending, h])]
      rfl
    · rfl
  · by_cases hg : (s.voice v).state = .stealGap
    · rw [State.frameVoice_of_gap hg]
      rfl
    · rw [State.frameVoice_of_other hg hr]
      rfl

theorem VoiceRec.tailEnded_tunePending {r : VoiceRec} (h : r.tunePending = false) (x : Stamp) :
    (r.tailEnded x).tunePending = false := by
  unfold VoiceRec.tailEnded
  split
  · rfl
  · split <;> exact h

theorem VoiceRec.framed_tunePending {r : VoiceRec} (h : r.tunePending = false) (x : Stamp) :
    (r.framed x).tunePending = false := by
  have hc : r.countFrame.tunePending = false := r.countFrame_tunePending.trans h
  unfold VoiceRec.framed
  split
  · split <;> exact hc
  · split
    · exact VoiceRec.tailEnded_tunePending hc x
    · exact hc
  all_goals exact hc

/-- `t` is `s` but for voices and stamps. -/
def State.OnlyVoices (s t : State) : Prop := t = { s with voices := t.voices, stamp := t.stamp }

theorem State.OnlyVoices.trans {s t u : State} (h : s.OnlyVoices t) (k : t.OnlyVoices u) : s.OnlyVoices u := by
  unfold State.OnlyVoices at *
  rw [h] at k
  exact k

theorem State.frameAll_frame (l : List Voice) {s : State} (h : ∀ v, (s.voice v).tunePending = false) :
    s.OnlyVoices (l.foldl State.frameVoice s) := by
  induction l generalizing s with
  | nil => rfl
  | cons v l ih =>
    have hstep : s.OnlyVoices (s.frameVoice v) := State.frameVoice_frame (h v)
    have h1 : ∀ w, ((s.frameVoice v).voice w).tunePending = false := fun w => by
      rw [State.voice_frameVoice]
      split
      · exact VoiceRec.framed_tunePending (h v) _
      · exact h w
    exact hstep.trans (ih h1)

/-! ### Entries through an expiry (R109, R110) -/

theorem State.EntryMoves.of_entry {s t u : State} {w : Voice} (h : t.EntryMoves u w) (he : t.tune = s.tune) : s.EntryMoves u w := by
  unfold State.EntryMoves State.passRunning State.entry at *
  rwa [he] at h

theorem State.EntryMoves.of_tune {s t : State} (h : t.tune = s.tune) (w : Voice) : s.EntryMoves t w := by
  left
  unfold State.entry
  rw [h]

theorem State.joinPass_entryMoves {s : State} {v w : Voice} (hw : w ≠ v) : s.EntryMoves (s.joinPass v) w := by
  unfold State.joinPass
  split
  · have h := State.settlePass_entryMoves (s.markEntry v .waiting .none) w
    have he : (s.markEntry v .waiting .none).entry w = s.entry w := (State.entry_setEntry ..).trans (if_neg (Ne.symm hw))
    unfold State.EntryMoves at h ⊢
    rwa [he] at h
  · exact .inl rfl

theorem State.joinPass_service {s : State} {v : Voice} {x : InService} (h : s.tune.service = some x) :
    (s.joinPass v).tune.service = some x := by
  unfold State.joinPass
  split
  · exact State.settlePass_service h
  · exact h

/-- The entry of a voice that joins: WAITING without a reason, or taken into service at once (R109, R110). -/
theorem State.joinPass_self {s : State} {v : Voice} (h : (s.entry v).state = .pending) :
    ((s.joinPass v).entry v).reason = .none
      ∧ (((s.joinPass v).entry v).state = .waiting
        ∨ s.tune.service = none ∧ ((s.joinPass v).entry v).state = .inService) := by
  have he : (s.markEntry v .waiting .none).entry v = { s.entry v with state := .waiting, reason := .none } :=
    (State.entry_setEntry ..).trans (if_pos rfl)
  rw [show s.joinPass v = (s.markEntry v .waiting .none).settlePass from if_pos h]
  rcases State.settlePass_entryMoves (s.markEntry v .waiting .none) v with hm | ⟨-, hs, -, h1, h2⟩
  · rw [hm, he]
    exact ⟨rfl, .inl rfl⟩
  · rw [h2, he]
    exact ⟨rfl, .inr ⟨hs, h1⟩⟩

theorem State.joinPass_of_not_pending {s : State} {v : Voice} (h : (s.entry v).state ≠ .pending) : s.joinPass v = s := if_neg h

theorem State.beginService_notices (s : State) (v : Voice) : (s.beginService v).notices = s.notices := by
  unfold State.beginService
  simp only
  split
  · rw [State.beginDest_notices]
    rfl
  · rfl

/-- A voice that joins cannot end its pass: it waits, or it is served (R109, R110). -/
theorem State.joinPass_notices (s : State) (v : Voice) : (s.joinPass v).notices = s.notices := by
  unfold State.joinPass
  split
  · set l := s.markEntry v .waiting .none
    have hl : (l.entry v).state = .waiting := by
      rw [show l.entry v = { s.entry v with state := .waiting, reason := .none } from
        (State.entry_setEntry ..).trans (if_pos rfl)]
    by_cases hb : l.passRunning = false ∨ l.tune.service.isSome = true
    · rw [State.settlePass_of_busy hb]
      rfl
    · have hr : l.passRunning = true := by simpa using fun e => hb (.inl e)
      have hs : l.tune.service = none := Option.not_isSome_iff_eq_none.mp fun e => hb (.inr e)
      obtain ⟨w, -, -, e⟩ := State.settlePass_serves hr hs ⟨v, hl⟩
      rw [e, State.beginService_notices]
      rfl
  · rfl

/-- One voice's share leaves the tune controller, or it is the end of a tune-pending voice's tail (R109). -/
theorem State.frameVoice_tune (s : State) (v : Voice) :
    (s.frameVoice v).tune = s.tune ∨ ∃ u : State, u.tune = s.tune ∧ s.frameVoice v = u.joinPass v := by
  cases ht : (s.voice v).tunePending
  · left
    rw [State.frameVoice_frame ht]
  · by_cases hr : (s.voice v).state = .releasing
    · rw [State.frameVoice_of_tail hr]
      split
      · right
        rw [State.endTail_of_tunePending (by rw [State.voice_setVoice_self, VoiceRec.countFrame_tunePending, ht])]
        refine ⟨_, ?_, rfl⟩
        rfl
      · exact .inl rfl
    · left
      by_cases hg : (s.voice v).state = .stealGap
      · rw [State.frameVoice_of_gap hg]
        rfl
      · rw [State.frameVoice_of_other hg hr]
        rfl

theorem State.frameVoice_entryMoves {s : State} {v w : Voice} (hw : w ≠ v) : s.EntryMoves (s.frameVoice v) w := by
  rcases s.frameVoice_tune v with h | ⟨u, hu, h⟩
  · exact .of_tune h w
  · rw [h]
    exact (State.joinPass_entryMoves hw).of_entry hu

theorem State.frameVoice_service {s : State} {v : Voice} {x : InService} (hx : s.tune.service = some x) :
    (s.frameVoice v).tune.service = some x := by
  rcases s.frameVoice_tune v with h | ⟨u, hu, h⟩
  · rw [h, hx]
  · rw [h]
    exact State.joinPass_service (by rw [hu, hx])

/-- A voice whose tail ends tune-pending joins its pass in its own share (R38, R109). -/
theorem State.frameVoice_joins {s : State} {v : Voice} (hr : (s.voice v).state = .releasing) (ht : (s.voice v).tail ≤ 1)
    (hp : (s.voice v).tunePending = true) : ∃ u : State, u.tune = s.tune ∧ s.frameVoice v = u.joinPass v := by
  rw [State.frameVoice_of_tail hr, if_pos ht,
    State.endTail_of_tunePending (by rw [State.voice_setVoice_self, VoiceRec.countFrame_tunePending, hp])]
  refine ⟨_, ?_, rfl⟩
  rfl

/-- A voice that has joined its pass in an expiry: WAITING without a reason, or in service where the expiry found none there. -/
def State.joinedSince (s t : State) (v : Voice) : Prop :=
  (t.entry v).reason = .none
    ∧ ((t.entry v).state = .waiting ∨ s.tune.service = none ∧ (t.entry v).state = .inService)

/-- Once joined, a voice stays joined through the other voices' shares. -/
theorem State.frameAll_joined (l : List Voice) {s t : State} {v : Voice} (hv : v ∉ l)
    (hs : ∀ x, s.tune.service = some x → t.tune.service = some x) (h : s.joinedSince t v) :
    s.joinedSince (l.foldl State.frameVoice t) v := by
  induction l generalizing t with
  | nil => exact h
  | cons w l ih =>
    have hne : v ≠ w := fun e => hv (by simp [e])
    refine ih (fun e => hv (by simp [e])) (fun x hx => State.frameVoice_service (hs x hx)) ?_
    obtain ⟨h1, h2⟩ := h
    rcases t.frameVoice_entryMoves hne with e | ⟨-, e, -, e1, e2⟩
    · unfold State.joinedSince
      rw [e]
      exact ⟨h1, h2⟩
    · refine ⟨e2.trans h1, .inr ⟨?_, e1⟩⟩
      by_contra hn
      obtain ⟨x, hx⟩ := Option.ne_none_iff_exists'.mp hn
      rw [hs x hx] at e
      cases e

/-- A voice whose tail ends tune-pending in an expiry has joined its pass after it (R38, R109, R110). -/
theorem State.frameAll_joins {l : List Voice} (hl : l.Nodup) {s t : State} {v : Voice} (hv : v ∈ l)
    (hs : ∀ x, s.tune.service = some x → t.tune.service = some x) (hr : (t.voice v).state = .releasing)
    (ht : (t.voice v).tail ≤ 1) (hp : (t.voice v).tunePending = true) (he : (t.entry v).state = .pending) :
    s.joinedSince (l.foldl State.frameVoice t) v := by
  induction l generalizing t with
  | nil => cases hv
  | cons w l ih =>
    obtain ⟨hw, hl⟩ := List.nodup_cons.mp hl
    have hs' : ∀ x, s.tune.service = some x → (t.frameVoice w).tune.service = some x :=
      fun x hx => State.frameVoice_service (hs x hx)
    by_cases e : v = w
    · subst e
      refine State.frameAll_joined l hw hs' ?_
      obtain ⟨u, hu, e⟩ := State.frameVoice_joins hr ht hp
      have heu : (u.entry v).state = .pending := by unfold State.entry; rw [hu]; exact he
      obtain ⟨h1, h2⟩ := State.joinPass_self heu
      rw [e]
      refine ⟨h1, h2.imp_right fun ⟨h3, h4⟩ => ⟨?_, h4⟩⟩
      by_contra hn
      obtain ⟨x, hx⟩ := Option.ne_none_iff_exists'.mp hn
      rw [hu, hs x hx] at h3
      cases h3
    · have hvoice : (t.frameVoice w).voice v = t.voice v := by rw [State.voice_frameVoice, if_neg (Ne.symm e)]
      refine ih hl ((List.mem_cons.mp hv).resolve_left e) hs' (by rw [hvoice]; exact hr) (by rw [hvoice]; exact ht)
        (by rw [hvoice]; exact hp) ?_
      rcases t.frameVoice_entryMoves e with e | ⟨e, -⟩
      · rw [e]
        exact he
      · rw [he] at e
        cases e

/-! ### The records of an expiry -/

theorem VoiceRec.glideFrame_spec (r : VoiceRec) :
    (r.glide = 0 → r.glideFrame = r)
      ∧ (r.glide = 1 → r.glideFrame.pitch = r.target ∧ r.glideFrame.glide = 0)
      ∧ (2 ≤ r.glide → r.glideFrame.pitch = ((r.pitch : Int) + ((r.target : Int) - r.pitch).tdiv r.glide).toNat
        ∧ r.glideFrame.glide = r.glide - 1) := by
  unfold VoiceRec.glideFrame
  refine ⟨fun h => if_pos h, fun h => ?_, fun h => ?_⟩
  · rw [if_neg (by omega), if_pos h]
    exact ⟨rfl, rfl⟩
  · rw [if_neg (by omega), if_neg (by omega)]
    exact ⟨rfl, rfl⟩

/-- What an expiry leaves of a record that no count of it ends (R37 to R40). -/
theorem VoiceRec.framed_glide (r : VoiceRec) (x : Stamp) :
    (r.framed x).pitch = r.glideFrame.pitch
      ∧ ((r.framed x).glide = r.glideFrame.glide ∨ r.state = .releasing ∧ r.tail ≤ 1 ∧ (r.framed x).glide = 0) := by
  have hp : r.countFrame.pitch = r.glideFrame.pitch := by rw [VoiceRec.countFrame_frame]
  have hg : r.countFrame.glide = r.glideFrame.glide := by rw [VoiceRec.countFrame_frame]
  have ht : ∀ q : VoiceRec, (q.tailEnded x).pitch = q.pitch ∧ (q.tailEnded x).glide = 0 := fun q => by
    unfold VoiceRec.tailEnded
    split
    · exact ⟨rfl, rfl⟩
    · split <;> exact ⟨rfl, rfl⟩
  unfold VoiceRec.framed
  split
  · split <;> exact ⟨hp, .inl hg⟩
  · split
    · exact ⟨(ht _).1.trans hp, .inr ⟨‹_›, ‹_›, (ht _).2⟩⟩
    · exact ⟨hp, .inl hg⟩
  all_goals exact ⟨hp, .inl hg⟩

theorem VoiceRec.framed_of_idle {r : VoiceRec} (h : r.state = .idle) (x : Stamp) :
    r.framed x = { r.glideFrame with idle := min 65535 (r.idle + 1) } := by
  unfold VoiceRec.framed VoiceRec.countFrame
  rw [h]
  rfl

theorem VoiceRec.framed_of_gap {r : VoiceRec} (h : r.state = .stealGap) (x : Stamp) :
    r.framed x = if r.gap ≤ 1 then { r.glideFrame with state := .sounding, gap := r.gap - 1 }
      else { r.glideFrame with gap := r.gap - 1 } := by
  unfold VoiceRec.framed VoiceRec.countFrame
  rw [h]

theorem VoiceRec.framed_of_tail {r : VoiceRec} (h : r.state = .releasing) (x : Stamp) :
    r.framed x = if r.tail ≤ 1 then ({ r.glideFrame with tail := r.tail - 1 } : VoiceRec).tailEnded x
      else { r.glideFrame with tail := r.tail - 1 } := by
  unfold VoiceRec.framed VoiceRec.countFrame
  rw [h]

theorem VoiceRec.framed_of_other {r : VoiceRec} (h1 : r.state ≠ .idle) (h2 : r.state ≠ .stealGap) (h3 : r.state ≠ .releasing)
    (x : Stamp) : r.framed x = r.glideFrame := by
  unfold VoiceRec.framed VoiceRec.countFrame
  cases h : r.state
  case idle => exact absurd h h1
  case stealGap => exact absurd h h2
  case releasing => exact absurd h h3
  all_goals rfl

theorem VoiceRec.frees_eq (r : VoiceRec) :
    r.frees = (r.state == .releasing && decide (r.tail ≤ 1) && !r.tunePending && !r.offlinePending) := by
  unfold VoiceRec.frees VoiceRec.unmarkedB
  rw [Bool.and_assoc, Bool.and_assoc, Bool.and_assoc]

theorem VoiceRec.framed_lastFree {r : VoiceRec} (h : r.frees = true) (x : Stamp) : (r.framed x).lastFree = x := by
  unfold VoiceRec.frees VoiceRec.unmarkedB at h
  simp only [Bool.and_eq_true, beq_iff_eq, decide_eq_true_eq, Bool.not_eq_true'] at h
  obtain ⟨⟨hs, ht⟩, htp, hop⟩ := h
  rw [VoiceRec.framed_of_tail hs, if_pos ht, VoiceRec.glideFrame_frame]
  simp [VoiceRec.tailEnded, htp, hop]

/-- An expiry over all voices, read voice by voice. -/
theorem State.voice_frameAll (s : State) (v : Voice) :
    ∃ x, (allVoices.foldl State.frameVoice s).voice v = (s.voice v).framed x := by
  have e := State.frameVoice_fold.voice_ascending (c := fun _ => true) (s := s) trivial (v := v) rfl
  rw [filter_true_allVoices] at e
  exact ⟨_, e⟩

theorem State.frameAll_stampedFrom (s : State) :
    (allVoices.foldl State.frameVoice s).stampedFrom s.stamp fun v => (s.voice v).frees := by
  have e := State.frameVoice_fold.stampedFrom (c := fun _ => true) (s := s) trivial
    (fun _ r x h => VoiceRec.framed_lastFree h x) (fun v => (Bool.true_and _).symm)
  rwa [filter_true_allVoices] at e

/-- The ends of a gap, of a tail and of a glide, as rows of their own (R37 to R39; log entry 2). -/
theorem countEnds (v : Voice) (s : State) :
    ((s.voice v).state = .stealGap → (s.voice v).gap = 1 →
      exec (.stealGapEnd v) s = .next (s.setVoice v { s.voice v with state := .sounding, gap := 0 })) ∧
    ((s.voice v).state ≠ .stealGap ∨ 2 ≤ (s.voice v).gap → exec (.stealGapEnd v) s = .next s) ∧
    ((s.voice v).state = .releasing → (s.voice v).tail ≤ 1 → exec (.releaseTailEnd v) s = .next (s.endTail v)) ∧
    ((s.voice v).state ≠ .releasing ∨ 2 ≤ (s.voice v).tail → exec (.releaseTailEnd v) s = .next s) ∧
    ((s.voice v).glide = 1 →
      exec (.glideEnd v) s = .next (s.setVoice v { s.voice v with pitch := (s.voice v).target, glide := 0 })) ∧
    ((s.voice v).glide ≠ 1 → exec (.glideEnd v) s = .next s) := by
  refine ⟨fun h hg => ?_, fun h => ?_, fun h ht => ?_, fun h => ?_, fun h => ?_, fun h => ?_⟩
  · exact congrArg Host.Outcome.next (if_pos ⟨h, by omega⟩)
  · refine congrArg Host.Outcome.next (if_neg fun e => ?_)
    rcases h with h | h
    · exact h e.1
    · omega
  · exact congrArg Host.Outcome.next (if_pos ⟨h, ht⟩)
  · refine congrArg Host.Outcome.next (if_neg fun e => ?_)
    rcases h with h | h
    · exact h e.1
    · omega
  · exact congrArg Host.Outcome.next (if_pos h)
  · exact congrArg Host.Outcome.next (if_neg h)

/-- Settles O26: an expiry is the voices' shares in ascending number, each by the record the voice had before it. -/
theorem allocatorFramesAndCountEnds : Obligations.AllocatorFramesAndCountEnds := by
  refine ⟨fun s => ⟨_, rfl, ?_⟩, fun v s => ?_⟩
  · have hwork := State.foldl_voiceWork State.frameVoice State.frameVoice_voiceWork allVoices s
    have hframe := State.frameAll_frame allVoices (s := s)
    have hvoice := s.voice_frameAll
    have hstamped := s.frameAll_stampedFrom
    have hjoin : ∀ v, (s.voice v).state = .releasing → (s.voice v).tail ≤ 1 → (s.voice v).tunePending = true →
        (s.entry v).state = .pending → s.joinedSince (allVoices.foldl State.frameVoice s) v :=
      fun v => State.frameAll_joins nodup_allVoices (mem_allVoices v) fun _ => id
    generalize allVoices.foldl State.frameVoice s = t at *
    refine ⟨hwork.parts, hwork.port, hwork.cal, hframe, ?_, fun v => ?_⟩
    · rw [show (fun v => (s.voice v).frees) = _ from funext fun v => (s.voice v).frees_eq] at hstamped
      exact hstamped
    · obtain ⟨x, hx⟩ := hvoice v
      obtain ⟨hpitch, hglide⟩ := (s.voice v).framed_glide x
      obtain ⟨g0, g1, g2⟩ := (s.voice v).glideFrame_spec
      rw [← hx] at hpitch hglide
      refine ⟨fun h => ?_, fun h => ?_, fun h => ?_, fun h => ?_, fun h => ⟨?_, fun hg => ?_, fun hg => ?_⟩,
        fun h => ⟨fun ht => ?_, fun ht hp => ?_, fun ht hp ho => ?_, fun ht hp ho => ?_⟩, fun h1 h2 h3 => ?_⟩
      · rw [hpitch, g0 h]
        rcases hglide with e | ⟨-, -, e⟩
        · exact ⟨rfl, by rw [e, g0 h, h]⟩
        · exact ⟨rfl, e⟩
      · rw [hpitch, (g1 h).1]
        rcases hglide with e | ⟨-, -, e⟩
        · exact ⟨rfl, e.trans (g1 h).2⟩
        · exact ⟨rfl, e⟩
      · rw [hpitch, (g2 h).1]
        rcases hglide with e | ⟨e1, e2, -⟩
        · exact ⟨rfl, .inl (e.trans (g2 h).2)⟩
        · exact ⟨rfl, .inr ⟨e1, e2⟩⟩
      · rw [hx, VoiceRec.framed_of_idle h, VoiceRec.glideFrame_frame]
        exact ⟨h, rfl, rfl⟩
      · rw [hx, VoiceRec.framed_of_gap h, VoiceRec.glideFrame_frame]
        split <;> rfl
      · rw [hx, VoiceRec.framed_of_gap h, if_neg (by omega), VoiceRec.glideFrame_frame]
        exact ⟨h, rfl⟩
      · rw [hx, VoiceRec.framed_of_gap h, if_pos (by omega), hg]
        exact ⟨rfl, rfl⟩
      · rw [hx, VoiceRec.framed_of_tail h, if_neg (by omega), VoiceRec.glideFrame_frame]
        exact ⟨h, rfl, rfl⟩
      · rw [hx, VoiceRec.framed_of_tail h, if_pos (by omega), VoiceRec.glideFrame_frame]
        refine ⟨?_, ?_, ?_, fun he => hjoin v h (by omega) hp he⟩ <;> simp [VoiceRec.tailEnded, VoiceRec.drop, hp]
      · rw [hx, VoiceRec.framed_of_tail h, if_pos (by omega), VoiceRec.glideFrame_frame]
        simp [VoiceRec.tailEnded, VoiceRec.drop, hp, ho]
      · rw [hx, VoiceRec.framed_of_tail h, if_pos (by omega), VoiceRec.glideFrame_frame]
        simp [VoiceRec.tailEnded, VoiceRec.drop, hp, ho]
      · rw [hx, VoiceRec.framed_of_other h1 h2 h3, VoiceRec.glideFrame_frame]
  · obtain ⟨hgap, hgap', htail, htail', hglide, hglide'⟩ := countEnds v s
    refine ⟨hgap, hgap', fun h ht hp ho => ?_, fun h ht hp ho => ?_, fun h ht hp => ?_, htail', hglide, hglide'⟩
    · rw [htail h (by omega), State.endTail_of_unmarked ⟨hp, ho⟩]
      simp only [VoiceRec.tailEnded, VoiceRec.drop, hp, ho]
      rfl
    · rw [htail h (by omega), State.endTail_of_offlinePending hp ho]
      simp only [VoiceRec.tailEnded, VoiceRec.drop, hp, ho]
      rfl
    · have hend := State.endTail_of_tunePending hp
      have hvoice := s.voice_endTail v
      refine ⟨_, htail h (by omega), ?_, fun w hw => ?_, ?_, ?_, ?_, fun he => ?_, fun he => ?_⟩
      · rw [hvoice, if_pos rfl]
        simp [VoiceRec.tailEnded, VoiceRec.drop, hp]
      · rw [hvoice, if_neg (Ne.symm hw)]
      · exact (s.endTail_voiceWork v).parts
      · rw [State.endTail_stamp]
        simp [VoiceRec.unmarkedB, hp]
      · rw [hend]
        exact State.joinPass_notices _ v
      · rw [hend]
        rw [State.joinPass_of_not_pending (s := s.setVoice v _) he]
        rfl
      · rw [hend]
        exact State.joinsPass_setVoice (State.joinPass_joinsPass (s := s.setVoice v _) he)

end Sys2Proof.Machine
end

