-- ==== Sys2Proof/Proofs/SoftReset.lean ====
section
/-! PROOFS. The soft reset: what every block takes and keeps, and the voices that auto online brings back (R21, R193). -/

namespace Sys2Proof.Machine

/-! ### Voices that become IDLE one after another (R22) -/

/-- A voice's record after its entry into IDLE under a stamp. -/
def VoiceRec.entersIdle (r : VoiceRec) (x : Stamp) : VoiceRec := { r with state := .idle, lastFree := x, idle := 0 }

theorem State.enterIdle_fold :
    VoiceFold State.enterIdle (fun _ r x => r.entersIdle x) (fun _ _ => true) fun _ _ => True := by
  refine ⟨fun _ _ _ _ => trivial, fun s v l _ w => ?_, fun s v l _ => ?_⟩
  · rw [State.voice_enterIdle]
    split
    · rename_i e
      rw [e]
      rfl
    · rfl
  · rw [if_pos rfl]
    rfl

theorem State.enterIdle_onlyVoices (s : State) (v : Voice) : s.OnlyVoices (s.enterIdle v) := rfl

theorem State.foldl_enterIdle_onlyVoices (l : List Voice) (s : State) : s.OnlyVoices (l.foldl State.enterIdle s) := by
  induction l generalizing s with
  | nil => rfl
  | cons v l ih => exact (s.enterIdle_onlyVoices v).trans (ih _)

/-! ### The reset of every block (R193) -/

/-- The voice comes back at a soft reset: its slot is POWERED and auto online is on (R21). -/
def State.comesOnline (s : State) (v : Voice) : Bool := decide ((s.card (cardOf v)).state = .powered) && s.settings.autoOnline

theorem State.softReset_eq (s : State) : s.softReset = (allVoices.filter s.comesOnline).foldl State.enterIdle s.softBase := by
  unfold State.softReset
  split
  · rename_i h
    congr 1
    refine List.filter_congr fun v _ => ?_
    rw [State.comesOnline, h, Bool.and_true, State.powered, beq_eq_decide]
  · rename_i h
    rw [List.filter_eq_nil_iff.mpr fun v _ => by simp [State.comesOnline, h]]
    rfl

theorem State.softReset_onlyVoices (s : State) : s.softBase.OnlyVoices s.softReset := by
  rw [State.softReset_eq]
  exact State.foldl_enterIdle_onlyVoices _ _

theorem State.softReset_stampedFrom (s : State) : s.softReset.stampedFrom 0 s.comesOnline := by
  rw [State.softReset_eq]
  exact State.enterIdle_fold.stampedFrom trivial (fun _ _ _ _ => rfl) fun v => by rw [Bool.and_true]

theorem State.voice_softReset_of_online {s : State} {v : Voice} (h : s.comesOnline v = true) :
    s.softReset.voice v = ((s.voice v).soft true).entersIdle (s.softReset.voice v).lastFree := by
  have hp : s.powered v = true := by
    rw [State.powered, beq_eq_decide]
    exact (Bool.and_eq_true_iff.mp h).1
  rw [State.softReset_eq, State.enterIdle_fold.voice_ascending trivial h, State.voice_softBase, hp]
  rfl

theorem State.voice_softReset_of_not_online {s : State} {v : Voice} (h : s.comesOnline v = false) :
    s.softReset.voice v = (s.voice v).soft (s.powered v) := by
  rw [State.softReset_eq, State.enterIdle_fold.voice_of_not_mem trivial, State.voice_softBase]
  simp [h]

/-- The fields of a voice record that a soft reset gives and keeps (R21, R125). -/
theorem State.voice_softReset (s : State) (v : Voice) :
    s.softReset.voice v =
      { VoiceRec.reset with
        state := if (s.card (cardOf v)).state = .powered then (if s.settings.autoOnline then .idle else .offline) else .absent
        lastFree := (s.softReset.voice v).lastFree
        driftA := (s.voice v).driftA.soft
        driftB := (s.voice v).driftB.soft
        fails := (s.voice v).fails } := by
  cases h : s.comesOnline v with
  | true =>
    obtain ⟨hp, ha⟩ := Bool.and_eq_true_iff.mp h
    rw [if_pos (of_decide_eq_true hp), if_pos ha]
    exact State.voice_softReset_of_online h
  | false =>
    rw [State.voice_softReset_of_not_online h]
    by_cases hp : (s.card (cardOf v)).state = .powered
    · have ha : ¬ s.settings.autoOnline = true := fun ha => by simp [State.comesOnline, hp, ha] at h
      rw [if_pos hp, if_neg ha]
      simp [VoiceRec.soft, State.powered, hp, VoiceRec.reset]
    · rw [if_neg hp]
      simp [VoiceRec.soft, State.powered, hp, VoiceRec.reset]

theorem State.lastFree_softReset {s : State} {v : Voice} (h : s.comesOnline v = false) : (s.softReset.voice v).lastFree = 0 := by
  rw [State.voice_softReset_of_not_online h]
  rfl

theorem Drift.soft_frame (x : Drift) :
    x.soft.target = x.target ∧ x.soft.applied = x.applied ∧ x.soft.alarm = x.alarm ∧ x.soft.lastCheck = x.lastCheck
      ∧ x.soft.overCount = 0 ∧ x.soft.underCount = 0 := ⟨rfl, rfl, rfl, rfl, rfl, rfl⟩

theorem PatchMgr.softStatus_eq (m : PatchMgr) :
    m.softStatus = (match m.head with
      | some (.erase _) | some (.program _ _) => m.flashStatus ||| 1
      | _ => m.flashStatus) := by
  unfold PatchMgr.softStatus
  cases m.head with
  | none => rfl
  | some x => cases x <;> rfl

theorem State.softBase_overrideAt (s : State) (v : Voice) (d : DestNo) : s.softBase.overrideAt v d = none := by
  simp [State.overrideAt, State.softBase, Refresh.soft, noOverrides]

/-! ### Each block after the reset (R21, R82, R83, R96, R106, R125, R140, R164, R182, R193) -/

section Blocks
variable (s : State)

theorem State.softReset_port : s.softReset.port = { Port.reset with softCause := true, shifted := s.port.shifted } :=
  congrArg State.port s.softReset_onlyVoices
theorem State.softReset_tune : s.softReset.tune = s.tune.soft := congrArg State.tune s.softReset_onlyVoices
theorem State.softReset_refresh : s.softReset.refresh = s.refresh.soft := congrArg State.refresh s.softReset_onlyVoices
theorem State.softReset_patches : s.softReset.patches = s.patches.soft := congrArg State.patches s.softReset_onlyVoices
theorem State.softReset_zones : s.softReset.zones = Vector.replicate 8 .reset := congrArg State.zones s.softReset_onlyVoices
theorem State.softReset_notices : s.softReset.notices = .reset := congrArg State.notices s.softReset_onlyVoices
theorem State.softReset_panel : s.softReset.panel = .reset := congrArg State.panel s.softReset_onlyVoices
theorem State.softReset_cards : s.softReset.cards = s.cards := by rw [s.softReset_onlyVoices]; rfl
theorem State.softReset_settings : s.softReset.settings = s.settings := by rw [s.softReset_onlyVoices]; rfl
theorem State.softReset_pending : s.softReset.pending = s.pending := by rw [s.softReset_onlyVoices]; rfl

theorem State.part_softReset (p : PartNo) : s.softReset.part p = .reset p :=
  (congrArg (State.part · p) s.softReset_onlyVoices).trans (s.part_softBase p)
theorem State.entry_softReset (v : Voice) : s.softReset.entry v = .reset :=
  (congrArg (State.entry · v) s.softReset_onlyVoices).trans (s.entry_softBase v)
theorem State.cache_softReset (c : CacheNo) : s.softReset.cache c = .reset c :=
  (congrArg (State.cache · c) s.softReset_onlyVoices).trans (s.cache_softBase c)
theorem State.overrideAt_softReset (v : Voice) (d : DestNo) : s.softReset.overrideAt v d = none :=
  (congrArg (State.overrideAt · v d) s.softReset_onlyVoices).trans (s.softBase_overrideAt v d)

theorem State.gate_softReset (v : Voice) : s.softReset.gate v = false := by
  rw [State.gate, State.voice_softReset]
  split
  · split <;> rfl
  · rfl

end Blocks

/-! ### The fetch that collects the answer (R188, R193) -/

theorem exec_responseFetch {n : Nat} (s : State) (h : 1 ≤ n) : exec (.responseFetch n) s = .next (s.fetch n) := by
  have he : exec (.responseFetch n) s = .next (s.takeTransaction (List.replicate n 0)) := rfl
  obtain ⟨m, rfl⟩ := Nat.exists_eq_succ_of_ne_zero (by omega : n ≠ 0)
  rw [he]
  simp [List.replicate_succ, State.takeTransaction]

theorem State.fetch_of_resetRequest {n : Nat} {s : State} (hf : s.port.fall.getD s.port.state = .answerPending)
    (hr : s.port.resetRequest = true) :
    s.fetch n = ((s.endTransaction (fetchBytes n (s.port.response.getD ⟨.noAnswer, []⟩))).giveUpAnswer).softReset := by
  unfold State.fetch
  rw [hf]
  simp only [hr, if_true]

/-- Settles O12: the answer comes from the command in hand, and the fetch resets every block and then brings voices online by a
fold over their numbers. -/
theorem softResetTakenAtTheFetch : Obligations.SoftResetTakenAtTheFetch := by
  refine ⟨fun s hi => congrArg Host.Outcome.next (hostCommand_of_inHand hi _), fun n s hn hf hr => ?_⟩
  refine ⟨_, exec_responseFetch s hn, ?_⟩
  rw [State.fetch_of_resetRequest hf hr]
  obtain ⟨out, hout⟩ : ∃ out, out = fetchBytes n (s.port.response.getD ⟨.noAnswer, []⟩) := ⟨_, rfl⟩
  rw [← hout]
  obtain ⟨u, hu⟩ : ∃ u, u = (s.endTransaction out).giveUpAnswer := ⟨_, rfl⟩
  have hshift : u.port.shifted = out := by rw [hu]; rfl
  have hkept : u.voices = s.voices ∧ u.refresh = s.refresh ∧ u.tune = s.tune ∧ u.cards = s.cards ∧ u.patches = s.patches
      ∧ u.settings = s.settings ∧ u.pending = s.pending := by
    rw [hu]
    exact ⟨rfl, rfl, rfl, rfl, rfl, rfl, rfl⟩
  rw [← hu]
  clear hu
  obtain ⟨hvoices, hrefresh, htune, hcards, hpatches, hsettings, hpending⟩ := hkept
  have hvoice : ∀ v, u.voice v = s.voice v := fun v => by rw [State.voice, hvoices]; rfl
  have hcard : ∀ k, u.card k = s.card k := fun k => by rw [State.card, hcards]; rfl
  have hcomes : s.comesOnline = fun v => decide ((s.card (cardOf v)).state = .powered) && s.settings.autoOnline := rfl
  have honline : u.comesOnline = s.comesOnline := funext fun v => by rw [State.comesOnline, hcard, hsettings]; rfl
  simp only [u.softReset_port, u.softReset_tune, u.softReset_refresh, u.softReset_patches, u.softReset_zones,
    u.softReset_notices, u.softReset_panel, u.softReset_cards, u.softReset_settings, u.softReset_pending,
    htune, hrefresh, hpatches]
  refine ⟨rfl, rfl, rfl, trivial, trivial, fun a ha => ?_, fun ha => ?_, rfl, rfl, rfl, u.entry_softReset,
    rfl, u.part_softReset, rfl, trivial, hcards, hsettings, rfl, rfl, rfl, rfl, rfl, rfl, rfl, rfl, u.overrideAt_softReset,
    rfl, rfl, rfl, hpending, u.cache_softReset, rfl, rfl, s.patches.softStatus_eq, rfl, rfl, u.gate_softReset, ⟨?_, fun v hv => ?_⟩, fun v => ?_⟩
  · rw [hshift, hout, ha]
    rfl
  · rw [hshift, hout, ha]
    simp [fetchBytes, Status.code, List.flatMap_replicate]
  · rw [← hcomes, ← honline]
    exact u.softReset_stampedFrom
  · exact State.lastFree_softReset (by rw [honline]; exact hv)
  · have h := u.voice_softReset v
    rw [hvoice, hcard, hsettings] at h
    have hstate := congrArg VoiceRec.state h
    refine ⟨by rw [h]; rfl, by rw [h], hstate, ?_, fun d => ?_⟩
    · rw [hstate]
      exact h
    · rw [h]
      cases d
      · exact (s.voice v).driftA.soft_frame
      · exact (s.voice v).driftB.soft_frame

end Sys2Proof.Machine
end

