-- ==== Sys2Proof/Proofs/CardPower.lean ====
section
/-! PROOFS. A slot-down: its voices leave, the tune controller gives them up, and their keys are offered (R43, R44, R109, R120,
R133); CARD_POWER (R92). -/

namespace Sys2Proof.Machine

/-! ### Lost keys offered once (R43) -/

/-- An offer gives the key to a free voice, without glide, or does nothing (R28, R43). -/
theorem State.reHomeOne_cases (s : State) (a : Assignment) :
    s.reHomeOne a = s ∨ ∃ v h j, (s.voice v).free ∧ s.reHomeOne a = s.assign v a.part h j .none := by
  have hstep : ∀ h j n, (s.freeStep a.part h j .none n).getD s = s
      ∨ ∃ v h' j', (s.voice v).free ∧ (s.freeStep a.part h j .none n).getD s = s.assign v a.part h' j' .none := by
    intro h j n
    cases e : s.freeStep a.part h j .none n with
    | none => exact .inl rfl
    | some t =>
      obtain ⟨-, v, hv, rfl⟩ := State.freeStep_eq_some.mp e
      exact .inr ⟨v, h, j, State.freeChoice_free hv, rfl⟩
  unfold State.reHomeOne
  split
  · exact .inl rfl
  · simp only
    split
    · exact hstep _ _ _
    all_goals
      split
      · split
        · exact hstep _ _ _
        · exact .inl rfl
      · exact .inl rfl

/-- What every assignment of a free voice keeps, the offers of lost keys keep. -/
theorem State.reHome_keeps {P : State → Prop}
    (hP : ∀ (t : State) (v : Voice) (p : PartNo) (h : HeldKey) (j : Nat), (t.voice v).free → P t → P (t.assign v p h j .none))
    (l : List Assignment) {s : State} (hs : P s) : P (s.reHome l) := by
  induction l generalizing s with
  | nil => exact hs
  | cons a l ih =>
    refine ih (s := s.reHomeOne a) ?_
    rcases s.reHomeOne_cases a with e | ⟨v, h, j, hv, e⟩
    · rw [e]; exact hs
    · rw [e]; exact hP s v a.part h j hv hs

/-- A voice that no free-voice step takes keeps its record (R28). -/
theorem State.voice_reHome_of_not_free (l : List Assignment) {s : State} {v : Voice} (hv : ¬ (s.voice v).free) :
    (s.reHome l).voice v = s.voice v := by
  refine State.reHome_keeps (P := fun t => t.voice v = s.voice v) (fun t w p h j hw ht => ?_) l rfl
  have hne : v ≠ w := fun e => hv (ht ▸ e ▸ hw)
  exact (State.voice_assign_of_ne hne ..).trans ht

/-! ### The voices of a slot that leave (R44) -/

/-- A voice record without assignment, ABSENT (R44). -/
def VoiceRec.removed (r : VoiceRec) : VoiceRec :=
  { r with state := .absent, asg := none, glide := 0, tail := 0, gap := 0, tunePending := false, offlinePending := false }

theorem VoiceRec.removed_not_free (r : VoiceRec) : ¬ r.removed.free := by
  simp [VoiceRec.removed, VoiceRec.free, VoiceRec.tailing]

theorem State.dropCheck_voices_stamp (s : State) (v : Voice) :
    (s.dropCheck v).voices = s.voices ∧ (s.dropCheck v).stamp = s.stamp :=
  ⟨(State.dropCheck_passWork s v).voices, (State.dropCheck_passWork s v).stamp⟩

theorem State.loseService_voices_stamp (s : State) (v : Voice) :
    (s.loseService v).voices = s.voices ∧ (s.loseService v).stamp = s.stamp := by
  have h := State.dropService_passWork s
  unfold State.loseService
  split
  · split
    · exact ⟨h.voices, h.stamp⟩
    · exact ⟨rfl, rfl⟩
  · exact ⟨rfl, rfl⟩

theorem State.loseVoice_voices_stamp (s : State) (v : Voice) :
    (s.loseVoice v).voices = s.voices ∧ (s.loseVoice v).stamp = s.stamp := by
  have h1 := State.dropCheck_voices_stamp s v
  have h2 := State.loseService_voices_stamp (s.dropCheck v) v
  have h : (s.unclaimed v).voices = s.voices ∧ (s.unclaimed v).stamp = s.stamp :=
    ⟨h2.1.trans h1.1, h2.2.trans h1.2⟩
  by_cases ht : ((s.unclaimed v).entry v).toServe
  · rw [State.loseVoice_of_toServe ht]
    exact h
  · rw [State.loseVoice_of_not_toServe ht]
    exact h

theorem State.voice_removeVoice (s : State) (v w : Voice) :
    (s.removeVoice v).voice w = if v = w then (s.voice w).removed else s.voice w := by
  have h : ∀ u, (s.loseVoice v).voice u = s.voice u := fun u => by
    rw [State.voice, (State.loseVoice_voices_stamp s v).1]
    rfl
  unfold State.removeVoice
  rw [State.voice_modVoice]
  split
  · rw [h]; rfl
  · exact h w

theorem State.removeVoice_stamp (s : State) (v : Voice) : (s.removeVoice v).stamp = s.stamp :=
  (State.loseVoice_voices_stamp s v).2

theorem State.removeVoice_voiceWork (s : State) (v : Voice) : s.VoiceWork (s.removeVoice v) :=
  (State.loseVoice_voiceWork s v).trans (State.modVoice_voiceWork _ v _)

/-- A slot's voices gone from the allocator and the tune controller, before the pass goes on (R44). -/
def State.slotGone (s : State) (k : CardNo) : State := (voicesOf k).foldl State.removeVoice s

/-- The state in which a slot-down offers the keys lost (R43, R44, R104, R110). -/
def State.slotSettled (s : State) (k : CardNo) : State := (s.slotGone k).settlePass.arbitrate

theorem State.slotDown_eq (s : State) (k : CardNo) :
    s.slotDown k = (s.slotSettled k).reHome ((voicesOf k).filterMap fun v => (s.voice v).lostKey) := rfl

theorem mem_voicesOf {k : CardNo} {v : Voice} : v ∈ voicesOf k ↔ v.val / 4 = k.val := by
  simp [voicesOf, cardOf, Fin.ext_iff, mem_allVoices]

theorem State.voice_foldl_removeVoice (l : List Voice) (s : State) (w : Voice) :
    (l.foldl State.removeVoice s).voice w = if w ∈ l then (s.voice w).removed else s.voice w := by
  induction l generalizing s with
  | nil => simp
  | cons v l ih =>
    rw [List.foldl_cons, ih, State.voice_removeVoice]
    by_cases e : v = w
    · simp [e, VoiceRec.removed]
    · simp [e, Ne.symm e]

theorem State.foldl_removeVoice_stamp (l : List Voice) (s : State) : (l.foldl State.removeVoice s).stamp = s.stamp := by
  induction l generalizing s with
  | nil => rfl
  | cons v l ih => exact (ih _).trans (s.removeVoice_stamp v)

theorem State.slotGone_voiceWork (s : State) (k : CardNo) : s.VoiceWork (s.slotGone k) :=
  State.foldl_voiceWork _ State.removeVoice_voiceWork _ s

theorem State.slotGone_slotSettled (s : State) (k : CardNo) : (s.slotGone k).PassWork (s.slotSettled k) :=
  (State.settlePass_passWork _).trans (State.arbitrate_passWork _)

theorem State.slotSettled_voiceWork (s : State) (k : CardNo) : s.VoiceWork (s.slotSettled k) :=
  (s.slotGone_voiceWork k).trans (s.slotGone_slotSettled k).voiceWork

theorem State.voice_slotSettled (s : State) (k : CardNo) (v : Voice) :
    (s.slotSettled k).voice v = if v.val / 4 = k.val then (s.voice v).removed else s.voice v := by
  rw [(s.slotGone_slotSettled k).voice, State.slotGone, State.voice_foldl_removeVoice]
  simp only [mem_voicesOf]

theorem State.slotSettled_stamp (s : State) (k : CardNo) : (s.slotSettled k).stamp = s.stamp :=
  (s.slotGone_slotSettled k).stamp.trans (State.foldl_removeVoice_stamp _ s)

/-- The voices of a slot that goes down are ABSENT (R44). -/
theorem State.voice_slotDown_of_lost (s : State) {k : CardNo} {v : Voice} (hv : v.val / 4 = k.val) :
    (s.slotDown k).voice v = (s.voice v).removed := by
  have h := (s.voice_slotSettled k v).trans (if_pos hv)
  rw [State.slotDown_eq, State.voice_reHome_of_not_free _ (h ▸ (s.voice v).removed_not_free), h]

/-! ### CARD_POWER (R92) -/

theorem card?_of_eq {b : Byte} {k : CardNo} (h : b.toNat = k.val) : card? b = some k := index?_eq_some.mpr h

theorem card?_of_gt {b : Byte} (h : 3 < b.toNat) : card? b = none := index?_eq_none.mpr h

theorem flag?_of_gt {b : Byte} (h : 1 < b.toNat) : flag? b = none := by
  have h0 : b ≠ 0 := by rintro rfl; exact absurd h (by decide)
  have h1 : b ≠ 1 := by rintro rfl; exact absurd h (by decide)
  rw [flag?, if_neg h0, if_neg h1]

theorem State.card_modCard_self (s : State) (k : CardNo) (f : Card → Card) : (s.modCard k f).card k = f (s.card k) := by
  simp [State.modCard, State.card_setCard]

/-- What CARD_POWER serves, at each slot and power (R92). -/
def State.cardPowered (s : State) (k : CardNo) : Bool → State
  | true => match s.cardOn k with
    | some u => u.answer .ok []
    | none => s.refuse .wrongState
  | false => (s.cardOff k).answer .ok []

/-- Settles O46: by the slot's state; the power switched off from POWERED is the slot-down. -/
theorem cardPowerByState : Obligations.CardPowerByState := by
  intro slot power s hi
  have hexec : exec (.cardPower slot power) s = .next (match card? slot, flag? power with
      | some k, some b => s.cardPowered k b
      | _, _ => s.refuse .badValue) := by
    refine (congrArg Host.Outcome.next (hostCommand_of_inHand hi _)).trans ?_
    cases card? slot with
    | none => rfl
    | some k => rcases flag? power with _ | _ | _ <;> rfl
  refine ⟨fun h => ?_, fun k hk => ⟨fun hp => ?_, fun hp => ?_⟩⟩
  · rw [hexec]
    rcases h with h | h
    · rw [card?_of_gt h]
      rfl
    · rw [flag?_of_gt h]
      cases card? slot <;> rfl
  · have hon : exec (.cardPower slot power) s = .next (s.cardPowered k true) := by
      rw [hexec, card?_of_eq hk, hp]
      rfl
    rw [hon]
    refine ⟨fun h => ?_, fun h => ?_, fun h => ?_⟩
    · have e : s.cardOn k = none := by
        unfold State.cardOn
        rcases h with h | h | ⟨h, hr⟩
        · simp only [h]
        · simp only [h]
        · simp only [h, hr, if_true]
      rw [State.cardPowered, e]
      rfl
    · have e : s.cardOn k = some (s.enterPowering k) := by
        unfold State.cardOn
        rcases h with h | ⟨h, hr⟩
        · simp only [h]
        · simp only [h, hr]
          rfl
      rw [State.cardPowered, e]
      rfl
    · have e : s.cardOn k = some s := by
        unfold State.cardOn
        rcases h with h | h <;> simp only [h]
      rw [State.cardPowered, e]
      rfl
  · have hoff : exec (.cardPower slot power) s = .next ((s.cardOff k).answer .ok []) := by
      rw [hexec, card?_of_eq hk, hp]
      rfl
    refine ⟨fun h => ?_, fun h => ?_, fun h => ?_, fun h => ?_⟩
    · have e : s.cardOff k = s := by
        unfold State.cardOff
        rcases h with h | h | h <;> simp only [h]
      rw [hoff, e]
      rfl
    · have e : s.cardOff k = s.modCard k fun c => { c with power := false, readyTimer := 0, state := .seated } := by
        unfold State.cardOff
        simp only [h]
      rw [hoff, e]
      rfl
    · have e : s.cardOff k = s.modCard k fun c => { c with state := .seated } := by
        unfold State.cardOff
        simp only [h]
      rw [hoff, e]
      rfl
    · have e : s.cardOff k =
          ((s.modCard k fun c => { c with power := false }).slotDown k).modCard k fun c => { c with state := .seated } := by
        unfold State.cardOff
        simp only [h]
      refine ⟨_, hoff, ?_⟩
      rw [e]
      have hmod : (s.modCard k fun c => { c with power := false }) = s.setCard k { s.card k with power := false } := rfl
      have hkey := State.slotDown_keyWork (s.setCard k { s.card k with power := false }) k
      have hgone : ∀ v : Voice, v.val / 4 = k.val → _ := fun v =>
        State.voice_slotDown_of_lost (s.setCard k { s.card k with power := false })
      rw [hmod]
      generalize (s.setCard k { s.card k with power := false }).slotDown k = u at hkey hgone ⊢
      have hcard : ∀ j, u.card j = (s.setCard k { s.card k with power := false }).card j := fun j => by
        rw [State.card, hkey.cards]
        rfl
      have hnotices := congrArg Notices.card hkey.notices
      refine ⟨?_, State.answer_port hkey.port _ _, hnotices, hkey.cal, fun j hj => ?_, ⟨rfl, rfl, rfl, rfl, rfl, rfl⟩,
        fun v hv => ?_⟩
      · have h1 := State.card_modCard_self u k fun c => { c with state := .seated }
        rw [hcard, State.card_setCard, if_pos rfl] at h1
        exact h1
      · have h1 : (u.modCard k fun c => { c with state := .seated }).card j = u.card j := by
          rw [State.modCard, State.card_setCard, if_neg (Ne.symm hj)]
        exact h1.trans ((hcard j).trans (by rw [State.card_setCard, if_neg (Ne.symm hj)]))
      · have h1 : (u.voice v) = _ := hgone v hv
        exact ⟨congrArg VoiceRec.state h1, congrArg VoiceRec.asg h1⟩

end Sys2Proof.Machine
end

