-- ==== Sys2Proof/Proofs/PartWork.lean ====
section
/-! PROOFS. Work of the allocator for one part: it leaves the other parts' records, takes no voice for them, and leaves the part
within its limit (R24, R27 to R42). -/

namespace Sys2Proof.Machine

/-- From `s` to `t`, the allocator works for part `p`. -/
structure State.ForPart (p : PartNo) (s t : State) : Prop where
  others : ∀ q, q ≠ p → t.part q = s.part q
  counts : ∀ q, q ≠ p → t.count q ≤ s.count q
  live : (t.part p).live = (s.part p).live
  fits : s.count p ≤ s.limit p → t.count p ≤ s.limit p

section
variable {p : PartNo} {s t u : State}

theorem State.ForPart.limit (h : s.ForPart p t) : t.limit p = s.limit p := State.limit_of_live h.live

theorem State.ForPart.refl (s : State) : s.ForPart p s := ⟨fun _ _ => rfl, fun _ _ => le_rfl, rfl, id⟩

theorem State.ForPart.trans (h : s.ForPart p t) (k : t.ForPart p u) : s.ForPart p u :=
  ⟨fun q hq => (k.others q hq).trans (h.others q hq), fun q hq => (k.counts q hq).trans (h.counts q hq), k.live.trans h.live,
    fun hp => h.limit ▸ k.fits (h.limit ▸ h.fits hp)⟩

theorem State.ForPart.of_mono (hp : ∀ q, t.part q = s.part q) (hc : ∀ q v, t.serves q v → s.serves q v) : s.ForPart p t :=
  ⟨fun q _ => hp q, fun q _ => State.count_mono (hc q), by rw [hp], (State.count_mono (hc p)).trans⟩

theorem State.ForPart.ite {c : Prop} [Decidable c] (ht : s.ForPart p t) (hu : s.ForPart p u) : s.ForPart p (if c then t else u) := by
  split
  · exact ht
  · exact hu

theorem State.ForPart.getD {o : Option State} {d : State} (h : ∀ t, o = some t → s.ForPart p t) (hd : s.ForPart p d) :
    s.ForPart p (o.getD d) := by
  cases o with
  | none => exact hd
  | some t => exact h t rfl

end

section
variable (s : State) (p : PartNo)

/-- A voice for a part below its limit, or one of its own (R25, R29). -/
theorem State.assign_forPart {s : State} {p : PartNo} {v : Voice} (hv : s.count p < s.limit p ∨ s.serves p v) (h : HeldKey)
    (j : Nat) (g : GlideStart) : s.ForPart p (s.assign v p h j g) := by
  refine ⟨fun q hq => ?_, fun q hq => State.count_mono fun w hw => ?_, (State.assign_keyWork s v p h j g).live p, fun hp => ?_⟩
  · rw [State.part_assign, if_neg (Ne.symm hq)]
  · rw [State.serves_assign] at hw
    split at hw
    · exact absurd hw hq
    · exact hw
  · rcases hv with hv | hv
    · have := State.count_le_succ (s := s) (t := s.assign v p h j g) (p := p) (v := v) fun w hw hs => by
        rwa [State.serves_assign, if_neg hw] at hs
      omega
    · refine (State.count_mono fun w hw => ?_).trans hp
      rw [State.serves_assign] at hw
      split at hw
      · rename_i e
        exact e ▸ hv
      · exact hw

theorem State.modPart_forPart (f : Part → Part) (hf : (f (s.part p)).live = (s.part p).live) : s.ForPart p (s.modPart p f) := by
  refine ⟨fun q hq => ?_, fun q _ => le_of_eq rfl, ?_, id⟩
  · rw [State.part_modPart, if_neg (Ne.symm hq)]
  · rw [State.part_modPart, if_pos rfl, hf]

theorem State.dropKey_forPart : s.ForPart p (s.dropKey p) := s.modPart_forPart p _ rfl

theorem State.stealStep_forPart {s t : State} {p : PartNo} {h : HeldKey} {j : Nat} {g : GlideStart} {n : Nat} {own : Bool}
    (hn : n ≤ s.limit p) (e : s.stealStep p h j g n own = some t) : s.ForPart p t := by
  obtain ⟨v, hv, rfl⟩ := State.stealStep_eq_some.mp e
  have hmem := (List.mem_filter.mp (State.stealChoice_mem hv)).2
  simp only [Bool.and_eq_true, beq_iff_eq] at hmem
  obtain ⟨⟨⟨⟨hs, -⟩, -⟩, hown⟩, -⟩ := hmem
  refine (State.assign_forPart (v := v) ?_ h j g).trans (State.modPart_forPart _ p _ rfl)
  by_cases hlt : s.count p < n
  · exact .inl (by omega)
  · rw [if_neg hlt] at hown
    exact .inr ⟨.inl hs, beq_iff_eq.mp hown⟩

theorem State.acquire_forPart {s t : State} {p : PartNo} {h : HeldKey} {j : Nat} {g : GlideStart} {n : Nat} {own : Bool}
    (hn : n ≤ s.limit p) (e : s.acquire p h j g n own = some t) : s.ForPart p t := by
  unfold State.acquire at e
  rcases Option.or_eq_some_iff.mp e with e | ⟨-, e⟩
  · obtain ⟨hlt, v, -, rfl⟩ := State.freeStep_eq_some.mp e
    exact State.assign_forPart (.inl (by omega)) h j g
  · exact State.stealStep_forPart hn e

theorem State.acquireOrDrop_forPart {s : State} {p : PartNo} {n : Nat} (hn : n ≤ s.limit p) (h : HeldKey) (j : Nat)
    (g : GlideStart) (own : Bool) : s.ForPart p ((s.acquire p h j g n own).getD (s.dropKey p)) :=
  .getD (fun _ e => State.acquire_forPart hn e) (s.dropKey_forPart p)

theorem State.replayPoly_forPart (hs : List HeldKey) : s.ForPart p (s.replayPoly p hs) := by
  induction hs generalizing s with
  | nil => exact .refl s
  | cons h hs ih => exact (State.acquireOrDrop_forPart le_rfl h 0 .none false).trans (ih _)

theorem State.acquireStack_forPart {s : State} {p : PartNo} {u : Nat} (hu : u ≤ s.limit p) (e : HeldKey) (g : GlideStart)
    (js : List Nat) : s.ForPart p (s.acquireStack p e g u js) := by
  induction js generalizing s with
  | nil => exact .refl s
  | cons j js ih =>
    unfold State.acquireStack
    split
    · exact ih hu
    · split
      · rename_i t ht
        have h1 := State.acquire_forPart hu ht
        exact h1.trans (ih (h1.limit ▸ hu))
      · exact .refl s

theorem State.fillStack_forPart (hu : (s.part p).live.unisonCount ≤ s.limit p) (e : HeldKey) (g : GlideStart) :
    s.ForPart p (s.fillStack p e g) := by
  unfold State.fillStack
  have h1 : s.ForPart p (if s.count p < (s.part p).live.unisonCount then
      s.acquireStack p e g (s.part p).live.unisonCount (List.range (s.part p).live.unisonCount) else s) :=
    .ite (State.acquireStack_forPart hu e g _) (.refl s)
  exact .ite (h1.trans (State.dropKey_forPart _ p)) h1

theorem State.releaseAll_forPart {l : List Voice} (hl : l.Nodup) : s.ForPart p (l.foldl State.releaseClear s) :=
  .of_mono (fun q => (State.foldl_voiceWork _ State.releaseClear_voiceWork l s).part q)
    fun q v hv => ((State.serves_releaseAll hl q v).mp hv).1

theorem State.reduce_forPart : s.ForPart p (s.reduce p) :=
  s.releaseAll_forPart p ((s.nodup_byAge p).sublist (List.take_sublist _ _))

theorem State.allocAllOff_forPart : s.ForPart p (s.allocAllOff p) := s.releaseAll_forPart p (s.nodup_partVoices p)

theorem State.reseat_forPart : s.ForPart p (s.reseat p) := by
  have h1 := s.allocAllOff_forPart p
  have hunison : ((s.allocAllOff p).part p).live.voiceMode = .unison →
      ((s.allocAllOff p).part p).live.unisonCount ≤ (s.allocAllOff p).limit p := fun h => (State.limit_of_unison h).ge
  have hmono : ((s.allocAllOff p).part p).live.voiceMode = .mono → 1 ≤ (s.allocAllOff p).limit p :=
    fun h => (State.limit_of_mono h).ge
  unfold State.reseat
  simp only
  split
  · exact h1.trans (State.replayPoly_forPart _ p _)
  · split
    · exact h1.trans (State.acquireOrDrop_forPart (hmono ‹_›) _ _ _ _)
    · exact h1
  · split
    · exact h1.trans (State.fillStack_forPart _ p (hunison ‹_›) _ _)
    · exact h1

theorem State.afterPatch_forPart (old : VoiceMode) : s.ForPart p (s.afterPatch p old) :=
  .ite (s.reduce_forPart p) (s.reseat_forPart p)

/-- A part's change of patch leaves it within its limit, whatever its count was (R41, R42). -/
theorem State.count_afterPatch (old : VoiceMode) : (s.afterPatch p old).count p ≤ s.limit p := by
  unfold State.afterPatch
  split
  · exact (s.count_reduce p).trans_le (Nat.min_le_right _ _)
  · have h0 := s.count_allocAllOff p
    have h1 := s.allocAllOff_forPart p
    have h2 : (s.allocAllOff p).ForPart p (s.reseat p) := by
      unfold State.reseat
      simp only
      split
      · exact State.replayPoly_forPart _ p _
      · split
        · exact State.acquireOrDrop_forPart (State.limit_of_mono ‹_›).ge _ _ _ _
        · exact .refl _
      · split
        · exact State.fillStack_forPart _ p (State.limit_of_unison ‹_›).ge _ _
        · exact .refl _
    exact h1.limit ▸ h2.fits (by omega)

end

/-- Work for one part that leaves it within its limit, from a state whose other parts fit (R24). -/
theorem State.ForPart.countsFit {s t : State} {p : PartNo} (h : s.ForPart p t) (hp : t.count p ≤ s.limit p)
    (hc : ∀ q, q ≠ p → s.count q ≤ s.limit q) : t.countsFit := fun q => by
  by_cases e : q = p
  · rw [e, h.limit]
    exact hp
  · rw [State.limit_of_live (s := s) (by rw [h.others q e])]
    exact (h.counts q e).trans (hc q e)

end Sys2Proof.Machine
end

