-- ==== Sys2Proof/Proofs/WriteParam.lean ====
section
/-! PROOFS. WRITE_PARAM: one field of a live patch, what it does to the part's voices, and the arming of the panel (R149, R161,
R162). -/

namespace Sys2Proof.Machine

/-! ### The arming of the panel (R149) -/

/-- The arming of some channels against a patch, as the statements write it (R149). -/
theorem State.armedIn_of_channels {s t : State} {pick : ChannelNo → Prop} [DecidablePred pick] {live : Patch}
    (h : ∀ c, t.channel c = if pick c then (s.channel c).arm live else s.channel c) : s.armedIn t pick live := by
  intro c
  refine ⟨fun i hp hr hm => ?_, fun hn => ?_⟩
  · have harm : t.channel c = (s.channel c).armed (live.param i) := by
      rw [h, if_pos hp, Channel.arm, hr, hm]
    rw [harm]
    unfold Channel.armed
    refine ⟨fun hi => ?_, fun hi => ?_⟩
    · rw [if_pos hi]
      simp only [pickupOf, Patch.param, BitVec.toNat_inj]
      rfl
    · rw [if_neg (by simp [hi])]
  · rw [h]
    split
    · rename_i hp
      unfold Channel.arm
      split
      · rename_i i hr hm
        rcases hn with hn | hn | hn
        · exact absurd hp hn
        · exact absurd hr (hn i)
        · exact absurd hm (by simp [hn])
      · rfl
    · rfl

theorem State.armedIn.mono {s t : State} {p q : ChannelNo → Prop} {live : Patch} (h : s.armedIn t p live)
    (hpq : ∀ c, (∃ i, (s.channel c).role = .parameter i) → (q c ↔ p c)) : s.armedIn t q live := by
  intro c
  obtain ⟨h1, h2⟩ := h c
  refine ⟨fun i hq hr => h1 i ((hpq c ⟨i, hr⟩).mp hq) hr, fun hn => ?_⟩
  by_cases hr : ∃ i, (s.channel c).role = .parameter i
  · refine h2 (hn.imp_left fun hq hp => hq ((hpq c hr).mpr hp))
  · exact h2 (.inr (.inl fun i e => hr ⟨i, e⟩))

/-! ### The fields of WRITE_PARAM and their numbers (R190) -/

/-- The number of a discrete field (R190). -/
def Discrete.number : Discrete → Nat
  | .voiceMode => 32
  | .voiceLimit => 33
  | .unisonCount => 34
  | .unisonSpread => 35
  | .bendRange => 36
  | .glideMode => 37
  | .keyPriority => 38
  | .monoTrigger => 39

/-- The number of a field (R190). -/
def Field.number : Field → Nat
  | .param i => i.val
  | .discrete d => d.number
  | .name => 48

theorem Discrete.number_range (d : Discrete) : 32 ≤ d.number ∧ d.number ≤ 39 := by cases d <;> decide

theorem Field.number_eq_48 {f : Field} : f.number = 48 ↔ f = .name := by
  cases f with
  | param i => simp only [Field.number, reduceCtorEq, iff_false]; omega
  | discrete d =>
    have := d.number_range
    simp only [Field.number, reduceCtorEq, iff_false]
    omega
  | name => simp [Field.number]

theorem field?_of_number {b : Byte} {f : Field} (h : b.toNat = f.number) : field? b = some f := by
  have hne : b.toNat ≠ 48 → b ≠ 48 := fun hn e => hn (by rw [e]; rfl)
  unfold field?
  cases f with
  | param i => rw [index?_eq_some.mpr h]
  | discrete d =>
    have hd := d.number_range
    have h : b.toNat = d.number := h
    have hnone : index? 25 b.toNat = none := index?_eq_none.mpr (by omega)
    rw [hnone]
    simp only
    rw [if_neg (hne (by omega)), if_pos (by omega), h]
    cases d <;> rfl
  | name =>
    have h : b.toNat = 48 := h
    have e : b = 48 := BitVec.eq_of_toNat_eq h
    rw [e]
    rfl

theorem discreteOf_eq_none {n : Nat} (h : 8 ≤ n) : discreteOf n = none := by
  obtain ⟨m, rfl⟩ := Nat.exists_eq_add_of_le' h
  rfl

theorem field?_of_unknown {b : Byte} (h : ¬ (b.toNat ≤ 24 ∨ (32 ≤ b.toNat ∧ b.toNat ≤ 39) ∨ b.toNat = 48)) :
    field? b = none := by
  push Not at h
  obtain ⟨h1, h2, h3⟩ := h
  have hnone : index? 25 b.toNat = none := index?_eq_none.mpr (by omega)
  have hne : b ≠ 48 := fun e => h3 (by rw [e]; rfl)
  unfold field?
  rw [hnone]
  simp only
  rw [if_neg hne]
  split
  · rename_i h32
    rw [discreteOf_eq_none (by have := h2 h32; omega)]
    rfl
  · rfl

theorem exists_field {n : Nat} (h : n ≤ 24 ∨ (32 ≤ n ∧ n ≤ 39) ∨ n = 48) : ∃ f : Field, n = f.number := by
  rcases h with h | ⟨h1, h2⟩ | h
  · exact ⟨.param ⟨n, by omega⟩, rfl⟩
  · have hd : ∃ d : Discrete, n = d.number := by
      obtain rfl | rfl | rfl | rfl | rfl | rfl | rfl | rfl :
        n = 32 ∨ n = 33 ∨ n = 34 ∨ n = 35 ∨ n = 36 ∨ n = 37 ∨ n = 38 ∨ n = 39 := by omega
      exacts [⟨.voiceMode, rfl⟩, ⟨.voiceLimit, rfl⟩, ⟨.unisonCount, rfl⟩, ⟨.unisonSpread, rfl⟩, ⟨.bendRange, rfl⟩,
        ⟨.glideMode, rfl⟩, ⟨.keyPriority, rfl⟩, ⟨.monoTrigger, rfl⟩]
    obtain ⟨d, hd⟩ := hd
    exact ⟨.discrete d, hd⟩
  · exact ⟨.name, h⟩

theorem part?_of_eq {b : Byte} {p : PartNo} (h : b.toNat = p.val) : part? b = some p := index?_eq_some.mpr h

theorem part?_of_gt {b : Byte} (h : 3 < b.toNat) : part? b = none := index?_eq_none.mpr h

/-- A WRITE_PARAM that a frame carries has a value of 2 or of 12 bytes (R190). -/
theorem writeParam_length {n : Nat} {payload value : List Byte} {a f : Byte}
    (h : commandOfPayload n payload = some (.writeParam a f value)) : value.length = 2 ∨ value.length = 12 := by
  unfold commandOfPayload at h
  split at h
  all_goals
    repeat' split at h
    all_goals simp_all

theorem State.writeParam_length_of_inHand {s : State} {a f : Byte} {value : List Byte}
    (h : s.inHand = some (.writeParam a f value)) : value.length = 2 ∨ value.length = 12 := by
  have hf := State.commandOfFrame_of_inHand h
  unfold commandOfFrame at hf
  split at hf
  · split at hf
    · exact writeParam_length hf
    · cases hf
  · cases hf

/-! ### The patch written (R159, R161) -/

/-- The 16-bit value of a numeric field. -/
def fieldWord (value : List Byte) : Nat := (word16 (recordByte value 0) (recordByte value 1)).toNat

/-- A patch with one field written (R159, R161). -/
def Field.put (f : Field) (value : List Byte) (old : Patch) : Patch :=
  match f with
  | .param i => old.setParam i (paramValue (fieldWord value))
  | .discrete d => old.setDiscrete d (fieldWord value)
  | .name => { old with name := nameOf value }

theorem voiceModeOf_eq (n : Nat) : voiceModeOf n = if n = 0 then .poly else if n = 1 then .mono else .unison := by
  unfold voiceModeOf; split <;> simp_all

theorem glideModeOf_eq (n : Nat) : glideModeOf n = if n = 0 then .off else if n = 1 then .always else .legato := by
  unfold glideModeOf; split <;> simp_all

theorem keyPriorityOf_eq (n : Nat) : keyPriorityOf n = if n = 0 then .last else if n = 1 then .low else .high := by
  unfold keyPriorityOf; split <;> simp_all

theorem monoTriggerOf_eq (n : Nat) : monoTriggerOf n = if n = 0 then .retrig else .legato := by
  unfold monoTriggerOf; split <;> simp_all

/-- Every field of the patch after a write, by the number of the field written (R159, R190). -/
theorem Field.put_fields (f : Field) (value : List Byte) (old : Patch) :
    let n := f.number
    let x := fieldWord value
    let new := f.put value old
    (∀ i : Fin 25, new.params[i] = if n = i.val then BitVec.ofNat 12 (min 4095 x) else old.params[i]) ∧
    new.voiceMode = (if n = 32 then (if x = 0 then .poly else if x = 1 then .mono else .unison) else old.voiceMode) ∧
    new.voiceLimit = (if n = 33 then max 1 (min 16 x) else old.voiceLimit) ∧
    new.unisonCount = (if n = 34 then max 1 (min 8 x) else old.unisonCount) ∧
    new.unisonSpread = (if n = 35 then min 31 x else old.unisonSpread) ∧
    new.bendRange = (if n = 36 then min 24 x else old.bendRange) ∧
    new.glideMode = (if n = 37 then (if x = 0 then .off else if x = 1 then .always else .legato) else old.glideMode) ∧
    new.keyPriority = (if n = 38 then (if x = 0 then .last else if x = 1 then .low else .high) else old.keyPriority) ∧
    new.monoTrigger = (if n = 39 then (if x = 0 then .retrig else .legato) else old.monoTrigger) ∧
    (∀ i : Fin 12, new.name[i] = if n = 48 then
        (if 0x20 ≤ (recordByte value i.val).toNat ∧ (recordByte value i.val).toNat ≤ 0x7E then recordByte value i.val
          else 0x20) else old.name[i]) := by
  cases f with
  | param k =>
    have hk := k.isLt
    have hne : ∀ n, 25 ≤ n → k.val ≠ n := fun n hn => by omega
    simp only [Field.number, Field.put, Patch.setParam, hne 32 (by omega), hne 33 (by omega), hne 34 (by omega),
      hne 35 (by omega), hne 36 (by omega), hne 37 (by omega), hne 38 (by omega), hne 39 (by omega), hne 48 (by omega), if_false,
      implies_true, and_true]
    intro i
    exact Vector.getElem_set ..
  | discrete d =>
    have hne : ∀ i : Fin 25, d.number ≠ i.val := fun i => by have := d.number_range; omega
    cases d
    all_goals
      simp only [Field.number] at hne ⊢
      simp [Field.put, Patch.setDiscrete, Discrete.number, clampNat, voiceModeOf_eq, glideModeOf_eq, keyPriorityOf_eq,
        monoTriggerOf_eq]
      intro i
      exact (if_neg (hne i)).symm
  | name =>
    have hne : ∀ i : Fin 25, 48 ≠ i.val := fun i => by omega
    simp [Field.number, Field.put, nameOf, nameChar, hne]

/-! ### The state after a write (R42, R149, R161, R162) -/

/-- A WRITE_PARAM of a field whose length fits, without its answer. -/
def State.fieldWritten (s : State) (p : PartNo) (f : Field) (value : List Byte) : State :=
  match f with
  | .param i => s.writeContinuous p i (paramValue (fieldWord value))
  | .discrete d => s.writeDiscrete p d (fieldWord value)
  | .name => s.editLive p fun q => { q with name := nameOf value }

theorem State.writeField_of_fits (s : State) (p : PartNo) {f : Field} {value : List Byte} (hl : value.length = 2 ∨ value.length = 12)
    (h : f = .name ↔ value.length = 12) : s.writeField p f value = (s.fieldWritten p f value).answer .ok [] := by
  have htwo : f ≠ .name → ∃ hi lo, value = [hi, lo] := fun hf =>
    List.length_eq_two.mp (hl.resolve_right fun e => hf (h.mpr e))
  cases f with
  | param i =>
    obtain ⟨hi, lo, rfl⟩ := htwo (by simp)
    rfl
  | discrete d =>
    obtain ⟨hi, lo, rfl⟩ := htwo (by simp)
    rfl
  | name =>
    unfold State.writeField
    simp only [h.mp rfl, if_true]
    rfl

theorem State.writeField_of_unfit (s : State) (p : PartNo) {f : Field} {value : List Byte}
    (hl : value.length = 2 ∨ value.length = 12) (h : f = .name ↔ value.length = 2) :
    s.writeField p f value = s.refuse .badLength := by
  have hshort : f ≠ .name → ∀ hi lo, value ≠ [hi, lo] := fun hf hi lo e => hf (h.mpr (by rw [e]; rfl))
  cases f with
  | param i =>
    rcases value with _ | ⟨a, _ | ⟨b, _ | ⟨c, l⟩⟩⟩
    case cons.cons.nil => exact absurd rfl (hshort (by simp) a b)
    all_goals rfl
  | discrete d =>
    rcases value with _ | ⟨a, _ | ⟨b, _ | ⟨c, l⟩⟩⟩
    case cons.cons.nil => exact absurd rfl (hshort (by simp) a b)
    all_goals rfl
  | name =>
    unfold State.writeField
    simp only [h.mp rfl]
    rfl

/-- The part's record with the field written, the edit counted, and dirty set (R160, R161). -/
def State.fieldEdited (s : State) (p : PartNo) (f : Field) (value : List Byte) : State := s.editLive p (f.put value)

theorem State.part_fieldEdited (s : State) (p : PartNo) (f : Field) (value : List Byte) (q : PartNo) :
    (s.fieldEdited p f value).part q =
      if p = q then { s.part q with
        live := f.put value (s.part q).live, editCount := (s.part q).editCount + 1, dirty := true } else s.part q :=
  State.part_modPart s p q _

/-- From `e` to `t`, nothing of the parts changes but what the allocator keeps in part `p`'s record, every part being within its
limit (R24). -/
structure State.PartSettled (p : PartNo) (e t : State) : Prop where
  port : t.port = e.port
  others : ∀ q, q ≠ p → t.part q = e.part q
  counts : t.countsFit
  self : t.part p = { e.part p with
    lastPitch := (t.part p).lastPitch, steals := (t.part p).steals, drops := (t.part p).drops }

theorem State.PartSettled.refl {p : PartNo} {e : State} (h : e.countsFit) : State.PartSettled p e e := ⟨rfl, fun _ _ => rfl, h, rfl⟩

theorem State.PartSettled.setPanel {p : PartNo} {e : State} (h : e.countsFit) (x : Panel) :
    State.PartSettled p e { e with panel := x } := ⟨rfl, fun _ _ => rfl, h, rfl⟩

theorem State.PartSettled.armWhere {p : PartNo} {e : State} (h : e.countsFit) (pick : ChannelNo → Bool) :
    State.PartSettled p e (e.armWhere pick) := .setPanel h _

theorem State.PartSettled.afterPatch {p : PartNo} {e : State} (h : ∀ q, q ≠ p → e.count q ≤ e.limit q) (old : VoiceMode) :
    State.PartSettled p e (e.afterPatch p old) := by
  have hk := e.afterPatch_keyWork p old
  have hp := e.afterPatch_forPart p old
  exact ⟨hk.port, hp.others, hp.countsFit (e.count_afterPatch p old) h, hk.part p⟩

theorem State.count_fieldEdited (s : State) (p : PartNo) (f : Field) (value : List Byte) (q : PartNo) :
    (s.fieldEdited p f value).count q = s.count q := State.count_of_voices rfl q

theorem State.limit_fieldEdited_of_ne (s : State) {p q : PartNo} (f : Field) (value : List Byte) (hq : q ≠ p) :
    (s.fieldEdited p f value).limit q = s.limit q :=
  State.limit_of_live (by rw [State.part_fieldEdited, if_neg (Ne.symm hq)])

theorem State.limit_fieldEdited_self (s : State) (p : PartNo) (f : Field) (value : List Byte) :
    (s.fieldEdited p f value).limit p = (f.put value (s.part p).live).limit := by
  rw [State.limit, State.part_fieldEdited, if_pos rfl]

/-- A write that leaves the part's limit leaves every part within its own (R24). -/
theorem State.countsFit_fieldEdited {s : State} (h : s.countsFit) {p : PartNo} {f : Field} {value : List Byte}
    (hl : (f.put value (s.part p).live).limit = (s.part p).live.limit) : (s.fieldEdited p f value).countsFit := fun q => by
  rw [State.count_fieldEdited]
  by_cases e : q = p
  · rw [e, State.limit_fieldEdited_self, hl]
    exact h p
  · rw [State.limit_fieldEdited_of_ne s f value e]
    exact h q

/-- A discrete field on which the part's voices depend is followed by the release of the excess or the re-seat (R41, R42, R162). -/
def Discrete.structural : Discrete → Bool
  | .voiceMode | .voiceLimit | .unisonCount => true
  | .unisonSpread | .bendRange | .glideMode | .keyPriority | .monoTrigger => false

theorem Discrete.structural_iff (d : Discrete) : d.structural = true ↔ d.number = 32 ∨ d.number = 33 ∨ d.number = 34 := by
  cases d <;> decide

theorem Field.eq_param {f : Field} (h : f.number ≤ 24) : ∃ i, f = .param i := by
  cases f with
  | param i => exact ⟨i, rfl⟩
  | discrete d => have := d.number_range; simp only [Field.number] at h; omega
  | name => simp only [Field.number] at h; omega

theorem Field.eq_structural {f : Field} (h : f.number = 32 ∨ f.number = 33 ∨ f.number = 34) :
    ∃ d : Discrete, f = .discrete d ∧ d.structural = true := by
  cases f with
  | param i => simp only [Field.number] at h; omega
  | discrete d => exact ⟨d, rfl, d.structural_iff.mpr h⟩
  | name => simp [Field.number] at h

/-- A field that the allocator does not look at. -/
def Field.plain (f : Field) : Prop := f = .name ∨ (∃ i, f = .param i) ∨ ∃ d : Discrete, f = .discrete d ∧ d.structural = false

theorem Field.plain_of_number {f : Field} (h : ¬ (f.number = 32 ∨ f.number = 33 ∨ f.number = 34)) : f.plain := by
  cases f with
  | name => exact .inl rfl
  | param i => exact .inr (.inl ⟨i, rfl⟩)
  | discrete d => exact .inr (.inr ⟨d, rfl, Bool.eq_false_iff.mpr fun e => h (d.structural_iff.mp e)⟩)

theorem State.reduce_of_fits {s : State} {p : PartNo} (h : s.count p ≤ s.limit p) : s.reduce p = s := by
  unfold State.reduce
  rw [Nat.sub_eq_zero_of_le h]
  rfl

theorem State.fieldWritten_structural {s : State} {p : PartNo} {d : Discrete} {value : List Byte} (hc : s.countsFit)
    (hd : d.structural = true) :
    s.fieldWritten p (.discrete d) value = (s.fieldEdited p (.discrete d) value).afterPatch p (s.part p).live.voiceMode := by
  set e := s.fieldEdited p (.discrete d) value with he
  have hlive : (e.part p).live = (s.part p).live.setDiscrete d (fieldWord value) := by
    rw [he, State.part_fieldEdited, if_pos rfl]
    rfl
  unfold State.afterPatch
  cases d with
  | voiceMode =>
    have hw : s.fieldWritten p (.discrete .voiceMode) value =
        if (e.part p).live.voiceMode = (s.part p).live.voiceMode then e else e.reseat p := rfl
    rw [hw]
    split
    · rename_i hm
      refine (State.reduce_of_fits ?_).symm
      refine State.countsFit_fieldEdited hc ?_ p
      rw [hlive] at hm
      change Patch.limit ((s.part p).live.setDiscrete .voiceMode (fieldWord value)) = _
      unfold Patch.limit
      rw [hm]
      rfl
    · rfl
  | voiceLimit | unisonCount => rw [if_pos (by rw [hlive]; rfl)]; rfl
  | unisonSpread | bendRange | glideMode | keyPriority | monoTrigger => cases hd

theorem State.fieldWritten_param (s : State) (p : PartNo) (i : Fin 25) (value : List Byte) :
    s.fieldWritten p (.param i) value =
      if s.panel.focus = p then (s.fieldEdited p (.param i) value).armWhere fun c => (s.channel c).role == .parameter i
      else s.fieldEdited p (.param i) value := rfl

theorem State.fieldWritten_plain (s : State) (p : PartNo) {f : Field} (value : List Byte)
    (h : f = .name ∨ ∃ d : Discrete, f = .discrete d ∧ d.structural = false) :
    s.fieldWritten p f value = s.fieldEdited p f value := by
  rcases h with rfl | ⟨d, rfl, hd⟩
  · rfl
  · cases d with
    | voiceMode | voiceLimit | unisonCount => cases hd
    | unisonSpread | bendRange | glideMode | keyPriority | monoTrigger => rfl

theorem Field.limit_put {f : Field} (h : ∀ d, f = .discrete d → d.structural = false) (value : List Byte) (x : Patch) :
    (f.put value x).limit = x.limit := by
  cases f with
  | param i => rfl
  | name => rfl
  | discrete d =>
    cases d with
    | voiceMode | voiceLimit | unisonCount => cases h _ rfl
    | unisonSpread | bendRange | glideMode | keyPriority | monoTrigger => rfl

theorem State.fieldWritten_settled {s : State} (hc : s.countsFit) (p : PartNo) (f : Field) (value : List Byte) :
    State.PartSettled p (s.fieldEdited p f value) (s.fieldWritten p f value) := by
  have hfit : (∀ d, f = .discrete d → d.structural = false) → (s.fieldEdited p f value).countsFit := fun h =>
    State.countsFit_fieldEdited hc (f.limit_put h value _)
  cases f with
  | param i =>
    rw [State.fieldWritten_param]
    split
    · exact .armWhere (hfit nofun) _
    · exact .refl (hfit nofun)
  | name => exact .refl (hfit nofun)
  | discrete d =>
    cases hd : d.structural with
    | true =>
      rw [State.fieldWritten_structural hc hd]
      refine .afterPatch (fun q hq => ?_) _
      rw [State.count_fieldEdited, State.limit_fieldEdited_of_ne s _ value hq]
      exact hc q
    | false =>
      rw [State.fieldWritten_plain s p value (.inr ⟨d, rfl, hd⟩)]
      exact .refl (hfit fun d' e => by cases e; exact hd)

theorem State.voices_fieldWritten (s : State) (p : PartNo) {f : Field} (value : List Byte) (h : f.plain) :
    (s.fieldWritten p f value).voices = s.voices := by
  rcases h with h | ⟨i, rfl⟩ | h
  · rw [State.fieldWritten_plain s p value (.inl h)]
    rfl
  · rw [State.fieldWritten_param]
    split <;> rfl
  · rw [State.fieldWritten_plain s p value (.inr h)]
    rfl

theorem State.panel_fieldWritten {s : State} (hc : s.countsFit) (p : PartNo) {f : Field} (value : List Byte) (h : 24 < f.number) :
    (s.fieldWritten p f value).panel = s.panel := by
  cases f with
  | param i => simp only [Field.number] at h; omega
  | name => rfl
  | discrete d =>
    cases hd : d.structural with
    | true =>
      rw [State.fieldWritten_structural hc hd]
      exact (State.afterPatch_keyWork _ p _).panel
    | false =>
      rw [State.fieldWritten_plain s p value (.inr ⟨d, rfl, hd⟩)]
      rfl

/-- A parameter of the focus part arms the channels that have it (R149). -/
theorem State.armedIn_fieldWritten {s : State} {p : PartNo} (hq : s.panel.focus = p) (i : Fin 25) (value : List Byte) :
    s.armedIn (s.fieldWritten p (.param i) value) (fun c => (s.channel c).role = .parameter i)
      (Field.put (.param i) value (s.part p).live) := by
  refine State.armedIn_of_channels fun c => ?_
  rw [State.fieldWritten_param, if_pos hq, State.channel_armWhere]
  have hfocus : (s.fieldEdited p (.param i) value).focusPatch = Field.put (.param i) value (s.part p).live := by
    change ((s.fieldEdited p (.param i) value).part s.panel.focus).live = _
    rw [hq, State.part_fieldEdited, if_pos rfl]
  rw [hfocus]
  simp only [beq_iff_eq]
  rfl

/-- Settles O52: the write edits the record, and the field says whether the allocator or the panel follows. -/
theorem writeParamWritesOneField : Obligations.WriteParamWritesOneField := by
  intro part field value s hi n known
  have hexec : exec (.writeParam part field value) s = .next (match part? part, field? field with
      | some p, some f => s.writeField p f value
      | _, _ => s.refuse .badValue) := congrArg Host.Outcome.next (hostCommand_of_inHand hi _)
  have hlen := State.writeParam_length_of_inHand hi
  refine ⟨fun h => ?_, fun hp hk hl => ?_, fun p hp hk hl hc => ?_⟩
  · rw [hexec]
    rcases h with h | h
    · rw [part?_of_gt h]
      rfl
    · rw [field?_of_unknown h]
      cases part? part <;> rfl
  · obtain ⟨f, hf⟩ := exists_field hk
    have hl : f = .name ↔ value.length = 2 := by rw [← Field.number_eq_48, ← hf]; exact hl
    rw [hexec, part?_of_eq (p := ⟨part.toNat, by omega⟩) rfl, field?_of_number hf]
    exact congrArg _ (s.writeField_of_unfit _ hlen hl)
  · obtain ⟨f, hf⟩ := exists_field hk
    have hl : f = .name ↔ value.length = 12 := by rw [← Field.number_eq_48, ← hf]; exact hl
    have hsettled := State.fieldWritten_settled hc p f value
    have hnew : ((s.fieldWritten p f value).part p).live = f.put value (s.part p).live := by
      rw [hsettled.self, State.part_fieldEdited, if_pos rfl]
    have hfields := f.put_fields value (s.part p).live
    rw [← hnew, ← hf] at hfields
    obtain ⟨h1, h2, h3, h4, h5, h6, h7, h8, h9, h10⟩ := hfields
    refine ⟨(s.fieldWritten p f value).answer .ok [], ?_, State.answer_port hsettled.port .ok [], fun q hq => ?_, hsettled.counts, ?_,
      h1, h2, h3, h4, h5, h6, h7, h8, h9, h10, fun h32 h33 h34 => ?_, fun hd => ?_, fun hn hq => ?_, fun hn => ?_,
      fun hn hq => ?_⟩
    · rw [hexec, part?_of_eq hp, field?_of_number hf]
      exact congrArg _ (s.writeField_of_fits p hlen hl)
    · exact (hsettled.others q hq).trans (by rw [State.part_fieldEdited, if_neg (Ne.symm hq)])
    · have hself := hsettled.self
      rw [State.part_fieldEdited, if_pos rfl, ← hnew] at hself
      exact hself
    · exact s.voices_fieldWritten p value (Field.plain_of_number (hf ▸ by tauto))
    · obtain ⟨d, rfl, hs⟩ := Field.eq_structural (hf ▸ hd)
      refine ⟨s.fieldEdited p (.discrete d) value, rfl, rfl, rfl, ?_, fun q hq => ?_, ?_⟩
      · rw [State.part_fieldEdited, if_pos rfl, ← hnew]
        rfl
      · rw [State.part_fieldEdited, if_neg (Ne.symm hq)]
      · rw [← State.fieldWritten_structural hc hs]
        exact ⟨rfl, rfl, rfl⟩
    · obtain ⟨i, rfl⟩ := Field.eq_param (hf ▸ hn)
      change (s.fieldWritten p (.param i) value).panel = _
      rw [State.fieldWritten_param, if_neg hq]
      rfl
    · exact State.panel_fieldWritten hc p value (hf ▸ hn)
    · obtain ⟨i, rfl⟩ := Field.eq_param (hf ▸ hn)
      refine ⟨?_, ?_⟩
      · change (s.fieldWritten p (.param i) value).panel = { s.panel with
          channels := (s.fieldWritten p (.param i) value).panel.channels }
        rw [State.fieldWritten_param, if_pos hq]
        rfl
      · have harm := State.armedIn_fieldWritten hq i value
        rw [← hnew] at harm
        exact harm.mono fun c _ => ⟨fun ⟨k, hk, hr⟩ => hr.trans (by rw [Fin.ext (hk.trans hf)]), fun hr => ⟨i, hf.symm, hr⟩⟩

end Sys2Proof.Machine
end

