-- ==== Sys2Proof/Proofs/KeysInTurn.lean ====
section
/-! PROOFS. Keys served, offered and stacked one after another, with the stamps that their choices compare (R22, R28 to R33, R41,
R43). -/

namespace Sys2Proof.Machine

/-! ### The stamps of a run of choices (R22) -/

/-- Every voice has its assignment exactly where R23 gives it, and the stamps stay comparable for `n` more stamps. -/
structure State.Ordered (s : State) (n : Nat) : Prop where
  assigned : ∀ v, (s.voice v).assignedRight
  within : s.stampsWithin n
  small : n < 2 ^ 31

theorem State.stampsWithin.close {s : State} {n : Nat} (h : s.stampsWithin n) : s.stampsClose :=
  ⟨fun v hv => lt_of_le_of_lt (Nat.le_add_right _ n) (h.1 v hv), fun v hv => lt_of_le_of_lt (Nat.le_add_right _ n) (h.2 v hv)⟩

theorem State.stampsClose.within {s : State} (h : s.stampsClose) : s.stampsWithin 0 := h

theorem State.Ordered.close {s : State} {n : Nat} (h : s.Ordered n) : s.stampsClose := h.within.close

theorem State.Ordered.mono {s : State} {m n : Nat} (h : s.Ordered n) (hm : m ≤ n) : s.Ordered m :=
  ⟨h.assigned, ⟨fun v hv => by have := h.within.1 v hv; omega, fun v hv => by have := h.within.2 v hv; omega⟩,
    by have := h.small; omega⟩

theorem State.Ordered.of_voices {s t : State} {n : Nat} (h : s.Ordered n) (hv : t.voices = s.voices) (hs : t.stamp = s.stamp) :
    t.Ordered n := by
  have e : ∀ v, t.voice v = s.voice v := fun v => by rw [State.voice, hv]; rfl
  refine ⟨fun v => e v ▸ h.assigned v, ⟨fun v hi => ?_, fun v hi => ?_⟩, h.small⟩
  · rw [State.freeAge, hs, e]
    exact h.within.1 v (e v ▸ hi)
  · rw [State.keyAge, hs, e]
    exact h.within.2 v (e v ▸ hi)

/-- One more stamp ages a stamp by at most one. -/
theorem stamp_age_succ (now x : Stamp) : (now + 1 - x).toNat ≤ (now - x).toNat + 1 := by
  have e : now + 1 - x = (now - x) + 1 := by ring
  rw [e, BitVec.toNat_add]
  exact Nat.mod_le _ _

theorem VoiceRec.assigned_assignedRight (r : VoiceRec) (p : PartNo) (h : HeldKey) (j : Nat) (g : GlideStart) (part : Part)
    (x : Stamp) (gap : Nat) : (r.assigned p h j g part x gap).assignedRight := by
  obtain ⟨hc, ha, -⟩ := r.assigned_sound p h j g part x gap
  refine ⟨fun _ => ?_, fun _ => ha⟩
  rcases (Service.counted_iff _).mp hc with e | e
  · exact .inl e
  · exact .inr (.inr e)

theorem State.Ordered.assign {s : State} {n : Nat} (h : s.Ordered (n + 1)) (v : Voice) (p : PartNo) (k : HeldKey) (j : Nat)
    (g : GlideStart) : (s.assign v p k j g).Ordered n := by
  have hold : ∀ w, w ≠ v → (s.assign v p k j g).voice w = s.voice w := fun w hw => State.voice_assign_of_ne hw p k j g
  have hnew := State.voice_assign_self s v p k j g
  have hcounted := ((s.voice v).assigned_sound p k j g (s.part p) (s.stamp + 1) s.settings.stealGap).1
  have hage : ((s.voice v).assigned p k j g (s.part p) (s.stamp + 1) s.settings.stealGap).asgStamp = s.stamp + 1 := by
    rw [VoiceRec.assigned_eq]
    rfl
  have hsmall := h.small
  refine ⟨fun w => ?_, ⟨fun w hw => ?_, fun w hw => ?_⟩, by omega⟩
  · by_cases e : w = v
    · rw [e, hnew]
      exact VoiceRec.assigned_assignedRight ..
    · rw [hold w e]
      exact h.assigned w
  · have e : w ≠ v := fun e => by
      rw [e, hnew] at hw
      rcases (Service.counted_iff _).mp hcounted with e' | e' <;> rw [e'] at hw <;> simp at hw
    rw [hold w e] at hw
    have h1 := h.within.1 w hw
    have h2 := stamp_age_succ s.stamp (s.voice w).lastFree
    rw [State.freeAge, State.assign_stamp, hold w e]
    rw [State.freeAge] at h1
    omega
  · by_cases e : w = v
    · rw [State.keyAge, State.assign_stamp, e, hnew, hage, BitVec.sub_self]
      change 0 + n < 2 ^ 31
      omega
    · rw [hold w e] at hw
      have h1 := h.within.2 w hw
      have h2 := stamp_age_succ s.stamp (s.voice w).asgStamp
      rw [State.keyAge, State.assign_stamp, hold w e]
      rw [State.keyAge] at h1
      omega

theorem State.Ordered.dropKey {s : State} {n : Nat} (h : s.Ordered n) (p : PartNo) : (s.dropKey p).Ordered n :=
  h.of_voices rfl rfl

/-- The voice that an acquisition takes is none of the part's own but where the part is at its limit (R28, R29). -/
theorem State.acquire_assign {s t : State} {p : PartNo} {h : HeldKey} {j : Nat} {g : GlideStart} {n : Nat} {own : Bool}
    (e : s.acquire p h j g n own = some t) :
    ∃ v, t.voices = (s.assign v p h j g).voices ∧ t.stamp = (s.assign v p h j g).stamp := by
  rcases State.acquire_eq_some e with ⟨-, v, -, rfl⟩ | ⟨-, v, -, rfl⟩
  · exact ⟨v, rfl, rfl⟩
  · exact ⟨v, rfl, rfl⟩

theorem State.Ordered.acquire {s t : State} {n : Nat} (h : s.Ordered (n + 1)) {p : PartNo} {k : HeldKey} {j : Nat} {g : GlideStart}
    {m : Nat} {own : Bool} (e : s.acquire p k j g m own = some t) : t.Ordered n := by
  obtain ⟨v, hv, hs⟩ := State.acquire_assign e
  exact (h.assign v p k j g).of_voices hv hs

/-! ### Assignments without glide (R26, R41, R43) -/

theorem State.withoutGlide_of_voices {s t : State} {v : Voice} {p : PartNo} {h : HeldKey} {j : Nat}
    (e : t.voices = (s.assign v p h j .none).voices) : s.withoutGlide t := by
  intro w hw
  have ew : t.voice w = (s.assign v p h j .none).voice w := by rw [State.voice, e]; rfl
  by_cases hv : w = v
  · rw [ew, hv, State.voice_assign_self, VoiceRec.assigned_eq]
    exact ⟨by simp [VoiceRec.startGlide, GlideStart.glides], by simp [VoiceRec.startGlide, GlideStart.glides]⟩
  · exact absurd (ew.trans (State.voice_assign_of_ne hv p h j .none)) hw

theorem State.withoutGlide_self {s t : State} (e : t.voices = s.voices) : s.withoutGlide t := fun w hw =>
  absurd (by rw [State.voice, e]; rfl) hw

theorem State.withoutGlide_acquireOrDrop (s : State) (p : PartNo) (h : HeldKey) (j n : Nat) (own : Bool) :
    s.withoutGlide ((s.acquire p h j .none n own).getD (s.dropKey p)) := by
  cases e : s.acquire p h j .none n own with
  | none => exact State.withoutGlide_self rfl
  | some t =>
    obtain ⟨v, hv, -⟩ := State.acquire_assign e
    exact State.withoutGlide_of_voices hv

/-! ### Held keys replayed (R41) -/

theorem State.replayPoly_keysReplayed (p : PartNo) (hs : List HeldKey) {s : State} {n : Nat} (h : s.Ordered n)
    (hn : hs.length ≤ n) : State.keysReplayed p hs s (s.replayPoly p hs) := by
  induction hs generalizing s n with
  | nil => rfl
  | cons k ks ih =>
    obtain ⟨m, rfl⟩ : ∃ m, n = m + 1 := ⟨n - 1, by simp at hn; omega⟩
    refine ⟨_, State.acquire_keyServed h.assigned h.close p k .none (s.limit p), s.withoutGlide_acquireOrDrop p k 0 _ false, ?_⟩
    refine ih (n := m) ?_ (by simpa using hn)
    cases e : s.acquire p k 0 .none (s.limit p) false with
    | none => exact (h.mono (Nat.le_succ m)).dropKey p
    | some t => exact h.acquire e

/-! ### A UNISON stack (R33) -/

theorem State.count_le_sixteen (s : State) (p : PartNo) : s.count p ≤ 16 := by
  have h := Finset.card_le_univ (s.partVoices p).toFinset
  rw [State.count_eq_card]
  simpa using h

/-- An acquisition for a UNISON part is the one the statements describe (R28, R29, R33). -/
theorem State.acquire_indexTaken {s t : State} {n : Nat} (h : s.Ordered n) {p : PartNo} {e : HeldKey} {j u : Nat} {g : GlideStart}
    (ht : s.acquire p e j g u true = some t) : s.indexTaken t p e j u g := by
  rcases State.acquire_eq_some ht with ⟨hlt, v, hv, rfl⟩ | ⟨hf, v, hv, rfl⟩
  · refine ⟨fun _ => ⟨v, State.freeChoice_choosesFree h.assigned h.close hv, State.keyTaken_assign .., State.part_assign_self ..⟩,
      fun hf => absurd ⟨hlt, v, State.freeChoice_free hv⟩ hf⟩
  · have hspec := State.stealChoice_spec h.assigned h.close hv
    simp only [State.stealableIf_true] at hspec
    exact ⟨fun hf' => absurd hf' hf, fun _ => ⟨v, hspec.1, hspec.2.1, hspec.2.2, State.keyTaken_stolen .., State.part_stolen_self ..⟩⟩

/-- An acquisition for a UNISON part gives it a voice that is not its own (R28, R29, R33). -/
theorem State.acquire_new {s t : State} (ha : ∀ v, (s.voice v).assignedRight) {p : PartNo} {e : HeldKey} {j u : Nat} {g : GlideStart}
    (ht : s.acquire p e j g u true = some t) : ∃ v, ¬ s.serves p v ∧ t.voices = (s.assign v p e j g).voices := by
  rcases State.acquire_eq_some ht with ⟨-, v, hv, rfl⟩ | ⟨-, v, hv, rfl⟩
  · refine ⟨v, fun hs => ?_, rfl⟩
    have hfree := State.freeChoice_free hv
    rcases hs.1 with e | e <;> rcases hfree with f | ⟨f, -⟩ | f <;> simp [e] at f
  · have hmem := (State.mem_stealCandidates ha).mp (State.stealChoice_mem hv)
    rw [State.stealableIf_true] at hmem
    exact ⟨v, fun hs => hmem.2 hs.2, rfl⟩

/-- An acquisition for a UNISON part brings it a voice more (R33). -/
theorem State.count_acquire {s t : State} (ha : ∀ v, (s.voice v).assignedRight) {p : PartNo} {e : HeldKey} {j u : Nat} {g : GlideStart}
    (ht : s.acquire p e j g u true = some t) : t.count p = s.count p + 1 := by
  obtain ⟨v, hv, hvoices⟩ := State.acquire_new ha ht
  rw [State.count_of_voices hvoices]
  exact State.count_eq_succ (v := v) (fun w hw => by rw [State.serves_assign, if_neg hw]) hv (by rw [State.serves_assign, if_pos rfl])

theorem State.any_index_iff {s : State} {p : PartNo} {j : Nat} :
    ((s.partVoices p).any fun v => (s.voice v).unisonIndex == j) = true ↔ ∃ v, s.serves p v ∧ (s.voice v).unisonIndex = j := by
  simp [List.any_eq_true]

/-- The acquisition of a stack is the one the statements describe, and leaves stamps to spare (R22, R33). -/
theorem State.acquireStack_stackFilled (p : PartNo) (e : HeldKey) (u : Nat) (g : GlideStart) (js : List Nat) {s : State}
    (h : s.Ordered (16 - s.count p)) : State.stackFilled p e u g js s (s.acquireStack p e g u js) := by
  induction js generalizing s with
  | nil => rfl
  | cons j js ih =>
    unfold State.acquireStack
    split
    · rename_i hheld
      have hheld := State.any_index_iff.mp hheld
      exact ⟨fun _ => ih h, fun hn => absurd hheld hn, fun hn => absurd hheld hn⟩
    · rename_i hheld
      have hheld := fun hh => hheld (State.any_index_iff.mpr hh)
      split
      · rename_i t ht
        have hcount := State.count_acquire h.assigned ht
        have h16 := s.count_le_sixteen p
        have hsub : 16 - s.count p = (16 - t.count p) + 1 := by rw [hcount]; have := t.count_le_sixteen p; omega
        have hnext := State.Ordered.acquire (hsub ▸ h) ht
        refine ⟨fun hn => absurd hn hheld, fun _ _ => ⟨t, State.acquire_indexTaken h ht, ih hnext⟩, fun _ hn => ?_⟩
        have hnone : s.acquire p e j g u true = none := (State.acquire_eq_none h.assigned).mpr
          ⟨fun hf => hn (.inl hf), fun v hv => hn (.inr ⟨v, State.stealableIf_true.mp hv⟩)⟩
        rw [hnone] at ht
        cases ht
      · rename_i ht
        have hnone := (State.acquire_eq_none h.assigned).mp ht
        simp only [State.stealableIf_true] at hnone
        refine ⟨fun hn => absurd hn hheld, fun _ hc => ?_, fun _ _ => rfl⟩
        rcases hc with hc | ⟨v, hv⟩
        · exact absurd hc hnone.1
        · exact absurd hv (hnone.2 v)

/-! ### Lost keys re-homed (R43) -/

/-- A free-voice step that may find no voice offers the key once (R28, R43). -/
theorem State.freeStep_keyOffered {s : State} (ha : ∀ v, (s.voice v).assignedRight) (hc : s.stampsClose) (p : PartNo) (h : HeldKey)
    (j n : Nat) : s.keyOffered ((s.freeStep p h j .none n).getD s) p h j n := by
  cases e : s.freeStep p h j .none n with
  | none =>
    refine ⟨fun hlt ⟨v, hv⟩ => ?_, fun _ => rfl⟩
    rcases State.freeStep_eq_none.mp e with hn | hn
    · omega
    · exact absurd hv (hn v)
  | some t =>
    obtain ⟨hlt, v, hv, rfl⟩ := State.freeStep_eq_some.mp e
    refine ⟨fun _ _ => ⟨v, State.freeChoice_choosesFree ha hc hv, State.keyTaken_assign .., State.part_assign_self ..,
      State.withoutGlide_of_voices rfl⟩, fun hn => ?_⟩
    rcases hn with hn | hn
    · omega
    · exact absurd (State.freeChoice_free hv) (hn v)

/-- A held key is the chosen one of its part (R31). -/
def State.isChosen (s : State) (p : PartNo) (h : HeldKey) : Bool :=
  match s.chosen p with
  | some e => e.same h
  | none => false

theorem State.isChosen_iff {s : State} {p : PartNo} {h : HeldKey} :
    s.isChosen p h = true ↔ ∃ e, s.chosen p = some e ∧ e.same h = true := by
  unfold State.isChosen
  cases s.chosen p <;> simp

/-- The offer of a lost key that the list still holds, by the voice mode (R43). -/
theorem State.reHomeOne_of_held {s : State} {a : Assignment} {h : HeldKey}
    (hf : (s.part a.part).held.find? (fun h => a.carries a.part h) = some h) :
    s.reHomeOne a = match (s.part a.part).live.voiceMode with
      | .poly => (s.freeStep a.part h 0 .none (s.limit a.part)).getD s
      | .mono => if s.isChosen a.part h then (s.freeStep a.part h 0 .none 1).getD s else s
      | .unison => if s.isChosen a.part h then (s.freeStep a.part h a.unison .none (s.limit a.part)).getD s else s := by
  unfold State.reHomeOne
  rw [hf]
  rfl

/-- A lost key is re-homed as the statements write it (R43). -/
theorem State.reHomeOne_keyReHomed {s : State} (ha : ∀ v, (s.voice v).assignedRight) (hc : s.stampsClose) (a : Assignment) :
    s.keyReHomed (s.reHomeOne a) a := by
  have hcarries : ∀ h, a.carries a.part h = true ↔ h.zone = a.zone ∧ h.channel = a.channel ∧ h.key = a.key := fun h => by
    simp only [Assignment.carries, Bool.and_eq_true, beq_iff_eq, true_and, and_assoc]
    exact ⟨fun ⟨h1, h2, h3⟩ => ⟨h1.symm, h2.symm, h3.symm⟩, fun ⟨h1, h2, h3⟩ => ⟨h1.symm, h2.symm, h3.symm⟩⟩
  cases hf : (s.part a.part).held.find? (fun h => a.carries a.part h) with
  | none =>
    have hno := List.find?_eq_none.mp hf
    have e : s.reHomeOne a = s := by unfold State.reHomeOne; rw [hf]
    refine ⟨fun _ => e, fun ⟨h, hm, hk⟩ => ?_⟩
    exact absurd ((hcarries h).mpr hk) (hno h hm)
  | some h =>
    have hmem := List.mem_of_find?_eq_some hf
    have hkey := (hcarries h).mp (List.find?_some hf)
    refine ⟨fun hn => absurd ⟨hmem, hkey⟩ (hn h), fun _ => ⟨h, ⟨hmem, hkey⟩, ?_⟩⟩
    have hoffer := fun j n => State.freeStep_keyOffered ha hc a.part h j n
    rw [State.reHomeOne_of_held hf]
    cases hm : (s.part a.part).live.voiceMode with
    | poly =>
      rw [← State.limit_of_poly hm]
      exact hoffer 0 _
    | mono =>
      refine ⟨fun hch => ?_, fun hch => if_neg fun hb => hch (State.isChosen_iff.mp hb)⟩
      simp only [if_pos (State.isChosen_iff.mpr hch)]
      exact hoffer 0 1
    | unison =>
      rw [← State.limit_of_unison hm]
      refine ⟨fun hch => ?_, fun hch => if_neg fun hb => hch (State.isChosen_iff.mp hb)⟩
      simp only [if_pos (State.isChosen_iff.mpr hch)]
      exact hoffer a.unison _

theorem State.reHome_keysReHomed (l : List Assignment) {s : State} {n : Nat} (h : s.Ordered n) (hn : l.length ≤ n) :
    State.keysReHomed l s (s.reHome l) := by
  induction l generalizing s n with
  | nil => rfl
  | cons a l ih =>
    obtain ⟨m, rfl⟩ : ∃ m, n = m + 1 := ⟨n - 1, by simp at hn; omega⟩
    refine ⟨_, State.reHomeOne_keyReHomed h.assigned h.close a, ?_⟩
    refine ih (n := m) ?_ (by simpa using hn)
    rcases s.reHomeOne_cases a with e | ⟨v, k, j, -, e⟩
    · rw [e]
      exact h.mono (Nat.le_succ m)
    · rw [e]
      exact h.assign v a.part k j .none

end Sys2Proof.Machine
end

