-- ==== Sys2Proof/Proofs/MonoUnison.lean ====
section
/-! PROOFS. MONO and UNISON: the chosen key, note changes, key-ons and key-offs (R31 to R35). -/

namespace Sys2Proof.Machine

/-! ### The chosen key (R31) -/

theorem chosenKey_last (keys : List HeldKey) : chosenKey .last keys = keys.getLast? := by
  cases keys with
  | nil => rfl
  | cons h hs =>
    induction hs generalizing h with
    | nil => rfl
    | cons x hs ih => exact (ih x).trans (List.getLast?_cons_cons ..).symm

/-- A scan by note finds the one place that R31 names. -/
theorem scan_note_iff {keys : List HeldKey} {e h : HeldKey} {hs : List HeldKey} (hk : keys = h :: hs)
    (better : HeldKey → HeldKey → Prop) [DecidableRel better] (htrans : ∀ a b c, better a b → better b c → better a c)
    (hnot : ∀ a b c, better a b → ¬ better c b → better a c) :
    some (scanBest better h hs) = some e ↔ IsBest better keys e := by
  have hbest := scanBest_isBest better h hs (fun a _ b _ c _ => htrans a b c) fun a _ b _ c _ => hnot a b c
  rw [← hk] at hbest
  exact ⟨fun he => Option.some.inj he ▸ hbest, fun he => congrArg some (hbest.unique he)⟩

theorem chosenKey_low {keys : List HeldKey} {e : HeldKey} :
    chosenKey .low keys = some e ↔ IsBest (fun a b => a.note ≤ b.note) keys e := by
  cases keys with
  | nil => simp [chosenKey, IsBest]
  | cons h hs => exact scan_note_iff rfl _ (fun _ _ _ => le_trans) (fun _ _ _ h1 h2 => by omega)

theorem chosenKey_high {keys : List HeldKey} {e : HeldKey} :
    chosenKey .high keys = some e ↔ IsBest (fun a b => b.note ≤ a.note) keys e := by
  cases keys with
  | nil => simp [chosenKey, IsBest]
  | cons h hs => exact scan_note_iff rfl _ (fun _ _ _ h1 h2 => le_trans h2 h1) (fun _ _ _ h1 h2 => by omega)

/-! ### Note changes (R32) -/

/-- The glide of a note change, on a record whose target is then the note's (R26, R32). -/
theorem VoiceRec.startGlide_fromCurrent (r : VoiceRec) (live : Patch) (last x : Nat) :
    let slides := 0 < ((live.params[(0 : Fin 25)]).toNat / 4) ∧ live.glideMode ≠ .off
    (slides → (r.startGlide .fromCurrent live last x).pitch = r.pitch
      ∧ (r.startGlide .fromCurrent live last x).glide = (live.params[(0 : Fin 25)]).toNat / 4) ∧
    (¬ slides → (r.startGlide .fromCurrent live last x).pitch = x ∧ (r.startGlide .fromCurrent live last x).glide = 0) := by
  have hg : GlideStart.fromCurrent.glides live = true ↔
      0 < ((live.params[(0 : Fin 25)]).toNat / 4) ∧ live.glideMode ≠ .off := GlideStart.glides_fromCurrent live
  refine ⟨fun hs => ?_, fun hs => ?_⟩
  · obtain ⟨h1, -, h3⟩ := VoiceRec.startGlide_of_glides (r := r) (hg.mpr hs) last x
    exact ⟨h3, h1⟩
  · obtain ⟨h1, -, h3⟩ := VoiceRec.startGlide_of_not_glides (r := r) (Bool.eq_false_iff.mpr fun e => hs (hg.mp e)) last x
    exact ⟨h3, h1⟩

theorem State.legatoChange_fold (h : HeldKey) (live : Patch) (last : Nat) :
    VoiceFold (fun t v => t.modVoice v fun r => r.legatoChange h live last) (fun _ r _ => r.legatoChange h live last)
      (fun _ _ => false) fun _ _ => True := by
  refine ⟨fun _ _ _ _ => trivial, fun s v l _ w => ?_, fun s v l _ => rfl⟩
  rw [State.voice_modVoice]
  split
  · rename_i e
    rw [e]
  · rfl

theorem VoiceRec.assigned_fromCurrent (r : VoiceRec) (p : PartNo) (h : HeldKey) (j : Nat) {a b : Part} (hl : a.live = b.live)
    (x : Stamp) (gap : Nat) : r.assigned p h j .fromCurrent a x gap = r.assigned p h j .fromCurrent b x gap := by
  unfold VoiceRec.assigned VoiceRec.startGlide
  rw [hl]

/-- The retriggers of a note change, one voice after another (R32). -/
theorem State.retrigger_fold (p : PartNo) (h : HeldKey) (index : Voice → Nat) (q : Part) (gap : Nat) :
    VoiceFold (fun t v => t.assign v p h (index v) .fromCurrent)
      (fun v r x => r.assigned p h (index v) .fromCurrent q x gap) (fun _ _ => true)
      fun _ t => (t.part p).live = q.live ∧ t.settings.stealGap = gap := by
  refine ⟨fun s v l hs => ⟨?_, ?_⟩, fun s v l hs w => ?_, fun s v l hs => ?_⟩
  · rw [(State.assign_keyWork s v p h (index v) .fromCurrent).live]
    exact hs.1
  · rw [State.assign_settings]
    exact hs.2
  · rw [State.voice_assign, hs.2, VoiceRec.assigned_fromCurrent _ p h _ hs.1]
  · exact State.assign_stamp ..

theorem State.noteChange_eq_legato {s : State} {p : PartNo} (hm : (s.part p).live.monoTrigger = .legato) (h : HeldKey) :
    s.noteChange p h = ((s.partVoices p).foldl (fun (t : State) v => t.modVoice v fun r =>
      r.legatoChange h (s.part p).live (s.part p).lastPitch) s).modPart p fun q => { q with lastPitch := 64 * h.note } := by
  unfold State.noteChange
  simp only [hm]

theorem State.noteChange_eq_retrig {s : State} {p : PartNo} (hm : (s.part p).live.monoTrigger = .retrig) (h : HeldKey) :
    s.noteChange p h = ((s.byIndex p).foldl (fun (t : State) v => t.assign v p h (s.voice v).unisonIndex .fromCurrent) s).modPart p
      fun q => { q with lastPitch := 64 * h.note } := by
  unfold State.noteChange
  simp only [hm]
  rfl

theorem State.voice_noteChange_legato {s : State} {p : PartNo} (hm : (s.part p).live.monoTrigger = .legato) (h : HeldKey) {v : Voice}
    (hv : s.serves p v) :
    (s.noteChange p h).voice v = (s.voice v).legatoChange h (s.part p).live (s.part p).lastPitch := by
  rw [State.noteChange_eq_legato hm]
  obtain ⟨-, e⟩ := (State.legatoChange_fold h (s.part p).live (s.part p).lastPitch).exists_voice (s.nodup_partVoices p)
    trivial (State.mem_partVoices.mpr hv)
  exact e

theorem State.byIndex_length (s : State) (p : PartNo) : (s.byIndex p).length = s.count p := (s.byIndex_perm p).length_eq

/-- A retriggered voice's record; its stamp follows those of the voices before it in the order of the indices (R32). -/
theorem State.voice_noteChange_retrig {s : State} {p : PartNo} (hm : (s.part p).live.monoTrigger = .retrig) (h : HeldKey)
    {l₁ l₂ : List Voice} {v : Voice} (hl : s.byIndex p = l₁ ++ v :: l₂) :
    (s.noteChange p h).voice v = (s.voice v).assigned p h (s.voice v).unisonIndex .fromCurrent (s.part p)
      (s.stamp + 1 + BitVec.ofNat 32 l₁.length) s.settings.stealGap := by
  have hfold := State.retrigger_fold p h (fun v => (s.voice v).unisonIndex) (s.part p) s.settings.stealGap
  have hnodup := s.nodup_byIndex p
  rw [State.noteChange_eq_retrig hm]
  rw [hl] at hnodup ⊢
  refine (hfold.voice_of_split hnodup ⟨rfl, rfl⟩).trans ?_
  rw [List.filter_true]
  rfl

theorem State.voice_noteChange_of_not_serves {s : State} {p : PartNo} (h : HeldKey) {v : Voice} (hv : ¬ s.serves p v) :
    (s.noteChange p h).voice v = s.voice v := by
  cases hm : (s.part p).live.monoTrigger with
  | legato =>
    rw [State.noteChange_eq_legato hm]
    exact (State.legatoChange_fold h _ _).voice_of_not_mem trivial fun e => hv (State.mem_partVoices.mp e)
  | retrig =>
    rw [State.noteChange_eq_retrig hm]
    exact (State.retrigger_fold p h (fun v => (s.voice v).unisonIndex) (s.part p) s.settings.stealGap).voice_of_not_mem ⟨rfl, rfl⟩
      fun e => hv (State.mem_byIndex.mp e)

theorem State.noteChange_stamp (s : State) (p : PartNo) (h : HeldKey) :
    (s.noteChange p h).stamp =
      if (s.part p).live.monoTrigger = .retrig then s.stamp + BitVec.ofNat 32 (s.count p) else s.stamp := by
  cases hm : (s.part p).live.monoTrigger with
  | legato =>
    rw [State.noteChange_eq_legato hm, if_neg (by simp)]
    refine ((State.legatoChange_fold h _ _).stamp_foldl (s.nodup_partVoices p) trivial).trans ?_
    simp
  | retrig =>
    rw [State.noteChange_eq_retrig hm, if_pos rfl]
    refine ((State.retrigger_fold p h (fun v => (s.voice v).unisonIndex) (s.part p) s.settings.stealGap).stamp_foldl
      (s.nodup_byIndex p) ⟨rfl, rfl⟩).trans ?_
    rw [List.filter_true, State.byIndex_length]

/-- The work of a note change on one voice leaves all parts but for the last pitch of its own (R32). -/
theorem State.part_noteChange (s : State) (p : PartNo) (h : HeldKey) (q : PartNo) :
    (s.noteChange p h).part q = if p = q then { s.part p with lastPitch := 64 * h.note } else s.part q := by
  have key : ∀ t : State, (t.part p = s.part p ∨ t.part p = { s.part p with lastPitch := 64 * h.note }) →
      (∀ q, q ≠ p → t.part q = s.part q) →
      (t.modPart p fun q => { q with lastPitch := 64 * h.note }).part q =
        if p = q then { s.part p with lastPitch := 64 * h.note } else s.part q := by
    intro t ht hq
    rw [State.part_modPart]
    split
    · rename_i e
      subst e
      rcases ht with ht | ht <;> rw [ht]
    · exact hq q (Ne.symm ‹_›)
  cases hm : (s.part p).live.monoTrigger with
  | legato =>
    rw [State.noteChange_eq_legato hm]
    have hw := State.foldl_voiceWork (fun (t : State) v => t.modVoice v fun r =>
      r.legatoChange h (s.part p).live (s.part p).lastPitch) (fun t v => State.modVoice_voiceWork t v _) (s.partVoices p) s
    exact key _ (.inl (hw.part p)) fun q _ => hw.part q
  | retrig =>
    rw [State.noteChange_eq_retrig hm]
    have hfold : ∀ (l : List Voice) (t : State), (t.part p = s.part p ∨ t.part p = { s.part p with lastPitch := 64 * h.note }) →
        (∀ q, q ≠ p → t.part q = s.part q) →
        let u := l.foldl (fun (t : State) v => t.assign v p h (s.voice v).unisonIndex .fromCurrent) t
        (u.part p = s.part p ∨ u.part p = { s.part p with lastPitch := 64 * h.note }) ∧ ∀ q, q ≠ p → u.part q = s.part q := by
      intro l
      induction l with
      | nil => exact fun t h1 h2 => ⟨h1, h2⟩
      | cons v l ih =>
        refine fun t h1 h2 => ih _ (.inr ?_) fun q hq => ?_
        · rw [State.part_assign_self]
          rcases h1 with h1 | h1 <;> rw [h1]
        · rw [State.part_assign, if_neg (Ne.symm hq), h2 q hq]
    obtain ⟨h1, h2⟩ := hfold (s.byIndex p) s (.inl rfl) fun _ _ => rfl
    exact key _ h1 h2

/-- In the order of the unison indices, what stands before a voice is what has a lower index, where no two indices agree (R32). -/
theorem State.length_before {s : State} {p : PartNo} {l₁ l₂ : List Voice} {v : Voice} (hl : s.byIndex p = l₁ ++ v :: l₂)
    (hd : ∀ w w', s.serves p w → s.serves p w' → (s.voice w).unisonIndex = (s.voice w').unisonIndex → w = w') :
    l₁.length = ((s.partVoices p).filter fun w => (s.voice w).unisonIndex < (s.voice v).unisonIndex).length := by
  set lower : Voice → Bool := fun w => decide ((s.voice w).unisonIndex < (s.voice v).unisonIndex) with hlower
  have hsorted : (s.byIndex p).Pairwise fun a b => (s.voice a).unisonIndex ≤ (s.voice b).unisonIndex :=
    List.pairwise_insertionSort _ _
  have hnodup := s.nodup_byIndex p
  have hmem : ∀ w ∈ l₁ ++ v :: l₂, s.serves p w := fun w hw => State.mem_byIndex.mp (hl ▸ hw)
  rw [hl] at hsorted hnodup
  obtain ⟨-, h2, h3⟩ := List.pairwise_append.mp hsorted
  have hbefore : l₁.filter lower = l₁ := by
    refine List.filter_eq_self.mpr fun w hw => decide_eq_true ?_
    refine lt_of_le_of_ne (h3 w hw v (by simp)) fun e => ?_
    have : w = v := hd w v (hmem w (by simp [hw])) (hmem v (by simp)) e
    exact (List.nodup_append.mp hnodup).2.2 w hw v (by simp) this
  have hafter : (v :: l₂).filter lower = [] := by
    refine List.filter_eq_nil_iff.mpr fun w hw => ?_
    rcases List.mem_cons.mp hw with rfl | hw
    · simp [hlower]
    · simpa [hlower] using (List.pairwise_cons.mp h2).1 w hw
  have hperm := (s.byIndex_perm p).filter lower
  rw [hl, List.filter_append, hbefore, hafter, List.append_nil] at hperm
  exact hperm.length_eq

/-- What a note change makes of a part's voice (R32). -/
theorem State.noteChange_glides {s : State} {p : PartNo} (e : HeldKey) {v : Voice} (hv : s.serves p v) :
    let r := (s.noteChange p e).voice v
    let frames := ((s.part p).live.params[(0 : Fin 25)]).toNat / 4
    let slides := 0 < frames ∧ (s.part p).live.glideMode ≠ .off
    r.target = 64 * e.note ∧ (slides → r.pitch = (s.voice v).pitch ∧ r.glide = frames) ∧
    (¬ slides → r.pitch = 64 * e.note ∧ r.glide = 0) := by
  have hg := (s.voice v).startGlide_fromCurrent (s.part p).live (s.part p).lastPitch (64 * e.note)
  cases hm : (s.part p).live.monoTrigger with
  | legato =>
    rw [State.voice_noteChange_legato hm e hv]
    exact ⟨VoiceRec.startGlide_target .., hg⟩
  | retrig =>
    obtain ⟨l₁, l₂, hl⟩ := List.append_of_mem (State.mem_byIndex.mpr hv)
    rw [State.voice_noteChange_retrig hm e hl, VoiceRec.assigned_eq]
    exact ⟨rfl, hg⟩

theorem VoiceRec.legatoChange_frame (r : VoiceRec) (h : HeldKey) (live : Patch) (last : Nat) :
    (r.legatoChange h live last).state = r.state ∧ (r.legatoChange h live last).gap = r.gap
      ∧ (r.legatoChange h live last).lastFree = r.lastFree
      ∧ (r.legatoChange h live last).asg = r.asg.map fun a => { a with
        zone := h.zone, channel := h.channel, key := h.key, note := h.note, velocity := h.velocity, sustained := false } := by
  unfold VoiceRec.legatoChange
  rw [VoiceRec.startGlide_frame]
  exact ⟨rfl, rfl, rfl, rfl⟩

/-- A retriggered voice passes its steal gap, if there is one (R25, R32). -/
theorem VoiceRec.assigned_of_counted {r : VoiceRec} (hr : r.state.counted = true) (p : PartNo) (h : HeldKey) (j : Nat)
    (g : GlideStart) (part : Part) (x : Stamp) (gap : Nat) :
    if gap = 0 then (r.assigned p h j g part x gap).state = .sounding
    else (r.assigned p h j g part x gap).state = .stealGap ∧ (r.assigned p h j g part x gap).gap = gap := by
  rw [VoiceRec.assigned_eq]
  unfold assignedState
  rw [if_pos hr]
  split <;> simp

/-! ### The voices after a note change (R24, R32) -/

theorem State.serves_noteChange (s : State) (p : PartNo) (h : HeldKey) (v : Voice) :
    (s.noteChange p h).serves p v ↔ s.serves p v := by
  by_cases hv : s.serves p v
  · refine iff_of_true ?_ hv
    rw [State.serves_iff]
    obtain ⟨hc, hp⟩ := (State.serves_iff ..).mp hv
    cases hm : (s.part p).live.monoTrigger with
    | legato =>
      obtain ⟨h1, -, -, h4⟩ := (s.voice v).legatoChange_frame h (s.part p).live (s.part p).lastPitch
      rw [State.voice_noteChange_legato hm h hv, VoiceRec.asgPart, h1, h4, Option.map_map]
      exact ⟨hc, hp⟩
    | retrig =>
      obtain ⟨l₁, l₂, hl⟩ := List.append_of_mem (State.mem_byIndex.mpr hv)
      rw [State.voice_noteChange_retrig hm h hl]
      exact ⟨((s.voice v).assigned_sound ..).1, ((s.voice v).assigned_sound ..).2.2.1⟩
  · rw [State.serves_iff, State.voice_noteChange_of_not_serves h hv, ← State.serves_iff]

theorem State.count_noteChange (s : State) (p : PartNo) (h : HeldKey) : (s.noteChange p h).count p = s.count p :=
  State.count_congr (s.serves_noteChange p h)

theorem State.Ordered.of_records {s t : State} {n : Nat} (h : s.Ordered n) (hs : t.stamp = s.stamp)
    (hv : ∀ v, (t.voice v).state = (s.voice v).state ∧ (t.voice v).lastFree = (s.voice v).lastFree
      ∧ (t.voice v).asg.isSome = (s.voice v).asg.isSome ∧ (t.voice v).asgStamp = (s.voice v).asgStamp) : t.Ordered n := by
  refine ⟨fun v => ?_, ⟨fun v hi => ?_, fun v hi => ?_⟩, h.small⟩
  · obtain ⟨h1, -, h3, -⟩ := hv v
    unfold VoiceRec.assignedRight
    rw [h1, h3]
    exact h.assigned v
  · obtain ⟨h1, h2, -, -⟩ := hv v
    rw [State.freeAge, hs, h2]
    exact h.within.1 v (h1 ▸ hi)
  · obtain ⟨-, -, h3, h4⟩ := hv v
    rw [State.keyAge, hs, h4]
    exact h.within.2 v (h3 ▸ hi)

/-- A note change takes at most a stamp for each voice of its part (R22, R32). -/
theorem State.Ordered.noteChange {s : State} {p : PartNo} {n : Nat} (h : s.Ordered (n + s.count p)) (k : HeldKey) :
    (s.noteChange p k).Ordered n := by
  cases hm : (s.part p).live.monoTrigger with
  | legato =>
    refine (h.mono (Nat.le_add_right _ _)).of_records ?_ fun v => ?_
    · rw [State.noteChange_stamp, if_neg (by simp [hm])]
    · by_cases hv : s.serves p v
      · obtain ⟨h1, -, h3, h4⟩ := (s.voice v).legatoChange_frame k (s.part p).live (s.part p).lastPitch
        rw [State.voice_noteChange_legato hm k hv, VoiceRec.asgStamp, h1, h3, h4, Option.isSome_map, Option.map_map]
        exact ⟨rfl, rfl, rfl, rfl⟩
      · rw [State.voice_noteChange_of_not_serves k hv]
        exact ⟨rfl, rfl, rfl, rfl⟩
  | retrig =>
    rw [State.noteChange_eq_retrig hm]
    have hfold : ∀ (l : List Voice) (t : State), t.Ordered (n + l.length) →
        (l.foldl (fun (t : State) v => t.assign v p k (s.voice v).unisonIndex .fromCurrent) t).Ordered n := by
      intro l
      induction l with
      | nil => exact fun t ht => ht
      | cons v l ih => exact fun t ht => ih _ (State.Ordered.assign (n := n + l.length) ht v p k _ .fromCurrent)
    exact (hfold (s.byIndex p) s (s.byIndex_length p ▸ h)).of_voices rfl rfl

theorem State.live_noteChange (s : State) (p : PartNo) (h : HeldKey) (q : PartNo) :
    ((s.noteChange p h).part q).live = (s.part q).live := (s.noteChange_keyWork p h).live q

/-! ### Key-ons (R31, R33) -/

/-- The chosen key is another than the one sounding, or was struck again (R31, R33). -/
def State.changes (s : State) (p : PartNo) (h e : HeldKey) (v : Voice) : Prop :=
  (s.voice v).carries p e = false ∨ h.same e = true

theorem State.followChosen_of_changes {s : State} {p : PartNo} {h e : HeldKey} {v : Voice} (hc : s.changes p h e v) :
    s.followChosen p h e v = s.noteChange p e := by
  unfold State.followChosen
  rcases hc with hc | hc
  · rw [if_neg (by simp [hc])]
  · rw [if_pos hc, ite_self]

theorem State.followChosen_of_not_changes {s : State} {p : PartNo} {h e : HeldKey} {v : Voice} (hc : ¬ s.changes p h e v) :
    s.followChosen p h e v = s := by
  unfold State.followChosen
  obtain ⟨h1, h2⟩ := not_or.mp hc
  rw [if_pos (by simpa using h1), if_neg h2]

/-- The first step of a UNISON key-on, for the chosen key (R33). -/
def State.unisonFollowed (s : State) (p : PartNo) (h e : HeldKey) : State :=
  match s.partVoices p with
  | [] => s
  | v :: _ => s.followChosen p h e v

theorem State.unisonKeyOn_eq {s : State} {p : PartNo} {e : HeldKey} (he : s.chosen p = some e) (h : HeldKey) (legato : Bool) :
    s.unisonKeyOn p h legato = (s.unisonFollowed p h e).fillStack p e (.fromLast legato) := by
  unfold State.unisonKeyOn
  rw [he]
  rfl

theorem State.monoKeyOn_of_no_voice {s : State} {p : PartNo} {e : HeldKey} (he : s.chosen p = some e) (hn : s.partVoices p = [])
    (h : HeldKey) (legato : Bool) :
    s.monoKeyOn p h legato = (s.acquire p e 0 (.fromLast legato) 1 false).getD (s.dropKey p) := by
  unfold State.monoKeyOn
  rw [he, hn]

theorem State.monoKeyOn_of_voice {s : State} {p : PartNo} {e : HeldKey} (he : s.chosen p = some e) {v : Voice} {rest : List Voice}
    (hn : s.partVoices p = v :: rest) (h : HeldKey) (legato : Bool) : s.monoKeyOn p h legato = s.followChosen p h e v := by
  unfold State.monoKeyOn
  rw [he, hn]

theorem State.unisonFollowed_of_no_voice {s : State} {p : PartNo} (hn : s.partVoices p = []) (h e : HeldKey) :
    s.unisonFollowed p h e = s := by
  unfold State.unisonFollowed
  rw [hn]

theorem State.unisonFollowed_of_voice {s : State} {p : PartNo} {v : Voice} {rest : List Voice} (hn : s.partVoices p = v :: rest)
    (h e : HeldKey) : s.unisonFollowed p h e = s.followChosen p h e v := by
  unfold State.unisonFollowed
  rw [hn]

theorem State.followChosen_eq (s : State) (p : PartNo) (h e : HeldKey) (v : Voice) :
    s.followChosen p h e v = s.noteChange p e ∨ s.followChosen p h e v = s := by
  by_cases hc : s.changes p h e v
  · exact .inl (State.followChosen_of_changes hc)
  · exact .inr (State.followChosen_of_not_changes hc)

theorem State.unisonFollowed_eq (s : State) (p : PartNo) (h e : HeldKey) :
    s.unisonFollowed p h e = s.noteChange p e ∨ s.unisonFollowed p h e = s := by
  unfold State.unisonFollowed
  split
  · exact .inr rfl
  · exact s.followChosen_eq p h e _

theorem State.unisonFollowed_frame (s : State) (p : PartNo) (h e : HeldKey) :
    (s.unisonFollowed p h e).count p = s.count p ∧ ((s.unisonFollowed p h e).part p).live = (s.part p).live := by
  rcases s.unisonFollowed_eq p h e with e' | e' <;> rw [e']
  · exact ⟨s.count_noteChange p e, s.live_noteChange p e p⟩
  · exact ⟨rfl, rfl⟩

/-- With its stack full a part acquires no voice and drops no key (R33). -/
theorem State.fillStack_of_full {s : State} {p : PartNo} (hu : 1 ≤ (s.part p).live.unisonCount)
    (hc : (s.part p).live.unisonCount ≤ s.count p) (e : HeldKey) (g : GlideStart) : s.fillStack p e g = s := by
  unfold State.fillStack
  simp only
  have h0 : s.count p ≠ 0 := by omega
  rw [if_neg (Nat.not_lt.mpr hc), if_neg h0]

/-- The part's stack as far as its indices are acquired (R33). -/
def State.stacked (s : State) (p : PartNo) (e : HeldKey) (g : GlideStart) : State :=
  s.acquireStack p e g (s.part p).live.unisonCount (List.range (s.part p).live.unisonCount)

/-- A part without voices for which none can be had gets none (R28, R29, R33). -/
theorem State.stacked_of_none {s : State} (ha : ∀ v, (s.voice v).assignedRight) {p : PartNo} (hu : 1 ≤ (s.part p).live.unisonCount)
    (hn : s.partVoices p = []) {e : HeldKey} (g : GlideStart) (hf : ∀ v, ¬ (s.voice v).free)
    (hs : ∀ v, ¬ s.stealable p (s.part p).live.unisonCount v) : s.stacked p e g = s := by
  unfold State.stacked
  obtain ⟨m, hm⟩ : ∃ m, (s.part p).live.unisonCount = m + 1 := ⟨(s.part p).live.unisonCount - 1, by omega⟩
  have hnone : s.acquire p e 0 g (m + 1) true = none := (State.acquire_eq_none ha).mpr
    ⟨fun ⟨_, v, hv⟩ => hf v hv, fun v hv => hs v (hm ▸ hv.1)⟩
  rw [hm, List.range_succ_eq_map, State.acquireStack, hn, hnone]
  rfl

theorem State.fillStack_of_missing {s : State} {p : PartNo} (hc : s.count p < (s.part p).live.unisonCount) (e : HeldKey)
    (g : GlideStart) :
    s.fillStack p e g = if (s.stacked p e g).count p = 0 then (s.stacked p e g).dropKey p else s.stacked p e g := by
  unfold State.fillStack
  simp only
  rw [if_pos hc]
  rfl

/-! ### A stack of IDLE voices (R28, R33) -/

/-- The voices that are IDLE. -/
def State.idleVoices (s : State) : List Voice := allVoices.filter fun v => (s.voice v).state == .idle

theorem State.mem_idleVoices {s : State} {v : Voice} : v ∈ s.idleVoices ↔ (s.voice v).state = .idle := by
  simp [State.idleVoices, mem_allVoices]

theorem State.nodup_idleVoices (s : State) : s.idleVoices.Nodup := nodup_allVoices.filter _

theorem State.idleVoices_assign (s : State) (v : Voice) (p : PartNo) (h : HeldKey) (j : Nat) (g : GlideStart) :
    (s.assign v p h j g).idleVoices = s.idleVoices.erase v := by
  rw [s.nodup_idleVoices.erase_eq_filter]
  unfold State.idleVoices
  rw [List.filter_filter]
  refine List.filter_congr fun x _ => ?_
  by_cases hx : x = v
  · have hc := ((s.voice v).assigned_sound p h j g (s.part p) (s.stamp + 1) s.settings.stealGap).1
    rw [hx, State.voice_assign_self]
    rcases (Service.counted_iff _).mp hc with e | e <;> rw [e] <;> simp
  · rw [State.voice_assign_of_ne hx]
    simp [hx]

/-- With an IDLE voice at hand the free-voice step takes one (R28). -/
theorem State.freeChoice_idle {s : State} {note : Nat} {v : Voice} (h : s.freeChoice note = some v) (hi : s.idleVoices ≠ []) :
    (s.voice v).state = .idle := by
  obtain ⟨w, hw⟩ := List.exists_mem_of_ne_nil _ hi
  have hidle := State.mem_idleVoices.mp hw
  unfold State.freeChoice at h
  simp only [Option.or_eq_some_iff, oldestBy_eq_none] at h
  rcases h with h | ⟨h1, h | ⟨h2, -⟩⟩
  · simpa [mem_allVoices] using (List.mem_filter.mp (List.mem_filter.mp (oldestBy_mem h)).1).2
  · simpa [mem_allVoices] using (List.mem_filter.mp (List.mem_filter.mp (oldestBy_mem h)).1).2
  · exfalso
    by_cases hn : (s.voice w).lastNote = some note
    · have : w ∈ (allVoices.filter fun v => (s.voice v).state == .idle).filter fun v => (s.voice v).lastNote == some note := by
        simp [mem_allVoices, hidle, hn]
      rw [h1] at this
      simp at this
    · have : w ∈ (allVoices.filter fun v => (s.voice v).state == .idle).filter fun v => (s.voice v).lastNote != some note := by
        simp [mem_allVoices, hidle, hn]
      rw [h2] at this
      simp at this

/-- Where enough voices are IDLE a stack takes IDLE voices alone, one index and one stamp each (R22, R28, R33). -/
theorem State.acquireStack_idle (p : PartNo) (e : HeldKey) (g : GlideStart) (u m : Nat) {s : State} {k : Nat}
    (hk : ∀ v, s.serves p v → (s.voice v).unisonIndex < k) (hc : s.count p = k) (hu : u = k + m)
    (hm : m ≤ s.idleVoices.length) :
    let t := s.acquireStack p e g u (List.range' k m)
    t.count p = u ∧ (m ≠ 0 → t.part p = { s.part p with lastPitch := 64 * e.note }) ∧ t.stamp = s.stamp + BitVec.ofNat 32 m ∧
      (∀ v, (s.voice v).state ≠ .idle → t.voice v = s.voice v) ∧
      ∀ j, j < m → ∃ v, (s.voice v).state = .idle ∧ (t.voice v).state = .sounding ∧ (t.voice v).target = 64 * e.note ∧
        (t.voice v).asg = some ⟨p, e.zone, e.channel, e.key, e.note, e.velocity, s.stamp + 1 + BitVec.ofNat 32 j, false, k + j⟩ := by
  induction m generalizing s k with
  | zero => exact ⟨by simpa [State.acquireStack, hu] using hc, fun h => absurd rfl h, by simp [State.acquireStack],
      fun _ _ => rfl, fun j hj => absurd hj (Nat.not_lt_zero j)⟩
  | succ m ih =>
    have hne : s.idleVoices ≠ [] := fun h0 => by rw [h0] at hm; simp at hm
    obtain ⟨w, hw⟩ := List.exists_mem_of_ne_nil _ hne
    obtain ⟨v, hv, hacq⟩ := State.acquire_of_findsFree (s := s) (p := p) (n := u)
      ⟨by omega, w, .inl (State.mem_idleVoices.mp hw)⟩ e k g true
    have hidle := State.freeChoice_idle hv hne
    have hnot : ¬ s.serves p v := fun hs => by rcases hs.1 with h | h <;> simp [hidle] at h
    have hheld : ((s.partVoices p).any fun v => (s.voice v).unisonIndex == k) = false := by
      rw [Bool.eq_false_iff]
      intro h
      obtain ⟨x, hx, hxk⟩ := State.any_index_iff.mp h
      have := hk x hx
      omega
    set t := s.assign v p e k g with ht
    have hstep : s.acquireStack p e g u (List.range' k (m + 1)) = t.acquireStack p e g u (List.range' (k + 1) m) := by
      rw [List.range'_succ, State.acquireStack, hheld, hacq]
      rfl
    have hself : t.voice v = _ := State.voice_assign_self s v p e k g
    have hother : ∀ x, x ≠ v → t.voice x = s.voice x := fun x hx => State.voice_assign_of_ne hx p e k g
    rw [VoiceRec.assigned_eq] at hself
    have hsounding : (t.voice v).state = .sounding := by
      rw [hself]
      simp [assignedState, hidle, Service.counted]
    have hasg : (t.voice v).asg = some ⟨p, e.zone, e.channel, e.key, e.note, e.velocity, s.stamp + 1, false, k⟩ := by rw [hself]
    have hlen : m ≤ t.idleVoices.length := by
      rw [ht, State.idleVoices_assign, List.length_erase_of_mem (State.mem_idleVoices.mpr hidle)]
      omega
    have hcount : t.count p = k + 1 := by
      rw [← hc]
      exact State.count_eq_succ (v := v) (fun x hx => by rw [ht, State.serves_assign, if_neg hx]) hnot
        (by rw [ht, State.serves_assign, if_pos rfl])
    have hindex : ∀ x, t.serves p x → (t.voice x).unisonIndex < k + 1 := fun x hx => by
      by_cases hxv : x = v
      · rw [hxv, VoiceRec.unisonIndex, hasg]
        exact Nat.lt_succ_self k
      · rw [ht, State.serves_assign, if_neg hxv] at hx
        rw [hother x hxv]
        exact (hk x hx).trans (Nat.lt_succ_self k)
    obtain ⟨h1, h2, h3, h4, h5⟩ := ih (s := t) (k := k + 1) hindex hcount (by omega) hlen
    rw [hstep]
    have hstamp : t.stamp = s.stamp + 1 := State.assign_stamp s v p e k g
    have hpart : t.part p = { s.part p with lastPitch := 64 * e.note } := State.part_assign_self s v p e k g
    have hkeep : (t.acquireStack p e g u (List.range' (k + 1) m)).voice v = t.voice v := h4 v (by simp [hsounding])
    refine ⟨h1, fun _ => ?_, ?_, fun x hx => ?_, fun j hj => ?_⟩
    · by_cases hm0 : m = 0
      · rw [hm0]
        exact hpart
      · rw [h2 hm0, hpart]
    · rw [h3, hstamp, Nat.add_comm m 1, BitVec.ofNat_add, ← BitVec.add_assoc]
      rfl
    · have hxv : x ≠ v := fun h => hx (h ▸ hidle)
      rw [h4 x (by rw [hother x hxv]; exact hx), hother x hxv]
    · cases j with
      | zero => exact ⟨v, hidle, by rw [hkeep, hsounding], by rw [hkeep, hself], by rw [hkeep, hasg]; simp⟩
      | succ j =>
        obtain ⟨x, hx1, hx2, hx3, hx4⟩ := h5 j (by omega)
        have hxv : x ≠ v := fun h => by rw [h, hsounding] at hx1; cases hx1
        refine ⟨x, by rw [← hother x hxv]; exact hx1, hx2, hx3, hx4.trans ?_⟩
        rw [hstamp, Nat.add_comm j 1, BitVec.ofNat_add, ← BitVec.add_assoc, ← Nat.add_assoc]
        rfl

/-! ### Key-offs (R34, R35) -/

/-- A record after a key-off reaches it, with the sustain down or up, a tail of `n` frames and the next stamp `x` (R34). -/
def VoiceRec.keyOff (r : VoiceRec) (down : Bool) (n : Nat) (x : Stamp) : VoiceRec :=
  match r.state with
  | .sounding => if down then r.setSustained true else r.released n x
  | .stealGap => r.released n x
  | .absent | .offline | .idle | .releasing | .calibrating | .retuning | .quarantined => r

/-- A key-off that reaches the record takes a stamp: it becomes IDLE at once (R34, R38). -/
def VoiceRec.keyOffFrees (r : VoiceRec) (down : Bool) (n : Nat) : Bool :=
  match r.state with
  | .sounding => !down && (n == 0 && r.unmarkedB)
  | .stealGap => n == 0 && r.unmarkedB
  | .absent | .offline | .idle | .releasing | .calibrating | .retuning | .quarantined => false

theorem State.voice_keyOffVoice (s : State) (p : PartNo) (v w : Voice) :
    (s.keyOffVoice p v).voice w =
      if v = w then (s.voice v).keyOff (s.part p).sustain (s.tailOf v) (s.stamp + 1) else s.voice w := by
  unfold State.keyOffVoice VoiceRec.keyOff
  cases (s.voice v).state with
  | sounding =>
    simp only
    cases (s.part p).sustain with
    | true =>
      simp only [if_true]
      rw [State.voice_modVoice]
      split
      · rename_i e
        rw [e]
      · rfl
    | false => exact State.voice_release s v w
  | stealGap => exact State.voice_release s v w
  | absent | offline | idle | releasing | calibrating | retuning | quarantined =>
    simp only
    split
    · rename_i e
      rw [e]
    · rfl

theorem State.keyOffVoice_stamp (s : State) (p : PartNo) (v : Voice) :
    (s.keyOffVoice p v).stamp = if (s.voice v).keyOffFrees (s.part p).sustain (s.tailOf v) then s.stamp + 1 else s.stamp := by
  unfold State.keyOffVoice VoiceRec.keyOffFrees
  cases (s.voice v).state with
  | sounding =>
    simp only
    cases (s.part p).sustain with
    | true => rfl
    | false => exact s.release_stamp v
  | stealGap => exact s.release_stamp v
  | absent | offline | idle | releasing | calibrating | retuning | quarantined => rfl

theorem State.keyOffVoice_voiceWork (s : State) (p : PartNo) (v : Voice) : s.VoiceWork (s.keyOffVoice p v) := by
  unfold State.keyOffVoice
  split
  · split
    · exact State.modVoice_voiceWork s v _
    · exact State.release_voiceWork s v
  · exact State.release_voiceWork s v
  all_goals exact .refl s

/-- A key-off reaching one voice after another (R34, R35). -/
theorem State.keyOffVoice_fold (p : PartNo) (down : Bool) (tails : Voice → Nat) :
    VoiceFold (fun (t : State) v => t.keyOffVoice p v) (fun v r x => r.keyOff down (tails v) x)
      (fun v r => r.keyOffFrees down (tails v))
      fun l t => l.Nodup ∧ (t.part p).sustain = down ∧ ∀ v ∈ l, t.tailOf v = tails v := by
  refine ⟨fun s v l ⟨hl, hd, ht⟩ => ⟨(List.nodup_cons.mp hl).2, ?_, fun w hw => ?_⟩, fun s v l ⟨hl, hd, ht⟩ w => ?_,
    fun s v l ⟨hl, hd, ht⟩ => ?_⟩
  · rw [(s.keyOffVoice_voiceWork p v).part]
    exact hd
  · have hne : v ≠ w := fun e => (List.nodup_cons.mp hl).1 (e ▸ hw)
    rw [← ht w (by simp [hw])]
    unfold State.tailOf
    rw [State.voice_keyOffVoice, if_neg hne]
    simp only [(s.keyOffVoice_voiceWork p v).part]
  · rw [State.voice_keyOffVoice, hd, ht v (by simp)]
  · rw [State.keyOffVoice_stamp, hd, ht v (by simp)]

/-- A record after a key-off, as the statements write it (R34, R35). -/
theorem State.keyLetGo_of_voice {s t : State} {v : Voice} {a : Assignment} {x : Stamp} (ha : (s.voice v).asg = some a)
    (h : t.voice v = (s.voice v).keyOff (s.part a.part).sustain (s.tailOf v) x) : s.keyLetGo t v a := by
  have htail : s.tailOf v = ((s.part a.part).live.params[(6 : Fin 25)]).toNat / 2 := by
    unfold State.tailOf VoiceRec.asgPart; rw [ha]; rfl
  have hgoes : (s.voice v).state = .stealGap ∨ (s.voice v).state = .sounding ∧ ¬ (s.part a.part).sustain = true →
      t.voice v = (s.voice v).released (s.tailOf v) x := fun hg => by
    rw [h, VoiceRec.keyOff]
    rcases hg with hg | ⟨hg, hd⟩
    · simp only [hg]
    · simp only [hg, hd]
      rfl
  refine ⟨fun hs hd => ?_, fun h1 h2 => ?_, fun hg hn => ?_, fun hg hn => ?_⟩
  · rw [h, VoiceRec.keyOff]
    simp only [hs, hd, if_true, VoiceRec.setSustained, ha]
    rfl
  · rw [h, VoiceRec.keyOff]
    cases hs : (s.voice v).state with
    | sounding => exact absurd hs h1
    | stealGap => exact absurd hs h2
    | absent | offline | idle | releasing | calibrating | retuning | quarantined => rfl
  · rw [hgoes hg, VoiceRec.released, if_neg (by rw [htail]; exact hn), htail]
  · rw [VoiceRec.released, if_pos (by rw [htail]; exact hn)] at hgoes
    exact State.tailOver_of_voice (hgoes hg)

/-! ### The obligation -/

theorem State.allocKeyOff_of_not_poly {s : State} {p : PartNo} (hm : (s.part p).live.voiceMode ≠ .poly) (h : HeldKey) :
    s.allocKeyOff p h =
      if (s.partVoices p).any fun v => (s.voice v).carries p h then
        match s.chosen p with
        | some e => s.noteChange p e
        | none => (s.partVoices p).foldl (fun (t : State) v => t.keyOffVoice p v) s
      else s := by
  unfold State.allocKeyOff
  cases hv : (s.part p).live.voiceMode with
  | poly => exact absurd hv hm
  | mono | unison => rfl

theorem noteChange_spec (s : State) (p : PartNo) (e : HeldKey) :
    let t := s.noteChange p e
    let frames := ((s.part p).live.params[(0 : Fin 25)]).toNat / 4
    let slides := 0 < frames ∧ (s.part p).live.glideMode ≠ .off
    let retrig := (s.part p).live.monoTrigger = .retrig
    let lower (v : Voice) : List Voice := (s.partVoices p).filter fun w => (s.voice w).unisonIndex < (s.voice v).unisonIndex
    ∀ v a, s.serves p v → (s.voice v).asg = some a →
      let r := t.voice v
      r.target = 64 * e.note ∧ (slides → r.pitch = (s.voice v).pitch ∧ r.glide = frames) ∧
      (¬ slides → r.pitch = 64 * e.note ∧ r.glide = 0) ∧
      (¬ retrig → r.state = (s.voice v).state ∧ r.gap = (s.voice v).gap ∧ r.asg = some { a with
        zone := e.zone, channel := e.channel, key := e.key, note := e.note, velocity := e.velocity, sustained := false }) ∧
      (retrig →
        (if s.settings.stealGap = 0 then r.state = .sounding else r.state = .stealGap ∧ r.gap = s.settings.stealGap) ∧
        (∃ stamp, r.asg = some ⟨p, e.zone, e.channel, e.key, e.note, e.velocity, stamp, false, a.unison⟩) ∧
        ((∀ w w', s.serves p w → s.serves p w' → (s.voice w).unisonIndex = (s.voice w').unisonIndex → w = w') →
          r.asgStamp = s.stamp + 1 + BitVec.ofNat 32 (lower v).length)) := by
  intro t frames slides retrig lower v a hv ha
  obtain ⟨h1, h2, h3⟩ := State.noteChange_glides e hv
  have hindex : (s.voice v).unisonIndex = a.unison := by rw [VoiceRec.unisonIndex, ha]; rfl
  refine ⟨h1, h2, h3, fun hr => ?_, fun hr => ?_⟩
  · have hm : (s.part p).live.monoTrigger = .legato := by
      cases hm : (s.part p).live.monoTrigger with
      | legato => rfl
      | retrig => exact absurd hm hr
    obtain ⟨k1, k2, -, k4⟩ := (s.voice v).legatoChange_frame e (s.part p).live (s.part p).lastPitch
    rw [State.voice_noteChange_legato hm e hv, k1, k2, k4, ha]
    exact ⟨rfl, rfl, rfl⟩
  · obtain ⟨l₁, l₂, hl⟩ := List.append_of_mem (State.mem_byIndex.mpr hv)
    have hvoice := State.voice_noteChange_retrig hr e hl
    have hasg : ((s.noteChange p e).voice v).asg = some ⟨p, e.zone, e.channel, e.key, e.note, e.velocity,
        s.stamp + 1 + BitVec.ofNat 32 l₁.length, false, a.unison⟩ := by
      rw [hvoice, VoiceRec.assigned_eq, hindex]
    refine ⟨?_, ⟨_, hasg⟩, fun hd => ?_⟩
    · rw [hvoice]
      exact VoiceRec.assigned_of_counted ((State.serves_iff ..).mp hv).1 ..
    · rw [← State.length_before hl hd, VoiceRec.asgStamp, hasg]
      rfl

theorem keyOff_spec (s : State) (p : PartNo) :
    let t := (s.partVoices p).foldl (fun (t : State) v => t.keyOffVoice p v) s
    t.parts = s.parts ∧ (∀ v, ¬ s.serves p v → t.voice v = s.voice v) ∧
      ∀ v a, s.serves p v → (s.voice v).asg = some a → s.keyLetGo t v a := by
  have hfold := State.keyOffVoice_fold p (s.part p).sustain s.tailOf
  have hinv : (s.partVoices p).Nodup ∧ (s.part p).sustain = (s.part p).sustain ∧ ∀ v ∈ s.partVoices p, s.tailOf v = s.tailOf v :=
    ⟨s.nodup_partVoices p, rfl, fun _ _ => rfl⟩
  refine ⟨(State.foldl_voiceWork _ (fun t v => State.keyOffVoice_voiceWork t p v) _ s).parts, fun v hv => ?_, fun v a hv ha => ?_⟩
  · exact hfold.voice_of_not_mem hinv fun hm => hv (State.mem_partVoices.mp hm)
  · obtain ⟨n, hn⟩ := hfold.exists_voice (s.nodup_partVoices p) hinv (State.mem_partVoices.mpr hv)
    refine State.keyLetGo_of_voice (x := stampAfter s.stamp n) ha (hn.trans ?_)
    have hp : a.part = p := by
      have := hv.2
      rw [VoiceRec.asgPart, ha] at this
      exact Option.some.inj this
    rw [hp]

theorem unisonKeyOn_spec {s : State} {p : PartNo} {h e : HeldKey} (legato : Bool) (ha : ∀ v, (s.voice v).assignedRight)
    (he : s.chosen p = some e) (hm : (s.part p).live.voiceMode = .unison) (hu : 1 ≤ (s.part p).live.unisonCount) :
    let t := s.allocKeyOn p h legato
    let changes (v : Voice) : Prop := (s.voice v).carries p e = false ∨ h.same e = true
    let u := (s.part p).live.unisonCount
    (∀ v rest, s.partVoices p = v :: rest → u ≤ s.count p →
      (changes v → t = s.noteChange p e) ∧ (¬ changes v → t = s)) ∧
    (s.partVoices p = [] → u ≤ (allVoices.filter fun v => (s.voice v).state == .idle).length →
      t.count p = u ∧ t.part p = { s.part p with lastPitch := 64 * e.note } ∧ t.stamp = s.stamp + BitVec.ofNat 32 u ∧
      (∀ v, (s.voice v).state ≠ .idle → t.voice v = s.voice v) ∧
      ∀ j, j < u → ∃ v, (s.voice v).state = .idle ∧ (t.voice v).state = .sounding ∧ (t.voice v).target = 64 * e.note ∧
        (t.voice v).asg = some ⟨p, e.zone, e.channel, e.key, e.note, e.velocity, s.stamp + 1 + BitVec.ofNat 32 j, false, j⟩) ∧
    (s.partVoices p = [] → (∀ v, ¬ (s.voice v).free) → (∀ v, ¬ s.stealable p u v) → s.keyDropped t p) ∧
    (s.stampsWithin 32 → s.count p < u → ∃ changed filled : State,
      (s.partVoices p = [] → changed = s) ∧
      (∀ v rest, s.partVoices p = v :: rest →
        (changes v → changed = s.noteChange p e) ∧ (¬ changes v → changed = s)) ∧
      State.stackFilled p e u (.fromLast legato) (List.range u) changed filled ∧
      (filled.count p = 0 → filled.keyDropped t p) ∧ (filled.count p ≠ 0 → t = filled)) := by
  intro t changes u
  have ht : t = (s.unisonFollowed p h e).fillStack p e (.fromLast legato) := by
    refine Eq.trans ?_ (State.unisonKeyOn_eq he h legato)
    change s.allocKeyOn p h legato = _
    unfold State.allocKeyOn
    rw [hm]
  have hzero : s.partVoices p = [] → s.count p = 0 := fun hn => by rw [State.count, hn]; rfl
  have hempty : s.partVoices p = [] → t = (if (s.stacked p e (.fromLast legato)).count p = 0
      then (s.stacked p e (.fromLast legato)).dropKey p else s.stacked p e (.fromLast legato)) := fun hn => by
    rw [ht, State.unisonFollowed_of_no_voice hn, State.fillStack_of_missing (by rw [hzero hn]; exact hu)]
  obtain ⟨hcount, hlive⟩ := s.unisonFollowed_frame p h e
  refine ⟨fun v rest hv hc => ?_, fun hn hi => ?_, fun hn hf hs => ?_, fun hw hc => ?_⟩
  · have hfull : t = s.followChosen p h e v := by
      rw [ht, State.fillStack_of_full (by rw [hlive]; exact hu) (by rw [hlive, hcount]; exact hc),
        State.unisonFollowed_of_voice hv]
    exact ⟨fun hch => hfull.trans (State.followChosen_of_changes hch), fun hch => hfull.trans (State.followChosen_of_not_changes hch)⟩
  · obtain ⟨h1, h2, h3, h4, h5⟩ := State.acquireStack_idle p e (.fromLast legato) u u (s := s) (k := 0)
      (fun v hv => absurd hv (State.partVoices_eq_nil.mp hn v)) (hzero hn) (Nat.zero_add u).symm hi
    rw [← List.range_eq_range'] at h1 h2 h3 h4 h5
    have hstack : t = s.acquireStack p e (.fromLast legato) u (List.range u) := by
      rw [hempty hn, if_neg]
      · rfl
      · have h1 : (s.stacked p e (.fromLast legato)).count p = u := h1
        omega
    rw [hstack]
    refine ⟨h1, h2 (by omega), h3, h4, fun j hj => ?_⟩
    obtain ⟨v, k1, k2, k3, k4⟩ := h5 j hj
    exact ⟨v, k1, k2, k3, by rw [k4, Nat.zero_add]⟩
  · rw [hempty hn, State.stacked_of_none ha hu hn _ hf hs, if_pos (hzero hn)]
    exact s.dropKey_keyDropped p
  · refine ⟨s.unisonFollowed p h e, (s.unisonFollowed p h e).stacked p e (.fromLast legato),
      fun hn => State.unisonFollowed_of_no_voice hn h e, fun v rest hv => ?_, ?_, fun h0 => ?_, fun h0 => ?_⟩
    · rw [State.unisonFollowed_of_voice hv]
      exact ⟨State.followChosen_of_changes, State.followChosen_of_not_changes⟩
    · have hordered : s.Ordered 32 := ⟨ha, hw, by norm_num⟩
      have h16 := s.count_le_sixteen p
      have hready : (s.unisonFollowed p h e).Ordered (16 - (s.unisonFollowed p h e).count p) := by
        rw [hcount]
        rcases s.unisonFollowed_eq p h e with e' | e' <;> rw [e']
        · refine State.Ordered.mono (n := 32 - s.count p) (State.Ordered.noteChange ?_ e) (by omega)
          exact hordered.mono (by omega)
        · exact hordered.mono (by omega)
      have hfilled := State.acquireStack_stackFilled p e u (.fromLast legato) (List.range u) hready
      unfold State.stacked
      rw [hlive]
      exact hfilled
    · rw [ht, State.fillStack_of_missing (by rw [hcount, hlive]; exact hc), if_pos h0]
      exact State.dropKey_keyDropped _ p
    · rw [ht, State.fillStack_of_missing (by rw [hcount, hlive]; exact hc), if_neg h0]

/-- Settles O25: the scan's best place, the folds over a part's voices, and the acquisitions index by index. -/
theorem monoAndUnisonFollowTheChosenKey : Obligations.MonoAndUnisonFollowTheChosenKey := by
  refine ⟨fun keys e => ⟨by rw [chosenKey_last], ?_, ?_⟩, fun s p e => ⟨?_, fun q hq => ?_, s.noteChange_stamp p e,
    fun v hv => State.voice_noteChange_of_not_serves e hv, noteChange_spec s p e⟩, fun s p h e legato ha hc he => ⟨fun hm => ?_, ?_⟩,
    fun s p h hm => ⟨fun hn => ?_, fun e hcar he => ?_, fun hcar hn => ?_⟩⟩
  · rw [chosenKey_low]
    simp only [IsBest, not_le]
  · rw [chosenKey_high]
    simp only [IsBest, not_le]
  · rw [State.part_noteChange, if_pos rfl]
  · rw [State.part_noteChange, if_neg (Ne.symm hq)]
  · have hmono : s.allocKeyOn p h legato = s.monoKeyOn p h legato := by
      unfold State.allocKeyOn
      rw [hm]
    rw [hmono]
    refine ⟨fun hn => ?_, fun v rest hv => ?_⟩
    · rw [State.monoKeyOn_of_no_voice he hn]
      exact State.acquire_keyServed ha hc p e _ 1
    · rw [State.monoKeyOn_of_voice he hv]
      exact ⟨State.followChosen_of_changes, State.followChosen_of_not_changes⟩
  · exact fun hm hu => unisonKeyOn_spec legato ha he hm hu
  · rw [State.allocKeyOff_of_not_poly hm, if_neg]
    rw [List.any_eq_true]
    exact fun ⟨v, hv, hk⟩ => hn ⟨v, State.mem_partVoices.mp hv, hk⟩
  · obtain ⟨v, hv, hk⟩ := hcar
    rw [State.allocKeyOff_of_not_poly hm, if_pos (List.any_eq_true.mpr ⟨v, State.mem_partVoices.mpr hv, hk⟩), he]
  · obtain ⟨v, hv, hk⟩ := hcar
    rw [State.allocKeyOff_of_not_poly hm, if_pos (List.any_eq_true.mpr ⟨v, State.mem_partVoices.mpr hv, hk⟩), hn]
    exact keyOff_spec s p

end Sys2Proof.Machine
end

