-- ==== Sys2Proof/Proofs/LostVoices.lean ====
section
/-! PROOFS. The tune controller's side of a slot-down: the check, the voice in service and the entries given up, and the pass that
goes on (R103, R104, R109, R110, R118, R120, R133). -/

namespace Sys2Proof.Machine

/-! ### What a lost voice takes from the tune controller -/

/-- The tune controller after voices are lost, its entries aside: a check and a voice in service among them are given up, with the
measurement of either (R120, R133). -/
def Tune.lose (t : Tune) (lost : Voice → Bool) : Tune :=
  { t with
    check := t.check.filter fun c => !lost c.voice
    service := t.service.filter fun x => !lost x.voice
    unit := if t.check.any fun c => lost c.voice then none
      else if t.service.any fun x => lost x.voice then dropPassUnit t.unit else t.unit
    requestWaiting := t.requestWaiting && !t.service.any fun x => lost x.voice
    heldQuarantine := t.heldQuarantine && !t.service.any fun x => lost x.voice }

/-- Voices lost one set after another are the voices of both sets lost. -/
theorem Tune.lose_lose (t : Tune) (p q : Voice → Bool) : (t.lose p).lose q = t.lose fun v => p v || q v := by
  obtain ⟨cal, plan, outcome, force, entries, service, held, request, unit, check, lv, ld⟩ := t
  have hnone : dropPassUnit none = none := rfl
  cases check with
  | none =>
    cases service with
    | none => simp [Tune.lose]
    | some x =>
      cases hp : p x.voice <;> cases hq : q x.voice <;> simp [Tune.lose, hp, hq]
  | some c =>
    cases service with
    | none => cases hp : p c.voice <;> cases hq : q c.voice <;> simp [Tune.lose, hp, hq]
    | some x =>
      cases hp : p c.voice <;> cases hq : q c.voice <;> cases hp' : p x.voice <;> cases hq' : q x.voice <;>
        simp [Tune.lose, hp, hq, hp', hq', hnone]

theorem Tune.lose_of_none {t : Tune} {lost : Voice → Bool} (h : ∀ v, lost v = false) : t.lose lost = t := by
  have e : lost = fun _ => false := funext h
  rw [e]
  obtain ⟨cal, plan, outcome, force, entries, service, held, request, unit, check, lv, ld⟩ := t
  cases check <;> cases service <;> simp [Tune.lose]

theorem filter_not_of_any {α : Type} {o : Option α} {p : α → Bool} (h : o.any p = true) : (o.filter fun a => !p a) = none := by
  cases o with
  | none => rfl
  | some a =>
    have h : p a = true := h
    simp [h]

theorem filter_not_of_not_any {α : Type} {o : Option α} {p : α → Bool} (h : o.any p = false) : (o.filter fun a => !p a) = o := by
  cases o with
  | none => rfl
  | some a =>
    have h : p a = false := h
    simp [h]

theorem any_voice_iff {α : Type} {o : Option α} {f : α → Voice} {v : Voice} :
    (o.any fun a => f a == v) = true ↔ ∃ a, o = some a ∧ f a = v := by
  cases o <;> simp

theorem State.dropCheck_tune (s : State) (v : Voice) :
    (s.dropCheck v).tune = { s.tune with
      check := s.tune.check.filter fun c => !(c.voice == v)
      unit := if s.tune.check.any fun c => c.voice == v then none else s.tune.unit } := by
  cases h : s.tune.check.any fun c => c.voice == v with
  | true =>
    obtain ⟨c, hc, hv⟩ := any_voice_iff.mp h
    rw [State.dropCheck_of_check hc hv, filter_not_of_any h]
    rfl
  | false =>
    have hn : ∀ c, s.tune.check = some c → c.voice ≠ v := fun c hc hv => by
      rw [any_voice_iff.mpr ⟨c, hc, hv⟩] at h
      cases h
    rw [State.dropCheck_of_no_check hn, filter_not_of_not_any h]
    rfl

theorem State.loseService_tune (s : State) (v : Voice) :
    (s.loseService v).tune = { s.tune with
      service := s.tune.service.filter fun x => !(x.voice == v)
      unit := if s.tune.service.any fun x => x.voice == v then dropPassUnit s.tune.unit else s.tune.unit
      requestWaiting := s.tune.requestWaiting && !s.tune.service.any fun x => x.voice == v
      heldQuarantine := s.tune.heldQuarantine && !s.tune.service.any fun x => x.voice == v
      entries := (s.loseService v).tune.entries } := by
  cases h : s.tune.service.any fun x => x.voice == v with
  | true =>
    obtain ⟨x, hx, rfl⟩ := any_voice_iff.mp h
    rw [State.loseService_of_eq hx, filter_not_of_any h, State.dropService_tune hx]
    simp
  | false =>
    have hn : ∀ x, s.tune.service = some x → x.voice ≠ v := fun x hx hv => by
      rw [any_voice_iff.mpr ⟨x, hx, hv⟩] at h
      cases h
    rw [State.loseService_of_ne hn, filter_not_of_not_any h]
    simp

theorem State.loseVoice_cases (s : State) (v : Voice) :
    s.loseVoice v = (s.unclaimed v).markEntry v .left .lost ∨ s.loseVoice v = s.unclaimed v := by
  by_cases h : ((s.unclaimed v).entry v).toServe
  · exact .inl (State.loseVoice_of_toServe h)
  · exact .inr (State.loseVoice_of_not_toServe h)

theorem State.unclaimed_tune (s : State) (v : Voice) :
    (s.unclaimed v).tune = { s.tune.lose (fun w => w == v) with entries := (s.unclaimed v).tune.entries } := by
  have h := (s.dropCheck v).loseService_tune v
  rw [State.dropCheck_tune] at h
  refine h.trans ?_
  unfold Tune.lose State.unclaimed
  cases hc : s.tune.check with
  | none => simp
  | some c => by_cases hv : c.voice = v <;> simp [hv, dropPassUnit]

theorem State.loseVoice_tune (s : State) (v : Voice) :
    (s.loseVoice v).tune = { s.tune.lose (fun w => w == v) with entries := (s.loseVoice v).tune.entries } := by
  have h := s.unclaimed_tune v
  rcases s.loseVoice_cases v with e | e
  · rw [e]
    change { (s.unclaimed v).tune with entries := ((s.unclaimed v).markEntry v .left .lost).tune.entries } = _
    rw [h]
  · rw [e]
    exact h

theorem State.removeVoice_tune (s : State) (v : Voice) : (s.removeVoice v).tune = (s.loseVoice v).tune := rfl

theorem State.removeAll_tune (l : List Voice) (s : State) :
    (l.foldl State.removeVoice s).tune =
      { s.tune.lose (fun v => decide (v ∈ l)) with entries := (l.foldl State.removeVoice s).tune.entries } := by
  induction l generalizing s with
  | nil => rw [Tune.lose_of_none (by simp)]; rfl
  | cons v l ih =>
    have hkeep : ∀ (t : Tune) (e : Vector PassEntry 16) (p : Voice → Bool), ({ t with entries := e } : Tune).lose p =
        { t.lose p with entries := e } := fun _ _ _ => rfl
    rw [List.foldl_cons]
    refine (ih (s.removeVoice v)).trans ?_
    rw [State.removeVoice_tune, State.loseVoice_tune, hkeep, Tune.lose_lose]
    simp only [List.mem_cons, Bool.decide_or, beq_eq_decide]

/-! ### The entries of lost voices (R109, R120) -/

theorem State.entry_loseService_of_ne {s : State} {v w : Voice} (hw : w ≠ v) : (s.loseService v).entry w = s.entry w := by
  cases hx : s.tune.service with
  | none => rw [State.loseService_of_ne (by simp [hx])]
  | some x =>
    by_cases hv : x.voice = v
    · subst hv
      rw [State.loseService_of_eq hx]
      change s.dropService.entry w = s.entry w
      unfold State.dropService
      simp only [hx]
      rw [State.entry_setEntry, if_neg (Ne.symm hw)]
      cases x.dest <;> rfl
    · rw [State.loseService_of_ne (by simpa [hx] using hv)]

theorem State.entry_loseVoice_of_ne {s : State} {v w : Voice} (hw : w ≠ v) : (s.loseVoice v).entry w = s.entry w := by
  have h : (s.unclaimed v).entry w = s.entry w := (State.entry_loseService_of_ne hw).trans (State.entry_dropCheck s v w)
  rcases s.loseVoice_cases v with e | e
  · rw [e, State.markEntry, State.entry_setEntry, if_neg (Ne.symm hw), h]
  · rw [e, h]

/-- The entry of a lost voice: LEFT with LOST where it was still to be served, and otherwise in the state it had (R109). -/
theorem State.entry_loseVoice_self (s : State) (v : Voice) :
    ((s.entry v).toServe → ((s.loseVoice v).entry v).state = .left ∧ ((s.loseVoice v).entry v).reason = .lost) ∧
    (¬ (s.entry v).toServe →
      ((s.loseVoice v).entry v).state = (s.entry v).state ∧ ((s.loseVoice v).entry v).reason = (s.entry v).reason) := by
  have hu := s.entry_unclaimed v v
  have hs : ((s.unclaimed v).entry v).toServe ↔ (s.entry v).toServe := by unfold PassEntry.toServe; rw [hu.1]
  refine ⟨fun h => ?_, fun h => ?_⟩
  · rw [State.loseVoice_of_toServe (hs.mpr h), State.markEntry, State.entry_setEntry, if_pos rfl]
    exact ⟨rfl, rfl⟩
  · rw [State.loseVoice_of_not_toServe fun e => h (hs.mp e)]
    exact hu

theorem PassEntry.setSum_sets (e : PassEntry) (d : Tuned) (x : DestSummary) :
    (e.setSum d x).inA = e.inA ∧ (e.setSum d x).inB = e.inB := by cases d <;> exact ⟨rfl, rfl⟩

theorem State.entry_loseVoice_sets (s : State) (v : Voice) :
    ((s.loseVoice v).entry v).inA = (s.entry v).inA ∧ ((s.loseVoice v).entry v).inB = (s.entry v).inB := by
  have h : ((s.unclaimed v).entry v).inA = (s.entry v).inA ∧ ((s.unclaimed v).entry v).inB = (s.entry v).inB := by
    rw [← State.entry_dropCheck s v v]
    unfold State.unclaimed State.loseService
    split
    · split
      · change ((s.dropCheck v).dropService.entry v).inA = _ ∧ ((s.dropCheck v).dropService.entry v).inB = _
        unfold State.dropService
        split
        · exact ⟨rfl, rfl⟩
        · rename_i x _ _ _
          rw [State.entry_setEntry]
          split
          · rename_i e
            rw [(PassEntry.setSum_sets ..).1, (PassEntry.setSum_sets ..).2, e]
            exact ⟨rfl, rfl⟩
          · rename_i y _ _
            cases y.dest <;> exact ⟨rfl, rfl⟩
      · exact ⟨rfl, rfl⟩
    · exact ⟨rfl, rfl⟩
  rcases s.loseVoice_cases v with e | e
  · rw [e, State.markEntry, State.entry_setEntry, if_pos rfl]
    exact h
  · rw [e]
    exact h

/-! ### The overrides of lost voices (R72, R120, R133) -/

/-- From `s` to `t`, an override stands or is withdrawn. -/
def State.Withdraws (s t : State) : Prop := ∀ w d, t.overrideAt w d = none ∨ t.overrideAt w d = s.overrideAt w d

theorem State.Withdraws.refl (s : State) : s.Withdraws s := fun _ _ => .inr rfl

theorem State.Withdraws.trans {s t u : State} (h : s.Withdraws t) (k : t.Withdraws u) : s.Withdraws u := fun w d => by
  rcases k w d with e | e
  · exact .inl e
  · rw [e]
    exact h w d

theorem State.Withdraws.none {s t : State} (h : s.Withdraws t) {w : Voice} {d : DestNo} (e : s.overrideAt w d = none) :
    t.overrideAt w d = none := (h w d).elim id fun k => k.trans e

theorem State.setOverride_withdraws (s : State) (v : Voice) (d : DestNo) : s.Withdraws (s.setOverride v d none) := fun w k =>
  (em _).imp (fun h => (State.overrideAt_setOverride s v w d k none).trans (if_pos h)) fun h =>
    (State.overrideAt_setOverride s v w d k none).trans (if_neg h)

theorem State.dropCheck_withdraws (s : State) (v : Voice) : s.Withdraws (s.dropCheck v) := by
  unfold State.dropCheck
  split
  · exact .refl s
  · split
    · exact State.setOverride_withdraws { s with tune := _ } _ _
    · exact .refl s

theorem State.dropService_withdraws (s : State) : s.Withdraws s.dropService := by
  unfold State.dropService
  split
  · exact .refl s
  · rename_i x _
    have h : ∀ t : State, t.Withdraws (t.withdrawDest x.voice x.dest) := fun t => by
      cases x.dest with
      | a => exact t.setOverride_withdraws _ _
      | b => exact t.setOverride_withdraws _ _
      | cutoff => exact (t.setOverride_withdraws _ _).trans (State.setOverride_withdraws _ _ _)
    exact h { s with tune := _ }

theorem State.loseService_withdraws (s : State) (v : Voice) : s.Withdraws (s.loseService v) := by
  unfold State.loseService
  split
  · split
    · exact s.dropService_withdraws
    · exact .refl s
  · exact .refl s

theorem State.removeVoice_withdraws (s : State) (v : Voice) : s.Withdraws (s.removeVoice v) := by
  have h : s.Withdraws (s.unclaimed v) := (s.dropCheck_withdraws v).trans (State.loseService_withdraws _ v)
  rcases s.loseVoice_cases v with e | e
  · change s.Withdraws (s.loseVoice v)
    rw [e]
    exact h
  · change s.Withdraws (s.loseVoice v)
    rw [e]
    exact h

theorem State.removeAll_withdraws (l : List Voice) (s : State) : s.Withdraws (l.foldl State.removeVoice s) := by
  induction l generalizing s with
  | nil => exact .refl s
  | cons v l ih => exact (s.removeVoice_withdraws v).trans (ih _)

theorem State.overrideAt_removeVoice (s : State) (v w : Voice) (d : DestNo) :
    (s.removeVoice v).overrideAt w d = (s.unclaimed v).overrideAt w d := by
  change (s.loseVoice v).overrideAt w d = _
  rcases s.loseVoice_cases v with e | e <;> rw [e]
  rfl

/-- The override of a lost voice's check goes (R133). -/
theorem State.removeVoice_check {s : State} {c : Check} (hc : s.tune.check = some c) :
    (s.removeVoice c.voice).overrideAt c.voice c.dest.tuned.number = none := by
  rw [State.overrideAt_removeVoice]
  refine (State.loseService_withdraws _ _).none ?_
  rw [State.dropCheck_of_check hc rfl]
  exact (State.overrideAt_setOverride _ _ _ _ _ none).trans (if_pos ⟨rfl, rfl⟩)

/-- The overrides of a lost voice's service go, and its summary shows RESTORED (R111, R120). -/
theorem State.removeVoice_service {s : State} {x : InService} (hx : s.tune.service = some x) :
    (s.removeVoice x.voice).overrideAt x.voice x.dest.number = none
      ∧ (x.dest = .cutoff → (s.removeVoice x.voice).overrideAt x.voice 3 = none)
      ∧ (((s.removeVoice x.voice).entry x.voice).sum x.dest).state = .restored := by
  have hservice : (s.dropCheck x.voice).tune.service = some x := by rw [State.dropCheck_tune]; exact hx
  obtain ⟨h1, h2, h3⟩ := State.dropService_dest hservice
  have hu : s.unclaimed x.voice = { (s.dropCheck x.voice).dropService with tune :=
    { (s.dropCheck x.voice).dropService.tune with heldQuarantine := false } } := State.loseService_of_eq hservice
  have hsum : ((s.unclaimed x.voice).entry x.voice).sum x.dest =
      ((s.dropCheck x.voice).dropService.entry x.voice).sum x.dest := by rw [hu]; rfl
  refine ⟨?_, fun hd => ?_, ?_⟩
  · rw [State.overrideAt_removeVoice, hu]
    exact h1
  · rw [State.overrideAt_removeVoice, hu]
    exact h2 hd
  · change (((s.loseVoice x.voice).entry x.voice).sum x.dest).state = _
    rw [← hsum] at h3
    rcases s.loseVoice_cases x.voice with e | e
    · rw [e, State.markEntry, State.entry_setEntry, if_pos rfl]
      cases hd : x.dest <;> rw [hd] at h3 <;> exact h3
    · rw [e]
      exact h3

/-! ### All voices of a slot lost (R44) -/

theorem State.entry_removeAll_of_not_mem {l : List Voice} {s : State} {w : Voice} (hw : w ∉ l) :
    (l.foldl State.removeVoice s).entry w = s.entry w := by
  induction l generalizing s with
  | nil => rfl
  | cons v l ih =>
    rw [List.foldl_cons, ih (by simp_all)]
    exact State.entry_loseVoice_of_ne (by simp_all)

/-- A voice among those lost: the state in which it is lost, and the state after, in which only the other voices went too. -/
theorem State.removeAll_split {l : List Voice} (hl : l.Nodup) (s : State) {w : Voice} (hw : w ∈ l) :
    ∃ u : State, u.entry w = s.entry w ∧ (∀ c, s.tune.check = some c → c.voice = w → u.tune.check = some c)
      ∧ (∀ x, s.tune.service = some x → x.voice = w → u.tune.service = some x)
      ∧ (l.foldl State.removeVoice s).entry w = (u.removeVoice w).entry w
      ∧ (u.removeVoice w).Withdraws (l.foldl State.removeVoice s) := by
  obtain ⟨l₁, l₂, rfl⟩ := List.append_of_mem hw
  have h1 : w ∉ l₁ := fun h => (List.nodup_append.mp hl).2.2 w h w (by simp) rfl
  have h2 : w ∉ l₂ := (List.nodup_cons.mp (List.nodup_append.mp hl).2.1).1
  refine ⟨l₁.foldl State.removeVoice s, State.entry_removeAll_of_not_mem h1, fun c hc hcw => ?_, fun x hx hxw => ?_, ?_, ?_⟩
  · rw [State.removeAll_tune]
    simp [Tune.lose, hc, hcw, h1]
  · rw [State.removeAll_tune]
    simp [Tune.lose, hx, hxw, h1]
  · rw [List.foldl_append, List.foldl_cons]
    exact State.entry_removeAll_of_not_mem h2
  · rw [List.foldl_append, List.foldl_cons]
    exact State.removeAll_withdraws l₂ _

end Sys2Proof.Machine
end

