-- ==== Sys2Proof/Proofs/UnitOfAssignments.lean ====
section
/-! PROOFS. A slot-down from end to end: the pass that goes on, the unit that is granted, and the keys that are offered
(R43, R44, R104, R109, R110, R118). -/

namespace Sys2Proof.Machine

/-! ### Giving up a check for an assignment (R25, R104) -/

/-- From `s` to `t`, the tune controller's work is that of the arbiter and of a check given up: the entries, the service, the
outcome, the calibration and the notices stay. -/
structure State.UnitWork (s t : State) : Prop where
  tune : t.tune = { s.tune with
    check := t.tune.check, unit := t.tune.unit, requestWaiting := t.tune.requestWaiting, lineVoice := t.tune.lineVoice
    lineDest := t.tune.lineDest }
  notices : t.notices = s.notices

theorem State.UnitWork.refl (s : State) : s.UnitWork s := ⟨rfl, rfl⟩

theorem State.UnitWork.trans {s t u : State} (h : s.UnitWork t) (k : t.UnitWork u) : s.UnitWork u := by
  refine ⟨?_, k.notices.trans h.notices⟩
  have h1 := h.tune
  have h2 := k.tune
  rw [h1] at h2
  exact h2

section
variable {s t : State} (h : s.UnitWork t)
include h

theorem State.UnitWork.service : t.tune.service = s.tune.service := by rw [h.tune]
theorem State.UnitWork.entry (v : Voice) : t.entry v = s.entry v := by rw [State.entry, h.tune]; rfl
theorem State.UnitWork.outcome : t.tune.outcome = s.tune.outcome := by rw [h.tune]
theorem State.UnitWork.held : t.tune.heldQuarantine = s.tune.heldQuarantine := by rw [h.tune]

end

theorem State.dropCheck_unitWork (s : State) (v : Voice) : s.UnitWork (s.dropCheck v) := by
  refine ⟨by rw [State.dropCheck_tune], ?_⟩
  unfold State.dropCheck
  split
  · rfl
  · split <;> rfl

theorem State.arbitrate_unitWork (s : State) : s.UnitWork s.arbitrate := by
  unfold State.arbitrate
  split
  · exact ⟨rfl, rfl⟩
  · exact .refl s

theorem State.cleared_unitWork (s : State) (v : Voice) : s.UnitWork (s.cleared v) := by
  unfold State.cleared
  split
  · exact (s.dropCheck_unitWork v).trans (State.arbitrate_unitWork _)
  · exact .refl s

theorem State.assign_unitWork (s : State) (v : Voice) (p : PartNo) (h : HeldKey) (j : Nat) (g : GlideStart) :
    s.UnitWork (s.assign v p h j g) := by
  have hc := s.cleared_unitWork v
  have ht := State.assign_tune s v p h j g
  refine ⟨?_, ?_⟩
  · rw [ht]
    exact hc.tune
  · rw [State.assign_frame]

theorem State.reHome_unitWork (l : List Assignment) (s : State) : s.UnitWork (s.reHome l) :=
  State.reHome_keeps (P := s.UnitWork) (fun t v p h j _ ht => ht.trans (t.assign_unitWork v p h j .none)) l (.refl s)

theorem State.overrideAt_assign (s : State) (v : Voice) (p : PartNo) (h : HeldKey) (j : Nat) (g : GlideStart) (w : Voice) (d : DestNo) :
    (s.assign v p h j g).overrideAt w d = (s.cleared v).overrideAt w d := by
  rw [State.overrideAt, State.assign_refresh]
  rfl

/-- A voice that the pass does not serve is given no override by an assignment (R25, R104). -/
theorem State.cleared_override_none {s : State} {w : Voice} {d : DestNo} (hn : s.overrideAt w d = none)
    (hs : ∀ x, s.tune.service = some x → x.voice ≠ w) (v : Voice) : (s.cleared v).overrideAt w d = none := by
  unfold State.cleared
  split
  · have h1 := (s.dropCheck_withdraws v).none hn
    rcases (s.dropCheck v).overrideAt_arbitrate w d with e | ⟨x, hx, hxw, -⟩
    · exact e.trans h1
    · rw [(s.dropCheck_unitWork v).service] at hx
      exact absurd hxw (hs x hx)
  · exact hn

theorem State.reHome_override_none (l : List Assignment) {s : State} {w : Voice} {d : DestNo} (hn : s.overrideAt w d = none)
    (hs : ∀ x, s.tune.service = some x → x.voice ≠ w) : (s.reHome l).overrideAt w d = none := by
  refine (State.reHome_keeps (P := fun t => t.overrideAt w d = none ∧ t.tune.service = s.tune.service)
    (fun t v p h j _ ht => ⟨?_, ?_⟩) l ⟨hn, rfl⟩).1
  · rw [State.overrideAt_assign]
    exact State.cleared_override_none ht.1 (fun x hx => hs x (ht.2 ▸ hx)) v
  · exact (t.assign_unitWork v p h j .none).service.trans ht.2

/-- The unit's measurement is the pass's, of a voice that is not lost. -/
def State.UnitKept (lost : Voice → Prop) (t : State) : Prop :=
  (∀ m, t.tune.unit = some m → m.requester = .pass ∧ ¬ lost m.voice) ∧ ∀ x, t.tune.service = some x → ¬ lost x.voice

theorem State.UnitKept.arbitrate {lost : Voice → Prop} {s : State} (h : s.UnitKept lost) : s.arbitrate.UnitKept lost := by
  refine ⟨fun m hm => ?_, fun x hx => h.2 x (by rwa [State.arbitrate_service] at hx)⟩
  by_cases hi : s.tune.requestWaiting = false ∨ s.tune.service = none ∨ s.tune.unit ≠ none
  · rw [State.arbitrate_idle hi] at hm
    exact h.1 m hm
  · push Not at hi
    obtain ⟨x, hx⟩ := Option.ne_none_iff_exists'.mp hi.2.1
    obtain ⟨-, m', hm', hp, hv, -⟩ := State.arbitrate_grants (by simpa using hi.1) hi.2.2 hx
    obtain rfl := Option.some.inj (hm.symm.trans hm'.1)
    exact ⟨hp, hv ▸ h.2 x hx⟩

theorem State.UnitKept.dropCheck {lost : Voice → Prop} {s : State} (h : s.UnitKept lost) (v : Voice) :
    (s.dropCheck v).UnitKept lost := by
  refine ⟨fun m hm => ?_, fun x hx => h.2 x (by rwa [(s.dropCheck_unitWork v).service] at hx)⟩
  rw [State.dropCheck_tune] at hm
  simp only at hm
  split at hm
  · cases hm
  · exact h.1 m hm

theorem State.UnitKept.reHome {lost : Voice → Prop} {s : State} (h : s.UnitKept lost) (l : List Assignment) :
    (s.reHome l).UnitKept lost := by
  refine State.reHome_keeps (fun t v p k j _ ht => ?_) l h
  unfold State.UnitKept
  rw [State.assign_tune]
  unfold State.cleared
  split
  · exact (ht.dropCheck v).arbitrate
  · exact ht

/-- With no check in hand and no request that could be granted, the offers leave the tune controller and the overrides. -/
theorem State.reHome_quiet (l : List Assignment) {s : State} (hc : s.tune.check = none)
    (hi : s.tune.requestWaiting = false ∨ s.tune.service = none ∨ s.tune.unit ≠ none) :
    (s.reHome l).tune = s.tune ∧ (s.reHome l).refresh = s.refresh := by
  refine State.reHome_keeps (P := fun t => t.tune = s.tune ∧ t.refresh = s.refresh) (fun t v p h j _ ht => ?_) l ⟨rfl, rfl⟩
  have hcl : (t.cleared v).tune = t.tune ∧ (t.cleared v).refresh = t.refresh := by
    unfold State.cleared
    split
    · exact (t.abandonCheck_abandons v).2 (by rw [ht.1, hc]; simp) (by rw [ht.1]; exact hi)
    · exact ⟨rfl, rfl⟩
  rw [State.assign_tune, State.assign_refresh, hcl.1, hcl.2]
  exact ht

/-! ### The pass's choice of its next voice, seen from the voices it does not take (R110) -/

theorem State.asked_override (s : State) (x : InService) (w : Voice) (d : DestNo) :
    (s.asked x).overrideAt w d = s.overrideAt w d := rfl

theorem State.overrideAt_beginDest {s : State} {v w : Voice} (hw : w ≠ v) (c : Tuned) (d : DestNo) :
    (s.beginDest v c).overrideAt w d = s.overrideAt w d := by
  rw [State.beginDest_eq, State.requestTrial_eq]
  have hopened : (s.opened v c).overrideAt w d = s.overrideAt w d := by
    cases c with
    | a => rfl
    | b => rfl
    | cutoff => exact (State.overrideAt_setOverride _ v w 3 d _).trans (if_neg fun h => hw h.1.symm)
  rcases State.overrideAt_arbitrate ((s.opened v c).asked (s.freshWork v c)) w d with e | ⟨x, hx, hxw, -⟩
  · rw [e, State.asked_override, hopened]
  · have hx : some (s.freshWork v c) = some x := hx
    obtain rfl := Option.some.inj hx
    exact absurd hxw.symm hw

/-- What a voice taken into service does to service, unit and overrides, whatever its entry names (R110). -/
theorem State.beginService_touches (s : State) (v : Voice) :
    (∀ x, (s.beginService v).tune.service = some x → x.voice = v ∨ s.tune.service = some x) ∧
    (s.tune.unit = none → ∀ m, (s.beginService v).tune.unit = some m → m.requester = .pass ∧ m.voice = v) ∧
    ∀ w, w ≠ v → ∀ d, (s.beginService v).overrideAt w d = s.overrideAt w d := by
  unfold State.beginService
  simp only
  split
  · rename_i c _
    refine ⟨fun x hx => ?_, fun hu m hm => ?_, fun w hw d => ?_⟩
    · rw [State.beginDest_service] at hx
      obtain rfl := Option.some.inj hx
      exact .inl rfl
    · obtain ⟨m', hm', h1, h2⟩ := (State.beginDest_unit (s.setEntry v { s.entry v with state := .inService }) v c).1 hu
      obtain rfl := Option.some.inj (hm.symm.trans hm')
      exact ⟨h1, h2⟩
    · exact State.overrideAt_beginDest hw c d
  · refine ⟨fun x hx => .inr hx, fun hu m hm => ?_, fun _ _ _ => rfl⟩
    have hm : s.tune.unit = some m := hm
    rw [hu] at hm
    cases hm

/-- The choice of the pass's next voice touches service, unit and overrides of a voice that waits alone (R110). -/
theorem State.settlePass_touches (s : State) :
    (∀ x, s.settlePass.tune.service = some x → (s.entry x.voice).state = .waiting ∨ s.tune.service = some x) ∧
    (s.tune.unit = none → ∀ m, s.settlePass.tune.unit = some m → m.requester = .pass ∧ (s.entry m.voice).state = .waiting) ∧
    ∀ w, (s.entry w).state ≠ .waiting → ∀ d, s.settlePass.overrideAt w d = s.overrideAt w d := by
  have hsame : ∀ t : State, t.tune.service = s.tune.service → t.tune.unit = s.tune.unit → t.refresh = s.refresh →
      (∀ x, t.tune.service = some x → (s.entry x.voice).state = .waiting ∨ s.tune.service = some x) ∧
      (s.tune.unit = none → ∀ m, t.tune.unit = some m → m.requester = .pass ∧ (s.entry m.voice).state = .waiting) ∧
      ∀ w, (s.entry w).state ≠ .waiting → ∀ d, t.overrideAt w d = s.overrideAt w d := by
    intro t h1 h2 h3
    refine ⟨fun x hx => .inr (h1 ▸ hx), fun hu m hm => ?_, fun w _ d => ?_⟩
    · rw [h2, hu] at hm
      cases hm
    · rw [State.overrideAt, h3]
      rfl
  unfold State.settlePass
  split
  · split
    · rename_i v hv
      have hwait := (State.firstEntry_eq_some.mp hv).1
      obtain ⟨h1, h2, h3⟩ := s.beginService_touches v
      exact ⟨fun x hx => (h1 x hx).imp_left fun e => (congrArg (fun z => (s.entry z).state) e).trans hwait, fun hu m hm => ⟨(h2 hu m hm).1, (h2 hu m hm).2 ▸ hwait⟩,
        fun w hw d => h3 w (fun e => hw (e ▸ hwait)) d⟩
    · split
      · exact hsame _ rfl rfl rfl
      · exact hsame s rfl rfl rfl
  · exact hsame s rfl rfl rfl

end Sys2Proof.Machine
end

