-- ==== Sys2Proof/Proofs/SlotDowns.lean ====
section
/-! PROOFS. A slot-down's choices: what the tune controller, which has lost the slot's voices, serves next, and the keys that are
offered after it (R43, R44, R104, R109, R110, R118, R120, R133). -/

namespace Sys2Proof.Machine

/-! ### The tune controller without a slot's voices (R44, R109, R120) -/

theorem State.loseVoice_notices (s : State) (v : Voice) : (s.loseVoice v).notices = s.notices := by
  have hdrop : ∀ t : State, t.dropService.notices = t.notices := fun t => by
    unfold State.dropService
    split
    · rfl
    · rename_i x _
      cases x.dest <;> rfl
  have hservice : (s.unclaimed v).notices = s.notices := by
    refine Eq.trans ?_ (s.dropCheck_unitWork v).notices
    unfold State.unclaimed State.loseService
    split
    · split
      · exact hdrop _
      · rfl
    · rfl
  rcases s.loseVoice_cases v with e | e
  · rw [e]
    exact hservice
  · rw [e]
    exact hservice

theorem State.slotGone_notices (s : State) (k : CardNo) : (s.slotGone k).notices = s.notices := by
  unfold State.slotGone
  generalize voicesOf k = l
  induction l generalizing s with
  | nil => rfl
  | cons v l ih => exact (ih (s.removeVoice v)).trans (s.loseVoice_notices v)

/-- A voice of slot `k`. -/
def inSlot (k : CardNo) (v : Voice) : Bool := decide (v.val / 4 = k.val)

theorem State.slotGone_tune (s : State) (k : CardNo) :
    (s.slotGone k).tune = { s.tune.lose (inSlot k) with entries := (s.slotGone k).tune.entries } := by
  have h := State.removeAll_tune (voicesOf k) s
  simp only [mem_voicesOf] at h
  exact h

theorem State.entry_slotGone_of_ne {s : State} {k : CardNo} {v : Voice} (hv : ¬ v.val / 4 = k.val) :
    (s.slotGone k).entry v = s.entry v := State.entry_removeAll_of_not_mem (mt mem_voicesOf.mp hv)

/-- A lost voice's entry: LEFT with LOST where it was still to be served, and otherwise as it was (R109). -/
theorem State.entry_slotGone_lost {s : State} {k : CardNo} {v : Voice} (hv : v.val / 4 = k.val) :
    ((s.entry v).toServe → ((s.slotGone k).entry v).state = .left ∧ ((s.slotGone k).entry v).reason = .lost) ∧
    (¬ (s.entry v).toServe →
      ((s.slotGone k).entry v).state = (s.entry v).state ∧ ((s.slotGone k).entry v).reason = (s.entry v).reason) := by
  obtain ⟨u, hu, -, -, he, -⟩ := State.removeAll_split (nodup_voicesOf k) s (mem_voicesOf.mpr hv)
  have h := u.entry_loseVoice_self v
  rw [hu] at h
  unfold State.slotGone
  rw [he]
  exact h

theorem State.slotGone_sets (s : State) (k : CardNo) (v : Voice) :
    ((s.slotGone k).entry v).inA = (s.entry v).inA ∧ ((s.slotGone k).entry v).inB = (s.entry v).inB := by
  by_cases hv : v.val / 4 = k.val
  · obtain ⟨u, hu, -, -, he, -⟩ := State.removeAll_split (nodup_voicesOf k) s (mem_voicesOf.mpr hv)
    have h := u.entry_loseVoice_sets v
    rw [hu] at h
    unfold State.slotGone
    rw [he]
    exact h
  · rw [State.entry_slotGone_of_ne hv]
    exact ⟨rfl, rfl⟩

theorem State.entry_slotGone_lost_not {s : State} {k : CardNo} {v : Voice} (hv : v.val / 4 = k.val) :
    ((s.slotGone k).entry v).state ≠ .waiting ∧ ((s.slotGone k).entry v).state ≠ .pending := by
  obtain ⟨h1, h2⟩ := State.entry_slotGone_lost (s := s) hv
  by_cases hs : (s.entry v).toServe
  · rw [(h1 hs).1]
    simp
  · rw [(h2 hs).1]
    exact ⟨fun e => hs (.inr (.inl e)), fun e => hs (.inl e)⟩

theorem State.slotGone_waiting {s : State} {k : CardNo} {v : Voice} :
    ((s.slotGone k).entry v).state = .waiting ↔ ¬ v.val / 4 = k.val ∧ (s.entry v).state = .waiting := by
  by_cases hv : v.val / 4 = k.val
  · exact iff_of_false (State.entry_slotGone_lost_not hv).1 fun h => h.1 hv
  · rw [State.entry_slotGone_of_ne hv]
    exact (and_iff_right hv).symm

theorem State.slotGone_pending {s : State} {k : CardNo} {v : Voice} :
    ((s.slotGone k).entry v).state = .pending ↔ ¬ v.val / 4 = k.val ∧ (s.entry v).state = .pending := by
  by_cases hv : v.val / 4 = k.val
  · exact iff_of_false (State.entry_slotGone_lost_not hv).2 fun h => h.1 hv
  · rw [State.entry_slotGone_of_ne hv]
    exact (and_iff_right hv).symm

theorem State.slotGone_check_lost {s : State} {k : CardNo} {c : Check} (hc : s.tune.check = some c) (hv : c.voice.val / 4 = k.val) :
    (s.slotGone k).tune.check = none ∧ (s.slotGone k).tune.unit = none := by
  rw [State.slotGone_tune]
  simp [Tune.lose, hc, inSlot, hv]

theorem State.slotGone_service {s : State} {k : CardNo} {x : InService} :
    (s.slotGone k).tune.service = some x ↔ s.tune.service = some x ∧ ¬ x.voice.val / 4 = k.val := by
  rw [State.slotGone_tune]
  simp [Tune.lose, Option.filter_eq_some_iff, inSlot]

theorem State.slotGone_service_none {s : State} {k : CardNo} :
    (s.slotGone k).tune.service = none ↔ ∀ x, s.tune.service = some x → x.voice.val / 4 = k.val := by
  rw [Option.eq_none_iff_forall_ne_some]
  simp only [ne_eq, State.slotGone_service, not_and, not_not]

theorem State.slotGone_passRunning (s : State) (k : CardNo) : (s.slotGone k).passRunning = s.passRunning := by
  rw [State.passRunning, State.slotGone_tune]
  rfl

theorem State.slotGone_of_service_lost {s : State} {k : CardNo} {x : InService} (hx : s.tune.service = some x)
    (hv : x.voice.val / 4 = k.val) : (s.slotGone k).tune.heldQuarantine = false ∧ (s.slotGone k).tune.requestWaiting = false := by
  rw [State.slotGone_tune]
  simp [Tune.lose, hx, inSlot, hv]

theorem State.slotGone_of_service_kept {s : State} {k : CardNo} {x : InService} (hx : s.tune.service = some x)
    (hv : ¬ x.voice.val / 4 = k.val) : (s.slotGone k).tune.heldQuarantine = s.tune.heldQuarantine
      ∧ (s.slotGone k).tune.requestWaiting = s.tune.requestWaiting := by
  rw [State.slotGone_tune]
  simp [Tune.lose, hx, inSlot, hv]

/-- What the unit holds once the voices of a slot are lost: nothing where it was theirs, and else what it held (R120, R133). -/
theorem State.slotGone_unit {s : State} {k : CardNo} (hfree : ∀ x, s.tune.service = some x → x.voice.val / 4 = k.val) :
    ((s.slotGone k).tune.unit = none ↔ s.tune.unit = none ∨ (∃ c, s.tune.check = some c ∧ c.voice.val / 4 = k.val)
      ∨ ∃ x m, s.tune.service = some x ∧ s.tune.unit = some m ∧ m.requester = .pass)
    ∧ ((s.slotGone k).tune.unit ≠ none → (s.slotGone k).tune.unit = s.tune.unit) := by
  have hunit : (s.slotGone k).tune.unit = if s.tune.check.any fun c => inSlot k c.voice then none
      else if s.tune.service.any fun x => inSlot k x.voice then dropPassUnit s.tune.unit else s.tune.unit := by
    rw [State.slotGone_tune]
    rfl
  have hcheck : (s.tune.check.any fun c => inSlot k c.voice) = true ↔ ∃ c, s.tune.check = some c ∧ c.voice.val / 4 = k.val := by
    cases s.tune.check <;> simp [inSlot]
  have hservice : (s.tune.service.any fun x => inSlot k x.voice) = true ↔ ∃ x, s.tune.service = some x := by
    cases hs : s.tune.service with
    | none => simp
    | some x => simp [inSlot, hfree x hs]
  rw [hunit]
  by_cases hc : (s.tune.check.any fun c => inSlot k c.voice) = true
  · rw [if_pos hc]
    exact ⟨iff_of_true rfl (.inr (.inl (hcheck.mp hc))), fun h => absurd rfl h⟩
  · rw [if_neg hc]
    have hc := mt hcheck.mpr hc
    by_cases hs : (s.tune.service.any fun x => inSlot k x.voice) = true
    · rw [if_pos hs]
      obtain ⟨x, hx⟩ := hservice.mp hs
      cases hm : s.tune.unit with
      | none => exact ⟨iff_of_true rfl (.inl rfl), fun h => absurd rfl h⟩
      | some m =>
        cases hq : m.requester with
        | pass => exact ⟨iff_of_true (by simp [dropPassUnit, hq]) (.inr (.inr ⟨x, m, hx, rfl, hq⟩)), fun h => absurd (by simp [dropPassUnit, hq]) h⟩
        | check =>
          have e : dropPassUnit (some m) = some m := by simp [dropPassUnit, hq]
          refine ⟨iff_of_false (by simp [e]) ?_, fun _ => e⟩
          rintro (h | h | ⟨-, m', -, hm', h⟩)
          · cases h
          · exact hc h
          · obtain rfl := Option.some.inj hm'
            rw [hq] at h
            cases h
    · rw [if_neg hs]
      refine ⟨⟨.inl, ?_⟩, fun _ => rfl⟩
      rintro (h | h | ⟨x, -, hx, -⟩)
      · exact h
      · exact absurd h hc
      · exact absurd (hservice.mpr ⟨x, hx⟩) hs

/-- A measurement of a lost voice that its check or the pass asked for is discarded (R120, R133). -/
theorem State.slotGone_unit_lost {s : State} {k : CardNo} {m : Measurement} (hm : s.tune.unit = some m)
    (hcheck : m.requester = .check → ∃ c, s.tune.check = some c ∧ c.voice.val / 4 = k.val)
    (hpass : m.requester = .pass → ∃ x, s.tune.service = some x ∧ x.voice.val / 4 = k.val) : (s.slotGone k).tune.unit = none := by
  cases hq : m.requester with
  | check =>
    obtain ⟨c, hc, hv⟩ := hcheck hq
    exact (State.slotGone_check_lost hc hv).2
  | pass =>
    obtain ⟨x, hx, hv⟩ := hpass hq
    exact (State.slotGone_unit (fun y hy => Option.some.inj (hx.symm.trans hy) ▸ hv)).1.mpr (.inr (.inr ⟨x, m, hx, hm, hq⟩))

/-! ### The choices after the voices are lost (R104, R110, R118) -/

/-- The arbiter that has had its turn has nothing more to grant (R104). -/
theorem State.arbitrate_settled (s : State) :
    s.arbitrate.tune.requestWaiting = false ∨ s.arbitrate.tune.service = none ∨ s.arbitrate.tune.unit ≠ none := by
  by_cases hi : s.tune.requestWaiting = false ∨ s.tune.service = none ∨ s.tune.unit ≠ none
  · rw [State.arbitrate_idle hi]
    exact hi
  · push Not at hi
    obtain ⟨x, hx⟩ := Option.ne_none_iff_exists'.mp hi.2.1
    exact .inl (State.arbitrate_grants (by simpa using hi.1) hi.2.2 hx).1

/-- After the pass has chosen, a slot-down moves the arbiter's part of the tune controller alone. -/
theorem State.slotDown_unitWork (s : State) (k : CardNo) : (s.slotGone k).settlePass.UnitWork (s.slotDown k) := by
  rw [State.slotDown_eq]
  exact (State.arbitrate_unitWork _).trans (State.reHome_unitWork _ _)

theorem State.slotDown_entry_kept {s : State} {k : CardNo} {v : Voice} (hv : ((s.slotGone k).entry v).state ≠ .waiting) :
    (s.slotDown k).entry v = (s.slotGone k).entry v :=
  ((s.slotDown_unitWork k).entry v).trans (State.entry_settlePass hv)

theorem State.slotDown_entryMoves (s : State) (k : CardNo) (v : Voice) : (s.slotGone k).EntryMoves (s.slotDown k) v := by
  have h := State.settlePass_entryMoves (s.slotGone k) v
  rw [State.EntryMoves, (s.slotDown_unitWork k).entry v]
  exact h

/-- No lost voice is in service once the pass has chosen. -/
theorem State.settlePass_service_kept {s : State} {k : CardNo} {x : InService}
    (hx : (s.slotGone k).settlePass.tune.service = some x) : ¬ x.voice.val / 4 = k.val := by
  rcases (State.settlePass_touches _).1 x hx with h | h
  · exact (State.slotGone_waiting.mp h).1
  · exact (State.slotGone_service.mp h).2

/-- An override that a lost voice gave up is none after the slot-down. -/
theorem State.slotDown_override_none {s : State} {k : CardNo} {v : Voice} (hv : v.val / 4 = k.val) {d : DestNo}
    (h : (s.slotGone k).overrideAt v d = none) : (s.slotDown k).overrideAt v d = none := by
  have hs : ∀ x, (s.slotGone k).settlePass.tune.service = some x → x.voice ≠ v := fun x hx e =>
    State.settlePass_service_kept hx (e ▸ hv)
  rw [State.slotDown_eq]
  refine State.reHome_override_none _ ?_ fun x hx => hs x (by rwa [State.slotSettled, State.arbitrate_service] at hx)
  rcases State.overrideAt_arbitrate (s.slotGone k).settlePass v d with e | ⟨x, hx, hxv, -⟩
  · exact e.trans (((State.settlePass_touches _).2.2 v (State.entry_slotGone_lost_not hv).1 d).trans h)
  · exact absurd hxv (hs x hx)

/-- A grant is a matter of the settings before and of the tune controller and the overrides after. -/
theorem State.grants.of_eq {s l t u : State} {x : InService} (h : l.grants t x) (hset : l.settings = s.settings)
    (htune : u.tune = t.tune) (hrefresh : u.refresh = t.refresh) : s.grants u x := by
  have hover : ∀ v d, u.overrideAt v d = t.overrideAt v d := fun v d => by
    rw [State.overrideAt, hrefresh]
    rfl
  unfold State.grants State.measures at h ⊢
  simp only [hover]
  rw [htune, ← hset]
  exact h

/-- A lost check is gone, with its override, and a request of the pass that waits is granted (R104, R133). -/
theorem State.slotDown_check_lost {s : State} {k : CardNo} {c : Check} (hc : s.tune.check = some c) (hv : c.voice.val / 4 = k.val) :
    (s.slotDown k).tune.check = none ∧ (s.slotDown k).overrideAt c.voice c.dest.tuned.number = none
      ∧ ∀ x, s.tune.service = some x → ¬ x.voice.val / 4 = k.val → s.tune.requestWaiting = true → s.grants (s.slotDown k) x := by
  obtain ⟨hcheck, hunit⟩ := State.slotGone_check_lost hc hv
  have hsettled : (s.slotSettled k).tune.check = none := by
    rw [State.slotSettled, State.arbitrate_check, State.settlePass_check, hcheck]
  obtain ⟨htune, hrefresh⟩ := State.reHome_quiet ((voicesOf k).filterMap fun v => (s.voice v).lostKey) hsettled
    (State.arbitrate_settled (s.slotGone k).settlePass)
  rw [← State.slotDown_eq] at htune hrefresh
  refine ⟨by rw [htune, hsettled], State.slotDown_override_none hv ?_, fun x hx hxv hr => ?_⟩
  · obtain ⟨u, -, hu, -, -, hw⟩ := State.removeAll_split (nodup_voicesOf k) s (mem_voicesOf.mpr hv)
    exact hw.none (State.removeVoice_check (hu c hc rfl))
  · have hservice := State.slotGone_service.mpr ⟨hx, hxv⟩
    have hg := State.arbitrate_grants ((State.slotGone_of_service_kept hx hxv).2.trans hr) hunit hservice
    have he : s.slotSettled k = (s.slotGone k).arbitrate := by
      rw [State.slotSettled, State.settlePass_of_busy (.inr (by rw [hservice]; rfl))]
    rw [← he] at hg
    exact hg.of_eq (s.slotGone_voiceWork k).settings htune hrefresh

/-- A measurement of a lost voice leaves the unit to the pass and to voices that are not lost (R104, R120, R133). -/
theorem State.slotDown_unitKept {s : State} {k : CardNo} (hunit : (s.slotGone k).tune.unit = none) :
    (s.slotDown k).UnitKept fun v => v.val / 4 = k.val := by
  have hsettled : (s.slotGone k).settlePass.UnitKept fun v => v.val / 4 = k.val :=
    ⟨fun m hm => ((State.settlePass_touches _).2.1 hunit m hm).imp_right fun h => (State.slotGone_waiting.mp h).1,
      fun x hx => State.settlePass_service_kept hx⟩
  rw [State.slotDown_eq]
  exact hsettled.arbitrate.reHome _

/-- A voice in service that is lost takes its held request, its destination in progress and its overrides (R111, R120). -/
theorem State.slotDown_service_lost {s : State} {k : CardNo} {x : InService} (hx : s.tune.service = some x)
    (hv : x.voice.val / 4 = k.val) :
    (s.slotDown k).tune.heldQuarantine = false ∧ (((s.slotDown k).entry x.voice).sum x.dest).state = .restored
      ∧ (s.slotDown k).overrideAt x.voice x.dest.number = none
      ∧ (x.dest = .cutoff → (s.slotDown k).overrideAt x.voice 3 = none) := by
  obtain ⟨u, -, -, hu, he, hw⟩ := State.removeAll_split (nodup_voicesOf k) s (mem_voicesOf.mpr hv)
  obtain ⟨h1, h2, h3⟩ := State.removeVoice_service (hu x hx rfl)
  refine ⟨?_, ?_, State.slotDown_override_none hv (hw.none h1), fun hd => State.slotDown_override_none hv (hw.none (h2 hd))⟩
  · rw [(s.slotDown_unitWork k).held, (State.settlePass_passWork _).held, (State.slotGone_of_service_lost hx hv).1]
  · rw [State.slotDown_entry_kept (State.entry_slotGone_lost_not hv).1]
    exact (congrArg (fun e : PassEntry => (e.sum x.dest).state) he).trans h3

/-- A voice in service that is not lost stays in service (R109). -/
theorem State.slotDown_service_kept {s : State} {k : CardNo} {x : InService} (hx : s.tune.service = some x)
    (hv : ¬ x.voice.val / 4 = k.val) :
    (s.slotDown k).tune.service = some x ∧ (s.slotDown k).tune.heldQuarantine = s.tune.heldQuarantine
      ∧ (s.slotDown k).tune.outcome = s.tune.outcome ∧ (s.slotDown k).notices = s.notices := by
  have hservice := State.slotGone_service.mpr ⟨hx, hv⟩
  have hbusy : (s.slotGone k).settlePass = s.slotGone k := State.settlePass_of_busy (.inr (by rw [hservice]; rfl))
  have hwork := s.slotDown_unitWork k
  rw [hbusy] at hwork
  refine ⟨hwork.service.trans hservice, hwork.held.trans (State.slotGone_of_service_kept hx hv).1, hwork.outcome.trans ?_,
    hwork.notices.trans (s.slotGone_notices k)⟩
  rw [State.slotGone_tune]
  rfl

theorem State.nextServed.of_unitWork {s t u : State} {waits : Voice → Prop} (h : s.nextServed t waits) (hw : t.UnitWork u) :
    s.nextServed u waits := by
  unfold State.nextServed at h ⊢
  simp only [hw.outcome, hw.service, hw.entry]
  exact h

/-- With no voice in service, the running pass takes its next, or stands by, or ends (R110, R118). -/
theorem State.slotDown_pass_goes_on {s : State} {k : CardNo} (hr : s.passRunning = true)
    (hfree : ∀ x, s.tune.service = some x → x.voice.val / 4 = k.val) :
    let waits (v : Voice) : Prop := ¬ v.val / 4 = k.val ∧ (s.entry v).state = .waiting
    ((∃ v, waits v) → (∀ v, waits v → (s.entry v).named) →
      s.nextServed (s.slotGone k).settlePass waits
        ∧ (s.slotGone k).serviceBegins (s.slotGone k).settlePass ((s.slotGone k).tune.unit = none)
        ∧ (s.slotGone k).settlePass.tune.unit ≠ none)
    ∧ ((∀ v, ¬ waits v) → (∃ v, ¬ v.val / 4 = k.val ∧ (s.entry v).state = .pending) →
      (s.slotGone k).settlePass = s.slotGone k)
    ∧ ((∀ v, ¬ v.val / 4 = k.val → ¬ (s.entry v).toServe) → (s.slotGone k).settlePass = (s.slotGone k).endPass) := by
  intro waits
  have hrun : (s.slotGone k).passRunning = true := (s.slotGone_passRunning k).trans hr
  have hnone := State.slotGone_service_none.mpr hfree
  have hw : ∀ u, waits u ↔ ((s.slotGone k).entry u).state = .waiting := fun u => State.slotGone_waiting.symm
  refine ⟨fun he hn => ?_, fun he ⟨v, hv⟩ => ?_, fun he => ?_⟩
  · obtain ⟨h1, h2, -, h4, h5⟩ := State.settlePass_nextServed (s := s) hrun hnone hw he (fun u hu => by
      rw [State.entry_slotGone_of_ne hu.1]
      exact hn u hu) (s.slotGone_sets k)
    refine ⟨h1, h2, ?_⟩
    cases hu : (s.slotGone k).tune.unit with
    | none =>
      obtain ⟨m, hm, -⟩ := h4 hu
      rw [hm]
      simp
    | some m =>
      rw [(h5 m hu).1]
      simp
  · exact State.settlePass_of_pending (fun v hv => he v ((hw v).mpr hv)) ⟨v, State.slotGone_pending.mpr hv⟩
  · exact State.settlePass_of_done hrun hnone
      (fun v hv => he v (State.slotGone_waiting.mp hv).1 (.inr (.inl (State.slotGone_waiting.mp hv).2)))
      (fun v hv => he v (State.slotGone_pending.mp hv).1 (.inl (State.slotGone_pending.mp hv).2))

/-- A destination begins as seen from any state with the plan, the tables, the settings and, where the unit is not free, the unit. -/
theorem State.destBegins.of_eq {s l t : State} {v : Voice} {d : Tuned} {free free' : Prop} (h : l.destBegins t v d free)
    (hplan : l.tune.plan = s.tune.plan) (hcal : l.tune.cal = s.tune.cal) (hset : l.settings = s.settings) (hf : free' ↔ free)
    (hu : ¬ free → l.tune.unit = s.tune.unit) : s.destBegins t v d free' := by
  obtain ⟨⟨h1, h2, h3⟩, h4, h5⟩ := h
  have hcodes : ∀ d, l.cal v d = s.cal v d := fun d => by
    rw [State.cal, State.calRecord, hcal]
    rfl
  rw [hcodes, hplan] at h1 h2
  refine ⟨⟨h1, fun hfree => (h2 (hf.mp hfree)).of_eq hset rfl rfl, fun hn => ?_⟩, h4, h5⟩
  have hn : ¬ free := fun e => hn (hf.mpr e)
  exact ⟨(h3 hn).1.trans (hu hn), (h3 hn).2⟩

theorem State.serviceBegins.of_eq {s l t : State} {free free' : Prop} (h : l.serviceBegins t free) (hplan : l.tune.plan = s.tune.plan)
    (hcal : l.tune.cal = s.tune.cal) (hset : l.settings = s.settings) (hf : free' ↔ free)
    (hu : ¬ free → l.tune.unit = s.tune.unit) : s.serviceBegins t free' := fun x hx =>
  (h x hx).of_eq hplan hcal hset hf hu

end Sys2Proof.Machine
end

