-- ==== Sys2Proof/Proofs/SlotDownClauses.lean ====
section
/-! PROOFS. A part's new patch, lost keys and a slot-down (R33, R34, R36, R38, R41 to R44), and O27. -/

namespace Sys2Proof.Machine

/-! ### A slot-down, as the statements write it (R43, R44) -/

theorem VoiceRec.removed_assignedRight (r : VoiceRec) : r.removed.assignedRight := by
  simp [VoiceRec.assignedRight, VoiceRec.removed]

theorem State.Ordered.slotSettled {s : State} {n : Nat} (h : s.Ordered n) (k : CardNo) : (s.slotSettled k).Ordered n := by
  have hstamp := s.slotSettled_stamp k
  have hkept : ∀ v, ¬ v.val / 4 = k.val → (s.slotSettled k).voice v = s.voice v := fun v hv =>
    (s.voice_slotSettled k v).trans (if_neg hv)
  have hgone : ∀ v, v.val / 4 = k.val → (s.slotSettled k).voice v = (s.voice v).removed := fun v hv =>
    (s.voice_slotSettled k v).trans (if_pos hv)
  refine ⟨fun v => ?_, ⟨fun v hi => ?_, fun v hi => ?_⟩, h.small⟩
  · by_cases hv : v.val / 4 = k.val
    · rw [hgone v hv]
      exact (s.voice v).removed_assignedRight
    · rw [hkept v hv]
      exact h.assigned v
  · by_cases hv : v.val / 4 = k.val
    · rw [hgone v hv] at hi
      simp [VoiceRec.removed] at hi
    · rw [hkept v hv] at hi
      rw [State.freeAge, hstamp, hkept v hv]
      exact h.within.1 v hi
  · by_cases hv : v.val / 4 = k.val
    · rw [hgone v hv] at hi
      simp [VoiceRec.removed] at hi
    · rw [hkept v hv] at hi
      rw [State.keyAge, hstamp, hkept v hv]
      exact h.within.2 v hi

theorem State.keysLost_slot (s : State) (k : CardNo) :
    (s.keysLost fun v => v.val / 4 == k.val) = (voicesOf k).filterMap fun v => (s.voice v).lostKey := by
  have e : (allVoices.filter fun v => v.val / 4 == k.val) = voicesOf k := List.filter_congr fun v _ => by
    simp [cardOf, Fin.ext_iff]
  unfold State.keysLost
  rw [e]
  rfl

theorem length_voicesOf (k : CardNo) : (voicesOf k).length = 4 := by revert k; decide

/-- The keys of a slot that goes down are offered from a state in which its voices have left and the pass has chosen (R43, R44). -/
theorem State.slotDown_reHomes {s : State} {k : CardNo} (ha : ∀ v, (s.voice v).assignedRight) (hs : s.stampsWithin 4) :
    State.keysReHomed (s.keysLost fun v => v.val / 4 == k.val) (s.slotSettled k) (s.slotDown k) := by
  rw [State.keysLost_slot, State.slotDown_eq]
  refine State.reHome_keysReHomed _ (State.Ordered.slotSettled ⟨ha, hs, by decide⟩ k) ?_
  exact (List.length_filterMap_le _ _).trans_eq (length_voicesOf k)

/-- The pass's next service, which begins where the slot-down offers its keys (R104, R110). -/
theorem State.slotSettled_serves {s : State} {k : CardNo} (hr : s.passRunning = true)
    (hfree : ∀ x, s.tune.service = some x → x.voice.val / 4 = k.val)
    (he : ∃ v : Voice, ¬ v.val / 4 = k.val ∧ (s.entry v).state = .waiting)
    (hn : ∀ v : Voice, ¬ v.val / 4 = k.val ∧ (s.entry v).state = .waiting → (s.entry v).named) :
    s.nextServed (s.slotSettled k) (fun v => ¬ v.val / 4 = k.val ∧ (s.entry v).state = .waiting)
    ∧ s.serviceBegins (s.slotSettled k) (s.tune.unit = none ∨ (∃ c, s.tune.check = some c ∧ c.voice.val / 4 = k.val)
      ∨ ∃ x m, s.tune.service = some x ∧ s.tune.unit = some m ∧ m.requester = .pass) := by
  obtain ⟨h1, h2, h3⟩ := (State.slotDown_pass_goes_on hr hfree).1 he hn
  have e : s.slotSettled k = (s.slotGone k).settlePass := State.arbitrate_idle (.inr (.inr h3))
  obtain ⟨hu1, hu2⟩ := State.slotGone_unit hfree
  have hw := s.slotGone_voiceWork k
  rw [e]
  exact ⟨h1, h2.of_eq hw.plan hw.cal hw.settings hu1.symm hu2⟩

/-- What a slot-down does to the tune controller (R109, R110, R118, R120, R133). -/
theorem State.slotDown_tune (s : State) (k : CardNo) :
    let t := s.slotDown k
    let lost (v : Voice) : Prop := v.val / 4 = k.val
    let waits (v : Voice) : Prop := ¬ lost v ∧ (s.entry v).state = .waiting
    let free := ∀ x, s.tune.service = some x → lost x.voice
    (∀ v, lost v →
      ((s.entry v).toServe → (t.entry v).state = .left ∧ (t.entry v).reason = .lost) ∧
      (¬ (s.entry v).toServe → (t.entry v).state = (s.entry v).state ∧ (t.entry v).reason = (s.entry v).reason)) ∧
    (∀ v, ¬ lost v → t.entry v = s.entry v ∨ free ∧ waits v ∧ (t.entry v).state = .inService) ∧
    (s.passRunning = true → free →
      ((∃ v, waits v) → (∀ v, waits v → (s.entry v).named) → s.nextServed t waits) ∧
      ((∀ v, ¬ waits v) → t.tune.service = none ∧
        ((∃ v, ¬ lost v ∧ (s.entry v).state = .pending) → t.tune.outcome = .running ∧ t.notices = s.notices) ∧
        ((∀ v, ¬ lost v → ¬ (s.entry v).toServe) →
          t.tune.outcome = .completed ∧ t.notices = { s.notices with tune := true }))) := by
  intro t lost waits free
  have hwork : (s.slotGone k).settlePass.UnitWork t := s.slotDown_unitWork k
  refine ⟨fun v hv => ?_, fun v hv => ?_, fun hr hfree => ⟨fun he hn => ?_, fun he => ⟨?_, fun hp => ?_, fun hp => ?_⟩⟩⟩
  · have e : t.entry v = (s.slotGone k).entry v := State.slotDown_entry_kept (State.entry_slotGone_lost_not hv).1
    rw [e]
    exact State.entry_slotGone_lost hv
  · have hm := s.slotDown_entryMoves k v
    rw [State.EntryMoves, State.entry_slotGone_of_ne hv] at hm
    exact hm.imp_right fun ⟨h1, h2, _, h4, _⟩ => ⟨State.slotGone_service_none.mp h2, ⟨hv, h1⟩, h4⟩
  · exact ((State.slotDown_pass_goes_on hr hfree).1 he hn).1.of_unitWork hwork
  · rw [hwork.service, Option.eq_none_iff_forall_ne_some]
    intro x hx
    rcases (State.settlePass_touches _).1 x hx with h | h
    · exact he x.voice (State.slotGone_waiting.mp h)
    · rw [State.slotGone_service_none.mpr hfree] at h
      cases h
  · have e := (State.slotDown_pass_goes_on hr hfree).2.1 he hp
    rw [hwork.outcome, hwork.notices, e, s.slotGone_notices k, ← State.passRunning_iff, State.slotGone_passRunning]
    exact ⟨hr, rfl⟩
  · have e := (State.slotDown_pass_goes_on hr hfree).2.2 hp
    rw [hwork.outcome, hwork.notices, e]
    refine ⟨rfl, ?_⟩
    rw [← s.slotGone_notices k]
    rfl

end Sys2Proof.Machine
end

