-- ==== Sys2Proof/Proofs/PatchChanges.lean ====
section
/-! PROOFS. A part's new patch: the release of its excess voices, and its re-seat in another voice mode (R33, R34, R36, R38, R41,
R42). -/

namespace Sys2Proof.Machine

/-! ### Voices of a part released one after another (R34, R36, R38) -/

section
variable {s : State} {p : PartNo} {l : List Voice}

theorem State.tailOf_serves {v : Voice} (hv : s.serves p v) : s.tailOf v = (s.part p).live.tailFrames := by
  unfold State.tailOf
  rw [hv.2]

theorem State.releaseAll_voiceWork (l : List Voice) (s : State) : s.VoiceWork (l.foldl State.releaseClear s) :=
  State.foldl_voiceWork _ State.releaseClear_voiceWork l s

theorem State.releaseAll_check (l : List Voice) (s : State) : (l.foldl State.releaseClear s).tune.check = s.tune.check := by
  induction l generalizing s with
  | nil => rfl
  | cons v l ih => exact (ih _).trans (s.releaseClear_check v)

/-- What a voice not yet released looks like after the release of another. -/
theorem State.tailOf_releaseClear_of_ne {v w : Voice} (hw : w ≠ v) : (s.releaseClear v).tailOf w = s.tailOf w := by
  unfold State.tailOf
  rw [State.voice_releaseClear_of_ne s v w hw]
  simp only [(State.releaseClear_voiceWork s v).part]

theorem State.releaseAll_of_tails (hl : l.Nodup) (ht : ∀ v ∈ l, s.tailOf v ≠ 0) :
    l.foldl State.releaseClear s = { s with voices := (l.foldl State.releaseClear s).voices } := by
  induction l generalizing s with
  | nil => rfl
  | cons v l ih =>
    obtain ⟨hv, hl⟩ := List.nodup_cons.mp hl
    have h := ih (s := s.releaseClear v) hl fun w hw => by
      rw [State.tailOf_releaseClear_of_ne fun e : w = v => hv (e ▸ hw)]
      exact ht w (by simp [hw])
    have h1 := State.releaseClear_of_tail (ht v (by simp))
    rw [List.foldl_cons]
    generalize l.foldl State.releaseClear (s.releaseClear v) = t at h ⊢
    rw [h, h1]

theorem State.releaseAll_of_not_tunePending (hl : l.Nodup) (ht : ∀ v ∈ l, (s.voice v).tunePending = false) :
    s.OnlyVoices (l.foldl State.releaseClear s) := by
  induction l generalizing s with
  | nil => exact rfl
  | cons v l ih =>
    obtain ⟨hv, hl⟩ := List.nodup_cons.mp hl
    refine State.OnlyVoices.trans (t := s.releaseClear v) (State.releaseClear_of_not_tunePending (ht v (by simp))) (ih hl fun w hw => ?_)
    rw [State.voice_releaseClear_of_ne s v w fun e => hv (e ▸ hw)]
    exact ht w (by simp [hw])

/-- Released voices of a part leave all but what their release touches (R34, R38, R109). -/
theorem State.releaseAll_onlyReleased (hl : l.Nodup) (hs : ∀ v ∈ l, s.serves p v) : s.onlyReleased (l.foldl State.releaseClear s) p := by
  have hw := State.releaseAll_voiceWork l s
  refine ⟨hw.parts, hw.settings, State.releaseAll_check l s, fun ht => State.releaseAll_of_tails hl fun v hv => ?_,
    fun ht => State.releaseAll_of_not_tunePending hl fun v hv => ht v (hs v hv)⟩
  rw [State.tailOf_serves (hs v hv), Patch.tailFrames, Patch.param]
  omega

theorem State.releaseAll_inv (hl : l.Nodup) : l.Nodup ∧ ∀ v ∈ l, s.tailOf v = s.tailOf v := ⟨hl, fun _ _ => rfl⟩

theorem State.voice_releaseAll_of_not_mem (hl : l.Nodup) {v : Voice} (hv : v ∉ l) :
    (l.foldl State.releaseClear s).voice v = s.voice v :=
  (State.releaseClear_fold s.tailOf).voice_of_not_mem (State.releaseAll_inv hl) hv

theorem State.voice_releaseAll_of_mem (hl : l.Nodup) {v : Voice} (hv : v ∈ l) :
    ∃ n, (l.foldl State.releaseClear s).voice v =
      ((s.voice v).setSustained false).released (s.tailOf v) (stampAfter s.stamp n) :=
  (State.releaseClear_fold s.tailOf).exists_voice hl (State.releaseAll_inv hl) hv

theorem State.releaseAll_noteEnded (hl : l.Nodup) {v : Voice} (hv : v ∈ l) : s.noteEnded (l.foldl State.releaseClear s) v := by
  obtain ⟨n, hn⟩ := State.voice_releaseAll_of_mem (s := s) hl hv
  exact State.noteEnded_of_voice hn

/-- A released voice is not SOUNDING or STEAL_GAP (R34). -/
theorem VoiceRec.released_not_counted (r : VoiceRec) (n : Nat) (x : Stamp) : (r.released n x).state.counted = false := by
  unfold VoiceRec.released VoiceRec.tailEnded
  split
  · split
    · rfl
    · split <;> rfl
  · rfl

theorem State.releaseAll_changes (hl : l.Nodup) (hs : ∀ v ∈ l, s.serves p v) {v : Voice} :
    (l.foldl State.releaseClear s).voice v ≠ s.voice v ↔ v ∈ l := by
  refine ⟨fun h => by_contra fun hv => h (State.voice_releaseAll_of_not_mem hl hv), fun hv e => ?_⟩
  obtain ⟨n, hn⟩ := State.voice_releaseAll_of_mem (s := s) hl hv
  have hc := ((State.serves_iff ..).mp (hs v hv)).1
  rw [← e, hn, VoiceRec.released_not_counted] at hc
  cases hc

theorem State.servesBriefly_iff {v : Voice} : s.servesBriefly p v = true ↔ s.serves p v ∧ s.freedAtOnce v = true := by
  unfold State.servesBriefly
  rw [Bool.and_eq_true, Bool.and_eq_true, decide_eq_true_iff, State.serves_iff]

/-- The voices of a part that a release takes to IDLE at once are those that take a stamp (R22, R34, R38). -/
theorem State.servesBriefly_eq {v : Voice} (hv : s.serves p v) :
    s.servesBriefly p v = (s.tailOf v == 0 && (s.voice v).unmarkedB) := by
  have hp : (s.voice v).asgPart.isSome := by rw [hv.2]; rfl
  rw [← State.freedAtOnce_eq hp, Bool.eq_iff_iff, State.servesBriefly_iff, and_iff_right hv]

theorem State.releaseAll_stamp (hl : l.Nodup) (hs : ∀ v ∈ l, s.serves p v) :
    (l.foldl State.releaseClear s).stamp = s.stamp + BitVec.ofNat 32 (l.filter (s.servesBriefly p)).length := by
  rw [(State.releaseClear_fold s.tailOf).stamp_foldl hl (State.releaseAll_inv hl)]
  congr 3
  exact List.filter_congr fun v hv => (State.servesBriefly_eq (hs v hv)).symm

/-- A voice freed at once takes the stamp that follows those taken before it (R22, R38). -/
theorem State.lastFree_releaseAll {l₁ l₂ : List Voice} {v : Voice} (hl : (l₁ ++ v :: l₂).Nodup)
    (hs : ∀ w ∈ l₁ ++ v :: l₂, s.serves p w) (hv : s.servesBriefly p v = true) :
    (((l₁ ++ v :: l₂).foldl State.releaseClear s).voice v).lastFree = stampAfter s.stamp (l₁.filter (s.servesBriefly p)).length := by
  rw [(State.releaseClear_fold s.tailOf).voice_of_split hl (State.releaseAll_inv hl)]
  have hfree := hv
  rw [State.servesBriefly_eq (hs v (by simp)), Bool.and_eq_true, beq_iff_eq] at hfree
  have hmark : ((s.voice v).setSustained false).unmarkedB = true := hfree.2
  obtain ⟨ht, ho⟩ := (VoiceRec.unmarked_iff _).mpr hmark
  have hcount : (l₁.filter fun w => s.tailOf w == 0 && (s.voice w).unmarkedB) = l₁.filter (s.servesBriefly p) :=
    List.filter_congr fun w hw => (State.servesBriefly_eq (hs w (by simp [hw]))).symm
  rw [hfree.1, VoiceRec.released, if_pos rfl, VoiceRec.tailEnded, ht, ho, hcount]
  rfl

end

/-! ### The oldest voices above the limit (R42) -/

theorem State.serves.asgStamp_close {s : State} {p : PartNo} {v : Voice} (hv : s.serves p v) (hc : s.stampsClose) :
    s.keyAge v < 2 ^ 31 := by
  refine hc.2 v ?_
  have h := hv.2
  unfold VoiceRec.asgPart at h
  cases ha : (s.voice v).asg with
  | none => rw [ha] at h; cases h
  | some a => rfl

/-- In order of age each voice is at least as old as the next (R22, R42). -/
theorem State.byAge_sorted {s : State} (hc : s.stampsClose) (p : PartNo) :
    (s.byAge p).Pairwise fun a b => s.keyAge b ≤ s.keyAge a := by
  have hmap : (s.byAge p).map id = ((s.partVoices p).map id).insertionSort fun a b => s.keyAge b ≤ s.keyAge a :=
    List.map_insertionSort _ _ id _ fun a ha b hb => by
      have ha := (State.mem_partVoices.mp ha).asgStamp_close hc
      have hb := (State.mem_partVoices.mp hb).asgStamp_close hc
      have h := older_iff (now := s.stamp) hb ha
      rw [Bool.not_eq_true', ← Bool.not_eq_true, h]
      exact not_lt
  rw [List.map_id, List.map_id] at hmap
  rw [hmap]
  have htotal : Std.Total fun a b : Voice => s.keyAge b ≤ s.keyAge a := ⟨fun a b => Nat.le_total _ _⟩
  have htrans : IsTrans Voice fun a b => s.keyAge b ≤ s.keyAge a := ⟨fun a b c h1 h2 => h2.trans h1⟩
  exact List.pairwise_insertionSort _ _

/-- The excess of a part's voices, oldest first. -/
def State.excess (s : State) (p : PartNo) : List Voice := (s.byAge p).take (s.count p - s.limit p)

theorem State.reduce_eq (s : State) (p : PartNo) : s.reduce p = (s.excess p).foldl State.releaseClear s := rfl

theorem State.nodup_excess (s : State) (p : PartNo) : (s.excess p).Nodup := (s.nodup_byAge p).sublist (List.take_sublist _ _)

theorem State.serves_of_mem_excess {s : State} {p : PartNo} {v : Voice} (hv : v ∈ s.excess p) : s.serves p v :=
  State.mem_byAge.mp (List.mem_of_mem_take hv)

/-- In a list sorted by age, the stamps of two voices come in the order of age (R22). -/
theorem exists_splits {l : List Voice} (hl : l.Pairwise fun a b => ¬ (a = b)) {f : Voice → Nat}
    (hs : l.Pairwise fun a b => f b ≤ f a) {v w : Voice} (hv : v ∈ l) (hw : w ∈ l) (h : f w < f v) :
    ∃ l₁ l₂ l₃, l = l₁ ++ v :: (l₂ ++ w :: l₃) := by
  obtain ⟨l₁, l₂, rfl⟩ := List.append_of_mem hv
  rcases List.mem_append.mp hw with hw | hw
  · have := (List.pairwise_append.mp hs).2.2 w hw v (by simp)
    omega
  · rcases List.mem_cons.mp hw with rfl | hw
    · exact absurd h (lt_irrefl _)
    · obtain ⟨m₁, m₂, rfl⟩ := List.append_of_mem hw
      exact ⟨l₁, m₁, m₂, rfl⟩

theorem stampAfter_sub {x : Stamp} {n : Nat} (hn : n < 2 ^ 31) : (stampAfter x n - x).toNat = n + 1 := by
  have e : stampAfter x n - x = BitVec.ofNat 32 (n + 1) := by
    rw [stampAfter, BitVec.ofNat_add, show BitVec.ofNat 32 1 = (1 : Stamp) from rfl]
    ring
  rw [e, BitVec.toNat_ofNat, Nat.mod_eq_of_lt (by omega)]

theorem State.reduce_lastFree {s : State} {p : PartNo} (hc : s.stampsClose) {v w : Voice} (hv : v ∈ s.excess p) (hw : w ∈ s.excess p)
    (hbv : s.servesBriefly p v = true) (hbw : s.servesBriefly p w = true) (h : s.keyAge w < s.keyAge v) :
    (((s.reduce p).voice v).lastFree - s.stamp).toNat < (((s.reduce p).voice w).lastFree - s.stamp).toNat := by
  have hnodup := s.nodup_excess p
  have hserves : ∀ u ∈ s.excess p, s.serves p u := fun u hu => State.serves_of_mem_excess hu
  have hshort : (s.excess p).length ≤ 16 := by
    refine (List.length_take_le' _ _).trans ?_
    rw [(s.byAge_perm p).length_eq]
    exact s.count_le_sixteen p
  obtain ⟨l₁, l₂, l₃, e⟩ := exists_splits hnodup ((State.byAge_sorted hc p).sublist (List.take_sublist _ _)) hv hw h
  rw [State.reduce_eq]
  rw [e] at hnodup hserves hshort ⊢
  have h1 := State.lastFree_releaseAll hnodup hserves hbv
  have e2 : l₁ ++ v :: (l₂ ++ w :: l₃) = (l₁ ++ v :: l₂) ++ w :: l₃ := by simp
  have h2 := State.lastFree_releaseAll (l₁ := l₁ ++ v :: l₂) (l₂ := l₃) (e2 ▸ hnodup) (e2 ▸ hserves) hbw
  rw [← e2] at h2
  have hlen1 := List.length_filter_le (s.servesBriefly p) l₁
  have hlen2 := List.length_filter_le (s.servesBriefly p) l₂
  have hlen : (l₁ ++ v :: (l₂ ++ w :: l₃)).length = l₁.length + l₂.length + l₃.length + 2 := by simp; omega
  have hmid : ((l₁ ++ v :: l₂).filter (s.servesBriefly p)).length =
      (l₁.filter (s.servesBriefly p)).length + (l₂.filter (s.servesBriefly p)).length + 1 := by
    rw [List.filter_append, List.filter_cons_of_pos hbv, List.length_append, List.length_cons, Nat.add_assoc]
  rw [h1, h2, stampAfter_sub (by omega), stampAfter_sub (by omega)]
  omega

/-- The release of the excess, as the statements write it (R22, R34, R36, R38, R42). -/
theorem State.reduce_excessReleased {s : State} (hc : s.stampsClose) (p : PartNo) : s.excessReleased (s.reduce p) p := by
  have hnodup := s.nodup_excess p
  have hserves : ∀ v ∈ s.excess p, s.serves p v := fun v hv => State.serves_of_mem_excess hv
  have hchanged : ∀ v, (s.reduce p).voice v ≠ s.voice v ↔ v ∈ s.excess p := fun v => by
    rw [State.reduce_eq]
    exact State.releaseAll_changes hnodup hserves
  refine ⟨State.releaseAll_onlyReleased hnodup hserves, s.count_reduce p, fun v => ?_, fun v w hv hw hk => ?_, ?_,
    fun v w hv hw hbv hbw h => State.reduce_lastFree hc ((hchanged v).mp hv.2) ((hchanged w).mp hw.2) hbv hbw h⟩
  · by_cases hv : v ∈ s.excess p
    · exact .inr ⟨hserves v hv, State.releaseAll_noteEnded hnodup hv⟩
    · exact .inl (by_contra fun h => hv ((hchanged v).mp h))
  · have hw' : w ∉ s.excess p := fun h => (hchanged w).mpr h hk
    have hsorted := State.byAge_sorted hc p
    rw [← List.take_append_drop (s.count p - s.limit p) (s.byAge p)] at hsorted
    have hdrop : w ∈ (s.byAge p).drop (s.count p - s.limit p) := by
      have h := State.mem_byAge.mpr hw
      rw [← List.take_append_drop (s.count p - s.limit p) (s.byAge p)] at h
      exact (List.mem_append.mp h).resolve_left hw'
    exact (List.pairwise_append.mp hsorted).2.2 v ((hchanged v).mp hv.2) w hdrop
  · rw [State.reduce_eq, State.releaseAll_stamp hnodup hserves]
    congr 2
    refine (List.Perm.length_eq ((List.perm_ext_iff_of_nodup (hnodup.filter _) (nodup_allVoices.filter _)).mpr fun v => ?_))
    rw [List.mem_filter, List.mem_filter, Bool.and_eq_true, decide_eq_true_iff, ← State.reduce_eq, hchanged, and_comm,
      and_iff_right (mem_allVoices v)]

/-! ### A re-seat in another voice mode (R33, R41) -/

theorem State.Ordered.releaseClear {s : State} {n : Nat} (h : s.Ordered (n + 1)) {p : PartNo} {v : Voice} (hv : s.serves p v) :
    (s.releaseClear v).Ordered n := by
  have hstamp := s.releaseClear_stamp v
  have hage : ∀ x : Stamp, ((s.releaseClear v).stamp - x).toNat ≤ (s.stamp - x).toNat + 1 := fun x => by
    rw [hstamp]
    split
    · exact stamp_age_succ s.stamp x
    · exact Nat.le_succ _
  have hself := (s.voice_releaseClear v v).trans (if_pos rfl)
  have hrecord : ∀ x : Stamp, ((s.voice v).setSustained false).released (s.tailOf v) x
      = ((s.voice v).setSustained false).tailEnded x ∧ s.tailOf v = 0
      ∨ (((s.voice v).setSustained false).released (s.tailOf v) x).state = .releasing
        ∧ (((s.voice v).setSustained false).released (s.tailOf v) x).asg = ((s.voice v).setSustained false).asg := fun x => by
    unfold VoiceRec.released
    split
    · exact .inl ⟨rfl, ‹_›⟩
    · exact .inr ⟨rfl, rfl⟩
  have hkeyed := hv.keyed
  have hasg := (h.assigned v).isSome hkeyed
  have hsmall := h.small
  refine ⟨fun w => ?_, ⟨fun w hi => ?_, fun w hi => ?_⟩, by omega⟩
  · by_cases e : w = v
    · rw [e, hself]
      rcases hrecord (s.stamp + 1) with ⟨hr, -⟩ | ⟨hr, ha⟩
      · obtain ⟨h1, h2, -⟩ := ((s.voice v).setSustained false).tailEnded_frame (s.stamp + 1)
        rw [hr]
        exact iff_of_false (by rw [h1]; exact Bool.false_ne_true) h2
      · rw [VoiceRec.assignedRight, hr, ha, VoiceRec.setSustained, Option.isSome_map]
        exact iff_of_true hasg (.inr (.inl rfl))
    · rw [State.voice_releaseClear_of_ne s v w e]
      exact h.assigned w
  · by_cases e : w = v
    · rw [e, hself] at hi
      rcases hrecord (s.stamp + 1) with ⟨hr, ht⟩ | ⟨hr, -⟩
      · have hunmarked : (s.voice v).unmarkedB = true ∧
            (((s.voice v).setSustained false).tailEnded (s.stamp + 1)).lastFree = s.stamp + 1 := by
          rw [hr] at hi
          unfold VoiceRec.tailEnded VoiceRec.unmarkedB at *
          cases htp : (s.voice v).tunePending <;> cases hop : (s.voice v).offlinePending <;>
            simp_all [VoiceRec.setSustained, VoiceRec.drop]
        rw [e, State.freeAge, hself, hr, hunmarked.2, hstamp, ht, hunmarked.1]
        simp
        omega
      · rw [hr] at hi
        simp at hi
    · rw [State.voice_releaseClear_of_ne s v w e] at hi
      have h1 := h.within.1 w hi
      have h2 := hage (s.voice w).lastFree
      rw [State.freeAge, State.voice_releaseClear_of_ne s v w e]
      rw [State.freeAge] at h1
      omega
  · by_cases e : w = v
    · rw [e, hself] at hi
      rcases hrecord (s.stamp + 1) with ⟨hr, -⟩ | ⟨-, ha⟩
      · rw [hr, (((s.voice v).setSustained false).tailEnded_frame (s.stamp + 1)).1] at hi
        cases hi
      · have h1 := h.within.2 v hasg
        have h2 := hage (s.voice v).asgStamp
        have hstampv : ((s.releaseClear v).voice v).asgStamp = (s.voice v).asgStamp := by
          rw [hself]
          unfold VoiceRec.asgStamp
          rw [ha, VoiceRec.setSustained]
          cases (s.voice v).asg <;> rfl
        rw [e, State.keyAge, hstampv]
        rw [State.keyAge] at h1
        omega
    · rw [State.voice_releaseClear_of_ne s v w e] at hi
      have h1 := h.within.2 w hi
      have h2 := hage (s.voice w).asgStamp
      rw [State.keyAge, State.voice_releaseClear_of_ne s v w e]
      rw [State.keyAge] at h1
      omega

theorem State.Ordered.releaseAll {p : PartNo} {n : Nat} {l : List Voice} (hl : l.Nodup) {s : State} (h : s.Ordered (n + l.length))
    (hs : ∀ v ∈ l, s.serves p v) : (l.foldl State.releaseClear s).Ordered n := by
  induction l generalizing s with
  | nil => exact h
  | cons v l ih =>
    obtain ⟨hv, hl⟩ := List.nodup_cons.mp hl
    refine ih hl (State.Ordered.releaseClear (n := n + l.length) h (hs v (by simp))) fun w hw => ?_
    rw [State.serves_iff, State.voice_releaseClear_of_ne s v w fun e => hv (e ▸ hw), ← State.serves_iff]
    exact hs w (by simp [hw])

/-- What a stack brings to a part that had no voice: its voices are the new ones, each with an index of its own, without glide (R33). -/
structure State.Stacks (p : PartNo) (e : HeldKey) (u : Nat) (s t : State) : Prop where
  taken : ∀ v, t.voice v = s.voice v ∨ t.serves p v ∧ ∃ j stamp, j < u
    ∧ (t.voice v).asg = some ⟨p, e.zone, e.channel, e.key, e.note, e.velocity, stamp, false, j⟩
    ∧ (t.voice v).target = 64 * e.note ∧ (t.voice v).pitch = 64 * e.note ∧ (t.voice v).glide = 0
  distinct : ∀ v w, t.serves p v → t.serves p w → (t.voice v).unisonIndex = (t.voice w).unisonIndex → v = w

theorem State.Stacks.of_voices {p : PartNo} {e : HeldKey} {u : Nat} {s t r : State} (h : s.Stacks p e u t) (hv : r.voices = t.voices) :
    s.Stacks p e u r := by
  have he : ∀ v, r.voice v = t.voice v := fun v => by rw [State.voice, hv]; rfl
  have hs : ∀ v, r.serves p v ↔ t.serves p v := fun v => by rw [State.serves_iff, State.serves_iff, he]
  exact ⟨fun v => by rw [he, hs]; exact h.taken v, fun v w => by rw [he, he, hs, hs]; exact h.distinct v w⟩

theorem State.Stacks.assign {p : PartNo} {e : HeldKey} {u j : Nat} {s t : State} (h : s.Stacks p e u t) {v : Voice} (hj : j < u)
    (hn : ¬ ∃ w, t.serves p w ∧ (t.voice w).unisonIndex = j) : s.Stacks p e u (t.assign v p e j .none) := by
  have hself := t.voice_assign_self v p e j .none
  rw [VoiceRec.assigned_eq] at hself
  have hother : ∀ w, w ≠ v → (t.assign v p e j .none).voice w = t.voice w := fun w hw => State.voice_assign_of_ne hw p e j .none
  have hserves : ∀ w, (t.assign v p e j .none).serves p w ↔ w = v ∨ t.serves p w := fun w => by
    rw [State.serves_assign]
    split
    · exact iff_of_true rfl (.inl ‹_›)
    · exact (or_iff_right ‹_›).symm
  have hindex : ((t.assign v p e j .none).voice v).unisonIndex = j := by rw [hself]; rfl
  have hnew : ∀ w, w ≠ v → t.serves p w → ((t.assign v p e j .none).voice w).unisonIndex ≠ j := fun w hw hs hi =>
    hn ⟨w, hs, by rw [← hother w hw]; exact hi⟩
  refine ⟨fun w => ?_, fun w x hw hx hi => ?_⟩
  · by_cases hwv : w = v
    · refine .inr ⟨(hserves w).mpr (.inl hwv), j, t.stamp + 1, hj, ?_⟩
      rw [hwv, hself]
      simp [VoiceRec.startGlide, GlideStart.glides]
    · rw [hother w hwv, hserves, or_iff_right hwv]
      exact h.taken w
  · rcases (hserves w).mp hw with hwv | hw
    · rcases (hserves x).mp hx with hxv | hx
      · exact hwv.trans hxv.symm
      · by_cases hxv : x = v
        · exact hwv.trans hxv.symm
        · rw [hwv, hindex] at hi
          exact absurd hi.symm (hnew x hxv hx)
    · by_cases hwv : w = v
      · rcases (hserves x).mp hx with hxv | hx
        · exact hwv.trans hxv.symm
        · by_cases hxv : x = v
          · exact hwv.trans hxv.symm
          · rw [hwv, hindex] at hi
            exact absurd hi.symm (hnew x hxv hx)
      · rcases (hserves x).mp hx with hxv | hx
        · rw [hxv, hindex] at hi
          exact absurd hi (hnew w hwv hw)
        · by_cases hxv : x = v
          · rw [hxv, hindex] at hi
            exact absurd hi (hnew w hwv hw)
          · rw [hother w hwv, hother x hxv] at hi
            exact h.distinct w x hw hx hi

theorem State.acquireStack_stacks {p : PartNo} {e : HeldKey} {u : Nat} {s : State} (js : List Nat) (hjs : ∀ j ∈ js, j < u) {t : State}
    (ho : t.Ordered (16 - t.count p)) (h : s.Stacks p e u t) : s.Stacks p e u (t.acquireStack p e .none u js) := by
  induction js generalizing t with
  | nil => exact h
  | cons j js ih =>
    have hjs' : ∀ k ∈ js, k < u := fun k hk => hjs k (by simp [hk])
    unfold State.acquireStack
    split
    · exact ih hjs' ho h
    · rename_i hheld
      split
      · rename_i t' ht'
        obtain ⟨v, -, hvoices⟩ := State.acquire_new ho.assigned ht'
        have hsub : 16 - t.count p = (16 - t'.count p) + 1 := by
          have := State.count_acquire ho.assigned ht'
          have := t'.count_le_sixteen p
          omega
        exact ih hjs' (State.Ordered.acquire (hsub ▸ ho) ht')
          ((h.assign (hjs j (by simp)) (mt State.any_index_iff.mpr hheld)).of_voices hvoices)
      · exact h

/-- A part without voices takes its stack as the statements write it (R33, R41). -/
theorem State.fillStack_stackTaken {r : State} {p : PartNo} (ho : r.Ordered 16) (h0 : r.count p = 0)
    (hu : 1 ≤ (r.part p).live.unisonCount) (e : HeldKey) :
    r.stackTaken (r.fillStack p e .none) p e (r.part p).live.unisonCount := by
  have hn : r.partVoices p = [] := List.eq_nil_of_length_eq_zero h0
  have hno : ∀ v, ¬ r.serves p v := State.partVoices_eq_nil.mp hn
  have hfill := State.fillStack_of_missing (s := r) (p := p) (by omega) e .none
  have hvoices : (r.fillStack p e .none).voices = (r.stacked p e .none).voices := by
    rw [hfill]
    split <;> rfl
  have hstacks : r.Stacks p e (r.part p).live.unisonCount (r.fillStack p e .none) := by
    refine State.Stacks.of_voices ?_ hvoices
    exact State.acquireStack_stacks _ (fun j hj => List.mem_range.mp hj) (ho.mono (Nat.sub_le 16 _))
      ⟨fun v => .inl rfl, fun v w hv => absurd hv (hno v)⟩
  have htaken := fun v (_ : (r.fillStack p e .none).voice v ≠ r.voice v) => (hstacks.taken v).resolve_left ‹_›
  refine ⟨fun v hv => ?_, fun v hv => ?_, fun v w hv hw => hstacks.distinct v w (htaken v hv).1 (htaken w hw).1, fun hi => ?_,
    fun hf hs => ?_⟩
  · obtain ⟨-, j, x, hj, ha, ht, -⟩ := htaken v hv
    exact ⟨j, x, hj, ha, ht⟩
  · obtain ⟨-, j, x, -, -, ht, hp, hg⟩ := htaken v hv
    exact ⟨hp.trans ht.symm, hg⟩
  · obtain ⟨h1, -, -, h4, -⟩ := State.acquireStack_idle p e .none (r.part p).live.unisonCount (r.part p).live.unisonCount
      (s := r) (k := 0) (fun v hv => absurd hv (hno v)) h0 (Nat.zero_add _).symm hi
    rw [← List.range_eq_range'] at h1 h4
    refine ⟨(State.count_of_voices hvoices p).trans h1, fun v hv => by_contra fun hidle => hv ?_⟩
    rw [State.voice, hvoices]
    exact h4 v hidle
  · rw [hfill, State.stacked_of_none ho.assigned hu hn _ hf hs, if_pos h0]
    exact r.dropKey_keyDropped p

/-- A re-seat, as the statements write it (R33, R41). -/
theorem State.reseat_reseated {s : State} {p : PartNo} (ho : s.Ordered 32) (hu : 1 ≤ (s.part p).live.unisonCount)
    (hh : (s.part p).held.length ≤ 16) : s.reseated (s.reseat p) p := by
  have hnodup := s.nodup_partVoices p
  have hserves : ∀ v ∈ s.partVoices p, s.serves p v := fun v hv => State.mem_partVoices.mp hv
  have h16 := s.count_le_sixteen p
  have hr : (s.allocAllOff p).Ordered 16 :=
    (State.Ordered.releaseAll (n := 32 - s.count p) hnodup (ho.mono (by unfold State.count at *; omega)) hserves).mono (by omega)
  have hparts : (s.allocAllOff p).parts = s.parts := (State.releaseAll_voiceWork _ s).parts
  have hpart : (s.allocAllOff p).part p = s.part p := by rw [State.part, hparts]; rfl
  have hchosen : (s.allocAllOff p).chosen p = s.chosen p := by unfold State.chosen; rw [hpart]
  refine ⟨s.allocAllOff p, State.releaseAll_onlyReleased hnodup hserves, fun v => ⟨fun hv => ?_, fun hv => ?_⟩, ?_, ?_⟩
  · exact State.releaseAll_noteEnded hnodup (State.mem_partVoices.mpr hv)
  · exact State.voice_releaseAll_of_not_mem hnodup (mt State.mem_partVoices.mp hv)
  · refine (State.releaseClear_fold s.tailOf).stampedFrom (State.releaseAll_inv hnodup) (fun v r x ht => ?_) fun v => ?_
    · obtain ⟨h1, h2⟩ := Bool.and_eq_true_iff.mp ht
      obtain ⟨k1, k2⟩ := (VoiceRec.unmarked_iff _).mpr h2
      rw [beq_iff_eq.mp h1, VoiceRec.released, if_pos rfl, VoiceRec.tailEnded_setSustained, VoiceRec.tailEnded, k1, k2]
      rfl
    · by_cases hv : s.serves p v
      · have hc : ((s.voice v).state.counted && decide ((s.voice v).asgPart = some p)) = true := by
          rw [Bool.and_eq_true, decide_eq_true_iff]
          exact (State.serves_iff ..).mp hv
        rw [State.servesBriefly_eq hv, hc, Bool.true_and]
      · have hc : ((s.voice v).state.counted && decide ((s.voice v).asgPart = some p)) = false := by
          rw [Bool.eq_false_iff, ne_eq, Bool.and_eq_true, decide_eq_true_iff]
          exact fun h => hv ((State.serves_iff ..).mpr h)
        rw [State.servesBriefly, hc]
        rfl
  · unfold State.reseat
    simp only
    rw [hpart, hchosen]
    cases hm : (s.part p).live.voiceMode with
    | poly => exact State.replayPoly_keysReplayed p _ hr hh
    | mono =>
      refine ⟨fun hn => ?_, fun e he => ?_⟩
      · simp only [hn]
      · simp only [he]
        exact ⟨State.acquire_keyServed hr.assigned hr.close p e .none 1, State.withoutGlide_acquireOrDrop _ p e 0 1 false⟩
    | unison =>
      refine ⟨fun hn => ?_, fun e he => ?_⟩
      · simp only [hn]
      · simp only [he]
        have h0 := s.count_allocAllOff p
        rw [← hpart] at hu ⊢
        have hfill := State.fillStack_of_missing (s := s.allocAllOff p) (p := p) (by omega) e .none
        refine ⟨State.fillStack_stackTaken hr h0 hu e, (s.allocAllOff p).stacked p e .none, ?_, fun hz => ?_, fun hz => ?_⟩
        · exact State.acquireStack_stackFilled p e _ .none _ (hr.mono (by omega))
        · rw [hfill, if_pos hz]
          exact State.dropKey_keyDropped _ p
        · rw [hfill, if_neg hz]

/-! ### The obligation -/

theorem patchChanges (s : State) (p : PartNo) (old : VoiceMode) (ha : ∀ v, (s.voice v).assignedRight) (hs : s.stampsWithin 32) :
    let t := s.afterPatch p old
    ((s.part p).live.voiceMode = old → t.count p = min (s.count p) (s.limit p) ∧
      ∀ v, ¬ s.serves p v → t.voice v = s.voice v) ∧
    ((s.part p).live.voiceMode = old → s.excessReleased t p) ∧
    ((s.part p).live.voiceMode ≠ old → 1 ≤ (s.part p).live.unisonCount → (s.part p).held.length ≤ 16 → s.reseated t p) := by
  intro t
  have hreduce : (s.part p).live.voiceMode = old → t = s.reduce p := fun hm => if_pos hm
  have hordered : s.Ordered 32 := ⟨ha, hs, by norm_num⟩
  refine ⟨fun hm => ?_, fun hm => ?_, fun hm hu hh => ?_⟩
  · rw [hreduce hm]
    refine ⟨s.count_reduce p, fun v hv => ?_⟩
    exact State.voice_releaseAll_of_not_mem (s.nodup_excess p) fun h => hv (State.serves_of_mem_excess h)
  · rw [hreduce hm]
    exact State.reduce_excessReleased hordered.close p
  · have e : t = s.reseat p := if_neg hm
    rw [e]
    exact State.reseat_reseated hordered hu hh

/-- Settles O27: the folds of releases, the keys and stacks in turn, and the slot-down's choices after its voices have left. -/
theorem patchChangesAndLostKeys : Obligations.PatchChangesAndLostKeys := by
  refine ⟨patchChanges, fun s a ha hc => State.reHomeOne_keyReHomed ha hc a, fun s k ha hs => ?_, fun s k => ?_⟩
  · have hw := s.slotSettled_voiceWork k
    exact ⟨s.slotSettled k, hw.parts, s.slotSettled_stamp k, hw.settings, s.voice_slotSettled k, State.slotDown_reHomes ha hs,
      State.slotSettled_serves⟩
  · obtain ⟨hlost, hkept, hpass⟩ := s.slotDown_tune k
    have hw := s.slotDown_keyWork k
    refine ⟨hw.cal, hw.plan, hlost, hkept, fun c hc hv => State.slotDown_check_lost hc hv, fun m hm hv hcheck hreq => ?_,
      fun x hx hv => State.slotDown_service_lost hx hv, fun x hx hv => State.slotDown_service_kept hx hv, hpass⟩
    refine (State.slotDown_unitKept (State.slotGone_unit_lost hm (fun hq => ?_) fun hq => ?_)).1
    · obtain ⟨c, hc, e⟩ := hcheck hq
      exact ⟨c, hc, e ▸ hv⟩
    · obtain ⟨x, hx, e⟩ := hreq hq
      exact ⟨x, hx, e ▸ hv⟩

end Sys2Proof.Machine
end

