-- ==== Sys2Proof/Proofs/ClaimRecords.lean ====
section
/-! PROOFS. The claims of a TUNE and of auto tune on insert: each by the voice's record alone (R46, R47, R107). -/

namespace Sys2Proof.Machine

/-- The answer to a claim, by the voice's record (R46, R47, R107). -/
def VoiceRec.claimAnswer (r : VoiceRec) (force insert : Bool) : Claim :=
  match r.state with
  | .idle | .retuning => .taken
  | .sounding | .releasing | .stealGap => if r.offlinePending then .refused .offlinePending else if force then .taken else .pending
  | .offline => if insert then .taken else .refused .offline
  | .absent => .refused .absent
  | .quarantined => .refused .quarantined
  | .calibrating => .refused .none

/-- The record of a voice after a claim (R46, R47). -/
def VoiceRec.claimed (r : VoiceRec) (force insert : Bool) : VoiceRec :=
  match r.state with
  | .idle | .retuning => { r with state := .calibrating }
  | .sounding | .releasing | .stealGap =>
    if r.offlinePending then r
    else if force then { r.drop with state := .calibrating, tunePending := false } else { r with tunePending := true }
  | .offline => if insert then { r with state := .calibrating } else r
  | .absent | .quarantined | .calibrating => r

/-- The key that a claim by force takes (R43, R47). -/
def VoiceRec.claimLost (r : VoiceRec) (force : Bool) : Option Assignment :=
  match r.state with
  | .sounding | .releasing | .stealGap => if r.offlinePending then none else if force then r.lostKey else none
  | .idle | .retuning | .offline | .absent | .quarantined | .calibrating => none

theorem State.setVoice_self (s : State) (v : Voice) : s.setVoice v (s.voice v) = s := by
  have e : s.voices.set v (s.voice v) = s.voices := Vector.set_getElem_self v.isLt
  unfold State.setVoice
  rw [e]

/-- A claim changes the voice's record alone, once the check of a RETUNING voice is abandoned (R46, R47, R133). -/
theorem State.claim_eq (s : State) (v : Voice) (force insert : Bool) :
    s.claim v force insert = ((s.cleared v).setVoice v ((s.voice v).claimed force insert), (s.voice v).claimAnswer force insert,
      (s.voice v).claimLost force) := by
  have hself := s.setVoice_self v
  cases hs : (s.voice v).state with
  | retuning =>
    have hc : s.cleared v = s.abandonCheck v := if_pos hs
    have hvoice : (s.abandonCheck v).voice v = s.voice v := (State.abandonCheck_passWork s v).voice v
    simp only [State.claim, VoiceRec.claimed, VoiceRec.claimAnswer, VoiceRec.claimLost, hs, hc, State.modVoice, hvoice]
  | idle =>
    rw [State.cleared_of_ne (by simp [hs])]
    simp only [State.claim, VoiceRec.claimed, VoiceRec.claimAnswer, VoiceRec.claimLost, hs, State.modVoice]
  | sounding | releasing | stealGap =>
    rw [State.cleared_of_ne (by simp [hs])]
    simp only [State.claim, VoiceRec.claimed, VoiceRec.claimAnswer, VoiceRec.claimLost, hs, State.modVoice]
    cases (s.voice v).offlinePending <;> cases force <;> simp [hself]
  | offline =>
    rw [State.cleared_of_ne (by simp [hs])]
    simp only [State.claim, VoiceRec.claimed, VoiceRec.claimAnswer, VoiceRec.claimLost, hs, State.modVoice]
    cases insert <;> simp [hself]
  | absent | quarantined | calibrating =>
    rw [State.cleared_of_ne (by simp [hs])]
    simp only [State.claim, VoiceRec.claimed, VoiceRec.claimAnswer, VoiceRec.claimLost, hs, hself]

/-- The state after claims of these voices, one after another. -/
def State.claimed (s : State) (vs : List Voice) (force insert : Bool) : State :=
  vs.foldl (fun (t : State) v => (t.cleared v).setVoice v ((t.voice v).claimed force insert)) s

theorem State.voice_claimed_cons (s : State) (v w : Voice) (force insert : Bool) :
    ((s.cleared v).setVoice v ((s.voice v).claimed force insert)).voice w =
      if v = w then (s.voice v).claimed force insert else s.voice w := by
  rw [State.voice_setVoice, (s.cleared_passWork v).voice]

/-- A voice of the list is claimed once, by its own record; the others stay. -/
theorem State.voice_claimed {vs : List Voice} (hvs : vs.Nodup) (s : State) (force insert : Bool) (w : Voice) :
    (s.claimed vs force insert).voice w = if w ∈ vs then (s.voice w).claimed force insert else s.voice w := by
  induction vs generalizing s with
  | nil => rfl
  | cons v vs ih =>
    obtain ⟨hv, hvs⟩ := List.nodup_cons.mp hvs
    refine (ih hvs _).trans ?_
    rw [State.voice_claimed_cons]
    by_cases e : v = w
    · subst e
      simp [hv]
    · simp [e, Ne.symm e]

/-- Claims answer by the records as they were before the first of them (R107). -/
theorem State.claimAll_eq {vs : List Voice} (hvs : vs.Nodup) (s : State) (force insert : Bool) :
    s.claimAll vs force insert = ⟨s.claimed vs force insert, vs.map fun v => ⟨v, (s.voice v).claimAnswer force insert⟩,
      vs.filterMap fun v => (s.voice v).claimLost force⟩ := by
  have hfold : ∀ (l : List Voice) (x : Claims), l.Nodup → l.foldl (Claims.add force insert) x =
      ⟨x.state.claimed l force insert, x.answers ++ l.map fun v => ⟨v, (x.state.voice v).claimAnswer force insert⟩,
        x.lost ++ l.filterMap fun v => (x.state.voice v).claimLost force⟩ := by
    intro l
    induction l with
    | nil => exact fun x _ => by simp [State.claimed]
    | cons v l ih =>
      intro x hl
      obtain ⟨hv, hl⟩ := List.nodup_cons.mp hl
      have hadd : Claims.add force insert x v =
          ⟨(x.state.cleared v).setVoice v ((x.state.voice v).claimed force insert),
            x.answers ++ [⟨v, (x.state.voice v).claimAnswer force insert⟩],
            x.lost ++ ((x.state.voice v).claimLost force).toList⟩ := by
        unfold Claims.add
        rw [State.claim_eq]
      have hvoice : ∀ w ∈ l, ((x.state.cleared v).setVoice v ((x.state.voice v).claimed force insert)).voice w = x.state.voice w :=
        fun w hw => by rw [State.voice_claimed_cons, if_neg fun e : v = w => hv (e ▸ hw)]
      rw [List.foldl_cons, ih _ hl, hadd]
      have hmap : (l.map fun w => (⟨w, (((x.state.cleared v).setVoice v ((x.state.voice v).claimed force insert)).voice w).claimAnswer
          force insert⟩ : ClaimAnswer)) = l.map fun w => ⟨w, (x.state.voice w).claimAnswer force insert⟩ :=
        List.map_congr_left fun w hw => by rw [hvoice w hw]
      have hlost : (l.filterMap fun w => (((x.state.cleared v).setVoice v ((x.state.voice v).claimed force insert)).voice w).claimLost
          force) = l.filterMap fun w => (x.state.voice w).claimLost force :=
        List.filterMap_congr fun w hw => by rw [hvoice w hw]
      simp only [hmap, hlost]
      refine congrArg₂ (fun a b => Claims.mk _ a b) (by simp) ?_
      rw [List.filterMap_cons]
      cases (x.state.voice v).claimLost force <;> simp
  exact (hfold vs ⟨s, [], []⟩ hvs).trans (by simp)

/-! ### Entries filled, and a pass that begins (R107, R108) -/

/-- The tune controller at the beginning of a pass, its summary cleared (R107). -/
def State.passCleared (s : State) (force : Bool) : State :=
  { s with tune := { s.tune with
    outcome := .running, force := force, entries := Vector.replicate 16 .reset, service := none, heldQuarantine := false,
    requestWaiting := false } }

/-- The entries that answers give their voices (R107, R108). -/
def State.setEntries (s : State) (l : List ClaimAnswer) (ds : DestSet) : State :=
  l.foldl (fun (t : State) x => t.setEntry x.voice (x.answer.entry ds)) s

theorem State.beginPass_eq (s : State) (force : Bool) (l : List ClaimAnswer) (ds : DestSet) :
    s.beginPass force l ds = ((s.passCleared force).setEntries l ds).settlePass := rfl

theorem State.setEntries_frame (s : State) (l : List ClaimAnswer) (ds : DestSet) :
    s.setEntries l ds = { s with tune := { s.tune with entries := (s.setEntries l ds).tune.entries } } := by
  induction l generalizing s with
  | nil => rfl
  | cons x l ih => exact (ih _).trans rfl

theorem State.entry_setEntries {vs : List Voice} (hvs : vs.Nodup) (s : State) (f : Voice → Claim) (ds : DestSet) (w : Voice) :
    (s.setEntries (vs.map fun v => ⟨v, f v⟩) ds).entry w = if w ∈ vs then (f w).entry ds else s.entry w := by
  induction vs generalizing s with
  | nil => rfl
  | cons v vs ih =>
    obtain ⟨hv, hvs⟩ := List.nodup_cons.mp hvs
    refine (ih hvs _).trans ?_
    rw [State.entry_setEntry]
    by_cases e : v = w
    · subst e
      simp [hv]
    · simp [e, Ne.symm e]

theorem State.entry_passCleared (s : State) (force : Bool) (v : Voice) : (s.passCleared force).entry v = .reset := by
  change (Vector.replicate 16 PassEntry.reset)[v] = _
  simp

end Sys2Proof.Machine
end

