-- ==== Sys2Proof/Proofs/DetectEdges.lean ====
section
/-! PROOFS. The detect lines: an edge, and the removal of a card (R43, R44, R84, R86, R91). -/

namespace Sys2Proof.Machine

/-! ### Slot records and the CARD event (R197) -/

theorem State.setCard_setCard (s : State) (k : CardNo) (a b : Card) : (s.setCard k a).setCard k b = s.setCard k b := by
  unfold State.setCard
  rw [Vector.set_set a k.isLt]

theorem State.setCard_modCard (s : State) (k : CardNo) (a : Card) (f : Card → Card) :
    (s.setCard k a).modCard k f = s.setCard k (f a) := by
  rw [State.modCard, State.card_setCard, if_pos rfl, State.setCard_setCard]

theorem State.card_modCard_of_ne (s : State) {k j : CardNo} (f : Card → Card) (hj : j ≠ k) : (s.modCard k f).card j = s.card j := by
  rw [State.modCard, State.card_setCard, if_neg (Ne.symm hj)]

theorem State.postCard_bit (s : State) (k : CardNo) : (s.postCard k).notices.card.getLsbD k.val = true := by
  change (s.notices.card ||| 1#4 <<< k.val).getLsbD k.val = true
  have hk : k.val < 4 := k.isLt
  simp [hk]

/-! ### Calibration gone stale (R91) -/

theorem State.cardGone_tune (s : State) (k : CardNo) : s.cardGone k = { s with tune := { s.tune with cal := (s.cardGone k).tune.cal } } := by
  unfold State.cardGone
  generalize voicesOf k = l
  induction l generalizing s with
  | nil => rfl
  | cons v l ih => exact (ih _).trans rfl

/-- A CALIBRATED or PARTIAL destination of the slot's voices is STALE, and every other entry is as it was (R91). -/
theorem State.cal_cardGone (s : State) (k : CardNo) (v : Voice) (d : Tuned) :
    (s.cardGone k).cal v d = if v.val / 4 = k.val then (s.cal v d).markStale else s.cal v d := by
  have hfold : ∀ (l : List Voice) (t : State), l.Nodup → (l.foldl (fun (t : State) w =>
      let r := t.calRecord w
      t.setCalRecord w ⟨r.a.markStale, r.b.markStale, r.cutoff.markStale⟩) t).cal v d =
        if v ∈ l then (t.cal v d).markStale else t.cal v d := by
    intro l
    induction l with
    | nil => exact fun t _ => rfl
    | cons w l ih =>
      intro t hl
      obtain ⟨hw, hl⟩ := List.nodup_cons.mp hl
      rw [List.foldl_cons, ih _ hl, State.cal, State.calRecord_setCalRecord]
      by_cases hvw : w = v
      · subst hvw
        rw [if_neg hw, if_pos rfl, if_pos (by simp)]
        cases d <;> rfl
      · rw [if_neg hvw]
        simp [Ne.symm hvw, State.cal]
  unfold State.cardGone
  rw [hfold _ s (nodup_voicesOf k)]
  simp only [mem_voicesOf]

theorem CalEntry.markStale_eq (e : CalEntry) :
    e.markStale = if e.status = .calibrated ∨ e.status = .part then { e with status := .stale } else e := by
  unfold CalEntry.markStale
  obtain ⟨codes, freqs, status, base⟩ := e
  cases status <;> rfl

/-! ### A removal (R44, R86, R91) -/

/-- The slot monitor's own record of a removed card, its power off, before the voices leave (R86). -/
def State.unplugged (s : State) (k : CardNo) : State := s.modCard k fun c => { c with power := false, readyTimer := 0 }

/-- A removal once its slot's voices have left. -/
def State.vacated (s : State) (k : CardNo) : State :=
  ((s.cardGone k).modCard k fun c => { c with state := .seated, removalPending := true }).postCard k

theorem State.removeCard_eq (s : State) (k : CardNo) :
    s.removeCard k = if (s.card k).state = .powered then ((s.unplugged k).slotDown k).vacated k else (s.unplugged k).vacated k := by
  unfold State.removeCard
  simp only
  split <;> rfl

/-- The last step of a removal touches the slot's record and the CARD event alone. -/
theorem State.vacated_eq (s : State) (k : CardNo) :
    s.vacated k = { s.cardGone k with cards := (s.vacated k).cards, notices := { (s.cardGone k).notices with
      card := (s.vacated k).notices.card } } := rfl

theorem State.vacated_card (s : State) (k : CardNo) :
    (s.vacated k).card k = { s.card k with state := .seated, removalPending := true } ∧ ∀ j, j ≠ k → (s.vacated k).card j = s.card j := by
  have hcard : ∀ j, (s.cardGone k).card j = s.card j := fun j => by rw [s.cardGone_tune k]; rfl
  have hmod : ∀ j, (s.vacated k).card j =
      ((s.cardGone k).modCard k fun c => { c with state := .seated, removalPending := true }).card j := fun _ => rfl
  refine ⟨?_, fun j hj => ?_⟩
  · rw [hmod, State.card_modCard_self, hcard]
  · rw [hmod, State.card_modCard_of_ne _ _ hj, hcard]

theorem State.vacated_frame (s : State) (k : CardNo) :
    (s.vacated k).voices = s.voices ∧ (s.vacated k).parts = s.parts ∧ (s.vacated k).stamp = s.stamp ∧
      (s.vacated k).tune = { s.tune with cal := (s.vacated k).tune.cal } ∧ (s.vacated k).refresh = s.refresh ∧
      (s.vacated k).notices = { s.notices with card := (s.vacated k).notices.card } := by
  have h := s.vacated_eq k
  rw [s.cardGone_tune k] at h
  exact ⟨(congrArg State.voices h :), (congrArg State.parts h :), (congrArg State.stamp h :), (congrArg State.tune h :),
    (congrArg State.refresh h :), (congrArg State.notices h :)⟩

theorem State.vacated_cal (s : State) (k : CardNo) (v : Voice) (d : Tuned) :
    (s.vacated k).cal v d = if v.val / 4 = k.val ∧ ((s.cal v d).status = .calibrated ∨ (s.cal v d).status = .part) then
      { s.cal v d with status := .stale } else s.cal v d := by
  refine (s.cal_cardGone k v d).trans ?_
  rw [CalEntry.markStale_eq]
  by_cases h1 : v.val / 4 = k.val <;> simp only [h1, true_and, false_and, if_true, if_false]

theorem State.vacated_bit (s : State) (k : CardNo) : (s.vacated k).notices.card.getLsbD k.val = true := State.postCard_bit _ k

/-! ### The obligation -/

theorem State.detectEdge_eq (k : CardNo) (line : DetectLine) (closed : Bool) (s : State) :
    exec (.detectEdge k line closed) s = execDetectEdge k line closed s := rfl

/-- What a removal leaves, from the state in which the voices have left or, with no power, the card alone has changed (R86, R91). -/
theorem State.vacated_removal {s e u : State} {k : CardNo} {c : Card} (he : e = s.setCard k c) (hu : e.KeyWork u) :
    (u.vacated k).card k = { c with state := .seated, removalPending := true } ∧
      (∀ j, j ≠ k → (u.vacated k).card j = s.card j) ∧ (u.vacated k).notices.card.getLsbD k.val = true ∧
      ∀ (v : Voice) (d : Tuned),
        if v.val / 4 = k.val ∧ ((s.cal v d).status = .calibrated ∨ (s.cal v d).status = .part) then
          (u.vacated k).cal v d = { s.cal v d with status := .stale } else (u.vacated k).cal v d = s.cal v d := by
  have hcard : ∀ j, u.card j = if k = j then c else s.card j := fun j => by
    rw [State.card, hu.cards, he]
    exact State.card_setCard s k j c
  have hcal : ∀ v d, u.cal v d = s.cal v d := fun v d => by
    rw [State.cal, State.calRecord, hu.cal, he]
    rfl
  refine ⟨?_, fun j hj => ?_, u.vacated_bit k, fun v d => ?_⟩
  · rw [(u.vacated_card k).1, hcard, if_pos rfl]
  · rw [(u.vacated_card k).2 j hj, hcard, if_neg (Ne.symm hj)]
  · rw [u.vacated_cal, hcal]
    split <;> rfl

/-- Settles O43: an edge that is none, one that only restarts the debounce, and the removal of a card with or without power. -/
theorem detectEdgeAndRemoval : Obligations.DetectEdgeAndRemoval := by
  intro k line closed s c edged
  have hedge : c.edge line closed = edged := by cases line <;> rfl
  refine ⟨fun h => ?_, fun h hk => ?_, fun h hcl hr he hh => ?_⟩
  · rw [State.detectEdge_eq, execDetectEdge, if_pos h]
  · rw [State.detectEdge_eq, execDetectEdge, if_neg h]
    simp only
    have hn : (!closed && (s.card k).state.seatedOrLater && !(s.card k).removalPending) = false := by
      rcases hk with hk | hk | hk | hk
      · simp [hk]
      · have hk : (s.card k).state = .empty := hk
        simp [hk, CardState.seatedOrLater]
      · have hk : (s.card k).state = .half := hk
        simp [hk, CardState.seatedOrLater]
      · have hk : (s.card k).removalPending = true := hk
        simp [hk]
    rw [hn, ← hedge]
    rfl
  · have hseated : (s.card k).state.seatedOrLater = true := by
      have he : (s.card k).state ≠ .empty := he
      have hh : (s.card k).state ≠ .half := hh
      cases hs : (s.card k).state <;> simp_all [CardState.seatedOrLater]
    have hr : (s.card k).removalPending = false := hr
    have hne : (s.card k).raw line ≠ closed := by
      have h : (s.card k).raw line = true := h
      rw [h, hcl]
      simp
    have hexec : exec (.detectEdge k line closed) s = .next ((s.setCard k edged).removeCard k) := by
      rw [State.detectEdge_eq, execDetectEdge, if_neg hne, hcl]
      simp only [hseated, hr]
      rw [← hedge, hcl]
      rfl
    have hedged : (s.setCard k edged).card k = edged := (State.card_setCard ..).trans (if_pos rfl)
    have hstate : edged.state = c.state := by cases line <;> rfl
    have hplug : (s.setCard k edged).unplugged k = s.setCard k { edged with power := false, readyTimer := 0 } :=
      State.setCard_modCard ..
    refine ⟨_, hexec, ?_⟩
    rw [State.removeCard_eq, hedged, hplug]
    by_cases hp : c.state = .powered
    · rw [if_pos (hstate.trans hp)]
      have hwork := State.slotDown_keyWork (s.setCard k { edged with power := false, readyTimer := 0 }) k
      have hgone := fun v => State.voice_slotDown_of_lost (s.setCard k { edged with power := false, readyTimer := 0 }) (k := k) (v := v)
      generalize (s.setCard k { edged with power := false, readyTimer := 0 }).slotDown k = u at hwork hgone ⊢
      obtain ⟨h1, h2, h3, h4⟩ := State.vacated_removal rfl hwork
      obtain ⟨k1, k2, k3, k4, k5, k6⟩ := u.vacated_frame k
      refine ⟨h1, h2, h3, fun _ v hv => ?_, fun _ => ⟨k1, k2, k3, k4, k5, k6⟩, fun hn => absurd hp hn, h4⟩
      have hvoice : (u.vacated k).voice v = (s.voice v).removed := by
        rw [State.voice, k1]
        exact hgone v hv
      rw [State.gate, hvoice]
      exact ⟨rfl, rfl, rfl, rfl, rfl, rfl⟩
    · rw [if_neg fun e => hp (hstate.symm.trans e)]
      obtain ⟨h1, h2, h3, h4⟩ := State.vacated_removal (s := s) (k := k) rfl
        (State.KeyWork.refl (s.setCard k { edged with power := false, readyTimer := 0 }))
      obtain ⟨k1, k2, k3, k4, k5, -⟩ := (s.setCard k { edged with power := false, readyTimer := 0 }).vacated_frame k
      exact ⟨h1, h2, h3, fun hn => absurd hn hp, fun hn => absurd hn hp, fun _ => ⟨k1, k2, k3, k4, k5⟩, h4⟩

end Sys2Proof.Machine
end

