-- ==== Sys2Proof/Proofs/WithoutSlotRecords.lean ====
section
/-! PROOFS. What the allocator and the tune controller do for a slot looks at no slot record, so that the slots of one expiry
are served one after another, each by its own record alone (R84). -/

namespace Sys2Proof.Machine

/-- `s` with other slot records. -/
def State.withCards (s : State) (cs : Vector Card 4) : State := { s with cards := cs }

section
variable (s : State) (cs : Vector Card 4)

theorem State.withCards_voice (v : Voice) : (s.withCards cs).voice v = s.voice v := rfl

theorem State.withCards_entry (v : Voice) : (s.withCards cs).entry v = s.entry v := rfl

/-! ### The tune controller (R104, R110, R133) -/

theorem State.arbitrate_withCards : (s.withCards cs).arbitrate = s.arbitrate.withCards cs := by
  by_cases hi : s.tune.requestWaiting = false ∨ s.tune.service = none ∨ s.tune.unit ≠ none
  · rw [State.arbitrate_idle hi, State.arbitrate_idle (s := s.withCards cs) hi]
  · push Not at hi
    obtain ⟨hr, hs, hu⟩ := hi
    obtain ⟨x, hx⟩ := Option.ne_none_iff_exists'.mp hs
    have hr : s.tune.requestWaiting = true := by simpa using hr
    rw [State.arbitrate_grant hr hu hx, State.arbitrate_grant (s := s.withCards cs) hr hu hx]
    rfl

theorem State.requestTrial_withCards (x : InService) : (s.withCards cs).requestTrial x = (s.requestTrial x).withCards cs := by
  rw [State.requestTrial_eq, State.requestTrial_eq, ← State.arbitrate_withCards]
  rfl

theorem State.beginDest_withCards (v : Voice) (t : Tuned) : (s.withCards cs).beginDest v t = (s.beginDest v t).withCards cs := by
  rw [State.beginDest_eq, State.beginDest_eq, ← State.requestTrial_withCards]
  cases t <;> rfl

theorem State.beginService_withCards (v : Voice) : (s.withCards cs).beginService v = (s.beginService v).withCards cs := by
  unfold State.beginService
  simp only [State.withCards_entry]
  split
  · exact State.beginDest_withCards (s.setEntry v { s.entry v with state := .inService }) cs v _
  · rfl

theorem State.settlePass_withCards : (s.withCards cs).settlePass = s.settlePass.withCards cs := by
  by_cases hr : s.passRunning && s.tune.service.isNone
  · cases hw : s.firstEntry .waiting with
    | some v =>
      have e : ∀ t : State, t.passRunning && t.tune.service.isNone → t.firstEntry .waiting = some v →
          t.settlePass = t.beginService v := fun t h1 h2 => by
        unfold State.settlePass
        rw [if_pos h1, h2]
      rw [e s hr hw, e (s.withCards cs) hr hw, State.beginService_withCards]
    | none =>
      have e : ∀ t : State, t.passRunning && t.tune.service.isNone → t.firstEntry .waiting = none →
          t.settlePass = if (t.firstEntry .pending).isSome then t else t.endPass := fun t h1 h2 => by
        unfold State.settlePass
        rw [if_pos h1, h2]
      rw [e s hr hw, e (s.withCards cs) hr hw]
      have hp : (s.withCards cs).firstEntry .pending = s.firstEntry .pending := rfl
      rw [hp]
      split <;> rfl
  · have e : ∀ t : State, ¬ (t.passRunning && t.tune.service.isNone) → t.settlePass = t := fun t h => if_neg h
    rw [e s hr, e (s.withCards cs) hr]

theorem State.dropCheck_withCards (v : Voice) : (s.withCards cs).dropCheck v = (s.dropCheck v).withCards cs := by
  unfold State.dropCheck State.withCards
  cases s.tune.check with
  | none => rfl
  | some x =>
    simp only
    split <;> rfl

theorem State.abandonCheck_withCards (v : Voice) : (s.withCards cs).abandonCheck v = (s.abandonCheck v).withCards cs := by
  unfold State.abandonCheck
  rw [State.dropCheck_withCards, State.arbitrate_withCards]

theorem State.dropService_withCards : (s.withCards cs).dropService = s.dropService.withCards cs := by
  unfold State.dropService State.withCards
  cases s.tune.service with
  | none => rfl
  | some x =>
    obtain ⟨v, t, w⟩ := x
    cases t <;> rfl

theorem State.loseService_withCards (v : Voice) : (s.withCards cs).loseService v = (s.loseService v).withCards cs := by
  by_cases h : ∃ x, s.tune.service = some x ∧ x.voice = v
  · obtain ⟨x, hx, rfl⟩ := h
    rw [State.loseService_of_eq hx, State.loseService_of_eq (s := s.withCards cs) hx, State.dropService_withCards]
    rfl
  · have hn : ∀ x, s.tune.service = some x → x.voice ≠ v := fun x hx hv => h ⟨x, hx, hv⟩
    rw [State.loseService_of_ne hn, State.loseService_of_ne (s := s.withCards cs) hn]

theorem State.removeVoice_withCards (v : Voice) : (s.withCards cs).removeVoice v = (s.removeVoice v).withCards cs := by
  have hu : (s.withCards cs).unclaimed v = (s.unclaimed v).withCards cs := by
    unfold State.unclaimed
    rw [State.dropCheck_withCards, State.loseService_withCards]
  have hl : (s.withCards cs).loseVoice v = (s.loseVoice v).withCards cs := by
    by_cases h : ((s.unclaimed v).entry v).toServe
    · rw [State.loseVoice_of_toServe h, State.loseVoice_of_toServe (by rw [hu]; exact h), hu]
      rfl
    · rw [State.loseVoice_of_not_toServe h, State.loseVoice_of_not_toServe (by rw [hu]; exact h), hu]
  unfold State.removeVoice
  rw [hl]
  rfl

/-! ### The allocator (R25, R28, R43, R44) -/

theorem State.assign_withCards (v : Voice) (p : PartNo) (h : HeldKey) (j : Nat) (g : GlideStart) :
    (s.withCards cs).assign v p h j g = (s.assign v p h j g).withCards cs := by
  unfold State.assign
  simp only [State.withCards_voice, State.abandonCheck_withCards]
  split <;> rfl

theorem State.freeStep_withCards (p : PartNo) (h : HeldKey) (j : Nat) (g : GlideStart) (n : Nat) :
    (s.withCards cs).freeStep p h j g n = (s.freeStep p h j g n).map fun t => t.withCards cs := by
  have hchoice : (s.withCards cs).freeChoice h.note = s.freeChoice h.note := rfl
  have hcount : (s.withCards cs).count p = s.count p := rfl
  unfold State.freeStep
  rw [hchoice, hcount]
  split
  · rw [Option.map_map]
    congr 1
    funext v
    exact s.assign_withCards cs v p h j g
  · rfl

theorem State.reHomeOne_withCards (a : Assignment) : (s.withCards cs).reHomeOne a = (s.reHomeOne a).withCards cs := by
  have hoffer : ∀ h j n, ((s.withCards cs).freeStep a.part h j .none n).getD (s.withCards cs) =
      ((s.freeStep a.part h j .none n).getD s).withCards cs := fun h j n => by
    rw [State.freeStep_withCards]
    cases s.freeStep a.part h j .none n <;> rfl
  have hpart : (s.withCards cs).part a.part = s.part a.part := rfl
  have hchosen : ∀ h, (s.withCards cs).isChosen a.part h = s.isChosen a.part h := fun _ => rfl
  have hlimit : (s.withCards cs).limit a.part = s.limit a.part := rfl
  cases hf : (s.part a.part).held.find? fun h => a.carries a.part h with
  | none =>
    have e : ∀ t : State, (t.part a.part).held.find? (fun h => a.carries a.part h) = none → t.reHomeOne a = t := fun t ht => by
      unfold State.reHomeOne
      rw [ht]
    rw [e s hf, e (s.withCards cs) hf]
  | some h =>
    rw [State.reHomeOne_of_held hf, State.reHomeOne_of_held (s := s.withCards cs) hf, hpart, hchosen, hlimit]
    cases (s.part a.part).live.voiceMode with
    | poly => exact hoffer h 0 _
    | mono =>
      rw [apply_ite fun t : State => t.withCards cs, ← hoffer]
    | unison =>
      rw [apply_ite fun t : State => t.withCards cs, ← hoffer]

theorem State.foldl_withCards {α : Type} {f : State → α → State} (hf : ∀ s cs a, f (s.withCards cs) a = (f s a).withCards cs)
    (l : List α) : l.foldl f (s.withCards cs) = (l.foldl f s).withCards cs := by
  induction l generalizing s with
  | nil => rfl
  | cons a l ih => rw [List.foldl_cons, List.foldl_cons, hf, ih]

theorem State.slotDown_withCards (k : CardNo) : (s.withCards cs).slotDown k = (s.slotDown k).withCards cs := by
  have hlost : ((voicesOf k).filterMap fun v => ((s.withCards cs).voice v).lostKey)
      = (voicesOf k).filterMap fun v => (s.voice v).lostKey := rfl
  unfold State.slotDown State.reHome
  rw [State.foldl_withCards _ _ State.removeVoice_withCards, State.settlePass_withCards, State.arbitrate_withCards,
    State.foldl_withCards _ _ State.reHomeOne_withCards, hlost]

/-- A voice of a slot that comes up: OFFLINE where it was ABSENT (R44). -/
def State.comeOffline (s : State) (v : Voice) : State :=
  if (s.voice v).state = .absent then s.modVoice v fun r => { r with state := .offline } else s

/-- A voice of a slot that comes up goes to IDLE by auto online, but for one that needs tuning (R44, R89). -/
def State.comeIdle (needTuning : List Voice) (s : State) (v : Voice) : State :=
  if s.settings.autoOnline && !needTuning.contains v && (s.voice v).state == .offline then s.enterIdle v else s

theorem State.slotUp_eq (k : CardNo) (vs : List Voice) :
    s.slotUp k vs = (voicesOf k).foldl (State.comeIdle vs) ((voicesOf k).foldl State.comeOffline s) := rfl

theorem State.slotUp_withCards (k : CardNo) (vs : List Voice) : (s.withCards cs).slotUp k vs = (s.slotUp k vs).withCards cs := by
  rw [State.slotUp_eq, State.slotUp_eq, State.foldl_withCards _ _ fun t ds v => ?_, State.foldl_withCards _ _ fun t ds v => ?_]
  · unfold State.comeIdle
    rw [apply_ite fun t : State => t.withCards ds]
    rfl
  · unfold State.comeOffline
    rw [apply_ite fun t : State => t.withCards ds]
    rfl

/-! ### Auto tune on insert (R46, R108) -/

theorem State.claim_withCards (v : Voice) (force insert : Bool) :
    (s.withCards cs).claim v force insert =
      ((s.claim v force insert).1.withCards cs, (s.claim v force insert).2.1, (s.claim v force insert).2.2) := by
  have hcleared : (s.withCards cs).cleared v = (s.cleared v).withCards cs := by
    unfold State.cleared
    rw [State.abandonCheck_withCards, apply_ite fun t : State => t.withCards cs]
    rfl
  rw [State.claim_eq, State.claim_eq, hcleared]
  rfl

theorem State.claimAll_withCards (vs : List Voice) (force insert : Bool) :
    (s.withCards cs).claimAll vs force insert =
      ⟨(s.claimAll vs force insert).state.withCards cs, (s.claimAll vs force insert).answers, (s.claimAll vs force insert).lost⟩ := by
  have hfold : ∀ (l : List Voice) (x : Claims), l.foldl (Claims.add force insert) ⟨x.state.withCards cs, x.answers, x.lost⟩ =
      ⟨(l.foldl (Claims.add force insert) x).state.withCards cs, (l.foldl (Claims.add force insert) x).answers,
        (l.foldl (Claims.add force insert) x).lost⟩ := by
    intro l
    induction l with
    | nil => exact fun _ => rfl
    | cons v l ih =>
      intro x
      have hadd : Claims.add force insert ⟨x.state.withCards cs, x.answers, x.lost⟩ v =
          ⟨(Claims.add force insert x v).state.withCards cs, (Claims.add force insert x v).answers,
            (Claims.add force insert x v).lost⟩ := by
        unfold Claims.add
        simp only [State.claim_withCards]
      rw [List.foldl_cons, hadd, ih]
      rfl
  exact hfold vs ⟨s, [], []⟩

theorem State.setEntries_withCards (l : List ClaimAnswer) (ds : DestSet) :
    (s.withCards cs).setEntries l ds = (s.setEntries l ds).withCards cs :=
  State.foldl_withCards s cs (fun _ _ _ => rfl) l

theorem State.beginPass_withCards (force : Bool) (l : List ClaimAnswer) (ds : DestSet) :
    (s.withCards cs).beginPass force l ds = (s.beginPass force l ds).withCards cs := by
  have hcleared : (s.withCards cs).passCleared force = (s.passCleared force).withCards cs := rfl
  rw [State.beginPass_eq, State.beginPass_eq, hcleared, State.setEntries_withCards, State.settlePass_withCards]

theorem State.autoTune_eq (vs : List Voice) :
    s.autoTune vs =
      if ((s.claimAll vs false true).answers.filter fun x => x.answer.granted).isEmpty then (s.claimAll vs false true).state
      else if s.passRunning then
        ((s.claimAll vs false true).state.setEntries ((s.claimAll vs false true).answers.filter fun x => x.answer.granted)
          ⟨true, true, true⟩).settlePass
      else (s.claimAll vs false true).state.beginPass false ((s.claimAll vs false true).answers.filter fun x => x.answer.granted)
        ⟨true, true, true⟩ := rfl

theorem State.autoTune_withCards (vs : List Voice) : (s.withCards cs).autoTune vs = (s.autoTune vs).withCards cs := by
  have hrun : (s.withCards cs).passRunning = s.passRunning := rfl
  rw [State.autoTune_eq, State.autoTune_eq]
  simp only [State.claimAll_withCards, State.beginPass_withCards, State.setEntries_withCards, State.settlePass_withCards, hrun]
  rw [apply_ite fun t : State => t.withCards cs, apply_ite fun t : State => t.withCards cs]

end

end Sys2Proof.Machine
end

