-- ==== Sys2Proof/Proofs/ReadyInputs.lean ====
section
/-! PROOFS. One expiry of the slot monitor's frame timer: each slot by its own record (R84, R85, R87 to R90). -/

namespace Sys2Proof.Machine

/-! ### Work on one slot's record (R84) -/

theorem set_of_getElem_eq {cs : Vector Card 4} {k : CardNo} {c : Card} (h : cs[k] = c) : cs.set k c = cs := by
  subst h
  exact Vector.set_getElem_self k.isLt

theorem State.withCards_set_self (s : State) (k : CardNo) : s.withCards (s.cards.set k (s.card k)) = s :=
  congrArg s.withCards (set_of_getElem_eq rfl)

theorem State.modCard_eq (s : State) (k : CardNo) (f : Card → Card) :
    s.modCard k f = s.withCards (s.cards.set k (f (s.card k))) := rfl

theorem State.card_withCards_set (s t : State) (k j : CardNo) (c : Card) :
    (t.withCards (s.cards.set k c)).card j = if k = j then c else s.card j := State.card_setCard s k j c

/-- The step looks at no slot record but slot `k`'s, and changes no other. -/
def CardLocal (k : CardNo) (f : State → State) : Prop :=
  ∀ (s : State) (cs : Vector Card 4), cs[k] = s.card k → f (s.withCards cs) = (f s).withCards (cs.set k ((f s).card k))

theorem CardLocal.cards {k : CardNo} {f : State → State} (h : CardLocal k f) (s : State) :
    (f s).cards = s.cards.set k ((f s).card k) := congrArg State.cards (h s s.cards rfl)

theorem CardLocal.card_of_ne {k j : CardNo} {f : State → State} (h : CardLocal k f) (s : State) (hj : j ≠ k) :
    (f s).card j = s.card j := by
  have e := congrArg (fun cs : Vector Card 4 => cs[j]) (h.cards s)
  refine Eq.trans e ?_
  exact (State.card_setCard s k j _).trans (if_neg (Ne.symm hj))

theorem CardLocal.id (k : CardNo) : CardLocal k fun s => s := fun s cs h => by
  rw [set_of_getElem_eq h]

theorem CardLocal.comp {k : CardNo} {f g : State → State} (hf : CardLocal k f) (hg : CardLocal k g) :
    CardLocal k fun s => g (f s) := fun s cs h => by
  have hcard : (cs.set k ((f s).card k))[k] = (f s).card k := by simp
  simp only
  rw [hf s cs h, hg (f s) _ hcard, Vector.set_set _ k.isLt]

theorem CardLocal.ite {k : CardNo} {f g : State → State} (p : Card → Prop) [DecidablePred p] (hf : CardLocal k f)
    (hg : CardLocal k g) : CardLocal k fun s => if p (s.card k) then f s else g s := fun s cs h => by
  have hcard : (s.withCards cs).card k = s.card k := h
  simp only [hcard]
  split
  · exact hf s cs h
  · exact hg s cs h

/-- Work that looks at no slot record, by what slot `k`'s holds, and a new record of slot `k`. -/
theorem CardLocal.of_eq {k : CardNo} {f : State → State} {work : State → Card → State} {next : Bool → Card → Card}
    (hwork : ∀ s cs c, work (s.withCards cs) c = (work s c).withCards cs)
    (hf : ∀ s, f s = (work s (s.card k)).withCards (s.cards.set k (next s.settings.autoPower (s.card k)))) : CardLocal k f := by
  intro s cs h
  have hcard : (s.withCards cs).card k = s.card k := h
  have hnext : (f s).card k = next s.settings.autoPower (s.card k) := by
    rw [hf, State.card_withCards_set, if_pos rfl]
  rw [hnext, hf (s.withCards cs), hcard, hwork, hf s]
  rfl

/-! ### The ready input (R88 to R90) -/

/-- What becomes of a slot's voices when it becomes POWERED (R44, R89, R108). -/
def State.poweredUp (s : State) (k : CardNo) : State :=
  (s.slotUp k (if s.settings.autoTune then (voicesOf k).filter s.needsTuning else [])).autoTune
    (if s.settings.autoTune then (voicesOf k).filter s.needsTuning else [])

theorem State.poweredUp_withCards (s : State) (cs : Vector Card 4) (k : CardNo) :
    (s.withCards cs).poweredUp k = (s.poweredUp k).withCards cs := by
  have hneeds : (s.withCards cs).needsTuning = s.needsTuning := rfl
  unfold State.poweredUp
  rw [hneeds]
  exact (congrArg (State.autoTune · _) (s.slotUp_withCards cs k _)).trans (State.autoTune_withCards _ cs _)

theorem State.postCard_withCards (s : State) (cs : Vector Card 4) (k : CardNo) :
    (s.withCards cs).postCard k = (s.postCard k).withCards cs := rfl

/-- A slot's record after its ready input is read (R88, R89, R90). -/
def Card.ready (c : Card) (level : Bool) : Card :=
  match c.state, level with
  | .powering, true => { c with readySeen := true, state := .powered }
  | .powering, false =>
    if c.readyTimer - 1 = 0 then
      { c with readySeen := false, readyTimer := 0, power := false, cause := .readyTimeout, state := .powerFault }
    else { c with readySeen := false, readyTimer := c.readyTimer - 1 }
  | .powered, true => { c with readySeen := true }
  | .powered, false => { c with readySeen := false, power := false, cause := .readyLost, state := .powerFault }
  | _, _ => c

/-- What else the reading of a slot's ready input does (R44, R88, R89, R90). -/
def State.readyWork (k : CardNo) (level : Bool) (s : State) (c : Card) : State :=
  match c.state, level with
  | .powering, true => (s.postCard k).poweredUp k
  | .powering, false => if c.readyTimer - 1 = 0 then s.postCard k else s
  | .powered, false => (s.slotDown k).postCard k
  | _, _ => s

theorem State.readyWork_withCards (k : CardNo) (level : Bool) (s : State) (cs : Vector Card 4) (c : Card) :
    (s.withCards cs).readyWork k level c = (s.readyWork k level c).withCards cs := by
  unfold State.readyWork
  split
  · rw [State.postCard_withCards, State.poweredUp_withCards]
  · rw [apply_ite fun t : State => t.withCards cs]
    rfl
  · rw [State.slotDown_withCards]
    rfl
  · rfl

/-- The reading of a slot's ready input, the slot's record apart from the rest (R88, R90). -/
theorem State.readReady_eq (s : State) (k : CardNo) (level : Bool) :
    s.readReady k level = (s.readyWork k level (s.card k)).withCards (s.cards.set k ((s.card k).ready level)) := by
  have hset : ∀ (c d : Card), (s.cards.set k c).set k d = s.cards.set k d := fun c d => Vector.set_set _ k.isLt
  have hcard : ∀ c, (s.withCards (s.cards.set k c)).card k = c := fun c => (s.card_withCards_set s k k c).trans (if_pos rfl)
  have hmod : ∀ c f, (s.withCards (s.cards.set k c)).modCard k f = s.withCards (s.cards.set k (f c)) := fun c f => by
    rw [State.modCard_eq, hcard]
    exact congrArg s.withCards (hset c (f c))
  have hidle : s = s.withCards (s.cards.set k (s.card k)) := (s.withCards_set_self k).symm
  unfold State.readReady
  rw [State.modCard_eq]
  generalize s.card k = c at *
  obtain ⟨state, sl, sr, rl, rr, deb, rem, pow, rt, rs, cause⟩ := c
  cases state with
  | empty | half | seated | powerFault => exact hidle
  | powering =>
    cases level with
    | true =>
      refine Eq.trans ?_ (State.poweredUp_withCards _ _ k)
      change (((s.withCards _).modCard k _).postCard k).poweredUp k = _
      rw [hmod]
      rfl
    | false =>
      simp only [Bool.false_eq_true, if_false, hmod, hcard]
      unfold State.readyWork Card.ready
      simp only
      by_cases ht : rt - 1 = 0
      · rw [if_pos ht, if_pos ht, if_pos ht]
        unfold State.enterFault
        simp only [hmod, hcard]
        rw [if_neg (by simp), hmod, ht]
        rfl
      · rw [if_neg ht, if_neg ht, if_neg ht]
  | powered =>
    cases level with
    | true => rfl
    | false =>
      simp only [Bool.false_eq_true, if_false]
      unfold State.enterFault
      simp only [hmod, hcard, if_true]
      rw [State.slotDown_withCards]
      have hdown : ∀ c f, ((s.slotDown k).withCards (s.cards.set k c)).modCard k f = (s.slotDown k).withCards (s.cards.set k (f c)) :=
        fun c f => by
          have e : ((s.slotDown k).withCards (s.cards.set k c)).card k = c := (State.card_withCards_set s _ k k c).trans (if_pos rfl)
          rw [State.modCard_eq, e]
          exact congrArg (s.slotDown k).withCards (hset c (f c))
      rw [hdown]
      rfl

theorem readReady_cardLocal (k : CardNo) (level : Bool) : CardLocal k fun s => s.readReady k level :=
  CardLocal.of_eq (next := fun _ c => c.ready level) (State.readyWork_withCards k level) fun s => s.readReady_eq k level

end Sys2Proof.Machine
end

