-- ==== Sys2Proof/Proofs/SlotFrames.lean ====
section
/-! PROOFS. Debounces, the frames of the slots one after another, the voices of a slot that comes up, and O44 (R22, R44, R84, R85,
R87 to R90). -/

namespace Sys2Proof.Machine

/-! ### Debounces (R84, R85, R87) -/

/-- The raw reading settles (R84). -/
def Card.settle (c : Card) : Card := { c with settledLeft := c.rawLeft, settledRight := c.rawRight, debounce := 0 }

/-- A debounce taken moves the slot: it is EMPTY or HALF, or its card is being removed (R85, R87). -/
def Card.moves (c : Card) : Bool := c.removalPending || c.state == .empty || c.state == .half

/-- A debounce taken finds a card inserted (R85). -/
def Card.inserts (c : Card) : Bool := c.moves && c.rawLeft && c.rawRight

/-- A slot's record after an insertion (R85, R88). -/
def Card.inserted (c : Card) (autoPower : Bool) : Card :=
  if autoPower then
    { c with state := .powering, power := true, readyTimer := 100, cause := .none, removalPending := false }
  else { c with state := .seated, removalPending := false }

/-- A slot's record after its debounce is taken (R84, R85, R87). -/
def Card.debounced (autoPower : Bool) (c : Card) : Card :=
  if c.moves then
    match c.rawLeft, c.rawRight with
    | false, false => { c.settle with state := .empty, removalPending := false }
    | true, true => c.settle.inserted autoPower
    | _, _ => { c.settle with state := .half, removalPending := false }
  else c.settle

theorem State.insertion_withCards (s : State) (k : CardNo) (c : Card) :
    (s.withCards (s.cards.set k c)).insertion k =
      (s.postCard k).withCards (s.cards.set k (c.inserted s.settings.autoPower)) := by
  have hset : ∀ (c d : Card), (s.cards.set k c).set k d = s.cards.set k d := fun c d => Vector.set_set _ k.isLt
  have hmod : ∀ c f, (s.withCards (s.cards.set k c)).modCard k f = s.withCards (s.cards.set k (f c)) := fun c f => by
    have e : (s.withCards (s.cards.set k c)).card k = c := (s.card_withCards_set s k k c).trans (if_pos rfl)
    rw [State.modCard_eq, e]
    exact congrArg s.withCards (hset c (f c))
  have hpost : ∀ c f, ((s.withCards (s.cards.set k c)).postCard k).modCard k f = (s.postCard k).withCards (s.cards.set k (f c)) :=
    fun c f => congrArg (fun t : State => t.postCard k) (hmod c f)
  unfold State.insertion State.enterPowering Card.inserted
  rw [hmod]
  have hauto : ((s.withCards (s.cards.set k { c with state := .seated, removalPending := false })).postCard k).settings.autoPower
      = s.settings.autoPower := rfl
  simp only [hauto]
  split
  · rw [hpost]
    rfl
  · rfl

/-- A debounce taken, the slot's record apart from the CARD event of an insertion (R84, R85, R87). -/
theorem State.takeDebounce_eq (s : State) (k : CardNo) :
    s.takeDebounce k = (if (s.card k).inserts then s.postCard k else s).withCards
      (s.cards.set k ((s.card k).debounced s.settings.autoPower)) := by
  have hmod : ∀ c f, (s.withCards (s.cards.set k c)).modCard k f = s.withCards (s.cards.set k (f c)) := fun c f => by
    have e : (s.withCards (s.cards.set k c)).card k = c := (s.card_withCards_set s k k c).trans (if_pos rfl)
    rw [State.modCard_eq, e]
    exact congrArg s.withCards (Vector.set_set _ k.isLt)
  have hcard : ∀ c, (s.withCards (s.cards.set k c)).card k = c := fun c => (s.card_withCards_set s k k c).trans (if_pos rfl)
  unfold State.takeDebounce
  rw [State.modCard_eq]
  generalize s.card k = c
  obtain ⟨state, sl, sr, rl, rr, deb, rem, pow, rt, rs, cause⟩ := c
  simp only [hcard, hmod, State.insertion_withCards]
  cases rem with
  | true => cases rl <;> cases rr <;> rfl
  | false =>
    cases state with
    | empty | half => cases rl <;> cases rr <;> rfl
    | seated | powering | powered | powerFault => rfl

theorem takeDebounce_cardLocal (k : CardNo) : CardLocal k fun s => s.takeDebounce k :=
  CardLocal.of_eq (work := fun s c => if c.inserts then s.postCard k else s) (next := Card.debounced)
    (fun s cs c => by
      rw [apply_ite fun t : State => t.withCards cs]
      rfl)
    fun s => s.takeDebounce_eq k

theorem modCard_cardLocal (k : CardNo) (f : Card → Card) : CardLocal k fun s => s.modCard k f :=
  CardLocal.of_eq (work := fun s _ => s) (next := fun _ c => f c) (fun _ _ _ => rfl) fun s => s.modCard_eq k f

/-- One frame of a debounce that runs on (R84). -/
def Card.counts (c : Card) : Card := { c with debounce := c.debounce - 1 }

theorem Card.counts_of_zero {c : Card} (h : c.debounce = 0) : c.counts = c := by
  obtain ⟨state, sl, sr, rl, rr, deb, rem, pow, rt, rs, cause⟩ := c
  subst h
  rfl

theorem State.debounceFrame_eq (s : State) (k : CardNo) :
    s.debounceFrame k = if (s.card k).debounce = 1 then s.takeDebounce k else s.modCard k Card.counts := by
  have hcount : ∀ n, (s.card k).debounce = n → s.modCard k (fun c => { c with debounce := n - 1 }) = s.modCard k Card.counts :=
    fun n h => by
      rw [State.modCard_eq, State.modCard_eq, Card.counts, h]
  unfold State.debounceFrame
  split
  · rename_i h
    rw [if_neg (by omega), State.modCard_eq, Card.counts_of_zero h]
    exact (s.withCards_set_self k).symm
  · rename_i h
    rw [if_pos h]
  · rename_i h
    rw [if_neg h]
    exact hcount _ rfl

theorem debounceFrame_cardLocal (k : CardNo) : CardLocal k fun s => s.debounceFrame k := by
  have h := CardLocal.ite (k := k) (fun c => c.debounce = 1) (takeDebounce_cardLocal k) (modCard_cardLocal k Card.counts)
  simp only [State.debounceFrame_eq]
  exact h

/-! ### The slots of one expiry (R84) -/

theorem State.slotFrame_eq (ready : BitVec 4) (s : State) (k : CardNo) :
    s.slotFrame ready k = if (s.card k).state = .powering ∨ (s.card k).state = .powered then
      (s.debounceFrame k).readReady k (ready.getLsbD k.val) else s.debounceFrame k := by
  unfold State.slotFrame
  cases (s.card k).state <;> rfl

theorem slotFrame_cardLocal (ready : BitVec 4) (k : CardNo) : CardLocal k fun s => s.slotFrame ready k := by
  have h := CardLocal.ite (k := k) (fun c => c.state = .powering ∨ c.state = .powered)
    ((debounceFrame_cardLocal k).comp (readReady_cardLocal k (ready.getLsbD k.val))) (debounceFrame_cardLocal k)
  simp only [State.slotFrame_eq]
  exact h

/-- A slot with no debounce running and no ready input to read. -/
def Card.quiet (c : Card) : Prop := c.debounce = 0 ∧ c.state ≠ .powering ∧ c.state ≠ .powered

theorem State.slotFrame_of_quiet {ready : BitVec 4} {s : State} {k : CardNo} (h : (s.card k).quiet) : s.slotFrame ready k = s := by
  obtain ⟨h1, h2, h3⟩ := h
  rw [State.slotFrame_eq, if_neg (not_or.mpr ⟨h2, h3⟩), State.debounceFrame_eq, if_neg (by omega), State.modCard_eq,
    Card.counts_of_zero h1]
  exact s.withCards_set_self k

/-- Where no other slot has anything to do, an expiry is slot `k`'s share of it (R84). -/
theorem State.slotFrames_only {ready : BitVec 4} {s : State} {k : CardNo} (h : ∀ j, j ≠ k → (s.card j).quiet) :
    exec (.slotFrameExpiry ready) s = .next (s.slotFrame ready k) := by
  have hfold : ∀ (l : List CardNo) (t : State), l.Nodup → (∀ j, j ≠ k → (t.card j).quiet) →
      l.foldl (State.slotFrame ready) t = if k ∈ l then t.slotFrame ready k else t := by
    intro l
    induction l with
    | nil => exact fun _ _ _ => rfl
    | cons j l ih =>
      intro t hl ht
      obtain ⟨hj, hl⟩ := List.nodup_cons.mp hl
      rw [List.foldl_cons]
      by_cases e : j = k
      · subst e
        have hq : ∀ i, i ≠ j → ((t.slotFrame ready j).card i).quiet := fun i hi => by
          rw [(slotFrame_cardLocal ready j).card_of_ne t hi]
          exact ht i hi
        rw [ih _ hl hq, if_neg hj, if_pos (by simp)]
      · rw [State.slotFrame_of_quiet (ht j e), ih t hl ht]
        simp [Ne.symm e]
  refine congrArg Host.Outcome.next ((hfold allCards s (List.nodup_finRange 4) h).trans (if_pos ?_))
  exact List.mem_finRange k

theorem State.slotFrames_eq (ready : BitVec 4) (s : State) : exec (.slotFrameExpiry ready) s =
    .next ((((s.slotFrame ready 0).slotFrame ready 1).slotFrame ready 2).slotFrame ready 3) := rfl

/-- A slot's share of an expiry is what the expiry does where the others have nothing to do (R84). -/
theorem State.slotFrame_slotShare (ready : BitVec 4) (s : State) (k : CardNo) : s.slotShare ready (s.slotFrame ready k) k := by
  have hlocal := slotFrame_cardLocal ready k
  refine ⟨?_, fun j hj => hlocal.card_of_ne s hj⟩
  have hk : ((Vector.replicate 4 (⟨.empty, false, false, false, false, 0, false, false, 0, false, .none⟩ : Card)).set k
      (s.card k))[k] = s.card k := by simp
  have hquiet : ∀ j, j ≠ k → ((s.onlySlot k).card j).quiet := fun j hj => by
    have hne : ¬ k.val = j.val := fun e => hj (Fin.ext e.symm)
    have e : (s.onlySlot k).card j = ⟨.empty, false, false, false, false, 0, false, false, 0, false, .none⟩ := by
      change ((Vector.replicate 4 _).set k (s.card k))[j] = _
      simp [hne]
    rw [e]
    exact ⟨rfl, by simp, by simp⟩
  rw [State.slotFrames_only hquiet]
  refine congrArg Host.Outcome.next ((hlocal s _ hk).trans ?_)
  simp only
  rw [Vector.set_set _ k.isLt]
  rfl

end Sys2Proof.Machine
end

