-- ==== Sys2Proof/Proofs/SlotsUp.lean ====
section
/-! PROOFS. The voices of a slot that comes up, and the pass that auto tune on insert begins or joins (R22, R44, R46, R89, R104, R108,
R110). -/

namespace Sys2Proof.Machine

/-! ### The voices of a slot that comes up (R22, R44, R89) -/

/-- A record on the way up: OFFLINE where it was ABSENT (R44). -/
def VoiceRec.comesOffline (r : VoiceRec) : VoiceRec := if r.state = .absent then { r with state := .offline } else r

theorem State.comeOffline_fold :
    VoiceFold State.comeOffline (fun _ r _ => r.comesOffline) (fun _ _ => false) fun _ _ => True := by
  refine ⟨fun _ _ _ _ => trivial, fun s v l _ w => ?_, fun s v l _ => ?_⟩
  · unfold State.comeOffline VoiceRec.comesOffline
    by_cases h : (s.voice v).state = .absent
    · rw [if_pos h, if_pos h, State.modVoice_eq, State.voice_setVoice]
    · rw [if_neg h, if_neg h]
      split
      · rename_i e
        rw [e]
      · rfl
  · unfold State.comeOffline
    split <;> rfl

theorem State.comeOffline_onlyVoices (l : List Voice) (s : State) : s.OnlyVoices (l.foldl State.comeOffline s) := by
  induction l generalizing s with
  | nil => rfl
  | cons v l ih =>
    have h : s.OnlyVoices (s.comeOffline v) := by
      unfold State.comeOffline
      split <;> rfl
    exact h.trans (ih _)

/-- The voice of a slot that comes up goes on to IDLE (R44, R89). -/
def VoiceRec.goesIdle (online : Bool) (needTuning : List Voice) (v : Voice) (r : VoiceRec) : Bool :=
  online && !needTuning.contains v && r.state == .offline

theorem State.comeIdle_fold (online : Bool) (vs : List Voice) :
    VoiceFold (State.comeIdle vs) (fun v r x => if r.goesIdle online vs v then r.entersIdle x else r)
      (fun v r => r.goesIdle online vs v) fun _ s => s.settings.autoOnline = online := by
  have hstep : ∀ (s : State) (v : Voice), s.settings.autoOnline = online →
      s.comeIdle vs v = if (s.voice v).goesIdle online vs v then s.enterIdle v else s := fun s v h => by
    rw [← h]
    rfl
  refine ⟨fun s v l h => ?_, fun s v l h w => ?_, fun s v l h => ?_⟩
  · rw [hstep s v h]
    split <;> exact h
  · rw [hstep s v h]
    by_cases hi : (s.voice v).goesIdle online vs v
    · rw [if_pos hi, if_pos hi, State.voice_enterIdle]
      split
      · rename_i e
        rw [e]
        rfl
      · rfl
    · rw [if_neg hi, if_neg hi]
      split
      · rename_i e
        rw [e]
      · rfl
  · rw [hstep s v h]
    split <;> rfl

theorem State.comeIdle_onlyVoices (vs l : List Voice) (s : State) : s.OnlyVoices (l.foldl (State.comeIdle vs) s) := by
  induction l generalizing s with
  | nil => rfl
  | cons v l ih =>
    have h : s.OnlyVoices (s.comeIdle vs v) := by
      unfold State.comeIdle
      split
      · exact s.enterIdle_onlyVoices v
      · rfl
    exact h.trans (ih _)

section
variable (s : State) (k : CardNo) (vs : List Voice)

theorem State.slotUp_onlyVoices : s.OnlyVoices (s.slotUp k vs) :=
  (State.comeOffline_onlyVoices _ s).trans (State.comeIdle_onlyVoices vs _ _)

theorem State.voice_slotUp_of_ne {v : Voice} (hv : ¬ v.val / 4 = k.val) : (s.slotUp k vs).voice v = s.voice v := by
  have hn := mt mem_voicesOf.mp hv
  rw [State.slotUp_eq, (State.comeIdle_fold _ vs).voice_of_not_mem rfl hn, State.comeOffline_fold.voice_of_not_mem trivial hn]

theorem State.voice_offline {v : Voice} (hv : v.val / 4 = k.val) :
    ((voicesOf k).foldl State.comeOffline s).voice v = (s.voice v).comesOffline := by
  obtain ⟨n, hn⟩ := State.comeOffline_fold.exists_voice (nodup_voicesOf k) (s := s) trivial (mem_voicesOf.mpr hv)
  exact hn

/-- A voice of the slot that was ABSENT is IDLE by auto online, unless it needs tuning, and else OFFLINE (R44, R89). -/
theorem State.voice_slotUp {v : Voice} (hv : v.val / 4 = k.val) (ha : (s.voice v).state = .absent) :
    (s.slotUp k vs).voice v = if s.settings.autoOnline && !vs.contains v then
        { s.voice v with state := .idle, idle := 0, lastFree := ((s.slotUp k vs).voice v).lastFree }
      else { s.voice v with state := .offline } := by
  have hset : ((voicesOf k).foldl State.comeOffline s).settings = s.settings :=
    (congrArg State.settings (State.comeOffline_onlyVoices (voicesOf k) s) :)
  obtain ⟨n, hn⟩ := (State.comeIdle_fold s.settings.autoOnline vs).exists_voice (nodup_voicesOf k)
    (s := (voicesOf k).foldl State.comeOffline s) (by rw [hset]) (mem_voicesOf.mpr hv)
  have hoff : (s.voice v).comesOffline = { s.voice v with state := .offline } := if_pos ha
  rw [← State.slotUp_eq, State.voice_offline s k hv, hoff] at hn
  have hgoes : VoiceRec.goesIdle s.settings.autoOnline vs v { s.voice v with state := .offline } =
      (s.settings.autoOnline && !vs.contains v) := Bool.and_true _
  rw [hgoes] at hn
  split
  · rename_i h
    rw [if_pos h] at hn
    rw [hn]
    rfl
  · rename_i h
    rw [if_neg h] at hn
    exact hn

/-- The voices of a slot that go to IDLE take their stamps in ascending voice number (R22, R44). -/
theorem State.slotUp_stampedFrom (ha : ∀ v : Voice, v.val / 4 = k.val → (s.voice v).state = .absent) :
    (s.slotUp k vs).stampedFrom s.stamp fun v => decide (v.val / 4 = k.val) && (s.settings.autoOnline && !vs.contains v) := by
  have hset : ((voicesOf k).foldl State.comeOffline s).settings = s.settings :=
    (congrArg State.settings (State.comeOffline_onlyVoices (voicesOf k) s) :)
  have hstamp : ((voicesOf k).foldl State.comeOffline s).stamp = s.stamp := by
    rw [State.comeOffline_fold.stamp_foldl (nodup_voicesOf k) trivial]
    simp
  rw [State.slotUp_eq, ← hstamp]
  refine (State.comeIdle_fold s.settings.autoOnline vs).stampedFrom (c := fun v => cardOf v == k) (by rw [hset])
    (fun v r x h => by rw [if_pos h]; rfl) fun v => ?_
  have hcard : (cardOf v == k) = decide (v.val / 4 = k.val) := by
    rw [beq_eq_decide]
    exact decide_eq_decide.mpr Fin.ext_iff
  rw [hcard]
  by_cases hv : v.val / 4 = k.val
  · have hoff : (s.voice v).comesOffline = { s.voice v with state := .offline } := if_pos (ha v hv)
    rw [State.voice_offline s k hv, hoff]
    exact congrArg (decide _ && ·) (Bool.and_true _).symm
  · simp [hv]

end

end Sys2Proof.Machine
end

