-- ==== Sys2Proof/Proofs/SlotClauses.lean ====
section
/-! PROOFS. The clauses of O44 (R22, R43, R44, R84, R85, R87 to R90). -/

namespace Sys2Proof.Machine

/-! ### Records of a slot that are not read (R84) -/

theorem State.withCards_set (s : State) (k : CardNo) (c : Card) : s.withCards (s.cards.set k c) = s.setCard k c := rfl

theorem State.debounceFrame_of_zero {s : State} {k : CardNo} (h : (s.card k).debounce = 0) : s.debounceFrame k = s := by
  rw [State.debounceFrame_eq, if_neg (by omega), State.modCard_eq, Card.counts_of_zero h]
  exact s.withCards_set_self k

/-- With no debounce to take and no ready input to read, an expiry counts the debounces down (R84). -/
theorem State.slotFrames_count {ready : BitVec 4} {s : State}
    (h : ∀ k, (s.card k).debounce ≠ 1 ∧ (s.card k).state ≠ .powering ∧ (s.card k).state ≠ .powered) :
    ends (.slotFrameExpiry ready) s fun t => t = { s with cards := t.cards } ∧
      ∀ k, t.card k = { s.card k with debounce := (s.card k).debounce - 1 } := by
  have hstep : ∀ (t : State) (j : CardNo),
      (t.card j).debounce ≠ 1 ∧ (t.card j).state ≠ .powering ∧ (t.card j).state ≠ .powered →
      t.slotFrame ready j = t.setCard j (t.card j).counts := fun t j ⟨h1, h2, h3⟩ => by
    rw [State.slotFrame_eq, if_neg (not_or.mpr ⟨h2, h3⟩), State.debounceFrame_eq, if_neg h1]
    rfl
  have hfold : ∀ (l : List CardNo) (t : State), l.Nodup → (∀ j ∈ l, (t.card j).debounce ≠ 1 ∧ (t.card j).state ≠ .powering
      ∧ (t.card j).state ≠ .powered) → (l.foldl (State.slotFrame ready) t = t.withCards (l.foldl (State.slotFrame ready) t).cards
        ∧ ∀ k, (l.foldl (State.slotFrame ready) t).card k = if k ∈ l then (t.card k).counts else t.card k) := by
    intro l
    induction l with
    | nil => exact fun t _ _ => ⟨rfl, fun _ => rfl⟩
    | cons j l ih =>
      intro t hl ht
      obtain ⟨hj, hl⟩ := List.nodup_cons.mp hl
      have hcard : ∀ i, (t.setCard j (t.card j).counts).card i = if j = i then (t.card j).counts else t.card i := fun i =>
        State.card_setCard ..
      obtain ⟨h1, h2⟩ := ih (t.setCard j (t.card j).counts) hl fun i hi => by
        rw [hcard, if_neg fun e : j = i => hj (e ▸ hi)]
        exact ht i (by simp [hi])
      rw [List.foldl_cons, hstep t j (ht j (by simp))]
      refine ⟨h1, fun i => ?_⟩
      rw [h2, hcard]
      by_cases e : j = i
      · subst e
        simp [hj]
      · simp [e, Ne.symm e]
  obtain ⟨h1, h2⟩ := hfold allCards s (List.nodup_finRange 4) fun k _ => h k
  exact ⟨_, rfl, h1, fun k => (h2 k).trans (if_pos (List.mem_finRange k))⟩

/-! ### Debounces taken -/

theorem State.debounceTaken_eq {s : State} {k : CardNo} (h : (s.card k).debounce = 1) :
    exec (.debounceTaken k) s = .next (s.takeDebounce k) := congrArg Host.Outcome.next (if_pos h)

theorem Card.moves_of {c : Card} (h : c.state = .empty ∨ c.state = .half ∨ c.removalPending = true) : c.moves = true := by
  unfold Card.moves
  rcases h with h | h | h <;> simp [h]

theorem State.takeDebounce_of_not_inserts {s : State} {k : CardNo} (h : (s.card k).inserts = false) :
    s.takeDebounce k = s.setCard k ((s.card k).debounced s.settings.autoPower) := by
  rw [State.takeDebounce_eq, h]
  rfl

theorem debounceMoves {k : CardNo} {s : State} (hd : (s.card k).debounce = 1)
    (hm : (s.card k).state = .empty ∨ (s.card k).state = .half ∨ (s.card k).removalPending = true) :
    let c := s.card k
    let settled : Card := { c with settledLeft := c.rawLeft, settledRight := c.rawRight, debounce := 0 }
    (c.rawLeft = false → c.rawRight = false → exec (.debounceTaken k) s =
      .next (s.setCard k { settled with state := .empty, removalPending := false })) ∧
    (c.rawLeft ≠ c.rawRight → ends (.debounceTaken k) s fun t => t = { s with cards := t.cards } ∧
      (t.card k).state = .half ∧ (t.card k).settledLeft = c.rawLeft ∧ (t.card k).settledRight = c.rawRight ∧
      (t.card k).removalPending = false) ∧
    (c.rawLeft = true → c.rawRight = true → ends (.debounceTaken k) s fun t =>
      t = { s with cards := t.cards, notices := { s.notices with card := t.notices.card } } ∧
      t.notices.card.getLsbD k.val = true ∧ (∀ j, j ≠ k → t.card j = s.card j) ∧
      t.card k = (if s.settings.autoPower then
          { settled with state := .powering, power := true, readyTimer := 100, cause := .none, removalPending := false }
        else { settled with state := .seated, removalPending := false })) := by
  intro c settled
  have hmoves : c.moves = true := Card.moves_of hm
  have hexec := State.debounceTaken_eq hd
  refine ⟨fun hl hr => ?_, fun hne => ?_, fun hl hr => ?_⟩
  · have hins : c.inserts = false := by simp [Card.inserts, hl]
    have hcard : c.debounced s.settings.autoPower = { settled with state := .empty, removalPending := false } := by
      simp only [Card.debounced, hmoves, if_true, hl, hr]
      simp only [Card.settle, settled, hl, hr]
    rw [hexec, State.takeDebounce_of_not_inserts hins]
    exact congrArg (fun c => Host.Outcome.next (s.setCard k c)) hcard
  · have hins : c.inserts = false := by
      unfold Card.inserts
      cases hl : c.rawLeft <;> cases hr : c.rawRight <;> simp_all
    have hcard : c.debounced s.settings.autoPower = { c.settle with state := .half, removalPending := false } := by
      unfold Card.debounced
      rw [if_pos hmoves]
      cases hl : c.rawLeft <;> cases hr : c.rawRight <;> simp_all
    rw [State.takeDebounce_of_not_inserts hins] at hexec
    refine ⟨_, hexec, rfl, ?_⟩
    have e : (s.setCard k ((s.card k).debounced s.settings.autoPower)).card k = _ := (State.card_setCard ..).trans ((if_pos rfl).trans hcard)
    rw [e]
    exact ⟨rfl, rfl, rfl, rfl⟩
  · have hins : (s.card k).inserts = true := by
      have hmoves : (s.card k).moves = true := hmoves
      have hl : (s.card k).rawLeft = true := hl
      have hr : (s.card k).rawRight = true := hr
      rw [Card.inserts, hmoves, hl, hr]
      rfl
    have hcard : c.debounced s.settings.autoPower = c.settle.inserted s.settings.autoPower := by
      simp only [Card.debounced, hmoves, if_true, hl, hr]
    rw [State.takeDebounce_eq, hins, if_pos rfl] at hexec
    refine ⟨_, hexec, rfl, s.postCard_bit k, fun j hj => ?_, ?_⟩
    · exact (State.card_withCards_set s _ k j _).trans (if_neg (Ne.symm hj))
    · exact (State.card_withCards_set s _ k k _).trans ((if_pos rfl).trans hcard)

theorem Card.debounced_of_stays {c : Card} (hm : c.moves = false) (hl : c.rawLeft = true) (hr : c.rawRight = true) (b : Bool) :
    c.debounced b = { c with settledLeft := true, settledRight := true, debounce := 0 } := by
  unfold Card.debounced Card.settle
  rw [hm, hl, hr]
  rfl

theorem debounceStays {k : CardNo} {s : State} (hl : (s.card k).rawLeft = true)
    (hr : (s.card k).rawRight = true) (he : (s.card k).state ≠ .empty) (hh : (s.card k).state ≠ .half)
    (hp : (s.card k).removalPending = false) :
    s.takeDebounce k = s.setCard k { s.card k with settledLeft := true, settledRight := true, debounce := 0 } := by
  have hmoves : (s.card k).moves = false := by
    unfold Card.moves
    simp [he, hh, hp]
  rw [State.takeDebounce_of_not_inserts (by rw [Card.inserts, hmoves]; rfl), Card.debounced_of_stays hmoves hl hr]

/-! ### The ready input -/

section
variable {s : State} {k : CardNo} {ready : BitVec 4}

theorem State.slotFrame_ready (hs : (s.card k).state = .powering ∨ (s.card k).state = .powered) (hd : (s.card k).debounce = 0) :
    s.slotFrame ready k = (s.readyWork k (ready.getLsbD k.val) (s.card k)).withCards
      (s.cards.set k ((s.card k).ready (ready.getLsbD k.val))) := by
  rw [State.slotFrame_eq, if_pos hs, State.debounceFrame_of_zero hd, State.readReady_eq]

theorem State.slotFrame_powers (hs : (s.card k).state = .powering) (hd : (s.card k).debounce = 0) (hr : ready.getLsbD k.val = true) :
    s.slotFrame ready k = ((s.postCard k).poweredUp k).withCards
      (s.cards.set k { s.card k with readySeen := true, state := .powered }) := by
  rw [State.slotFrame_ready (.inl hs) hd, hr]
  simp only [State.readyWork, Card.ready, hs]

theorem State.readReady_timeout (hs : (s.card k).state = .powering) (ht : (s.card k).readyTimer = 1) :
    s.readReady k false = (s.postCard k).withCards (s.cards.set k { s.card k with
      state := .powerFault, power := false, readyTimer := 0, readySeen := false, cause := .readyTimeout }) := by
  rw [State.readReady_eq]
  simp only [State.readyWork, Card.ready, hs, ht, Nat.sub_self, if_true]

theorem State.readReady_waits (hs : (s.card k).state = .powering) (ht : 2 ≤ (s.card k).readyTimer) :
    s.readReady k false = s.setCard k { s.card k with readySeen := false, readyTimer := (s.card k).readyTimer - 1 } := by
  have hne : ¬ (s.card k).readyTimer - 1 = 0 := by omega
  rw [State.readReady_eq]
  simp only [State.readyWork, Card.ready, hs, hne, if_false]
  rfl

theorem State.slotFrame_lost (hs : (s.card k).state = .powered) (hd : (s.card k).debounce = 0) (hr : ready.getLsbD k.val = false) :
    s.slotFrame ready k = ((s.slotDown k).postCard k).withCards
      (s.cards.set k { s.card k with readySeen := false, power := false, cause := .readyLost, state := .powerFault }) := by
  rw [State.slotFrame_ready (.inr hs) hd, hr]
  simp only [State.readyWork, Card.ready, hs]

theorem State.slotFrame_seen (hs : (s.card k).state = .powered) (hd : (s.card k).debounce = 0) (hr : ready.getLsbD k.val = true) :
    s.slotFrame ready k = s.setCard k { s.card k with readySeen := true } := by
  rw [State.slotFrame_ready (.inr hs) hd, hr]
  simp only [State.readyWork, Card.ready, hs]
  rfl

theorem State.readyTimeout_eq (hs : (s.card k).state = .powering) (ht : (s.card k).readyTimer = 1) :
    exec (.readyTimeout k) s = .next (s.readReady k false) := congrArg Host.Outcome.next (if_pos ⟨hs, ht.le⟩)

end

/-- Without auto tune a slot that comes up brings its voices back and nothing more (R44, R89). -/
theorem State.poweredUp_of_no_tune {s : State} (h : s.settings.autoTune = false) (k : CardNo) : s.poweredUp k = s.slotUp k [] := by
  unfold State.poweredUp
  rw [h]
  rfl

theorem readyPowers {k : CardNo} {ready : BitVec 4} {s : State} (hs : (s.card k).state = .powering) (hd : (s.card k).debounce = 0)
    (hr : ready.getLsbD k.val = true) (ht : s.settings.autoTune = false) (hq : ∀ j, j ≠ k → (s.card j).quiet) :
    ends (.slotFrameExpiry ready) s fun t =>
      t = { s with
        cards := t.cards, voices := t.voices, stamp := t.stamp
        notices := { s.notices with card := t.notices.card } } ∧
      t.card k = { s.card k with state := .powered, readySeen := true } ∧ t.notices.card.getLsbD k.val = true ∧
      ((∀ v : Voice, v.val / 4 = k.val → (s.voice v).state = .absent) →
        t.stampedFrom s.stamp fun v => decide (v.val / 4 = k.val) && s.settings.autoOnline) ∧
      (∀ j, j ≠ k → t.card j = s.card j) ∧
      ∀ v : Voice,
        (v.val / 4 = k.val → (s.voice v).state = .absent → t.voice v =
          if s.settings.autoOnline then { s.voice v with state := .idle, idle := 0, lastFree := (t.voice v).lastFree }
          else { s.voice v with state := .offline }) ∧
        (v.val / 4 ≠ k.val → t.voice v = s.voice v) := by
  refine ⟨_, State.slotFrames_only hq, ?_⟩
  have hup := (s.postCard k).slotUp_onlyVoices k []
  have hvoice := fun v => State.voice_slotUp (s.postCard k) k [] (v := v)
  have hother := fun v => State.voice_slotUp_of_ne (s.postCard k) k [] (v := v)
  have hstamps := State.slotUp_stampedFrom (s.postCard k) k []
  have hbit := s.postCard_bit k
  rw [State.slotFrame_powers hs hd hr, State.poweredUp_of_no_tune (s := s.postCard k) ht]
  generalize (s.postCard k).slotUp k [] = u at hup hvoice hother hstamps ⊢
  have hnotices : u.notices = (s.postCard k).notices := (congrArg State.notices hup :)
  have hauto : ∀ v : Voice, (s.settings.autoOnline && !([] : List Voice).contains v) = s.settings.autoOnline := fun v =>
    Bool.and_true _
  refine ⟨?_, ?_, ?_, fun ha => ?_, fun j hj => ?_, fun v => ⟨fun hv ha => ?_, fun hv => hother v hv⟩⟩
  · rw [hup]
    rfl
  · exact (State.card_withCards_set s u k k _).trans (if_pos rfl)
  · exact (congrArg (fun n : Notices => n.card.getLsbD k.val) hnotices).trans hbit
  · have h := hstamps ha
    have hf : (fun v : Voice => decide (v.val / 4 = k.val) && ((s.postCard k).settings.autoOnline && !([] : List Voice).contains v))
        = fun v : Voice => decide (v.val / 4 = k.val) && s.settings.autoOnline := funext fun v => congrArg _ (hauto v)
    rw [hf] at h
    exact h
  · exact (State.card_withCards_set s u k j _).trans (if_neg (Ne.symm hj))
  · have h := hvoice v hv ha
    have hauto' : ((s.postCard k).settings.autoOnline && !([] : List Voice).contains v) = s.settings.autoOnline := hauto v
    rw [hauto'] at h
    exact h

theorem readyTimeouts (k : CardNo) (s : State) :
    ((s.card k).state ≠ .powering ∨ 2 ≤ (s.card k).readyTimer → exec (.readyTimeout k) s = .next s) ∧
    ((s.card k).state = .powering → (s.card k).readyTimer = 1 → ends (.readyTimeout k) s fun t =>
      t = { s with cards := t.cards, notices := { s.notices with card := t.notices.card } } ∧
      t.card k = { s.card k with
        state := .powerFault, power := false, readyTimer := 0, readySeen := false, cause := .readyTimeout } ∧
      (∀ j, j ≠ k → t.card j = s.card j) ∧ t.notices.card.getLsbD k.val = true) := by
  refine ⟨fun h => congrArg Host.Outcome.next (if_neg ?_), fun hs ht => ?_⟩
  · rintro ⟨h1, h2⟩
    rcases h with h | h
    · exact h h1
    · omega
  · refine ⟨_, State.readyTimeout_eq hs ht, ?_⟩
    rw [State.readReady_timeout hs ht]
    exact ⟨rfl, (State.card_withCards_set s _ k k _).trans (if_pos rfl),
      fun j hj => (State.card_withCards_set s _ k j _).trans (if_neg (Ne.symm hj)), s.postCard_bit k⟩

theorem readyLost {k : CardNo} {ready : BitVec 4} {s : State} (hs : (s.card k).state = .powered) (hd : (s.card k).debounce = 0)
    (hq : ∀ j, j ≠ k → (s.card j).quiet) (hr : ready.getLsbD k.val = false) :
    (ends (.slotFrameExpiry ready) s fun t =>
      t.card k = { s.card k with state := .powerFault, power := false, readySeen := false, cause := .readyLost } ∧
      (∀ j, j ≠ k → t.card j = s.card j) ∧ t.notices.card.getLsbD k.val = true ∧ t.tune.cal = s.tune.cal ∧
      ∀ v : Voice, v.val / 4 = k.val → (t.voice v).state = .absent ∧ (t.voice v).asg = none ∧
        (t.voice v).tunePending = false ∧ (t.voice v).offlinePending = false ∧ t.gate v = false) ∧
    ends (.slotFrameExpiry ready) s fun t =>
      let u := (s.setCard k { s.card k with power := false, readySeen := false, cause := .readyLost }).slotDown k
      t.voices = u.voices ∧ t.parts = u.parts ∧ t.stamp = u.stamp ∧ t.tune = u.tune ∧ t.refresh = u.refresh ∧
      t.notices = { u.notices with card := t.notices.card } := by
  have hexec := (State.slotFrames_only (ready := ready) hq).trans (congrArg Host.Outcome.next (State.slotFrame_lost hs hd hr))
  have hcal := (State.slotDown_keyWork s k).cal
  have hgone := fun v => State.voice_slotDown_of_lost s (k := k) (v := v)
  have hdown := s.slotDown_withCards (s.cards.set k { s.card k with power := false, readySeen := false, cause := .readyLost }) k
  refine ⟨⟨_, hexec, ?_⟩, ⟨_, hexec, ?_⟩⟩
  · generalize s.slotDown k = u at hcal hgone ⊢
    refine ⟨(State.card_withCards_set s _ k k _).trans (if_pos rfl),
      fun j hj => (State.card_withCards_set s _ k j _).trans (if_neg (Ne.symm hj)), u.postCard_bit k, hcal, fun v hv => ?_⟩
    have hvoice : (((u.postCard k).withCards (s.cards.set k { s.card k with
        readySeen := false, power := false, cause := .readyLost, state := .powerFault })).voice v) = (s.voice v).removed := hgone v hv
    rw [State.gate, hvoice]
    exact ⟨rfl, rfl, rfl, rfl, rfl⟩
  · rw [← State.withCards_set, hdown]
    exact ⟨rfl, rfl, rfl, rfl, rfl, rfl⟩

/-! ### A debounce beside a ready input -/

/-- A debounce that runs on beside a ready input counts down, and the reading is as without it (R84). -/
theorem State.slotFrame_beside {s : State} {k : CardNo} {ready : BitVec 4} (hs : (s.card k).state = .powering ∨ (s.card k).state = .powered)
    (hd : 2 ≤ (s.card k).debounce) :
    s.slotFrame ready k = ((s.setCard k { s.card k with debounce := 0 }).slotFrame ready k).setCard k
      { ((s.setCard k { s.card k with debounce := 0 }).slotFrame ready k).card k with debounce := (s.card k).debounce - 1 } := by
  have hcard : ∀ c, (s.setCard k c).card k = c := fun c => (State.card_setCard ..).trans (if_pos rfl)
  have hread : ∀ c level, (s.setCard k c).readReady k level = (s.readyWork k level c).withCards (s.cards.set k (c.ready level)) :=
    fun c level => by
      rw [State.readReady_eq, hcard, ← State.withCards_set, State.readyWork_withCards]
      exact congrArg (s.readyWork k level c).withCards (Vector.set_set _ k.isLt)
  have hzero : (s.setCard k { s.card k with debounce := 0 }).slotFrame ready k =
      (s.readyWork k (ready.getLsbD k.val) { s.card k with debounce := 0 }).withCards
        (s.cards.set k (({ s.card k with debounce := 0 } : Card).ready (ready.getLsbD k.val))) := by
    rw [State.slotFrame_eq, hcard, if_pos hs, State.debounceFrame_of_zero (by rw [hcard]), hread]
  have hself : s.slotFrame ready k = (s.readyWork k (ready.getLsbD k.val) (s.card k).counts).withCards
        (s.cards.set k ((s.card k).counts.ready (ready.getLsbD k.val))) := by
    rw [State.slotFrame_eq, if_pos hs, State.debounceFrame_eq, if_neg (by omega)]
    exact hread (s.card k).counts _
  have hready : ∀ (c : Card) (n : Nat) (level : Bool),
      ({ c with debounce := n } : Card).ready level = { ({ c with debounce := 0 } : Card).ready level with debounce := n } :=
    fun c n level => by
    obtain ⟨state, sl, sr, rl, rr, deb, rem, pow, rt, rs, cause⟩ := c
    cases state with
    | powering =>
      cases level with
      | true => rfl
      | false =>
        unfold Card.ready
        simp only
        split <;> rfl
    | powered => cases level <;> rfl
    | empty | half | seated | powerFault => rfl
  have hset : ∀ (t : State) (c d : Card), (t.withCards (s.cards.set k c)).setCard k d = t.withCards (s.cards.set k d) :=
    fun t c d => congrArg t.withCards (Vector.set_set c k.isLt)
  rw [hself, hzero, hset, State.card_withCards_set, if_pos rfl]
  exact congrArg (fun c => (s.readyWork k (ready.getLsbD k.val) (s.card k)).withCards (s.cards.set k c))
    (hready (s.card k) ((s.card k).debounce - 1) (ready.getLsbD k.val))

/-- Settles O44: each slot of an expiry by its own record, the debounce first, then the ready input. -/
theorem slotFramesDebounceAndReady : Obligations.SlotFramesDebounceAndReady := by
  refine ⟨fun ready s h => State.slotFrames_count h, fun k s h => congrArg Host.Outcome.next (if_neg h),
    fun k s hd hm => debounceMoves hd hm, fun k s hd hl hr he hh hp => ?_,
    fun k ready s hs hd hr ht hq => readyPowers hs hd hr ht hq, readyTimeouts, fun k ready s hs hd hq => ⟨fun hr => ?_, fun hr => ?_,
      fun hr => ?_⟩, fun k ready s hq => ⟨fun hd h1 h2 => ?_, fun hd hs hr => ⟨fun ht => ?_, fun ht => ?_⟩, fun hs hp => ⟨fun hd hl hr => ?_,
        fun hd => ?_⟩⟩, fun ready s => ?_⟩
  · rw [State.debounceTaken_eq hd, debounceStays hl hr he hh hp]
  · rw [State.slotFrames_only hq, State.slotFrame_seen hs hd hr]
  · exact (readyLost hs hd hq hr).1
  · exact (readyLost hs hd hq hr).2
  · rw [State.slotFrames_only hq, State.debounceTaken_eq hd, State.slotFrame_eq, if_neg (not_or.mpr ⟨h1, h2⟩), State.debounceFrame_eq,
      if_pos hd]
  · rw [State.slotFrames_only hq, State.slotFrame_eq, if_pos (.inl hs), State.debounceFrame_of_zero hd, hr,
      State.readReady_waits hs ht]
  · rw [State.slotFrames_only hq, State.slotFrame_eq, if_pos (.inl hs), State.debounceFrame_of_zero hd, hr,
      State.readyTimeout_eq hs ht]
  · have hcard : (s.setCard k { s.card k with settledLeft := true, settledRight := true, debounce := 0 }).card k = _ :=
      (State.card_setCard ..).trans (if_pos rfl)
    have hq' : ∀ j, j ≠ k →
        ((s.setCard k { s.card k with settledLeft := true, settledRight := true, debounce := 0 }).card j).quiet := fun j hj => by
      rw [State.card_setCard, if_neg (Ne.symm hj)]
      exact hq j hj
    have hne : (s.card k).state ≠ .empty ∧ (s.card k).state ≠ .half := by rcases hs with h | h <;> rw [h] <;> simp
    rw [State.slotFrames_only hq, State.slotFrames_only hq', State.slotFrame_eq, if_pos hs, State.slotFrame_eq, hcard, if_pos hs,
      State.debounceFrame_eq, if_pos hd, debounceStays hl hr hne.1 hne.2 hp, State.debounceFrame_of_zero (by rw [hcard])]
  · have hq' : ∀ j, j ≠ k → ((s.setCard k { s.card k with debounce := 0 }).card j).quiet := fun j hj => by
      rw [State.card_setCard, if_neg (Ne.symm hj)]
      exact hq j hj
    exact ⟨_, State.slotFrames_only hq, _, State.slotFrames_only hq', State.slotFrame_beside hs hd⟩
  · exact ⟨_, _, _, s.slotFrame_slotShare ready 0, State.slotFrame_slotShare ready _ 1, State.slotFrame_slotShare ready _ 2, _,
      s.slotFrames_eq ready, State.slotFrame_slotShare ready _ 3⟩

end Sys2Proof.Machine
end

