-- ==== Sys2Proof/Proofs/TuneOnInsert.lean ====
section
/-! PROOFS. Auto tune on insert: the claims of a slot's voices, and the pass that begins or that they join (R46, R89, R104, R108,
R110). -/

namespace Sys2Proof.Machine

/-! ### Claims of voices that are not in a check -/

theorem State.claimed_frame {vs : List Voice} (hvs : vs.Nodup) {s : State} (h : ∀ v ∈ vs, (s.voice v).state ≠ .retuning)
    (force insert : Bool) : s.claimed vs force insert = { s with voices := (s.claimed vs force insert).voices } := by
  induction vs generalizing s with
  | nil => rfl
  | cons v vs ih =>
    obtain ⟨hv, hvs⟩ := List.nodup_cons.mp hvs
    have hc : s.cleared v = s := State.cleared_of_ne (h v (by simp))
    have h1 := ih (s := (s.cleared v).setVoice v ((s.voice v).claimed force insert)) hvs fun w hw => by
      rw [State.voice_claimed_cons, if_neg fun e : v = w => hv (e ▸ hw)]
      exact h w (by simp [hw])
    rw [hc] at h1
    have he : s.claimed (v :: vs) force insert = (s.setVoice v ((s.voice v).claimed force insert)).claimed vs force insert := by
      change ((s.cleared v).setVoice v _).claimed vs force insert = _
      rw [hc]
    rw [he]
    exact h1

/-! ### A pass that takes these voices (R108, R110) -/

/-- The entry of a voice that auto tune on insert takes (R108). -/
def PassEntry.inserted : PassEntry := ⟨.waiting, .none, true, true, true, .fresh, .fresh, .fresh⟩

/-- A pass with no voice in service, in which only these voices wait, each with an entry over all three destinations, takes the
lowest-numbered of them into service (R110). -/
theorem State.settlePass_inserted {l : State} {named : Voice → Prop} (hr : l.passRunning = true) (hs : l.tune.service = none)
    (he : ∃ v, named v) (hn : ∀ v, named v → l.entry v = .inserted) (hw : ∀ v, ¬ named v → (l.entry v).state ≠ .waiting) :
    l.settlePass.tune.outcome = .running ∧
      (∃ x, l.settlePass.tune.service = some x ∧ x.dest = .a ∧ named x.voice ∧ (∀ v, named v → x.voice.val ≤ v.val) ∧
        l.settlePass.entry x.voice = { PassEntry.inserted with state := .inService, sumA := ⟨.inProgress, .none, 0⟩ } ∧
        (∀ v, named v → v ≠ x.voice → l.settlePass.entry v = .inserted) ∧
        x.work.trial = tableAt (l.cal x.voice .a).codes l.tune.plan.pitchLo 0 ∧
        l.destBegins l.settlePass x.voice .a (l.tune.unit = none)) ∧
      ∀ v, ¬ named v → l.settlePass.entry v = l.entry v := by
  have hwait : ∀ v, named v ↔ (l.entry v).state = .waiting := fun v =>
    ⟨fun h => by rw [hn v h]; rfl, fun h => by_contra fun h' => hw v h' h⟩
  obtain ⟨v, hv, hmin, e⟩ := State.settlePass_serves hr hs (he.imp fun v hv => (hwait v).mp hv)
  have hnv := (hwait v).mpr hv
  have hentry := hn v hnv
  have hdest : (l.entry v).firstDest = .a := by rw [hentry]; rfl
  obtain ⟨h1, h2, h3, h4, h5, -⟩ := State.beginService_spec (s := l) (v := v) (by rw [hentry]; exact .inl rfl)
  rw [hdest] at h1 h2 h3
  rw [hentry] at h3
  rw [e]
  refine ⟨h5.trans (l.passRunning_iff.mp hr), ⟨_, h1, rfl, hnv, fun w hw => hmin w ((hwait w).mp hw), h3, fun w hw hne => ?_, rfl, h2⟩,
    fun w hw => h4 w fun e => hw (e ▸ hnv)⟩
  rw [h4 w hne]
  exact hn w hw

/-- The answers of a claim that takes all its voices. -/
def takenAll (vs : List Voice) : List ClaimAnswer := vs.map fun v => ⟨v, .taken⟩

/-- Claims of OFFLINE voices for auto tune on insert take them all (R46, R108). -/
theorem State.autoTune_of_offline {vs : List Voice} (hvs : vs.Nodup) {u : State} (h : ∀ v ∈ vs, (u.voice v).state = .offline) :
    u.autoTune vs = if vs = [] then u.claimed vs false true
      else if u.passRunning then ((u.claimed vs false true).setEntries (takenAll vs) ⟨true, true, true⟩).settlePass
      else (((u.claimed vs false true).passCleared false).setEntries (takenAll vs) ⟨true, true, true⟩).settlePass := by
  have hanswers : (vs.map fun v => (⟨v, (u.voice v).claimAnswer false true⟩ : ClaimAnswer)) = takenAll vs :=
    List.map_congr_left fun v hv => by
      have e : (u.voice v).claimAnswer false true = .taken := by
        unfold VoiceRec.claimAnswer
        rw [h v hv]
        rfl
      rw [e]
  have hgranted : (takenAll vs).filter (fun x => x.answer.granted) = takenAll vs :=
    List.filter_eq_self.mpr fun x hx => by
      obtain ⟨v, -, rfl⟩ := List.mem_map.mp hx
      rfl
  rw [State.autoTune_eq, State.claimAll_eq hvs]
  simp only [hanswers, hgranted]
  cases vs with
  | nil => rfl
  | cons v vs => rfl

theorem State.setEntries_passWork (s : State) (l : List ClaimAnswer) (ds : DestSet) : s.PassWork (s.setEntries l ds) := by
  induction l generalizing s with
  | nil => exact .refl s
  | cons x l ih => exact (s.setEntry_passWork _ _).trans (ih _)

/-- The entries filled and the next voice chosen: what stays (R107, R110). -/
theorem State.setEntries_settlePass (s : State) (l : List ClaimAnswer) (ds : DestSet) :
    s.PassWork (s.setEntries l ds).settlePass ∧ (s.setEntries l ds).settlePass.tune.check = s.tune.check := by
  refine ⟨(s.setEntries_passWork l ds).trans (State.settlePass_passWork _), ?_⟩
  rw [State.settlePass_check, State.setEntries_frame]

/-- Auto tune on insert moves nothing but its voices' records and the tune controller (R46, R108). -/
theorem State.autoTune_frame {vs : List Voice} (hvs : vs.Nodup) {u : State} (h : ∀ v ∈ vs, (u.voice v).state = .offline) :
    let t := u.autoTune vs
    (∀ v, t.voice v = if v ∈ vs then { u.voice v with state := .calibrating } else u.voice v) ∧ t.stamp = u.stamp ∧ t.parts = u.parts
      ∧ t.tune.cal = u.tune.cal ∧ t.tune.check = u.tune.check ∧ t.notices.card = u.notices.card := by
  intro t
  have hframe := State.claimed_frame hvs (s := u) (fun v hv => by rw [h v hv]; simp) false true
  have hvoice : ∀ v, (u.claimed vs false true).voice v = if v ∈ vs then { u.voice v with state := .calibrating } else u.voice v := by
    intro v
    rw [State.voice_claimed hvs]
    split
    · unfold VoiceRec.claimed
      rw [h v ‹_›]
      rfl
    · rfl
  have hwork : (∀ v, t.voice v = (u.claimed vs false true).voice v) ∧ t.stamp = (u.claimed vs false true).stamp
      ∧ t.parts = (u.claimed vs false true).parts ∧ t.tune.cal = (u.claimed vs false true).tune.cal
      ∧ t.tune.check = (u.claimed vs false true).tune.check ∧ t.notices.card = (u.claimed vs false true).notices.card := by
    have ht := State.autoTune_of_offline hvs h
    have hpass : ∀ x : State, ((x.setEntries (takenAll vs) ⟨true, true, true⟩).settlePass).notices.card = x.notices.card := fun x =>
      (congrArg Notices.card (State.setEntries_settlePass x (takenAll vs) ⟨true, true, true⟩).1.notices :)
    change (∀ v, (u.autoTune vs).voice v = _) ∧ (u.autoTune vs).stamp = _ ∧ (u.autoTune vs).parts = _ ∧ (u.autoTune vs).tune.cal = _
      ∧ (u.autoTune vs).tune.check = _ ∧ (u.autoTune vs).notices.card = _
    rw [ht]
    split
    · exact ⟨fun _ => rfl, rfl, rfl, rfl, rfl, rfl⟩
    · split
      · obtain ⟨hw, hc⟩ := State.setEntries_settlePass (u.claimed vs false true) (takenAll vs) ⟨true, true, true⟩
        exact ⟨hw.voice, hw.stamp, hw.parts, hw.cal, hc, hpass _⟩
      · obtain ⟨hw, hc⟩ := State.setEntries_settlePass ((u.claimed vs false true).passCleared false) (takenAll vs) ⟨true, true, true⟩
        exact ⟨hw.voice, hw.stamp, hw.parts, hw.cal, hc, hpass _⟩
  obtain ⟨h1, h2, h3, h4, h5, h6⟩ := hwork
  rw [hframe] at h2 h3 h4 h5 h6
  exact ⟨fun v => (h1 v).trans (hvoice v), h2, h3, h4, h5, h6⟩

theorem State.entry_takenAll {vs : List Voice} (hvs : vs.Nodup) (s : State) (v : Voice) :
    (s.setEntries (takenAll vs) ⟨true, true, true⟩).entry v = if v ∈ vs then .inserted else s.entry v :=
  State.entry_setEntries hvs s (fun _ => .taken) ⟨true, true, true⟩ v

/-- The voices that auto tune on insert takes into a pass with none in service and none waiting (R108, R110). -/
theorem State.takenAll_serves {vs : List Voice} (hvs : vs.Nodup) (hne : vs ≠ []) {x : State} (hr : x.passRunning = true)
    (hs : x.tune.service = none) (hw : ∀ v, v ∉ vs → (x.entry v).state ≠ .waiting) :
    let t := (x.setEntries (takenAll vs) ⟨true, true, true⟩).settlePass
    t.tune.outcome = .running ∧
      (∃ y, t.tune.service = some y ∧ y.dest = .a ∧ y.voice ∈ vs ∧ (∀ v, v ∈ vs → y.voice.val ≤ v.val) ∧
        t.entry y.voice = { PassEntry.inserted with state := .inService, sumA := ⟨.inProgress, .none, 0⟩ } ∧
        (∀ v, v ∈ vs → v ≠ y.voice → t.entry v = .inserted) ∧
        y.work.trial = tableAt (x.cal y.voice .a).codes x.tune.plan.pitchLo 0 ∧
        x.destBegins t y.voice .a (x.tune.unit = none)) ∧
      ∀ v, v ∉ vs → t.entry v = x.entry v := by
  intro t
  have hentry := State.entry_takenAll hvs x
  have hframe := State.setEntries_frame x (takenAll vs) ⟨true, true, true⟩
  obtain ⟨h1, ⟨y, k1, k2, k3, k4, k5, k6, k7, k8⟩, h3⟩ := State.settlePass_inserted (l := x.setEntries (takenAll vs) ⟨true, true, true⟩)
    (named := fun v => v ∈ vs) (by rw [State.passRunning, hframe]; exact hr) (by rw [hframe]; exact hs)
    (List.exists_mem_of_ne_nil _ hne) (fun v hv => (hentry v).trans (if_pos hv))
    (fun v hv => by rw [hentry, if_neg hv]; exact hw v hv)
  refine ⟨h1, ⟨y, k1, k2, k3, k4, k5, k6, ?_, ?_⟩, fun v hv => (h3 v hv).trans ((hentry v).trans (if_neg hv))⟩
  · rw [k7, hframe]
    rfl
  · exact k8.of_eq (by rw [hframe]) (by rw [hframe]) (by rw [hframe]) (by rw [hframe]) fun _ => by rw [hframe]

/-! ### The obligation -/

/-- The voices that auto tune on insert names (R89, R108). -/
def State.tuneVoices (s : State) (k : CardNo) : List Voice := (voicesOf k).filter s.needsTuning

theorem State.mem_tuneVoices {s : State} {k : CardNo} {v : Voice} :
    v ∈ s.tuneVoices k ↔ v.val / 4 = k.val ∧ s.needsTuning v = true := by
  rw [State.tuneVoices, List.mem_filter, mem_voicesOf]

theorem State.nodup_tuneVoices (s : State) (k : CardNo) : (s.tuneVoices k).Nodup := (nodup_voicesOf k).filter _

theorem State.contains_tuneVoices (s : State) {k : CardNo} {v : Voice} (hv : v.val / 4 = k.val) :
    (s.tuneVoices k).contains v = s.needsTuning v := by
  rw [Bool.eq_iff_iff, List.contains_iff_mem, State.mem_tuneVoices, and_iff_right hv]

/-- The slot's voices come up before the claims of auto tune on insert (R44, R89). -/
def State.upForTune (s : State) (k : CardNo) : State := (s.postCard k).slotUp k (s.tuneVoices k)

section
variable {s : State} {k : CardNo}

theorem State.poweredUp_of_tune (h : s.settings.autoTune = true) :
    (s.postCard k).poweredUp k = (s.upForTune k).autoTune (s.tuneVoices k) := by
  have h : (s.postCard k).settings.autoTune = true := h
  unfold State.poweredUp
  rw [h]
  rfl

theorem State.upForTune_onlyVoices (s : State) (k : CardNo) : (s.postCard k).OnlyVoices (s.upForTune k) :=
  State.slotUp_onlyVoices ..

theorem State.upForTune_tune (s : State) (k : CardNo) :
    (s.upForTune k).tune = s.tune ∧ (s.upForTune k).parts = s.parts ∧ (s.upForTune k).settings = s.settings
      ∧ (s.upForTune k).notices = (s.postCard k).notices := by
  have h := s.upForTune_onlyVoices k
  exact ⟨(congrArg State.tune h :), (congrArg State.parts h :), (congrArg State.settings h :), (congrArg State.notices h :)⟩

theorem State.voice_upForTune {v : Voice} (hv : v.val / 4 = k.val) (ha : (s.voice v).state = .absent) :
    (s.upForTune k).voice v = if s.settings.autoOnline && !s.needsTuning v then
        { s.voice v with state := .idle, idle := 0, lastFree := ((s.upForTune k).voice v).lastFree }
      else { s.voice v with state := .offline } := by
  have h := State.voice_slotUp (s.postCard k) k (s.tuneVoices k) hv ha
  rw [State.contains_tuneVoices s hv] at h
  exact h

theorem State.upForTune_offline (ha : ∀ v : Voice, v.val / 4 = k.val → (s.voice v).state = .absent) :
    ∀ v ∈ s.tuneVoices k, (s.upForTune k).voice v = { s.voice v with state := .offline } := fun v hv => by
  obtain ⟨hk, hn⟩ := State.mem_tuneVoices.mp hv
  rw [State.voice_upForTune hk (ha v hk), hn, if_neg (by simp)]

/-- The voices of a slot that comes up with auto tune on insert: CALIBRATING, IDLE or OFFLINE (R22, R44, R46, R89). -/
theorem tunedVoices (ht : s.settings.autoTune = true) (ha : ∀ v : Voice, v.val / 4 = k.val → (s.voice v).state = .absent) :
    let t := (s.postCard k).poweredUp k
    let freed (v : Voice) : Bool := decide (v.val / 4 = k.val) && !s.needsTuning v && s.settings.autoOnline
    (t.parts = s.parts ∧ t.tune.cal = s.tune.cal ∧ t.tune.check = s.tune.check ∧ t.notices.card = (s.postCard k).notices.card) ∧
    (t.stampedFrom s.stamp freed ∧
      ∀ v, freed v = true → t.voice v = { s.voice v with state := .idle, idle := 0, lastFree := (t.voice v).lastFree }) ∧
    ∀ v, (v ∈ s.tuneVoices k → t.voice v = { s.voice v with state := .calibrating }) ∧
      (v.val / 4 = k.val → s.needsTuning v = false → s.settings.autoOnline = false →
        t.voice v = { s.voice v with state := .offline }) ∧
      (v.val / 4 ≠ k.val → t.voice v = s.voice v) := by
  intro t freed
  have hoffline := State.upForTune_offline ha
  obtain ⟨h1, h2, h3, h4, h5, h6⟩ := State.autoTune_frame (s.nodup_tuneVoices k) (u := s.upForTune k)
    fun v hv => by rw [hoffline v hv]
  have e : t = (s.upForTune k).autoTune (s.tuneVoices k) := State.poweredUp_of_tune ht
  rw [← e] at h1 h2 h3 h4 h5 h6
  obtain ⟨k1, k2, -, k4⟩ := s.upForTune_tune k
  rw [k1] at h4 h5
  have hvoice : ∀ v, ¬ s.needsTuning v = true → t.voice v = (s.upForTune k).voice v := fun v hn =>
    (h1 v).trans (if_neg fun hm => hn (State.mem_tuneVoices.mp hm).2)
  have hfreed : ∀ v, freed v = true → v.val / 4 = k.val ∧ s.needsTuning v = false ∧ s.settings.autoOnline = true := fun v hv => by
    simpa [freed, and_assoc] using hv
  have hstamps : (s.upForTune k).stampedFrom s.stamp freed := by
    have h := State.slotUp_stampedFrom (s.postCard k) k (s.tuneVoices k) ha
    have hf : (fun v : Voice => decide (v.val / 4 = k.val) && ((s.postCard k).settings.autoOnline && !(s.tuneVoices k).contains v))
        = freed := funext fun v => by
      by_cases hv : v.val / 4 = k.val
      · rw [State.contains_tuneVoices s hv]
        change (decide _ && (s.settings.autoOnline && !s.needsTuning v)) = (decide _ && !s.needsTuning v && s.settings.autoOnline)
        rw [Bool.and_assoc, Bool.and_comm s.settings.autoOnline]
      · simp [freed, hv]
    rw [hf] at h
    exact h
  refine ⟨⟨h3.trans k2, h4, h5, h6.trans (congrArg Notices.card k4)⟩, ⟨⟨h2.trans hstamps.1, fun v hv => ?_⟩, fun v hv => ?_⟩, fun v =>
    ⟨fun hv => ?_, fun hv hn hon => ?_, fun hv => ?_⟩⟩
  · obtain ⟨-, hn, -⟩ := hfreed v hv
    rw [hvoice v (by simp [hn])]
    exact hstamps.2 v hv
  · obtain ⟨hk, hn, hon⟩ := hfreed v hv
    have h := State.voice_upForTune hk (ha v hk)
    rw [hn, hon, Bool.not_false, Bool.and_true, if_pos rfl, ← hvoice v (by simp [hn])] at h
    exact h
  · rw [h1, if_pos hv, hoffline v hv]
  · rw [hvoice v (by simp [hn]), State.voice_upForTune hv (ha v hv), hon, if_neg (by simp)]
  · rw [h1, if_neg fun hm => hv (State.mem_tuneVoices.mp hm).1]
    exact State.voice_slotUp_of_ne _ _ _ hv

end

/-- The voice in service as O45 writes it, of any set of voices taken. -/
def State.servesFirst (s t : State) (named : Voice → Prop) (x : InService) : Prop :=
  t.tune.service = some x ∧ x.dest = .a ∧ named x.voice ∧ (∀ v, named v → x.voice.val ≤ v.val) ∧
    t.entry x.voice = { PassEntry.inserted with state := .inService, sumA := ⟨.inProgress, .none, 0⟩ } ∧
    (∀ v, named v → v ≠ x.voice → t.entry v = .inserted) ∧ x.work.trial = tableAt (s.cal x.voice .a).codes s.tune.plan.pitchLo 0 ∧
    s.destBegins t x.voice .a (s.tune.unit = none)

/-- The pass of auto tune on insert: it begins, or its voices join with or without a voice in service (R104, R108, R110). -/
theorem tunedPass {s : State} {k : CardNo} {named : Voice → Prop} (hnamed : named = fun v => v ∈ s.tuneVoices k)
    (ht : s.settings.autoTune = true) (ha : ∀ v : Voice, v.val / 4 = k.val → (s.voice v).state = .absent) :
    let t := (s.postCard k).poweredUp k
    ((∀ v, ¬ named v) → t.tune = s.tune) ∧
    ((∃ v, named v) → s.passRunning = false → t.tune.outcome = .running ∧ t.tune.force = false ∧
      (∃ x, s.servesFirst t named x) ∧ ∀ v, ¬ named v → t.entry v = .reset) ∧
    ((∃ v, named v) → s.passRunning = true → s.tune.service = none → (∀ v, ¬ named v → (s.entry v).state ≠ .waiting) →
      t.tune.outcome = .running ∧ t.tune.force = s.tune.force ∧ (∃ x, s.servesFirst t named x) ∧
      ∀ v, ¬ named v → t.entry v = s.entry v) ∧
    (∀ x, (∃ v, named v) → s.passRunning = true → s.tune.service = some x →
      t.tune = { s.tune with entries := t.tune.entries } ∧ (∀ v, named v → t.entry v = .inserted) ∧
      ∀ v, ¬ named v → t.entry v = s.entry v) := by
  subst hnamed
  intro t
  have hvs := s.nodup_tuneVoices k
  have hoffline := State.upForTune_offline ha
  have e : t = (s.upForTune k).autoTune (s.tuneVoices k) := State.poweredUp_of_tune ht
  rw [State.autoTune_of_offline hvs fun v hv => by rw [hoffline v hv]] at e
  obtain ⟨k1, -, k3, -⟩ := s.upForTune_tune k
  have hclaimed := State.claimed_frame hvs (s := s.upForTune k) (fun v hv => by rw [hoffline v hv]; simp) false true
  have htune : ((s.upForTune k).claimed (s.tuneVoices k) false true).tune = s.tune := by rw [hclaimed]; exact k1
  have hset : ((s.upForTune k).claimed (s.tuneVoices k) false true).settings = s.settings := by rw [hclaimed]; exact k3
  have hrun : (s.upForTune k).passRunning = s.passRunning := by rw [State.passRunning, k1]; rfl
  have hne : (∃ v, v ∈ s.tuneVoices k) → s.tuneVoices k ≠ [] := fun ⟨v, hv⟩ => List.ne_nil_of_mem hv
  generalize (s.upForTune k).claimed (s.tuneVoices k) false true = c at e htune hset
  have hentry : ∀ v, c.entry v = s.entry v := fun v => by rw [State.entry, htune]; rfl
  have hcal : ∀ v d, c.cal v d = s.cal v d := fun v d => by rw [State.cal, State.calRecord, htune]; rfl
  have hwork : ∀ x : State, x.PassWork (x.setEntries (takenAll (s.tuneVoices k)) ⟨true, true, true⟩).settlePass := fun x =>
    (State.setEntries_settlePass x _ _).1
  refine ⟨fun hn => ?_, fun he hr => ?_, fun he hr hs hw => ?_, fun x he hr hs => ?_⟩
  · rw [e, if_pos (List.eq_nil_iff_forall_not_mem.mpr hn), htune]
  · rw [if_neg (hne he), hrun, hr, if_neg (by simp)] at e
    have hreset : ∀ v, (c.passCleared false).entry v = .reset := State.entry_passCleared c false
    obtain ⟨h1, ⟨y, y1, y2, y3, y4, y5, y6, y7, y8⟩, h3⟩ := State.takenAll_serves hvs (hne he) (x := c.passCleared false) rfl rfl
      fun v _ => by rw [hreset]; simp [PassEntry.reset]
    rw [e]
    have hcleared : (c.passCleared false).tune.unit = s.tune.unit := (congrArg Tune.unit htune :)
    refine ⟨h1, (hwork _).force, ⟨y, y1, y2, y3, y4, y5, y6, ?_, ?_⟩, fun v hv => (h3 v hv).trans (hreset v)⟩
    · have hplan : (c.passCleared false).tune.plan = s.tune.plan := (congrArg Tune.plan htune :)
      rw [hplan] at y7
      exact y7.trans (by rw [← hcal]; rfl)
    · exact y8.of_eq (congrArg Tune.plan htune :) (congrArg Tune.cal htune :) hset (by rw [hcleared]) fun _ => hcleared
  · rw [if_neg (hne he), hrun, hr, if_pos rfl] at e
    obtain ⟨h1, ⟨y, y1, y2, y3, y4, y5, y6, y7, y8⟩, h3⟩ := State.takenAll_serves hvs (hne he) (x := c)
      (by rw [State.passRunning, htune]; exact hr) (by rw [htune]; exact hs) fun v hv => by rw [hentry]; exact hw v hv
    rw [e]
    refine ⟨h1, (hwork c).force.trans (congrArg Tune.force htune), ⟨y, y1, y2, y3, y4, y5, y6, ?_, ?_⟩,
      fun v hv => (h3 v hv).trans (hentry v)⟩
    · rw [y7, hcal, htune]
    · exact y8.of_eq (congrArg Tune.plan htune) (congrArg Tune.cal htune) hset (by rw [htune]) fun _ => by rw [htune]
  · rw [if_neg (hne he), hrun, hr, if_pos rfl] at e
    have hframe := State.setEntries_frame c (takenAll (s.tuneVoices k)) ⟨true, true, true⟩
    have hbusy : (c.setEntries (takenAll (s.tuneVoices k)) ⟨true, true, true⟩).tune.service.isSome = true := by
      rw [hframe]
      change c.tune.service.isSome = true
      rw [htune, hs]
      rfl
    rw [State.settlePass_of_busy (.inr hbusy)] at e
    have htt := congrArg State.tune hframe
    rw [← e] at htt
    refine ⟨htt.trans (by rw [htune]), fun v hv => ?_, fun v hv => ?_⟩
    · rw [e, State.entry_takenAll hvs, if_pos hv]
    · rw [e, State.entry_takenAll hvs, if_neg hv, hentry]

/-- Settles O45: the slot comes up, its stale voices are claimed one and all, and the pass takes them. -/
theorem poweredSlotTunesItsVoices : Obligations.PoweredSlotTunesItsVoices := by
  intro k ready s hs hd hr ht hq ha stale named entered serves
  have hnamed : ∀ v, v ∈ s.tuneVoices k ↔ named v := fun v => State.mem_tuneVoices
  have hn : named = fun v => v ∈ s.tuneVoices k := funext fun v => propext (hnamed v).symm
  obtain ⟨⟨f1, f2, f3, f4⟩, f5, f6⟩ := tunedVoices (k := k) ht ha
  obtain ⟨p1, p2, p3, p4⟩ := tunedPass hn ht ha
  have hbit := s.postCard_bit k
  refine ⟨_, State.slotFrames_only hq, ?_⟩
  rw [State.slotFrame_powers hs hd hr]
  generalize (s.postCard k).poweredUp k = t at f1 f2 f3 f4 f5 f6 p1 p2 p3 p4 ⊢
  refine ⟨(State.card_withCards_set s t k k _).trans (if_pos rfl),
    fun j hj => (State.card_withCards_set s t k j _).trans (if_neg (Ne.symm hj)), ?_, f1, f2, f3, f5,
    fun v => ⟨fun hv => (f6 v).1 ((hnamed v).mpr hv), (f6 v).2⟩, p1, p2, p3, p4⟩
  exact (congrArg (fun n : BitVec 4 => n.getLsbD k.val) f4).trans hbit

end Sys2Proof.Machine
end

