-- ==== Sys2Proof/Proofs/ClaimFrames.lean ====
section
/-! PROOFS. The claims of a TUNE and the keys that they take by force: the check given up, the unit, and the voices (R43, R46, R47,
R104, R107, R133). -/

namespace Sys2Proof.Machine

/-! ### What a claim touches (R46, R47, R133) -/

theorem State.cleared_frame (s : State) (v : Voice) :
    s.cleared v = { s with tune := (s.cleared v).tune, refresh := (s.cleared v).refresh } := by
  have hdrop : s.dropCheck v = { s with tune := (s.dropCheck v).tune, refresh := (s.dropCheck v).refresh } := by
    unfold State.dropCheck
    split
    · rfl
    · split <;> rfl
  have harb : ∀ t : State, t.arbitrate = { t with tune := t.arbitrate.tune, refresh := t.arbitrate.refresh } := fun t => by
    unfold State.arbitrate
    split <;> rfl
  unfold State.cleared State.abandonCheck
  split
  · have h := harb (s.dropCheck v)
    generalize (s.dropCheck v).arbitrate = u at h ⊢
    rw [hdrop] at h
    exact h
  · rfl

/-- The check in hand after a voice is cleared for an assignment or a claim (R25, R46, R133). -/
theorem State.cleared_check (s : State) (v : Voice) :
    (s.cleared v).tune.check = s.tune.check.filter fun c => !(c.voice == v && (s.voice v).state == .retuning) := by
  unfold State.cleared
  by_cases h : (s.voice v).state = .retuning
  · rw [if_pos h, h]
    unfold State.abandonCheck
    rw [State.arbitrate_check, State.dropCheck_tune]
    simp
  · rw [if_neg h]
    cases s.tune.check with
    | none => rfl
    | some c => simp [Option.filter, h]

/-- The check in hand after claims (R46, R133). -/
theorem State.claimed_check {vs : List Voice} (hvs : vs.Nodup) (s : State) (force insert : Bool) :
    (s.claimed vs force insert).tune.check =
      s.tune.check.filter fun c => !(decide (c.voice ∈ vs) && (s.voice c.voice).state == .retuning) := by
  induction vs generalizing s with
  | nil =>
    show s.tune.check = _
    cases s.tune.check with
    | none => rfl
    | some c => simp [Option.filter]
  | cons v vs ih =>
    obtain ⟨hv, hvs⟩ := List.nodup_cons.mp hvs
    refine (ih hvs _).trans ?_
    have hcheck : ((s.cleared v).setVoice v ((s.voice v).claimed force insert)).tune.check = (s.cleared v).tune.check := rfl
    rw [hcheck, State.cleared_check]
    cases hc : s.tune.check with
    | none => rfl
    | some c =>
      by_cases e : c.voice = v
      · by_cases hr : (s.voice v).state = .retuning
        · simp [Option.filter, e, hr]
        · simp [Option.filter, e, hr, hv]
      · have hvoice := State.voice_claimed_cons s v c.voice force insert
        rw [if_neg (Ne.symm e)] at hvoice
        simp [Option.filter, e, hvoice]

/-- Claims move voices, the tune controller and the overrides alone. -/
theorem State.claimed_moves (vs : List Voice) (s : State) (force insert : Bool) :
    s.claimed vs force insert = { s with
      voices := (s.claimed vs force insert).voices, tune := (s.claimed vs force insert).tune
      refresh := (s.claimed vs force insert).refresh } := by
  induction vs generalizing s with
  | nil => rfl
  | cons v vs ih =>
    have h := ih ((s.cleared v).setVoice v ((s.voice v).claimed force insert))
    have he : s.claimed (v :: vs) force insert = ((s.cleared v).setVoice v ((s.voice v).claimed force insert)).claimed vs force insert := rfl
    rw [he]
    generalize ((s.cleared v).setVoice v ((s.voice v).claimed force insert)).claimed vs force insert = u at h ⊢
    have hc := s.cleared_frame v
    generalize s.cleared v = w at h hc
    rw [hc] at h
    exact h

theorem State.claimed_unitWork (vs : List Voice) (s : State) (force insert : Bool) : s.UnitWork (s.claimed vs force insert) := by
  induction vs generalizing s with
  | nil => exact .refl s
  | cons v vs ih =>
    have h : s.UnitWork ((s.cleared v).setVoice v ((s.voice v).claimed force insert)) := (s.cleared_unitWork v).trans ⟨rfl, rfl⟩
    exact h.trans (ih _)

theorem State.claimed_keyWork (vs : List Voice) (s : State) (force insert : Bool) : s.KeyWork (s.claimed vs force insert) := by
  induction vs generalizing s with
  | nil => exact .refl s
  | cons v vs ih =>
    have h : s.KeyWork ((s.cleared v).setVoice v ((s.voice v).claimed force insert)) :=
      ((s.cleared_passWork v).voiceWork.trans (State.modVoice_voiceWork _ v fun _ => (s.voice v).claimed force insert)).keyWork
    exact h.trans (ih _)

/-! ### The unit where no request waits (R103, R133) -/

/-- From `s`, where no request waits, to `t`: the check is still in hand and the unit as it was, or the check is given up and the unit
is free (R103, R133). -/
def State.CheckGone (s t : State) : Prop :=
  t.tune.requestWaiting = false ∧ (t.tune.check = s.tune.check ∧ t.tune.unit = s.tune.unit
    ∨ (∃ c, s.tune.check = some c) ∧ t.tune.check = none ∧ t.tune.unit = none)

theorem State.CheckGone.refl {s : State} (h : s.tune.requestWaiting = false) : s.CheckGone s := ⟨h, .inl ⟨rfl, rfl⟩⟩

theorem State.CheckGone.trans {s t u : State} (h : s.CheckGone t) (k : t.CheckGone u) : s.CheckGone u := by
  obtain ⟨-, h⟩ := h
  obtain ⟨hr, k⟩ := k
  refine ⟨hr, ?_⟩
  rcases h with ⟨h1, h2⟩ | ⟨h1, h2, h3⟩
  · rw [h1, h2] at k
    exact k
  · rcases k with ⟨k1, k2⟩ | ⟨⟨c, hc⟩, -⟩
    · exact .inr ⟨h1, k1.trans h2, k2.trans h3⟩
    · rw [h2] at hc
      cases hc

theorem State.cleared_checkGone {s : State} (h : s.tune.requestWaiting = false) (v : Voice) : s.CheckGone (s.cleared v) := by
  unfold State.cleared
  split
  · have hdrop := State.dropCheck_tune s v
    have hr : (s.dropCheck v).tune.requestWaiting = false := by rw [hdrop]; exact h
    unfold State.abandonCheck
    rw [State.arbitrate_idle (.inl hr)]
    refine ⟨hr, ?_⟩
    cases hany : s.tune.check.any fun c => c.voice == v with
    | true =>
      obtain ⟨c, hc, -⟩ := any_voice_iff.mp hany
      refine .inr ⟨⟨c, hc⟩, ?_, ?_⟩
      · rw [hdrop]
        exact filter_not_of_any hany
      · rw [hdrop, hany]
        rfl
    | false =>
      refine .inl ⟨?_, ?_⟩
      · rw [hdrop]
        exact filter_not_of_not_any hany
      · rw [hdrop, hany]
        rfl
  · exact .refl h

theorem State.claimed_checkGone (vs : List Voice) {s : State} (h : s.tune.requestWaiting = false) (force insert : Bool) :
    s.CheckGone (s.claimed vs force insert) := by
  induction vs generalizing s with
  | nil => exact .refl h
  | cons v vs ih =>
    have h1 : s.CheckGone ((s.cleared v).setVoice v ((s.voice v).claimed force insert)) := State.cleared_checkGone h v
    exact h1.trans (ih h1.1)

theorem State.reHome_checkGone (l : List Assignment) {s : State} (h : s.tune.requestWaiting = false) : s.CheckGone (s.reHome l) :=
  State.reHome_keeps (P := fun t => s.CheckGone t) (fun t v p k j _ ht => by
    refine ht.trans ?_
    have h1 := State.cleared_checkGone ht.1 v
    unfold State.CheckGone at *
    rw [State.assign_tune]
    exact h1) l (.refl h)

/-! ### The offers look at no more of the tune controller than the check -/

/-- `t` is `s` but for the tune controller and the overrides, with the same check in hand. -/
def State.Alike (s t : State) : Prop := ∃ a b, t = { s with tune := a, refresh := b } ∧ a.check = s.tune.check

theorem State.Alike.assign {s t : State} (h : s.Alike t) (v : Voice) (p : PartNo) (k : HeldKey) (j : Nat) (g : GlideStart) :
    (s.assign v p k j g).Alike (t.assign v p k j g) := by
  obtain ⟨a, b, rfl, ha⟩ := h
  refine ⟨(State.assign { s with tune := a, refresh := b } v p k j g).tune,
    (State.assign { s with tune := a, refresh := b } v p k j g).refresh, ?_, ?_⟩
  · have h1 := s.cleared_frame v
    have h2 := State.cleared_frame { s with tune := a, refresh := b } v
    rw [State.assign_eq, State.assign_eq]
    generalize s.cleared v = c at h1 ⊢
    generalize State.cleared { s with tune := a, refresh := b } v = d at h2 ⊢
    rw [h1, h2]
    rfl
  · rw [State.assign_tune, State.assign_tune, State.cleared_check, State.cleared_check]
    exact congrArg (Option.filter _) ha

theorem State.Alike.reHomeOne {s t : State} (h : s.Alike t) (a : Assignment) : (s.reHomeOne a).Alike (t.reHomeOne a) := by
  have hoffer : ∀ k j n, ((s.freeStep a.part k j .none n).getD s).Alike ((t.freeStep a.part k j .none n).getD t) := fun k j n => by
    have hstep : t.freeStep a.part k j .none n =
        if s.count a.part < n then (s.freeChoice k.note).map fun v => t.assign v a.part k j .none else none := by
      obtain ⟨x, y, rfl, -⟩ := h
      rfl
    rw [hstep, State.freeStep]
    split
    · cases s.freeChoice k.note with
      | none => exact h
      | some v => exact h.assign v a.part k j .none
    · exact h
  have hpart : t.part a.part = s.part a.part := by obtain ⟨x, y, rfl, -⟩ := h; rfl
  have hchosen : ∀ k, t.isChosen a.part k = s.isChosen a.part k := by obtain ⟨x, y, rfl, -⟩ := h; exact fun _ => rfl
  have hlimit : t.limit a.part = s.limit a.part := by obtain ⟨x, y, rfl, -⟩ := h; rfl
  cases hf : (s.part a.part).held.find? fun k => a.carries a.part k with
  | none =>
    have e : ∀ u : State, (u.part a.part).held.find? (fun k => a.carries a.part k) = none → u.reHomeOne a = u := fun u hu => by
      unfold State.reHomeOne
      rw [hu]
    rw [e s hf, e t (by rw [hpart]; exact hf)]
    exact h
  | some k =>
    rw [State.reHomeOne_of_held hf, State.reHomeOne_of_held (s := t) (by rw [hpart]; exact hf), hpart, hchosen, hlimit]
    cases (s.part a.part).live.voiceMode with
    | poly => exact hoffer k 0 _
    | mono =>
      simp only
      split
      · exact hoffer k 0 1
      · exact h
    | unison =>
      simp only
      split
      · exact hoffer k a.unison _
      · exact h

theorem State.Alike.reHome {s t : State} (l : List Assignment) (h : s.Alike t) : (s.reHome l).Alike (t.reHome l) := by
  induction l generalizing s t with
  | nil => exact h
  | cons a l ih => exact ih (h.reHomeOne a)

end Sys2Proof.Machine
end

