-- ==== Sys2Proof/Proofs/TuneAnswers.lean ====
section
/-! PROOFS. A TUNE's answers to its voices, its answer to the host, and the pass it begins (R46, R107, R110, R124, R195). -/

namespace Sys2Proof.Machine

/-! ### Voice sets in an answer (R190) -/

/-- The set of the voices that satisfy `f`, as an answer carries it. -/
def voiceBits (f : Voice → Bool) : BitVec 16 := (BitVec.ofBoolListLE (allVoices.map f)).setWidth 16

theorem voiceSet_eq (f : Voice → Bool) : voiceSet f = bytes16 (voiceBits f) := rfl

theorem getLsbD_voiceBits (f : Voice → Bool) (v : Voice) : (voiceBits f).getLsbD v.val = f v := by
  rw [voiceBits, BitVec.getLsbD_setWidth, BitVec.getLsbD_ofBoolListLE]
  have hv : v.val < (allVoices.map f).length := by simp [allVoices]
  simp [allVoices]

theorem voiceBits_eq {f : Voice → Bool} {b : BitVec 16} (h : ∀ v : Voice, f v = b.getLsbD v.val) : voiceBits f = b := by
  refine BitVec.eq_of_getLsbD_eq fun i hi => ?_
  rw [← h ⟨i, hi⟩]
  exact getLsbD_voiceBits f ⟨i, hi⟩

/-! ### The answers to the claims of a TUNE (R46, R107) -/

/-- A voice that a claim takes without force (R46). -/
def VoiceRec.spare (r : VoiceRec) : Prop := r.state = .idle ∨ r.state = .retuning

/-- A voice at a key that a claim may wait for (R46, R47). -/
def VoiceRec.claimable (r : VoiceRec) : Prop :=
  r.offlinePending = false ∧ (r.state = .sounding ∨ r.state = .releasing ∨ r.state = .stealGap)

section
variable {r : VoiceRec} {force : Bool}

theorem VoiceRec.claimAnswer_taken : r.claimAnswer force false = .taken ↔ r.spare ∨ force = true ∧ r.claimable := by
  unfold VoiceRec.claimAnswer VoiceRec.spare VoiceRec.claimable
  cases r.state <;> cases r.offlinePending <;> cases force <;> simp

theorem VoiceRec.claimAnswer_pending : r.claimAnswer force false = .pending ↔ force = false ∧ r.claimable := by
  unfold VoiceRec.claimAnswer VoiceRec.claimable
  cases r.state <;> cases r.offlinePending <;> cases force <;> simp

theorem VoiceRec.claimAnswer_granted : (r.claimAnswer force false).granted = false ↔ ¬ r.spare ∧ ¬ r.claimable := by
  unfold VoiceRec.claimAnswer VoiceRec.spare VoiceRec.claimable
  cases r.state <;> cases r.offlinePending <;> cases force <;> simp [Claim.granted]

theorem VoiceRec.not_spare_of_claimable (h : r.claimable) : ¬ r.spare := by
  obtain ⟨-, h⟩ := h
  rintro (e | e) <;> simp [e] at h

theorem VoiceRec.claimed_of_spare (h : r.spare) : r.claimed force false = { r with state := .calibrating } := by
  unfold VoiceRec.claimed
  rcases h with h | h <;> rw [h]

theorem VoiceRec.claimed_of_force (h : r.claimable) : r.claimed true false = { r.drop with state := .calibrating, tunePending := false } := by
  obtain ⟨ho, h⟩ := h
  unfold VoiceRec.claimed
  rcases h with h | h | h <;> simp [h, ho]

theorem VoiceRec.claimed_of_claimable (h : r.claimable) : r.claimed false false = { r with tunePending := true } := by
  obtain ⟨ho, h⟩ := h
  unfold VoiceRec.claimed
  rcases h with h | h | h <;> simp [h, ho]

theorem VoiceRec.claimed_of_skipped (hs : ¬ r.spare) (hk : ¬ r.claimable) : r.claimed force false = r := by
  unfold VoiceRec.spare at hs
  unfold VoiceRec.claimable at hk
  unfold VoiceRec.claimed
  cases h : r.state <;> simp [h] at hs hk ⊢ <;> simp [hk]

theorem VoiceRec.claimLost_of_not_force (r : VoiceRec) : r.claimLost false = none := by
  unfold VoiceRec.claimLost
  cases r.state <;> cases r.offlinePending <;> rfl

theorem VoiceRec.claimLost_of_force (r : VoiceRec) : r.claimLost true = if r.offlinePending then none else r.lostKey := by
  unfold VoiceRec.claimLost VoiceRec.lostKey
  cases r.state <;> cases r.offlinePending <;> rfl

end

/-- The answers of a TUNE's claims. -/
def State.tuneAnswers (s : State) (vs : List Voice) (force : Bool) : List ClaimAnswer :=
  vs.map fun v => ⟨v, (s.voice v).claimAnswer force false⟩

theorem claimSet_answers (vs : List Voice) (g : Voice → Claim) (f : Claim → Bool) :
    claimSet (vs.map fun v => ⟨v, g v⟩) f = bytes16 (voiceBits fun v => decide (v ∈ vs) && f (g v)) := by
  refine (voiceSet_eq _).trans (congrArg (fun p => bytes16 (voiceBits p)) (funext fun v => ?_))
  rw [Bool.eq_iff_iff]
  simp

theorem find?_answers (vs : List Voice) (g : Voice → Claim) (v : Voice) :
    (vs.map fun v => (⟨v, g v⟩ : ClaimAnswer)).find? (fun x => x.voice == v) = if v ∈ vs then some ⟨v, g v⟩ else none := by
  induction vs with
  | nil => rfl
  | cons w vs ih =>
    by_cases e : w = v
    · subst e
      simp
    · have hb : (w == v) = false := by simp [e]
      rw [List.map_cons, List.find?_cons, hb, ih]
      simp [Ne.symm e]

/-- The set of a TUNE's voices whose answer satisfies `g`. -/
def State.tuneSet (s : State) (vs : List Voice) (force : Bool) (g : Claim → Bool) : BitVec 16 :=
  voiceBits fun v => decide (v ∈ vs) && g ((s.voice v).claimAnswer force false)

theorem State.claimSet_tune (s : State) (vs : List Voice) (force : Bool) (g : Claim → Bool) :
    claimSet (s.tuneAnswers vs force) g = bytes16 (s.tuneSet vs force g) := claimSet_answers vs _ g

theorem State.getLsbD_tuneSet (s : State) (vs : List Voice) (force : Bool) (g : Claim → Bool) (v : Voice) :
    (s.tuneSet vs force g).getLsbD v.val = (decide (v ∈ vs) && g ((s.voice v).claimAnswer force false)) := getLsbD_voiceBits _ v

/-- The skipped voices of a TUNE. -/
def State.tuneSkipped (s : State) (vs : List Voice) (force : Bool) : BitVec 16 := s.tuneSet vs force fun x => !x.granted

/-- The reason of a refused claim is the voice's state, and at a key the offline-pending flag (R46, R107). -/
theorem State.claimAnswer_refused {s : State} {v : Voice} {force : Bool} {why : EntryReason} (hc : (s.voice v).state ≠ .calibrating)
    (h : (s.voice v).claimAnswer force false = .refused why) : why = s.skipReason v := by
  unfold State.skipReason
  unfold VoiceRec.claimAnswer at h
  cases hs : (s.voice v).state <;> cases ho : (s.voice v).offlinePending <;> cases force <;> simp [hs, ho] at h hc <;> exact h.symm

/-- The skipped set and the sixteen reasons of a TUNE (R107, R195). -/
theorem State.skippedBytes_tune {s : State} {vs : List Voice} {force : Bool} (hc : ∀ v ∈ vs, (s.voice v).state ≠ .calibrating) :
    skippedBytes (s.tuneAnswers vs force) = bytes16 (s.tuneSkipped vs force) ++ s.skipReasons (s.tuneSkipped vs force) := by
  unfold skippedBytes
  rw [State.claimSet_tune]
  unfold State.tuneAnswers
  refine congrArg₂ _ rfl ?_
  rw [State.skipReasons, ← List.flatMap_singleton' (l := allVoices.map _), List.flatMap_map]
  refine List.flatMap_congr fun v _ => ?_
  rw [find?_answers]
  have hbit : (s.tuneSkipped vs force).getLsbD v.val = (decide (v ∈ vs) && !((s.voice v).claimAnswer force false).granted) :=
    getLsbD_voiceBits _ v
  rw [hbit]
  by_cases hv : v ∈ vs
  · cases ha : (s.voice v).claimAnswer force false with
    | taken => simp [hv, Claim.granted, byte1, EntryReason.code]
    | pending => simp [hv, Claim.granted, byte1, EntryReason.code]
    | refused why =>
      obtain rfl := State.claimAnswer_refused (hc v hv) ha
      simp only [hv, if_true, decide_true, Claim.granted, Bool.not_false, Bool.and_self, byte1]
      unfold State.skipReason
      cases (s.voice v).state <;> rfl
  · simp [hv, byte1, EntryReason.code]

theorem State.skipReasons_zero (s : State) : s.skipReasons 0 = List.replicate 16 0 := by
  unfold State.skipReasons
  simp [allVoices]

end Sys2Proof.Machine
end

