-- ==== Sys2Proof/Proofs/TunePasses.lean ====
section
/-! PROOFS. TUNE: what its claims, the keys they take and the pass it begins leave in the state (R43, R46, R47, R107, R110). -/

namespace Sys2Proof.Machine

/-! ### The fields of a TUNE (R107, R190) -/

/-- The destination set that a byte in range names. -/
def destsOf (dests : Byte) : DestSet := ⟨dests.getLsbD 0, dests.getLsbD 1, dests.getLsbD 2⟩

/-- The first destination that a byte in range names (R110). -/
def firstOf (dests : Byte) : Tuned := if dests.getLsbD 0 then .a else if dests.getLsbD 1 then .b else .cutoff

theorem destSet?_eq {dests : Byte} (h0 : dests ≠ 0) (h7 : dests.toNat ≤ 7) : destSet? dests = some (destsOf dests) := by
  unfold destSet?
  rw [if_neg (not_or.mpr ⟨h0, by omega⟩)]
  rfl

theorem flag?_eq {force : Byte} (h : force.toNat ≤ 1) : flag? force = some (decide (force = 1)) := by
  have hcases : force = 0 ∨ force = 1 := by
    rcases Nat.le_one_iff_eq_zero_or_eq_one.mp h with h | h
    · exact .inl (BitVec.eq_of_toNat_eq h)
    · exact .inr (BitVec.eq_of_toNat_eq h)
  rcases hcases with rfl | rfl <;> rfl

/-- A destination set in range is not empty. -/
theorem destsOf_named {dests : Byte} (h0 : dests ≠ 0) (h7 : dests.toNat ≤ 7) (x : EntryState) :
    (PassEntry.fresh x (destsOf dests)).named := by
  change dests.getLsbD 0 = true ∨ dests.getLsbD 1 = true ∨ dests.getLsbD 2 = true
  revert h0 h7
  revert dests
  decide

/-! ### The pass that begins (R107, R110, R124) -/

section
variable {y : State} {vs : List Voice} {g : Voice → Claim} {dests : Byte}

theorem State.entered_of_entry {t : State} {v : Voice} {x : EntryState} {first : Tuned}
    (h : t.entry v = .fresh x (destsOf dests)) : t.entered v x dests first := by
  unfold State.entered
  rw [h]
  exact ⟨rfl, rfl, rfl, rfl, rfl, fun d _ => by cases d <;> rfl⟩

theorem State.entered_of_inService {t : State} {v : Voice} {d : Tuned}
    (h : t.entry v = ({ PassEntry.fresh .waiting (destsOf dests) with state := .inService }).setSum d ⟨.inProgress, .none, 0⟩) :
    t.entered v .inService dests d := by
  unfold State.entered
  rw [h]
  refine ⟨by cases d <;> rfl, by cases d <;> rfl, by cases d <;> rfl, by cases d <;> rfl, by cases d <;> rfl, fun e he => ?_⟩
  rcases he with he | he
  · exact absurd rfl he
  · cases d <;> cases e <;> first | exact absurd rfl he | rfl

/-- A pass over voices that answered: what it keeps, and whom it takes into service (R107, R110). -/
theorem State.beginPass_spec (hvs : vs.Nodup) (f : Bool) (h0 : dests ≠ 0) (h7 : dests.toNat ≤ 7)
    (he : ∃ v ∈ vs, (g v).granted = true) :
    let t := y.beginPass f (vs.map fun v => ⟨v, g v⟩) (destsOf dests)
    let takes (v : Voice) : Prop := v ∈ vs ∧ g v = .taken
    ((y.passCleared f).PassWork t ∧ t.tune.check = y.tune.check ∧ t.tune.outcome = .running ∧ t.notices = y.notices) ∧
    ((∀ v, ¬ takes v) → t.tune.service = none) ∧
    ((∃ v, takes v) → ∃ x, t.tune.service = some x ∧ takes x.voice ∧ (∀ v, takes v → x.voice.val ≤ v.val) ∧
      x.dest = firstOf dests ∧ t.entered x.voice .inService dests (firstOf dests) ∧
      (∀ v, v ≠ x.voice → takes v → t.entered v .waiting dests (firstOf dests)) ∧
      y.destBegins t x.voice x.dest (y.tune.unit = none)) ∧
    ∀ v, ¬ takes v → t.entry v = if v ∈ vs then (g v).entry (destsOf dests) else .reset := by
  intro t takes
  obtain ⟨hwork, hcheck⟩ := State.setEntries_settlePass (y.passCleared f) (vs.map fun v => ⟨v, g v⟩) (destsOf dests)
  have hframe := State.setEntries_frame (y.passCleared f) (vs.map fun v => ⟨v, g v⟩) (destsOf dests)
  have hentry : ∀ v, ((y.passCleared f).setEntries (vs.map fun v => ⟨v, g v⟩) (destsOf dests)).entry v =
      if v ∈ vs then (g v).entry (destsOf dests) else .reset := fun v => by
    rw [State.entry_setEntries hvs, State.entry_passCleared]
  have ht : t = ((y.passCleared f).setEntries (vs.map fun v => ⟨v, g v⟩) (destsOf dests)).settlePass := rfl
  rw [← ht] at hwork hcheck
  generalize (y.passCleared f).setEntries (vs.map fun v => ⟨v, g v⟩) (destsOf dests) = l at hframe hentry ht
  have hrun : l.passRunning = true := by rw [hframe]; rfl
  have hnone : l.tune.service = none := by rw [hframe]; rfl
  have hwaits : ∀ v, (l.entry v).state = .waiting ↔ takes v := fun v => by
    rw [hentry]
    by_cases hv : v ∈ vs
    · cases hg : g v <;> simp [takes, hv, hg, Claim.entry, PassEntry.fresh]
    · simp [takes, hv, PassEntry.reset]
  by_cases htakes : ∃ v, takes v
  · obtain ⟨v, hv, hmin, e⟩ := State.settlePass_serves hrun hnone (htakes.imp fun v => (hwaits v).mpr)
    have hv := (hwaits v).mp hv
    have hfresh : ∀ w, takes w → l.entry w = .fresh .waiting (destsOf dests) := fun w hw => by
      rw [hentry, if_pos hw.1, hw.2]
      rfl
    have hfirst : (l.entry v).firstDest = firstOf dests := by rw [hfresh v hv]; rfl
    obtain ⟨k1, k2, k3, k4, k5, k6, -⟩ := State.beginService_spec (s := l) (v := v)
      (by rw [hfresh v hv]; exact destsOf_named h0 h7 _)
    rw [hfirst] at k1 k2 k3
    rw [hfresh v hv] at k3
    rw [← e, ← ht] at k1 k2 k3 k4 k5 k6
    refine ⟨⟨hwork, hcheck, k5.trans (by rw [hframe]; rfl), k6.trans (by rw [hframe]; rfl)⟩, fun h => absurd htakes (not_exists.mpr h),
      fun _ => ⟨_, k1, hv, fun w hw => hmin w ((hwaits w).mpr hw), rfl, State.entered_of_inService k3,
        fun w hne hw => State.entered_of_entry ((k4 w hne).trans (hfresh w hw)), ?_⟩,
      fun w hw => (k4 w fun e => hw (e ▸ hv)).trans (hentry w)⟩
    exact k2.of_eq (by rw [hframe]; rfl) (by rw [hframe]; rfl) (by rw [hframe]; rfl) (by rw [hframe]; rfl) fun _ => by rw [hframe]; rfl
  · have hpending : ∃ v, (l.entry v).state = .pending := by
      obtain ⟨v, hv, hg⟩ := he
      refine ⟨v, ?_⟩
      have hnot : ¬ takes v := fun h => htakes ⟨v, h⟩
      rw [hentry, if_pos hv]
      cases hgv : g v with
      | taken => exact absurd ⟨hv, hgv⟩ hnot
      | pending => rfl
      | refused why => rw [hgv] at hg; cases hg
    have e : t = l := ht.trans (State.settlePass_of_pending (fun v h => htakes ⟨v, (hwaits v).mp h⟩) hpending)
    refine ⟨⟨hwork, hcheck, by rw [e, hframe]; rfl, by rw [e, hframe]; rfl⟩, fun _ => by rw [e, hnone], fun h => absurd h htakes,
      fun w _ => by rw [e, hentry]⟩

end

/-! ### The claims and the keys they take -/

/-- The voices that a TUNE names. -/
def namedVoices (voices : BitVec 16) : List Voice := allVoices.filter fun v => voices.getLsbD v.val

theorem mem_namedVoices {voices : BitVec 16} {v : Voice} : v ∈ namedVoices voices ↔ voices.getLsbD v.val = true := by
  simp [namedVoices, allVoices]

theorem nodup_namedVoices (voices : BitVec 16) : (namedVoices voices).Nodup := (List.nodup_finRange 16).filter _

/-- The keys that the claims of a TUNE take by force (R43, R47). -/
def State.tuneLost (s : State) (vs : List Voice) (force : Bool) : List Assignment := vs.filterMap fun v => (s.voice v).claimLost force

/-- The state in which a TUNE's pass begins: its voices claimed and the keys that they lose re-homed. -/
def State.tuneHomed (s : State) (vs : List Voice) (force : Bool) : State :=
  (s.claimed vs force false).reHome (s.tuneLost vs force)

/-- The state in which a TUNE has begun its pass. -/
def State.tuneBegun (s : State) (vs : List Voice) (force : Bool) (dests : Byte) : State :=
  (s.tuneHomed vs force).beginPass force (s.tuneAnswers vs force) (destsOf dests)

theorem State.tuneHomed_of_not_force (s : State) (vs : List Voice) : s.tuneHomed vs false = s.claimed vs false false := by
  have e : s.tuneLost vs false = [] := List.filterMap_eq_nil_iff.mpr fun v _ => (s.voice v).claimLost_of_not_force
  rw [State.tuneHomed, e]
  rfl

theorem State.tuneHomed_keyWork (s : State) (vs : List Voice) (force : Bool) : s.KeyWork (s.tuneHomed vs force) :=
  (s.claimed_keyWork vs force false).trans (State.reHome_keyWork _ _)

theorem State.tuneHomed_unitWork (s : State) (vs : List Voice) (force : Bool) : s.UnitWork (s.tuneHomed vs force) :=
  (State.claimed_unitWork vs s force false).trans (State.reHome_unitWork _ _)

/-- TUNE with its fields in range and no pass running (R107). -/
theorem State.exec_tune {s : State} {voices : BitVec 16} {dests force : Byte} (hi : s.inHand = some (.tune voices dests force))
    (hr : s.passRunning = false) (hv : voices ≠ 0) (h0 : dests ≠ 0) (h7 : dests.toNat ≤ 7) (hf : force.toNat ≤ 1) :
    let vs := namedVoices voices
    let f := decide (force = 1)
    exec (.tune voices dests force) s = .next (if (s.tuneAnswers vs f).any fun x => x.answer.granted then
      (s.tuneBegun vs f dests).answer .accepted (claimSet (s.tuneAnswers vs f) (· == .taken)
        ++ claimSet (s.tuneAnswers vs f) (· == .pending) ++ skippedBytes (s.tuneAnswers vs f))
      else (s.tuneHomed vs f).answer .ok (skippedBytes (s.tuneAnswers vs f))) := by
  intro vs f
  refine congrArg Host.Outcome.next ((hostCommand_of_inHand hi _).trans ?_)
  rw [if_neg (by simp [hr]), destSet?_eq h0 h7, flag?_eq hf]
  simp only [if_neg hv]
  have hclaims : s.claimAll (allVoices.filter fun v => voices.getLsbD v.val) f false =
      ⟨s.claimed vs f false, s.tuneAnswers vs f, s.tuneLost vs f⟩ := State.claimAll_eq (nodup_namedVoices voices) s f false
  unfold State.beginTune
  rw [hclaims]
  rfl

/-- TUNE with a pass running or a field out of range (R107). -/
theorem State.exec_tune_refused {s : State} {voices : BitVec 16} {dests force : Byte}
    (hi : s.inHand = some (.tune voices dests force)) :
    (s.passRunning = true → exec (.tune voices dests force) s = .next (s.onlyAnswered .wrongState [])) ∧
    (s.passRunning = false → voices = 0 ∨ dests = 0 ∨ 7 < dests.toNat ∨ 1 < force.toNat →
      exec (.tune voices dests force) s = .next (s.onlyAnswered .badValue [])) := by
  refine ⟨fun hr => congrArg Host.Outcome.next ((hostCommand_of_inHand hi _).trans (if_pos hr)), fun hr hbad =>
    congrArg Host.Outcome.next ((hostCommand_of_inHand hi _).trans ?_)⟩
  rw [if_neg (by simp [hr])]
  rcases hbad with rfl | hbad | hbad | hbad
  · cases destSet? dests <;> cases flag? force <;> rfl
  · rw [destSet?, if_pos (.inl hbad)]
    rfl
  · rw [destSet?, if_pos (.inr hbad)]
    rfl
  · rw [flag?_of_gt hbad]
    cases destSet? dests <;> rfl

end Sys2Proof.Machine
end

