-- ==== Sys2Proof/Proofs/TuneClauses.lean ====
section
/-! PROOFS. TUNE: its refusals, its claims with and without force, and the pass that begins (R43, R46, R47, R107, R110), and O31. -/

namespace Sys2Proof.Machine

/-! ### The voices of a TUNE by what becomes of them (R46, R47, R107) -/

/-- A voice that a TUNE takes at once. -/
def State.tuneTakes (s : State) (vs : List Voice) (f : Bool) (v : Voice) : Prop :=
  v ∈ vs ∧ ((s.voice v).spare ∨ f = true ∧ (s.voice v).claimable)

/-- A voice at a key that a TUNE without force waits for. -/
def State.tuneWaits (s : State) (vs : List Voice) (f : Bool) (v : Voice) : Prop := v ∈ vs ∧ f = false ∧ (s.voice v).claimable

/-- A voice that a TUNE skips. -/
def State.tuneSkips (s : State) (vs : List Voice) (v : Voice) : Prop := v ∈ vs ∧ ¬ (s.voice v).spare ∧ ¬ (s.voice v).claimable

section
variable {s : State} {vs : List Voice} {f : Bool} {dests : Byte} {v : Voice}

theorem State.tuneSkips_iff :
    (s.tuneSkipped vs f).getLsbD v.val = true ↔ s.tuneSkips vs v := by
  rw [State.tuneSkipped, State.getLsbD_tuneSet, Bool.and_eq_true, decide_eq_true_iff, Bool.not_eq_true', VoiceRec.claimAnswer_granted]
  rfl

/-- The three sets and the reasons of a TUNE's answer (R107, R195). -/
theorem State.tuneAnswer_sets (hc : ∀ v ∈ vs, (s.voice v).state ≠ .calibrating) :
    ∃ taken pending skipped : BitVec 16,
      claimSet (s.tuneAnswers vs f) (· == .taken) ++ claimSet (s.tuneAnswers vs f) (· == .pending) ++ skippedBytes (s.tuneAnswers vs f) =
        bytes16 taken ++ bytes16 pending ++ bytes16 skipped ++ s.skipReasons skipped ∧
      ∀ v : Voice, (taken.getLsbD v.val = true ↔ s.tuneTakes vs f v) ∧ (pending.getLsbD v.val = true ↔ s.tuneWaits vs f v) ∧
        (skipped.getLsbD v.val = true ↔ s.tuneSkips vs v) := by
  refine ⟨s.tuneSet vs f (· == .taken), s.tuneSet vs f (· == .pending), s.tuneSkipped vs f, ?_, fun v =>
    ⟨?_, ?_, State.tuneSkips_iff (f := f)⟩⟩
  · rw [State.skippedBytes_tune hc, State.claimSet_tune, State.claimSet_tune, ← List.append_assoc]
  · rw [State.getLsbD_tuneSet, Bool.and_eq_true, decide_eq_true_iff, beq_iff_eq, VoiceRec.claimAnswer_taken]
    rfl
  · rw [State.getLsbD_tuneSet, Bool.and_eq_true, decide_eq_true_iff, beq_iff_eq, VoiceRec.claimAnswer_pending]
    rfl

theorem State.tuneTakes_iff : s.tuneTakes vs f v ↔ v ∈ vs ∧ (s.voice v).claimAnswer f false = .taken := by
  rw [VoiceRec.claimAnswer_taken]
  rfl

theorem State.tune_granted :
    ((s.tuneAnswers vs f).any fun x => x.answer.granted) = true ↔ ∃ v, s.tuneTakes vs f v ∨ s.tuneWaits vs f v := by
  have hg : ∀ v, ((s.voice v).claimAnswer f false).granted = true ↔ (s.voice v).claimAnswer f false = .taken
      ∨ (s.voice v).claimAnswer f false = .pending := fun v => by
    cases (s.voice v).claimAnswer f false <;> simp [Claim.granted]
  simp only [State.tuneAnswers, List.any_map, List.any_eq_true, Function.comp, hg, VoiceRec.claimAnswer_taken,
    VoiceRec.claimAnswer_pending, State.tuneTakes, State.tuneWaits]
  exact ⟨fun ⟨v, hv, h⟩ => ⟨v, h.imp (fun h => ⟨hv, h⟩) fun h => ⟨hv, h⟩⟩,
    fun ⟨v, h⟩ => h.elim (fun h => ⟨v, h.1, .inl h.2⟩) fun h => ⟨v, h.1, .inr h.2⟩⟩

/-! ### The pass, as the statement writes it -/

theorem State.eq_of_kept {s t : State} (hz : t.zones = s.zones) (hc : t.cards = s.cards) (hp : t.panel = s.panel)
    (hpa : t.patches = s.patches) (hn : t.notices = s.notices) (hs : t.settings = s.settings) (hq : t.pending = s.pending) :
    t = { s with
      voices := t.voices, parts := t.parts, stamp := t.stamp, freePicks := t.freePicks, tune := t.tune, refresh := t.refresh
      port := t.port } := by
  cases s
  cases t
  simp only at hz hc hp hpa hn hs hq
  subst hz hc hp hpa hn hs hq
  rfl

section
variable (hvs : vs.Nodup) (h0 : dests ≠ 0) (h7 : dests.toNat ≤ 7) (he : ∃ v, s.tuneTakes vs f v ∨ s.tuneWaits vs f v)
include hvs h0 h7 he

/-- The pass of a TUNE, from the state in which it begins. -/
theorem State.tuneBegun_spec :
    let h := s.tuneHomed vs f
    let t := s.tuneBegun vs f dests
    ((h.passCleared f).PassWork t ∧ t.tune.check = h.tune.check ∧ t.tune.outcome = .running ∧ t.notices = h.notices) ∧
    ((∀ v, ¬ s.tuneTakes vs f v) → t.tune.service = none) ∧
    ((∃ v, s.tuneTakes vs f v) → ∃ x, t.tune.service = some x ∧ s.tuneTakes vs f x.voice ∧
      (∀ v, s.tuneTakes vs f v → x.voice.val ≤ v.val) ∧
      x.dest = firstOf dests ∧ t.entered x.voice .inService dests (firstOf dests) ∧
      (∀ v, v ≠ x.voice → s.tuneTakes vs f v → t.entered v .waiting dests (firstOf dests)) ∧
      h.destBegins t x.voice x.dest (h.tune.unit = none)) ∧
    ∀ v, ¬ s.tuneTakes vs f v → t.entry v = if v ∈ vs then ((s.voice v).claimAnswer f false).entry (destsOf dests) else .reset := by
  intro h t
  obtain ⟨v, hv⟩ := State.tune_granted.mpr he |> List.any_eq_true.mp
  obtain ⟨hv, hgranted⟩ := hv
  obtain ⟨w, hw, rfl⟩ := List.mem_map.mp hv
  have hspec := State.beginPass_spec (y := h) (g := fun v => (s.voice v).claimAnswer f false) hvs f h0 h7 ⟨w, hw, hgranted⟩
  simp only [State.tuneTakes_iff]
  exact hspec

/-- What a TUNE that begins a pass leaves as it was, and the pass's summary (R107). -/
theorem State.tuneBegun_frame :
    let t := s.tuneBegun vs f dests
    (t.zones = s.zones ∧ t.cards = s.cards ∧ t.panel = s.panel ∧ t.patches = s.patches ∧ t.notices = s.notices
      ∧ t.settings = s.settings ∧ t.pending = s.pending) ∧
    t.port = s.port ∧ t.tune.outcome = .running ∧ t.tune.force = f ∧ t.tune.cal = s.tune.cal ∧ t.tune.plan = s.tune.plan ∧
    t.tune.heldQuarantine = false := by
  intro t
  obtain ⟨⟨hp, -, hrun, hnotices⟩, -⟩ := State.tuneBegun_spec hvs h0 h7 he
  have hk := s.tuneHomed_keyWork vs f
  have hu := s.tuneHomed_unitWork vs f
  exact ⟨⟨hp.zones.trans hk.zones, hp.cards.trans hk.cards, hp.panel.trans hk.panel, hp.patches.trans hk.patches,
    hnotices.trans hu.notices, hp.settings.trans hk.settings, hp.pending.trans hk.pending⟩, hp.port.trans hk.port, hrun, hp.force,
    hp.cal.trans hk.cal, hp.plan.trans hk.plan, hp.held⟩

/-- The voices, parts and stamps of a TUNE that begins a pass are those of its claims and the keys re-homed. -/
theorem State.tuneBegun_voices :
    let t := s.tuneBegun vs f dests
    let h := s.tuneHomed vs f
    t.voices = h.voices ∧ t.parts = h.parts ∧ t.stamp = h.stamp ∧ t.freePicks = h.freePicks ∧ t.tune.check = h.tune.check := by
  intro t h
  obtain ⟨⟨hp, hcheck, -⟩, -⟩ := State.tuneBegun_spec hvs h0 h7 he
  exact ⟨hp.voices, hp.parts, hp.stamp, hp.freePicks, hcheck⟩

/-- The entries that a TUNE gives its voices that it does not take (R107, R124). -/
theorem State.tuneBegun_entries (hc : ∀ v ∈ vs, (s.voice v).state ≠ .calibrating) (v : Voice) :
    let t := s.tuneBegun vs f dests
    (v ∉ vs → (t.entry v).state = .notInPass) ∧
    (s.tuneWaits vs f v → t.entered v .pending dests (firstOf dests)) ∧
    (s.tuneSkips vs v → (t.entry v).state = .skipped ∧ (t.entry v).reason = s.skipReason v) := by
  intro t
  obtain ⟨-, -, -, hentry⟩ := State.tuneBegun_spec hvs h0 h7 he
  refine ⟨fun hv => ?_, fun hw => ?_, fun hk => ?_⟩
  · rw [hentry v fun h => hv h.1, if_neg hv]
    rfl
  · have ha := VoiceRec.claimAnswer_pending.mpr hw.2
    have e := hentry v fun h => by
      rw [State.tuneTakes_iff, ha] at h
      simp at h
    rw [if_pos hw.1, ha] at e
    exact State.entered_of_entry e
  · have hg := (VoiceRec.claimAnswer_granted (force := f)).mpr hk.2
    cases ha : (s.voice v).claimAnswer f false with
    | taken => rw [ha] at hg; cases hg
    | pending => rw [ha] at hg; cases hg
    | refused why =>
      have e := hentry v fun h => by
        rw [State.tuneTakes_iff, ha] at h
        simp at h
      rw [if_pos hk.1, ha] at e
      rw [e]
      exact ⟨rfl, State.claimAnswer_refused (hc v hk.1) ha⟩

end

/-! ### The check in hand and the unit (R46, R104, R133) -/

theorem State.tuneHomed_check_gone (hvs : vs.Nodup) {c : Check} (hc : s.tune.check = some c) (hv : c.voice ∈ vs)
    (hr : (s.voice c.voice).state = .retuning) : (s.tuneHomed vs f).tune.check = none := by
  refine State.reHome_keeps (P := fun t => t.tune.check = none) (fun t v p h j _ ht => ?_) _ ?_
  · rw [State.assign_tune, State.cleared_check, ht]
    rfl
  · rw [State.claimed_check hvs, hc]
    simp [Option.filter, hv, hr]

theorem State.tuneHomed_check_kept (hvs : vs.Nodup) {c : Check} (hc : s.tune.check = some c)
    (hn : ¬ (c.voice ∈ vs ∧ (s.voice c.voice).state = .retuning)) : (s.tuneHomed vs false).tune.check = some c := by
  rw [State.tuneHomed_of_not_force, State.claimed_check hvs, hc]
  have hn : ¬ (decide (c.voice ∈ vs) && (s.voice c.voice).state == .retuning) = true := by simpa using hn
  simp only [Option.filter, Bool.not_eq_true _ ▸ hn]
  rfl

/-- Where no request waits, the first destination's measurement finds the unit as it was, or free by the check given up (R104). -/
theorem State.tuneHomed_destBegins {t : State} {x : InService} (hr : s.tune.requestWaiting = false)
    (hcheck : t.tune.check = (s.tuneHomed vs f).tune.check)
    (h : (s.tuneHomed vs f).destBegins t x.voice x.dest ((s.tuneHomed vs f).tune.unit = none)) :
    s.destBegins t x.voice x.dest (s.tune.unit = none ∨ ∃ c, s.tune.check = some c ∧ t.tune.check = none) := by
  have hk := s.tuneHomed_keyWork vs f
  have h1 := State.claimed_checkGone vs hr f false
  obtain ⟨-, hgone⟩ := h1.trans (State.reHome_checkGone (s.tuneLost vs f) h1.1)
  change _ = (s.claimed vs f false |>.reHome _).tune.check at hcheck
  refine h.of_eq hk.plan hk.cal hk.settings ?_ fun hn => ?_
  · rw [hcheck]
    rcases hgone with ⟨e1, e2⟩ | ⟨hc, e1, e2⟩
    · rw [State.tuneHomed, e1, e2]
      exact ⟨fun h => h.elim id fun ⟨c, h1, h2⟩ => (by rw [h1] at h2; cases h2), .inl⟩
    · rw [State.tuneHomed, e2, e1]
      exact ⟨fun _ => rfl, fun _ => .inr (hc.imp fun _ h => ⟨h, rfl⟩)⟩
  · rcases hgone with ⟨-, e2⟩ | ⟨-, -, e2⟩
    · exact e2
    · exact absurd e2 hn

/-! ### The voices (R43, R46, R47) -/

theorem State.voice_tuneHomed_of_not_free (h : ¬ ((s.claimed vs f false).voice v).free) :
    (s.tuneHomed vs f).voice v = (s.claimed vs f false).voice v := State.voice_reHome_of_not_free _ h

theorem VoiceRec.not_free_of_calibrating {r : VoiceRec} (h : r.state = .calibrating) : ¬ r.free := by
  unfold VoiceRec.free VoiceRec.tailing
  simp [h]

theorem VoiceRec.not_free_of_skipped {r : VoiceRec} (hs : ¬ r.spare) (hk : ¬ r.claimable) : ¬ r.free := by
  unfold VoiceRec.free VoiceRec.tailing
  unfold VoiceRec.spare at hs
  unfold VoiceRec.claimable at hk
  cases h : r.state <;> simp [h] at hs hk ⊢
  simp [VoiceRec.unmarked, hk]

/-- The voices that a TUNE takes are CALIBRATING, those at a key without it (R43, R46, R47). -/
theorem State.voice_claimed_takes (hvs : vs.Nodup) (h : s.tuneTakes vs f v) :
    ((s.claimed vs f false).voice v).state = .calibrating ∧
    ((s.voice v).spare → (s.claimed vs f false).voice v = { s.voice v with state := .calibrating }) ∧
    ((s.voice v).claimable →
      ((s.claimed vs f false).voice v).asg = none ∧ ((s.claimed vs f false).voice v).tunePending = false) := by
  obtain ⟨hv, h⟩ := h
  rw [State.voice_claimed hvs, if_pos hv]
  rcases h with h | ⟨rfl, h⟩
  · rw [VoiceRec.claimed_of_spare h]
    exact ⟨rfl, fun _ => rfl, fun hk => absurd h (VoiceRec.not_spare_of_claimable hk)⟩
  · rw [VoiceRec.claimed_of_force h]
    exact ⟨rfl, fun hs => absurd hs (VoiceRec.not_spare_of_claimable h), fun _ => ⟨rfl, rfl⟩⟩

theorem State.voice_claimed_skips (hvs : vs.Nodup) (h : s.tuneSkips vs v) : (s.claimed vs f false).voice v = s.voice v := by
  rw [State.voice_claimed hvs, if_pos h.1, VoiceRec.claimed_of_skipped h.2.1 h.2.2]

theorem State.voice_tuneHomed_takes (hvs : vs.Nodup) (h : s.tuneTakes vs f v) :
    (s.tuneHomed vs f).voice v = (s.claimed vs f false).voice v :=
  State.voice_tuneHomed_of_not_free (VoiceRec.not_free_of_calibrating (State.voice_claimed_takes hvs h).1)

theorem State.voice_tuneHomed_skips (hvs : vs.Nodup) (h : s.tuneSkips vs v) : (s.tuneHomed vs f).voice v = s.voice v := by
  have e := State.voice_claimed_skips (f := f) hvs h
  exact (State.voice_tuneHomed_of_not_free (by rw [e]; exact VoiceRec.not_free_of_skipped h.2.1 h.2.2)).trans e

theorem State.voice_claimed_waits (hvs : vs.Nodup) (h : s.tuneWaits vs f v) :
    (s.claimed vs f false).voice v = { s.voice v with tunePending := true } := by
  obtain ⟨hv, rfl, hk⟩ := h
  rw [State.voice_claimed hvs, if_pos hv, VoiceRec.claimed_of_claimable hk]

end

/-! ### The keys that a TUNE takes by force (R43, R47) -/

section
variable {s : State} {voices : BitVec 16}

/-- The state from which the keys taken by force are offered: the voices claimed and, where no check of theirs is in hand, the tune
controller as it was. -/
def State.tuneOffering (s : State) (vs : List Voice) : State :=
  let r := s.claimed vs true false
  if r.tune.check = s.tune.check then { r with tune := s.tune, refresh := s.refresh } else r

theorem State.tuneOffering_alike (s : State) (vs : List Voice) : (s.tuneOffering vs).Alike (s.claimed vs true false) := by
  unfold State.tuneOffering
  simp only
  split
  · exact ⟨_, _, rfl, ‹_›⟩
  · exact ⟨_, _, rfl, rfl⟩

theorem State.tuneOffering_frame (s : State) (vs : List Voice) :
    (s.tuneOffering vs).parts = s.parts ∧ (s.tuneOffering vs).stamp = s.stamp ∧ (s.tuneOffering vs).settings = s.settings ∧
    ∀ v, (s.tuneOffering vs).voice v = (s.claimed vs true false).voice v := by
  have hm := s.claimed_moves vs true false
  unfold State.tuneOffering
  simp only
  generalize s.claimed vs true false = r at hm ⊢
  rw [hm]
  split <;> exact ⟨rfl, rfl, rfl, fun _ => rfl⟩

theorem State.tuneLost_keysLost (s : State) (voices : BitVec 16) :
    s.tuneLost (namedVoices voices) true = s.keysLost fun v => voices.getLsbD v.val && !(s.voice v).offlinePending := by
  unfold State.tuneLost State.keysLost namedVoices
  rw [List.filterMap_filter, List.filterMap_filter]
  refine List.filterMap_congr fun v _ => ?_
  rw [VoiceRec.claimLost_of_force, VoiceRec.lostKey]
  cases voices.getLsbD v.val <;> cases (s.voice v).offlinePending <;> rfl

/-- A claim makes no voice IDLE or RETUNING, and gives none an assignment. -/
theorem VoiceRec.claimed_free (r : VoiceRec) (force : Bool) :
    ¬ ((r.claimed force false).state = .idle ∨ (r.claimed force false).state = .retuning) := by
  unfold VoiceRec.claimed
  cases h : r.state <;> cases ho : r.offlinePending <;> cases force <;> simp [h]

theorem VoiceRec.claimed_asg {r : VoiceRec} (ha : r.assignedRight) (force : Bool) :
    (r.claimed force false).assignedRight ∧ ((r.claimed force false).asg.isSome → (r.claimed force false).asg = r.asg) := by
  unfold VoiceRec.assignedRight at ha ⊢
  unfold VoiceRec.claimed
  cases h : r.state <;> cases ho : r.offlinePending <;> cases force <;> simp [h, VoiceRec.drop] at ha ⊢ <;> simp [ha]

theorem State.Ordered.claimed {n : Nat} {vs : List Voice} (h : s.Ordered n) (hvs : vs.Nodup) (t : State) (hstamp : t.stamp = s.stamp)
    (hvoice : ∀ v, t.voice v = (s.claimed vs true false).voice v) : t.Ordered n := by
  have hcases : ∀ v, t.voice v = s.voice v ∨ t.voice v = (s.voice v).claimed true false := fun v => by
    rw [hvoice, State.voice_claimed hvs]
    split
    · exact .inr rfl
    · exact .inl rfl
  refine ⟨fun v => ?_, ⟨fun v hi => ?_, fun v hi => ?_⟩, h.small⟩
  · rcases hcases v with e | e
    · rw [e]
      exact h.assigned v
    · rw [e]
      exact (VoiceRec.claimed_asg (h.assigned v) true).1
  · rcases hcases v with e | e
    · rw [e] at hi
      rw [State.freeAge, hstamp, e]
      exact h.within.1 v hi
    · rw [e] at hi
      exact absurd hi (VoiceRec.claimed_free _ _)
  · rcases hcases v with e | e
    · rw [e] at hi
      rw [State.keyAge, hstamp, e]
      exact h.within.2 v hi
    · rw [e] at hi
      have ea := (VoiceRec.claimed_asg (h.assigned v) true).2 hi
      rw [State.keyAge, hstamp, VoiceRec.asgStamp, e, ea]
      rw [ea] at hi
      exact h.within.2 v hi

/-- The keys that a TUNE takes by force are offered one after another (R43, R47). -/
theorem State.tuneHomed_keysReHomed (ha : ∀ v, (s.voice v).assignedRight) (hs : s.stampsWithin 16) :
    let r := s.tuneOffering (namedVoices voices)
    let u := r.reHome (s.tuneLost (namedVoices voices) true)
    State.keysReHomed (s.keysLost fun v => voices.getLsbD v.val && !(s.voice v).offlinePending) r u ∧
    u.Alike (s.tuneHomed (namedVoices voices) true) := by
  intro r u
  obtain ⟨-, hstamp, -, hvoice⟩ := s.tuneOffering_frame (namedVoices voices)
  have hordered : r.Ordered 16 := State.Ordered.claimed ⟨ha, hs, by decide⟩ (nodup_namedVoices voices) r hstamp hvoice
  refine ⟨?_, (s.tuneOffering_alike _).reHome _⟩
  rw [← State.tuneLost_keysLost]
  refine State.reHome_keysReHomed _ hordered ((List.length_filterMap_le _ _).trans ((List.length_filter_le _ _).trans ?_))
  exact le_of_eq List.length_finRange

/-- The clause of a TUNE by force, as the statement writes it. -/
theorem State.tuneBegun_forced {dests : Byte} {vs : List Voice} (hvs : vs = namedVoices voices)
    (h0 : dests ≠ 0) (h7 : dests.toNat ≤ 7) (he : ∃ v, s.tuneTakes vs true v ∨ s.tuneWaits vs true v)
    (ha : ∀ v, (s.voice v).assignedRight) (hs : s.stampsWithin 16) :
    let t := s.tuneBegun vs true dests
    ∃ r u : State, r.parts = s.parts ∧ r.stamp = s.stamp ∧ r.settings = s.settings ∧
      (∀ v, (s.tuneTakes vs true v → (r.voice v).state = .calibrating ∧ (r.voice v).asg = none) ∧
        (¬ s.tuneTakes vs true v → r.voice v = s.voice v)) ∧
      ((∀ c, s.tune.check = some c → ¬ (c.voice ∈ vs ∧ (s.voice c.voice).state = .retuning)) →
        r.tune = s.tune ∧ r.refresh = s.refresh) ∧
      State.keysReHomed (s.keysLost fun v => voices.getLsbD v.val && !(s.voice v).offlinePending) r u ∧
      t.voices = u.voices ∧ t.parts = u.parts ∧ t.stamp = u.stamp ∧ t.tune.check = u.tune.check := by
  subst hvs
  intro t
  have hnodup := nodup_namedVoices voices
  obtain ⟨k1, k2, k3, k4⟩ := s.tuneOffering_frame (namedVoices voices)
  obtain ⟨h1, a, b, e, hcheck⟩ := State.tuneHomed_keysReHomed (voices := voices) ha hs
  obtain ⟨v1, v2, v3, -, v5⟩ := State.tuneBegun_voices hnodup h0 h7 he
  rw [e] at v1 v2 v3 v5
  refine ⟨_, _, k1, k2, k3, fun v => ⟨fun hv => ?_, fun hv => ?_⟩, fun hc => ?_, h1, v1, v2, v3, v5.trans hcheck⟩
  · rw [k4]
    obtain ⟨c1, c2, c3⟩ := State.voice_claimed_takes hnodup hv
    refine ⟨c1, ?_⟩
    rcases hv.2 with hsp | ⟨-, hk⟩
    · rw [c2 hsp]
      have hnot := (not_congr (ha v)).mpr (by rcases hsp with h | h <;> simp [h])
      simpa using hnot
    · exact (c3 hk).1
  · rw [k4, State.voice_claimed hnodup]
    split
    · rename_i hm
      have hs' : ¬ (s.voice v).spare := fun h => hv ⟨hm, .inl h⟩
      exact VoiceRec.claimed_of_skipped hs' fun h => hv ⟨hm, .inr ⟨rfl, h⟩⟩
    · rfl
  · have hkept : (s.claimed (namedVoices voices) true false).tune.check = s.tune.check := by
      rw [State.claimed_check hnodup]
      cases hcs : s.tune.check with
      | none => rfl
      | some c =>
        have hn : ¬ (decide (c.voice ∈ namedVoices voices) && (s.voice c.voice).state == .retuning) = true := by
          simpa using hc c hcs
        simp only [Option.filter, Bool.not_eq_true _ ▸ hn]
        rfl
    unfold State.tuneOffering
    simp only [hkept, if_true]
    exact ⟨trivial, trivial⟩

end

end Sys2Proof.Machine
end

