-- ==== Sys2Proof/Proofs/TuneClaims.lean ====
section
/-! PROOFS. TUNE, clause by clause as O31 writes it (R43, R46, R47, R107, R110). -/

namespace Sys2Proof.Machine

section
variable {s : State} {voices : BitVec 16} {dests force : Byte}

/-- What a TUNE's hypotheses come to: it is in hand, no pass runs, and its fields are in range (R107). -/
structure State.TuneInHand (s : State) (voices : BitVec 16) (dests force : Byte) : Prop where
  inHand : s.inHand = some (.tune voices dests force)
  idle : s.passRunning = false
  voices : voices ≠ 0
  dests_le : dests.toNat ≤ 7
  dests : dests ≠ 0
  force_le : force.toNat ≤ 1

variable (h : s.TuneInHand voices dests force)
include h

theorem State.TuneInHand.named : ∃ v, v ∈ namedVoices voices := by
  by_contra hn
  refine h.voices (BitVec.eq_of_getLsbD_eq fun i hi => ?_)
  have hi' : ¬ voices.getLsbD i = true := fun e => hn ⟨⟨i, hi⟩, mem_namedVoices.mpr e⟩
  simpa using hi'

theorem State.TuneInHand.force_cases : force = 0 ∨ force = 1 := by
  rcases Nat.le_one_iff_eq_zero_or_eq_one.mp h.force_le with e | e
  · exact .inl (BitVec.eq_of_toNat_eq e)
  · exact .inr (BitVec.eq_of_toNat_eq e)

/-- A TUNE that some voice grants. -/
theorem State.TuneInHand.exec_granted
    (he : ∃ v, s.tuneTakes (namedVoices voices) (decide (force = 1)) v ∨ s.tuneWaits (namedVoices voices) (decide (force = 1)) v) :
    exec (.tune voices dests force) s = .next ((s.tuneBegun (namedVoices voices) (decide (force = 1)) dests).answer .accepted
      (claimSet (s.tuneAnswers (namedVoices voices) (decide (force = 1))) (· == .taken)
        ++ claimSet (s.tuneAnswers (namedVoices voices) (decide (force = 1))) (· == .pending)
        ++ skippedBytes (s.tuneAnswers (namedVoices voices) (decide (force = 1))))) := by
  exact (State.exec_tune h.inHand h.idle h.voices h.dests h.dests_le h.force_le).trans
    (congrArg Host.Outcome.next (if_pos (State.tune_granted.mpr he)))

/-- A TUNE of which every voice is refused changes nothing (R107). -/
theorem State.TuneInHand.exec_skipped (hk : ∀ v, voices.getLsbD v.val = true → (s.voice v).state = .absent ∨ (s.voice v).state = .offline
      ∨ (s.voice v).state = .quarantined ∨ (s.voice v).offlinePending = true ∧
        ((s.voice v).state = .sounding ∨ (s.voice v).state = .releasing ∨ (s.voice v).state = .stealGap)) :
    exec (.tune voices dests force) s = .next (s.onlyAnswered .ok (bytes16 voices ++ s.skipReasons voices)) := by
  have hskips : ∀ v ∈ namedVoices voices, ¬ (s.voice v).spare ∧ ¬ (s.voice v).claimable ∧ (s.voice v).state ≠ .calibrating := by
    intro v hv
    unfold VoiceRec.spare VoiceRec.claimable
    rcases hk v (mem_namedVoices.mp hv) with e | e | e | ⟨ho, e | e | e⟩ <;> simp [e]
    all_goals simp [ho]
  have hnone : ∀ f, ¬ ((s.tuneAnswers (namedVoices voices) f).any fun x => x.answer.granted) = true := fun f hg => by
    obtain ⟨v, hv⟩ := State.tune_granted.mp hg
    rcases hv with hv | hv
    · obtain ⟨h1, h2, -⟩ := hskips v hv.1
      exact hv.2.elim h1 fun e => h2 e.2
    · exact (hskips v hv.1).2.1 hv.2.2
  have hclaimed : ∀ f, s.claimed (namedVoices voices) f false = s := fun f => by
    have hvoice : ∀ v, (s.claimed (namedVoices voices) f false).voice v = s.voice v := fun v => by
      rw [State.voice_claimed (nodup_namedVoices voices)]
      split
      · obtain ⟨h1, h2, -⟩ := hskips v ‹_›
        exact VoiceRec.claimed_of_skipped h1 h2
      · rfl
    have hframe := State.claimed_frame (nodup_namedVoices voices) (s := s)
      (fun v hv e => (hskips v hv).1 (.inr e)) f false
    rw [hframe]
    refine congrArg (fun x => { s with voices := x }) ?_
    exact Vector.ext fun i hi => hvoice ⟨i, hi⟩
  have hlost : ∀ f, s.tuneLost (namedVoices voices) f = [] := fun f => List.filterMap_eq_nil_iff.mpr fun v hv => by
    obtain ⟨h1, h2, -⟩ := hskips v hv
    unfold VoiceRec.claimLost
    unfold VoiceRec.claimable at h2
    cases hs : (s.voice v).state <;> simp [hs] at h2 ⊢ <;> simp [h2]
  have hset : s.tuneSkipped (namedVoices voices) (decide (force = 1)) = voices := voiceBits_eq fun v => by
    rw [Bool.eq_iff_iff, ← mem_namedVoices, Bool.and_eq_true, decide_eq_true_iff, Bool.not_eq_true', VoiceRec.claimAnswer_granted]
    exact ⟨fun e => e.1, fun e => ⟨e, (hskips v e).1, (hskips v e).2.1⟩⟩
  refine (State.exec_tune h.inHand h.idle h.voices h.dests h.dests_le h.force_le).trans
    (congrArg Host.Outcome.next ((if_neg (hnone _)).trans ?_))
  rw [State.skippedBytes_tune fun v hv => (hskips v hv).2.2, hset, State.tuneHomed, hlost, hclaimed]
  rfl

end

/-- A bit set of voices is known by its voices. -/
theorem eq_of_voices {a b : BitVec 16} (h : ∀ v : Voice, a.getLsbD v.val = true ↔ b.getLsbD v.val = true) : a = b :=
  BitVec.eq_of_getLsbD_eq fun i hi => Bool.eq_iff_iff.mpr (h ⟨i, hi⟩)

theorem eq_zero_of_voices {a : BitVec 16} (h : ∀ v : Voice, ¬ a.getLsbD v.val = true) : a = 0 :=
  eq_of_voices fun v => ⟨fun e => absurd e (h v), fun e => by simp at e⟩

section
variable {s : State} {voices : BitVec 16} {dests force : Byte} (h : s.TuneInHand voices dests force)
include h

/-- A TUNE whose voices are all IDLE (R46, R107, R110). -/
theorem State.TuneInHand.all_idle (hi : ∀ v, voices.getLsbD v.val = true → (s.voice v).state = .idle) :
    ends (.tune voices dests force) s fun t =>
      t.port = s.answered .accepted (bytes16 voices ++ List.replicate 20 0) ∧
      t.tune.outcome = .running ∧ t.tune.force = decide (force = 1) ∧ t.tune.cal = s.tune.cal ∧
      (∃ x, t.tune.service = some x ∧ voices.getLsbD x.voice.val = true ∧ x.dest = firstOf dests ∧
        s.destBegins t x.voice x.dest (s.tune.unit = none) ∧ t.entered x.voice .inService dests (firstOf dests) ∧
        ∀ v : Voice, (v.val < x.voice.val → ¬ voices.getLsbD v.val = true) ∧
          (v ≠ x.voice → voices.getLsbD v.val = true → t.entered v .waiting dests (firstOf dests))) ∧
      ∀ v, (voices.getLsbD v.val = true → t.voice v = { s.voice v with state := .calibrating }) ∧
        (¬ voices.getLsbD v.val = true → t.voice v = s.voice v ∧ (t.entry v).state = .notInPass) := by
  have hvs := nodup_namedVoices voices
  have hidle : ∀ v ∈ namedVoices voices, (s.voice v).state = .idle := fun v hv => hi v (mem_namedVoices.mp hv)
  have hc : ∀ v ∈ namedVoices voices, (s.voice v).state ≠ .calibrating := fun v hv => by rw [hidle v hv]; simp
  have hspare : ∀ v ∈ namedVoices voices, (s.voice v).spare := fun v hv => .inl (hidle v hv)
  have hclaimable : ∀ v ∈ namedVoices voices, ¬ (s.voice v).claimable := fun v hv hk =>
    VoiceRec.not_spare_of_claimable hk (hspare v hv)
  generalize hf : decide (force = 1) = f
  have htakes : ∀ v, s.tuneTakes (namedVoices voices) f v ↔ voices.getLsbD v.val = true := fun v =>
    ⟨fun e => mem_namedVoices.mp e.1, fun e => ⟨mem_namedVoices.mpr e, .inl (hspare v (mem_namedVoices.mpr e))⟩⟩
  obtain ⟨w, hw⟩ := h.named
  have he : ∃ v, s.tuneTakes (namedVoices voices) f v ∨ s.tuneWaits (namedVoices voices) f v :=
    ⟨w, .inl ((htakes w).mpr (mem_namedVoices.mp hw))⟩
  have hexec := h.exec_granted (by rw [hf]; exact he)
  rw [hf] at hexec
  have hlost : s.tuneLost (namedVoices voices) f = [] := List.filterMap_eq_nil_iff.mpr fun v hv => by
    unfold VoiceRec.claimLost
    rw [hidle v hv]
  have hhomed : s.tuneHomed (namedVoices voices) f = s.claimed (namedVoices voices) f false := by
    rw [State.tuneHomed, hlost]
    rfl
  have hframe := State.claimed_frame hvs (s := s) (fun v hv => by rw [hidle v hv]; simp) f false
  have htune : (s.tuneHomed (namedVoices voices) f).tune = s.tune := by rw [hhomed, hframe]
  obtain ⟨-, -, hserves, -⟩ := State.tuneBegun_spec hvs h.dests h.dests_le he
  obtain ⟨-, hport, hrun, hforce, hcal, -⟩ := State.tuneBegun_frame hvs h.dests h.dests_le he
  obtain ⟨hvoices, -⟩ := State.tuneBegun_voices hvs h.dests h.dests_le he
  have hentries := State.tuneBegun_entries hvs h.dests h.dests_le he hc
  have hk := s.tuneHomed_keyWork (namedVoices voices) f
  obtain ⟨x, x1, x2, x3, x4, x5, x6, x7⟩ := hserves ⟨w, (htakes w).mpr (mem_namedVoices.mp hw)⟩
  obtain ⟨taken, pending, skipped, hsets, hbits⟩ := State.tuneAnswer_sets (f := f) hc
  obtain rfl : taken = voices := eq_of_voices fun v => (hbits v).1.trans (htakes v)
  obtain rfl : pending = 0 := eq_zero_of_voices fun v e => hclaimable v ((hbits v).2.1.mp e).1 ((hbits v).2.1.mp e).2.2
  obtain rfl : skipped = 0 := eq_zero_of_voices fun v e => ((hbits v).2.2.mp e).2.1 (hspare v ((hbits v).2.2.mp e).1)
  have hvoice : ∀ v, (s.tuneBegun (namedVoices taken) f dests).voice v = (s.claimed (namedVoices taken) f false).voice v := fun v => by
    rw [State.voice, hvoices, hhomed]
    rfl
  refine ⟨_, hexec, ?_⟩
  generalize s.tuneBegun (namedVoices taken) f dests = t at *
  simp only [State.answer_tune, State.voice_answer, State.entry_answer]
  refine ⟨?_, hrun, hforce, hcal, ⟨x, x1, (htakes _).mp x2, x4, ?_, x5, fun v => ⟨fun hlt hv => ?_, fun hne hv => ?_⟩⟩,
    fun v => ⟨fun hv => ?_, fun hv => ⟨?_, ?_⟩⟩⟩
  · rw [State.answer_port hport, hsets, s.skipReasons_zero, List.append_assoc, List.append_assoc]
    rfl
  · exact x7.of_eq hk.plan hk.cal hk.settings (by rw [htune]) fun _ => by rw [htune]
  · exact absurd (x3 v ((htakes v).mpr hv)) (by omega)
  · exact x6 v hne ((htakes v).mpr hv)
  · rw [hvoice, (State.voice_claimed_takes hvs ((htakes v).mpr hv)).2.1 (hspare v (mem_namedVoices.mpr hv))]
  · rw [hvoice, State.voice_claimed hvs, if_neg fun e => hv (mem_namedVoices.mp e)]
  · exact (hentries v).1 fun e => hv (mem_namedVoices.mp e)

/-- A TUNE without force whose voices are all at a key (R47, R107). -/
theorem State.TuneInHand.all_keyed (hf0 : force = 0) (hk : ∀ v, voices.getLsbD v.val = true → (s.voice v).claimable) :
    ends (.tune voices dests force) s fun t =>
      t.port = s.answered .accepted ([0, 0] ++ bytes16 voices ++ List.replicate 18 0) ∧
      t.tune.outcome = .running ∧ t.tune.service = none ∧
      ∀ v, (voices.getLsbD v.val = true → t.voice v = { s.voice v with tunePending := true } ∧ t.entered v .pending dests (firstOf dests)) ∧
        (¬ voices.getLsbD v.val = true → t.voice v = s.voice v ∧ (t.entry v).state = .notInPass) := by
  subst hf0
  have hvs := nodup_namedVoices voices
  have hclaimable : ∀ v ∈ namedVoices voices, (s.voice v).claimable := fun v hv => hk v (mem_namedVoices.mp hv)
  have hc : ∀ v ∈ namedVoices voices, (s.voice v).state ≠ .calibrating := fun v hv e => by
    obtain ⟨-, h⟩ := hclaimable v hv
    simp [e] at h
  have hspare : ∀ v ∈ namedVoices voices, ¬ (s.voice v).spare := fun v hv => VoiceRec.not_spare_of_claimable (hclaimable v hv)
  have htakes : ∀ v, ¬ s.tuneTakes (namedVoices voices) false v := fun v e => e.2.elim (hspare v e.1) fun e => by cases e.1
  have hwaits : ∀ v, s.tuneWaits (namedVoices voices) false v ↔ voices.getLsbD v.val = true := fun v =>
    ⟨fun e => mem_namedVoices.mp e.1, fun e => ⟨mem_namedVoices.mpr e, rfl, hk v e⟩⟩
  obtain ⟨w, hw⟩ := h.named
  have he : ∃ v, s.tuneTakes (namedVoices voices) false v ∨ s.tuneWaits (namedVoices voices) false v :=
    ⟨w, .inr ((hwaits w).mpr (mem_namedVoices.mp hw))⟩
  have hexec := h.exec_granted he
  change exec (.tune voices dests 0) s = .next ((s.tuneBegun (namedVoices voices) false dests).answer .accepted
      (claimSet (s.tuneAnswers (namedVoices voices) false) (· == .taken)
        ++ claimSet (s.tuneAnswers (namedVoices voices) false) (· == .pending)
        ++ skippedBytes (s.tuneAnswers (namedVoices voices) false))) at hexec
  obtain ⟨-, hnone, -⟩ := State.tuneBegun_spec hvs h.dests h.dests_le he
  obtain ⟨-, hport, hrun, -⟩ := State.tuneBegun_frame hvs h.dests h.dests_le he
  obtain ⟨hvoices, -⟩ := State.tuneBegun_voices hvs h.dests h.dests_le he
  have hentries := State.tuneBegun_entries hvs h.dests h.dests_le he hc
  obtain ⟨taken, pending, skipped, hsets, hbits⟩ := State.tuneAnswer_sets (f := false) hc
  obtain rfl : taken = 0 := eq_zero_of_voices fun v e => htakes v ((hbits v).1.mp e)
  obtain rfl : pending = voices := eq_of_voices fun v => (hbits v).2.1.trans (hwaits v)
  obtain rfl : skipped = 0 := eq_zero_of_voices fun v e => ((hbits v).2.2.mp e).2.2 (hclaimable v ((hbits v).2.2.mp e).1)
  have hvoice : ∀ v, (s.tuneBegun (namedVoices pending) false dests).voice v = (s.claimed (namedVoices pending) false false).voice v :=
    fun v => by
      rw [State.voice, hvoices, State.tuneHomed_of_not_force]
      rfl
  refine ⟨_, hexec, ?_⟩
  generalize s.tuneBegun (namedVoices pending) false dests = t at *
  simp only [State.answer_tune, State.voice_answer, State.entry_answer]
  refine ⟨?_, hrun, hnone htakes, fun v => ⟨fun hv => ⟨?_, (hentries v).2.1 ((hwaits v).mpr hv)⟩, fun hv => ⟨?_, ?_⟩⟩⟩
  · rw [State.answer_port hport, hsets, s.skipReasons_zero, List.append_assoc, List.append_assoc, List.append_assoc]
    rfl
  · rw [hvoice, State.voice_claimed_waits hvs ((hwaits v).mpr hv)]
  · rw [hvoice, State.voice_claimed hvs, if_neg fun e => hv (mem_namedVoices.mp e)]
  · exact (hentries v).1 fun e => hv (mem_namedVoices.mp e)

end

/-! ### The obligation -/

/-- Settles O31: the claims go by each voice's own record, the keys they take by force are offered once all have left, and the pass
takes the lowest-numbered voice. -/
theorem tuneClaimsItsVoices : Obligations.TuneClaimsItsVoices := by
  intro voices dests force s hi named first
  obtain ⟨hr1, hr2⟩ := State.exec_tune_refused hi
  refine ⟨hr1, hr2, fun hr hv h0 h7 hf => ?_⟩
  have h : s.TuneInHand voices dests force := ⟨hi, hr, hv, h7, h0, hf⟩
  have hforce1 : (force.toNat = 1) = (force = 1) := propext ⟨fun e => BitVec.eq_of_toNat_eq e, fun e => by rw [e]; rfl⟩
  refine ⟨fun hidle => ?_, fun hf0 hk => h.all_keyed hf0 hk, h.exec_skipped, ?_⟩
  · simp only [hforce1]
    exact h.all_idle hidle
  intro spare keyed takes waits skips he hcal
  have hvs := nodup_namedVoices voices
  have hnamed : ∀ v, named v ↔ v ∈ namedVoices voices := fun v => mem_namedVoices.symm
  have hf1 : force = 1 ↔ decide (force = 1) = true := decide_eq_true_iff.symm
  have hf0 : force = 0 ↔ decide (force = 1) = false := by
    rcases h.force_cases with rfl | rfl <;> decide
  have htakes : takes = s.tuneTakes (namedVoices voices) (decide (force = 1)) := funext fun v => propext <|
    and_congr (hnamed v) (or_congr Iff.rfl (and_congr hf1 Iff.rfl))
  have hwaits : waits = s.tuneWaits (namedVoices voices) (decide (force = 1)) := funext fun v => propext <|
    and_congr (hnamed v) (and_congr hf0 Iff.rfl)
  have hskips : skips = s.tuneSkips (namedVoices voices) := funext fun v => propext <| and_congr (hnamed v) Iff.rfl
  clear_value takes waits skips
  subst htakes hwaits hskips
  have hc : ∀ v ∈ namedVoices voices, (s.voice v).state ≠ .calibrating := fun v hv => hcal v (mem_namedVoices.mp hv)
  have hexec := h.exec_granted he
  obtain ⟨-, hnone, hserves, -⟩ := State.tuneBegun_spec hvs h0 h7 he
  obtain ⟨⟨e1, e2, e3, e4, e5, e6, e7⟩, hport, hrest⟩ := State.tuneBegun_frame hvs h0 h7 he
  obtain ⟨hvoices, hparts, hstamp, hpicks, hcheck⟩ := State.tuneBegun_voices hvs h0 h7 he
  have hentries := State.tuneBegun_entries hvs h0 h7 he hc
  obtain ⟨taken, pending, skipped, hsets, hbits⟩ := State.tuneAnswer_sets (f := decide (force = 1)) hc
  have hk := s.tuneHomed_keyWork (namedVoices voices) (decide (force = 1))
  rw [hsets] at hexec
  generalize decide (force = 1) = f at *
  have hvoice : ∀ v, (s.tuneBegun (namedVoices voices) f dests).voice v = (s.tuneHomed (namedVoices voices) f).voice v := fun v => by
    rw [State.voice, hvoices]
    rfl
  refine ⟨⟨_, hexec, ?_⟩, fun hf => ⟨_, hexec, ?_⟩, fun hf ha hs => ⟨_, hexec, ?_⟩⟩
  · refine ⟨State.eq_of_kept e1 e2 e3 e4 e5 e6 e7, hrest.1, hrest.2.1, hrest.2.2.1, hrest.2.2.2.1, hrest.2.2.2.2,
      ⟨taken, pending, skipped, State.answer_port hport _ _, hbits⟩, hnone, fun htakes => ?_, fun c hcs hv hr => ?_, fun v =>
      ⟨fun hn => (hentries v).1 fun e => hn ((hnamed v).mpr e), fun ht => ?_, fun hn hsp => ?_, fun ht hk => ?_, (hentries v).2.1,
        fun hsk => ⟨?_, (hentries v).2.2 hsk⟩⟩⟩
    · obtain ⟨x, x1, x2, x3, x4, x5, x6, x7⟩ := hserves htakes
      exact ⟨x, x1, x2, x3, x4, x5, x6, fun hw => State.tuneHomed_destBegins hw hcheck x7⟩
    · exact hcheck.trans (State.tuneHomed_check_gone hvs hcs ((hnamed _).mp hv) hr)
    · have hstate : ((s.tuneBegun (namedVoices voices) f dests).voice v).state = .calibrating := by
        rw [hvoice, State.voice_tuneHomed_takes hvs ht]
        exact (State.voice_claimed_takes hvs ht).1
      refine ⟨hstate, ?_⟩
      change (((s.tuneBegun (namedVoices voices) f dests).voice v).state == .sounding) = false
      rw [hstate]
      rfl
    · have ht : s.tuneTakes (namedVoices voices) f v := ⟨(hnamed v).mp hn, .inl hsp⟩
      exact (hvoice v).trans ((State.voice_tuneHomed_takes hvs ht).trans ((State.voice_claimed_takes hvs ht).2.1 hsp))
    · change ((s.tuneBegun (namedVoices voices) f dests).voice v).asg = none
        ∧ ((s.tuneBegun (namedVoices voices) f dests).voice v).tunePending = false
      rw [hvoice, State.voice_tuneHomed_takes hvs ht]
      exact (State.voice_claimed_takes hvs ht).2.2 hk
    · exact (hvoice v).trans (State.voice_tuneHomed_skips hvs hsk)
  · obtain rfl : f = false := hf0.mp hf
    have hclaimed := s.tuneHomed_of_not_force (namedVoices voices)
    have hm := s.claimed_moves (namedVoices voices) false false
    rw [← hclaimed] at hm
    refine ⟨hparts.trans (congrArg State.parts hm :), hstamp.trans (congrArg State.stamp hm :),
      hpicks.trans (congrArg State.freePicks hm :), fun c hcs hn => ?_, fun v => ⟨fun hn => ?_, fun hw => ?_⟩⟩
    · exact hcheck.trans (State.tuneHomed_check_kept hvs hcs fun e => hn ⟨(hnamed _).mpr e.1, e.2⟩)
    · refine (hvoice v).trans ?_
      rw [hclaimed, State.voice_claimed hvs, if_neg fun e => hn ((hnamed v).mpr e)]
    · refine (hvoice v).trans ?_
      rw [hclaimed, State.voice_claimed_waits hvs hw]
  · obtain rfl : f = true := hf1.mp hf
    have hforced := State.tuneBegun_forced (vs := namedVoices voices) rfl h0 h7 he ha hs
    simp only [← hnamed] at hforced
    exact hforced

end Sys2Proof.Machine
end

