-- ==== Sys2Proof/Proofs/PatchCopies.lean ====
section
/-! PROOFS. A patch copied into the parts that want it: their records and voices, the arming of the panel, the notices and the STORE
jobs unlinked (R41, R42, R149, R174, R175, R177, R179). -/

namespace Sys2Proof.Machine

/-! ### STORE jobs unlinked (R179) -/

theorem Job.unlinkWhere_eq (f : CacheNo → PartNo → Bool) (j : Job) : j.unlinkWhere f = j.unlinkedBy f := by cases j <;> rfl

theorem Job.unlinkedBy_unlinkedBy (f g : CacheNo → PartNo → Bool) (j : Job) :
    (j.unlinkedBy f).unlinkedBy g = j.unlinkedBy fun x q => f x q || g x q := by
  cases j with
  | fetch => rfl
  | store l c p n linked => simp [Job.unlinkedBy, Bool.and_assoc]

theorem Job.unlinkedBy_none {f : CacheNo → PartNo → Bool} (h : ∀ x q, f x q = false) (j : Job) : j.unlinkedBy f = j := by
  cases j with
  | fetch => rfl
  | store l c p n linked => simp [Job.unlinkedBy, h]

theorem Job.unlinkedBy_slot (f : CacheNo → PartNo → Bool) (j : Job) : (j.unlinkedBy f).slot = j.slot := by cases j <;> rfl

theorem Job.unlinkedBy_reads (f : CacheNo → PartNo → Bool) (l : Nat) (j : Job) : (j.unlinkedBy f).reads l = j.reads l := by
  cases j <;> rfl

/-! ### Recall notices (R175, R197) -/

theorem State.getLsbD_postRecall (s : State) (p : PartNo) (i : Nat) :
    (s.postRecall p).notices.recalls.getLsbD i = (s.notices.recalls.getLsbD i || decide (i = p.val)) := by
  change (s.notices.recalls ||| 1#4 <<< p.val).getLsbD i = _
  have hp : p.val < 4 := p.isLt
  rw [BitVec.getLsbD_or, BitVec.getLsbD_shiftLeft, BitVec.getLsbD_one]
  congr 1
  rw [Bool.eq_iff_iff]
  simp
  omega

/-! ### One copy (R175) -/

/-- A part's record with a patch of a location copied into it (R175). -/
def Part.took (q : Part) (x : Patch) (o : Option Nat) : Part :=
  { q with live := x, origin := o, dirty := false, wanted := none, lastRecall := .ok }

/-- From `s` to `t`, the parts of a list take the patch `x` of the location `o`: what of the state is touched, and how (R175). -/
structure State.Copied (L : List PartNo) (x : Patch) (o : Option Nat) (s t : State) : Prop where
  taken : ∀ l, o = some l → State.patchesTaken x l L s t
  patches : t.patches = { s.patches with queue := s.patches.queue.map (Job.unlinkedBy fun _ q => decide (q ∈ L)) }
  others : ∀ q, q ∉ L → t.part q = s.part q
  parts : ∀ q, q ∈ L → ∃ a b d, t.part q = { (s.part q).took x o with lastPitch := a, steals := b, drops := d }
  posted : ∀ q : PartNo, q ∈ L → t.notices.recalls.getLsbD q.val = true
  kept : ∀ i, s.notices.recalls.getLsbD i = true → t.notices.recalls.getLsbD i = true
  panel : s.panel.focus ∉ L → t.panel = s.panel
  armed : s.panel.focus ∈ L → t.panel = { s.panel with channels := t.panel.channels } ∧ s.armedIn t (fun _ => True) x
  port : t.port = s.port
  settings : t.settings = s.settings

/-- The record of a part that takes slot contents, with its STORE jobs unlinked, before the allocator is told (R175). -/
def State.takes (s : State) (p : PartNo) (x : Patch) (o : Option Nat) : State :=
  (s.modPart p fun q => q.took x o).unlink fun _ q => q == p

/-- The arming of the panel and the notice at a copy (R149, R175). -/
def State.announced (u : State) (p : PartNo) : State := (if u.panel.focus = p then u.armAll else u).postRecall p

/-- The panel at a copy: armed where the part has the focus (R149, R175). -/
def State.announcedPanel (u : State) (p : PartNo) : Panel := if u.panel.focus = p then u.armAll.panel else u.panel

theorem State.announced_eq (u : State) (p : PartNo) :
    u.announced p = { u with panel := u.announcedPanel p, notices := (u.postRecall p).notices } := by
  have h : (if u.panel.focus = p then u.armAll else u) = { u with panel := u.announcedPanel p } := by
    unfold State.announcedPanel
    split
    · exact u.armWhere_frame fun _ => true
    · rfl
  unfold State.announced
  rw [h]
  rfl

/-- A copy of a patch of some location, once its slot is read (R175). -/
def State.copied (s : State) (p : PartNo) (x : Patch) (o : Option Nat) : State :=
  ((s.takes p x o).afterPatch p (s.part p).live.voiceMode).announced p

theorem State.copyInto_eq (s : State) (c : CacheNo) (p : PartNo) :
    s.copyInto c p = s.copied p ((s.cache c).contents.getD .default) (s.cache c).location := rfl

theorem State.takes_part (s : State) (p q : PartNo) (x : Patch) (o : Option Nat) :
    (s.takes p x o).part q = if p = q then (s.part q).took x o else s.part q :=
  State.part_modPart s p q fun r => r.took x o

theorem State.takes_patches (s : State) (p : PartNo) (x : Patch) (o : Option Nat) :
    (s.takes p x o).patches = { s.patches with queue := s.patches.queue.map (Job.unlinkedBy fun _ q => q == p) } := by
  have h : Job.unlinkWhere (fun _ q => q == p) = Job.unlinkedBy fun _ q => q == p := funext (Job.unlinkWhere_eq _)
  change { s.patches with queue := s.patches.queue.map (Job.unlinkWhere fun _ q => q == p) } = _
  rw [h]

/-- A copy as the statements write it: the patch taken, the panel and the notice (R149, R175). -/
theorem State.copied_copied (s : State) (p : PartNo) (x : Patch) (o : Option Nat) : State.Copied [p] x o s (s.copied p x o) := by
  have hframe := ((s.takes p x o).afterPatch p (s.part p).live.voiceMode).announced_eq p
  have hk := State.afterPatch_keyWork (s.takes p x o) p (s.part p).live.voiceMode
  have hf := State.afterPatch_forPart (s.takes p x o) p (s.part p).live.voiceMode
  have hpatches := s.takes_patches p x o
  have htaken : ∀ (t : State) l, o = some l → t.voices = ((s.takes p x o).afterPatch p (s.part p).live.voiceMode).voices →
      t.stamp = ((s.takes p x o).afterPatch p (s.part p).live.voiceMode).stamp →
      t.parts = ((s.takes p x o).afterPatch p (s.part p).live.voiceMode).parts → s.patchTaken t p ((s.part p).took x (some l)) :=
    fun t l e h1 h2 h3 => ⟨s.takes p x o, rfl, rfl, rfl, by rw [State.takes_part, if_pos rfl, e],
      fun q hq => by rw [State.takes_part, if_neg (Ne.symm hq)], h1, h2, h3⟩
  have e : s.copied p x o = ((s.takes p x o).afterPatch p (s.part p).live.voiceMode).announced p := rfl
  rw [← e] at hframe
  generalize s.copied p x o = t at hframe ⊢
  generalize (s.takes p x o).afterPatch p (s.part p).live.voiceMode = u at *
  have hfocus : u.focusPatch = (u.part s.panel.focus).live := by
    rw [State.focusPatch, hk.panel]
    rfl
  have hpart : ∀ q, t.part q = u.part q := fun q => by rw [hframe]; rfl
  have hpanel : t.panel = if s.panel.focus = p then u.armAll.panel else s.panel := by
    have hup : u.panel = s.panel := hk.panel
    rw [hframe, ← hup]
    rfl
  have hbit : ∀ i, t.notices.recalls.getLsbD i = (s.notices.recalls.getLsbD i || decide (i = p.val)) := fun i => by
    have hr : u.notices.recalls = s.notices.recalls := (congrArg Notices.recalls hk.notices :)
    rw [hframe]
    change (u.postRecall p).notices.recalls.getLsbD i = _
    rw [State.getLsbD_postRecall, hr]
  have hfun : (fun (_ : CacheNo) (q : PartNo) => decide (q ∈ [p])) = fun _ q => q == p := by
    funext _ q
    by_cases h : q = p <;> simp [h]
  have hsettings : t.settings = s.settings := by rw [hframe]; exact hk.settings
  refine ⟨fun l e => ⟨t, hsettings, htaken t l e (by rw [hframe]) (by rw [hframe]) (by rw [hframe]), rfl, rfl, rfl⟩, ?_, fun q hq => ?_,
    fun q hq => ?_, fun q hq => ?_, fun i hi => ?_, fun hn => ?_, fun hm => ?_, by rw [hframe]; exact hk.port, hsettings⟩
  · rw [hframe]
    exact hk.patches.trans (by rw [hpatches, hfun])
  · have hq : q ≠ p := by simpa using hq
    rw [hpart, hf.others q hq, State.takes_part, if_neg (Ne.symm hq)]
  · obtain rfl : q = p := by simpa using hq
    have h := hk.part q
    rw [← hpart, State.takes_part, if_pos rfl] at h
    exact ⟨_, _, _, h⟩
  · obtain rfl : q = p := by simpa using hq
    rw [hbit]
    simp
  · rw [hbit, hi]
    rfl
  · rw [hpanel, if_neg (by simpa using hn)]
  · have hm : s.panel.focus = p := by simpa using hm
    rw [if_pos hm] at hpanel
    refine ⟨?_, State.armedIn_of_channels fun ch => ?_⟩
    · have harm : u.armAll.panel = { u.panel with channels := u.armAll.panel.channels } :=
        (congrArg State.panel (State.armWhere_frame u fun _ => true) :)
      rw [hpanel, harm, hk.panel]
      rfl
    · have hch : t.channel ch = u.armAll.channel ch := by rw [State.channel, hpanel]; rfl
      have hlive : (u.part s.panel.focus).live = x := by
        rw [hm, hk.part p, State.takes_part, if_pos rfl]
        rfl
      rw [if_pos trivial, hch, State.armAll, State.channel_armWhere, if_pos rfl, hfocus, hlive, State.channel, hk.panel]
      rfl

/-- A part that takes a patch is within its limit (R41, R42). -/
theorem State.count_copied (s : State) (p : PartNo) (x : Patch) (o : Option Nat) :
    (s.copied p x o).count p ≤ (s.copied p x o).limit p := by
  have hframe := ((s.takes p x o).afterPatch p (s.part p).live.voiceMode).announced_eq p
  have hc := State.count_afterPatch (s.takes p x o) p (s.part p).live.voiceMode
  have hf := State.afterPatch_forPart (s.takes p x o) p (s.part p).live.voiceMode
  have e : s.copied p x o = ((s.takes p x o).afterPatch p (s.part p).live.voiceMode).announced p := rfl
  rw [← e] at hframe
  generalize s.copied p x o = t at hframe ⊢
  rw [← hf.limit] at hc
  generalize (s.takes p x o).afterPatch p (s.part p).live.voiceMode = u at *
  have hcount : t.count p = u.count p := State.count_of_voices (by rw [hframe]) p
  have hlimit : t.limit p = u.limit p := State.limit_of_live (by rw [hframe]; rfl)
  rw [hcount, hlimit]
  exact hc

/-! ### Copies into a list of parts (R174, R177) -/

theorem State.patchTaken_congr {s s' t t' : State} {p : PartNo} {q : Part} (h : s.patchTaken t p q)
    (hs : s'.voices = s.voices ∧ s'.stamp = s.stamp ∧ s'.settings = s.settings) (ho : ∀ r, r ≠ p → s'.part r = s.part r)
    (hl : (s'.part p).live = (s.part p).live) (ht : t'.voices = t.voices ∧ t'.stamp = t.stamp ∧ t'.parts = t.parts) :
    s'.patchTaken t' p q := by
  obtain ⟨u, h1, h2, h3, h4, h5, h6, h7, h8⟩ := h
  obtain ⟨s1, s2, s3⟩ := hs
  obtain ⟨t1, t2, t3⟩ := ht
  refine ⟨u, h1.trans s1.symm, h2.trans s2.symm, h3.trans s3.symm, h4, fun r hr => (h5 r hr).trans (ho r hr).symm, ?_⟩
  rw [hl]
  exact ⟨t1.trans h6, t2.trans h7, t3.trans h8⟩

theorem State.patchesTaken_congr {x : Patch} {l : Nat} {L : List PartNo} {s s' t t' : State} (h : State.patchesTaken x l L s t)
    (hs : s'.voices = s.voices ∧ s'.stamp = s.stamp ∧ s'.settings = s.settings ∧ s'.parts = s.parts)
    (ht : t'.voices = t.voices ∧ t'.stamp = t.stamp ∧ t'.parts = t.parts) : State.patchesTaken x l L s' t' := by
  obtain ⟨t1, t2, t3⟩ := ht
  induction L generalizing s s' with
  | nil =>
    obtain ⟨h1, h2, h3⟩ := h
    obtain ⟨s1, s2, -, s4⟩ := hs
    exact ⟨t1.trans (h1.trans s1.symm), t2.trans (h2.trans s2.symm), t3.trans (h3.trans s4.symm)⟩
  | cons p L ih =>
    obtain ⟨r, hr, ⟨u, h1, h2, h3, h4, h5, h6⟩, hL⟩ := h
    obtain ⟨s1, s2, s3, s4⟩ := hs
    have hpart : ∀ q, s'.part q = s.part q := fun q => by rw [State.part, s4]; rfl
    refine ⟨r, hr.trans s3.symm, ⟨u, h1.trans s1.symm, h2.trans s2.symm, h3.trans s3.symm, ?_, fun q hq => ?_, ?_⟩,
      ih hL ⟨rfl, rfl, rfl, rfl⟩⟩
    · rw [hpart]
      exact h4
    · rw [hpart]
      exact h5 q hq
    · rw [hpart]
      exact h6

theorem State.Copied.nil (x : Patch) (o : Option Nat) (s : State) : State.Copied [] x o s s := by
  have hnone : s.patches.queue.map (Job.unlinkedBy fun _ q => decide (q ∈ ([] : List PartNo))) = s.patches.queue := by
    rw [List.map_congr_left (g := id) fun j _ => Job.unlinkedBy_none (by simp) j, List.map_id]
  refine ⟨fun _ _ => ⟨rfl, rfl, rfl⟩, by rw [hnone], fun _ _ => rfl, nofun, nofun, fun _ h => h, fun _ => rfl, nofun, rfl, rfl⟩

/-- One copy and then the others (R174). -/
theorem State.Copied.cons {p : PartNo} {L : List PartNo} {x : Patch} {o : Option Nat} {s r t : State} (hp : p ∉ L)
    (h : State.Copied [p] x o s r) (k : State.Copied L x o r t) : State.Copied (p :: L) x o s t := by
  have hpatches : t.patches = { s.patches with
      queue := s.patches.queue.map (Job.unlinkedBy fun _ q => decide (q ∈ p :: L)) } := by
    have hmap : (s.patches.queue.map (Job.unlinkedBy fun _ q => decide (q ∈ [p]))).map (Job.unlinkedBy fun _ q => decide (q ∈ L)) =
        s.patches.queue.map (Job.unlinkedBy fun _ q => decide (q ∈ p :: L)) := by
      rw [List.map_map]
      refine List.map_congr_left fun j _ => ?_
      refine (Job.unlinkedBy_unlinkedBy _ _ j).trans (congrArg (fun f => j.unlinkedBy f) ?_)
      funext _ q
      simp [List.mem_cons, Bool.decide_or]
    rw [k.patches, h.patches, hmap]
  have hfocus : ∀ {y : Panel}, r.panel = { s.panel with channels := y.channels } → r.panel.focus = s.panel.focus := fun e => by rw [e]
  refine ⟨fun l e => ?_, hpatches, fun q hq => ?_, fun q hq => ?_, fun q hq => ?_, fun i hi => k.kept i (h.kept i hi), fun hn => ?_,
    fun hm => ?_, k.port.trans h.port, k.settings.trans h.settings⟩
  · obtain ⟨r', hr', htaken, h1, h2, h3⟩ := h.taken l e
    exact ⟨r', hr', htaken, State.patchesTaken_congr (k.taken l e) ⟨h1.symm, h2.symm, hr'.trans h.settings.symm, h3.symm⟩ ⟨rfl, rfl, rfl⟩⟩
  · obtain ⟨hq1, hq2⟩ := not_or.mp (mt List.mem_cons.mpr hq)
    rw [k.others q hq2, h.others q (by simpa using hq1)]
  · rcases List.mem_cons.mp hq with rfl | hq
    · rw [k.others q hp]
      exact h.parts q (by simp)
    · have hne : q ∉ [p] := fun e => hp (by rwa [← List.mem_singleton.mp e])
      rw [← h.others q hne]
      exact k.parts q hq
  · rcases List.mem_cons.mp hq with rfl | hq
    · exact k.kept _ (h.posted q (by simp))
    · exact k.posted q hq
  · obtain ⟨hn1, hn2⟩ := not_or.mp (mt List.mem_cons.mpr hn)
    have hr := h.panel (by simpa using hn1)
    exact (k.panel (by rw [hr]; exact hn2)).trans hr
  · by_cases hm1 : s.panel.focus = p
    · obtain ⟨h1, h2⟩ := h.armed (by simp [hm1])
      have ht := k.panel (by rw [hfocus h1, hm1]; exact hp)
      rw [State.armedIn] at *
      simp only [State.channel, ht] at *
      exact ⟨h1, h2⟩
    · have hr := h.panel (by simpa using hm1)
      obtain ⟨k1, k2⟩ := k.armed (by rw [hr]; exact (List.mem_cons.mp hm).resolve_left hm1)
      rw [hr] at k1
      refine ⟨k1, fun c => ?_⟩
      have hc : r.channel c = s.channel c := by rw [State.channel, hr]; rfl
      have := k2 c
      rw [hc] at this
      exact this

/-- Copies into a list of parts, one after another (R174). -/
theorem State.copied_fold {L : List PartNo} (hL : L.Nodup) (s : State) (c : CacheNo) {x : Patch} {o : Option Nat}
    (hx : (s.cache c).contents.getD .default = x) (ho : (s.cache c).location = o) :
    State.Copied L x o s (L.foldl (fun (t : State) p => t.copyInto c p) s) := by
  induction L generalizing s with
  | nil => exact .nil x o s
  | cons p L ih =>
    obtain ⟨hp, hL⟩ := List.nodup_cons.mp hL
    have h : State.Copied [p] x o s (s.copyInto c p) := by
      rw [State.copyInto_eq, hx, ho]
      exact s.copied_copied p x o
    have hcache : (s.copyInto c p).cache c = s.cache c := by rw [State.cache, h.patches]; rfl
    exact .cons hp h (ih hL _ (by rw [hcache]; exact hx) (by rw [hcache]; exact ho))

theorem State.mem_wanting {s : State} {l : Nat} {q : PartNo} : q ∈ s.wanting l ↔ (s.part q).wanted = some l := by
  simp [State.wanting, allParts]

theorem State.nodup_wanting (s : State) (l : Nat) : (s.wanting l).Nodup := (List.nodup_finRange 4).filter _

/-- The parts that want a location take a slot's contents (R174, R177). -/
theorem State.copyToWanting_copied (s : State) (c : CacheNo) (l : Nat) {x : Patch} {o : Option Nat}
    (hx : (s.cache c).contents.getD .default = x) (ho : (s.cache c).location = o) :
    State.Copied (s.wanting l) x o s (s.copyToWanting c l) := State.copied_fold (s.nodup_wanting l) s c hx ho

/-- The copies as the statements write them, from and to states that differ in other places (R174, R177). -/
theorem State.Copied.copiesMade {s r t u : State} {x : Patch} {l : Nat} (h : State.Copied (s.wanting l) x (some l) r t)
    (hs : s.voices = r.voices ∧ s.stamp = r.stamp ∧ s.settings = r.settings ∧ s.parts = r.parts) (hp : s.panel = r.panel)
    (hu : u.voices = t.voices ∧ u.stamp = t.stamp ∧ u.parts = t.parts) (hup : u.panel = t.panel) : s.copiesMade u x l := by
  refine ⟨State.patchesTaken_congr (h.taken l rfl) hs hu, fun hm => ?_, fun hn => ?_⟩
  · obtain ⟨h1, h2⟩ := h.armed (by rw [← hp]; exact State.mem_wanting.mpr hm)
    rw [hup, hp]
    refine ⟨h1, fun c => ?_⟩
    have := h2 c
    rw [State.channel, State.channel] at this
    rw [State.channel, State.channel, hp, hup]
    exact this
  · rw [hup, hp]
    exact h.panel (by rw [← hp]; exact fun e => hn (State.mem_wanting.mp e))

end Sys2Proof.Machine
end

