-- ==== Sys2Proof/Proofs/LinkStarts.lean ====
section
/-! PROOFS. The store-link's queue: how its head starts (R168, R172, R173, R178), and the slots (R164, R165). -/

namespace Sys2Proof.Machine

/-! ### The head starts (R168, R172) -/

/-- The three address bytes of a location's page (R172). -/
theorem byte3_pageAddress (l : Nat) : byte3 (pageAddress l) = pageBytes l := by
  have h1 : BitVec.ofNat 8 (256 * l / 65536) = BitVec.ofNat 8 (l / 256) := by
    rw [show 256 * l / 65536 = l / 256 by omega]
  have h2 : (BitVec.ofNat 16 (256 * l)).extractLsb' 8 8 = BitVec.ofNat 8 l := by
    refine BitVec.eq_of_toNat_eq ?_
    simp only [BitVec.extractLsb'_toNat, BitVec.toNat_ofNat, Nat.shiftRight_eq_div_pow]
    omega
  have h3 : (BitVec.ofNat 16 (256 * l)).extractLsb' 0 8 = 0 := by
    refine BitVec.eq_of_toNat_eq ?_
    simp only [BitVec.extractLsb'_toNat, BitVec.toNat_ofNat, Nat.shiftRight_zero]
    change _ = 0
    omega
  unfold byte3 byte2 bytes16 pageAddress pageBytes
  rw [h1, h2, h3]

/-- The step with which a job starts once the flash is ready (R173, R178). -/
def Job.startStep : Job → JobStep
  | .fetch .. => .read
  | .store .. => .erase 0

/-- The transactions with which a job starts once the flash is ready (R173, R178). -/
def Job.startFrames : Job → List FlashFrame
  | .fetch l _ _ _ => [⟨0x03 :: pageBytes l, 74⟩]
  | .store l _ _ _ _ => [⟨[0x06], 0⟩, ⟨0xDB :: pageBytes l, 0⟩]

theorem State.passReady_starts (s : State) (j : Job) :
    (s.passReady j).patches.head = some j.startStep ∧ (s.passReady j).patches.sent = s.patches.sent ++ j.startFrames := by
  cases j with
  | fetch l c p d =>
    refine ⟨rfl, ?_⟩
    change s.patches.sent ++ [⟨0x03 :: byte3 (pageAddress l), 74⟩] = _
    rw [byte3_pageAddress]
    rfl
  | store l c p n k =>
    refine ⟨rfl, ?_⟩
    change s.patches.sent ++ [⟨[0x06], 0⟩, ⟨0xDB :: byte3 (pageAddress l), 0⟩] = _
    rw [byte3_pageAddress]
    rfl

theorem State.startHead_queue (s : State) : s.startHead.patches.queue = s.patches.queue := by rw [s.startHead_frame]

theorem State.startHead_flash (s : State) : s.startHead.patches.flashStatus = s.patches.flashStatus := by rw [s.startHead_frame]

/-- The start of the head, by the queue and the status that the flash last showed (R168, R172). -/
theorem State.startHead_cons {s : State} {j : Job} {js : List Job} (hq : s.patches.queue = j :: js) :
    s.startHead = if s.patches.flashStatus.getLsbD 0 then (s.send [.statusRead]).setHead (some (.readyWait 0))
      else (s.send [.statusRead]).passReady j := by
  unfold State.startHead
  rw [hq]
  rfl

/-- The head starts, as the statements write it (R168, R172, R173, R178). -/
theorem State.startHead_headStarts (s : State) : s.startHead.headStarts s.patches.sent := by
  have hqueue := s.startHead_queue
  have hflash := s.startHead_flash
  unfold State.headStarts
  rw [hqueue, hflash]
  cases hq : s.patches.queue with
  | nil =>
    have e : s.startHead = s.setHead none := by unfold State.startHead; rw [hq]
    rw [e]
    exact ⟨rfl, rfl⟩
  | cons j js =>
    have e := State.startHead_cons hq
    have hbusy : s.patches.flashStatus.getLsbD 0 = true → s.startHead.patches.head = some (.readyWait 0) ∧
        s.startHead.patches.sent = s.patches.sent ++ [⟨[0x05], 1⟩] ++ [] := fun hb => by
      rw [e, if_pos hb, List.append_nil]
      exact ⟨rfl, rfl⟩
    cases j with
    | fetch l c p d =>
      refine ⟨hbusy, fun hb => ?_⟩
      rw [e, if_neg hb]
      exact (s.send [.statusRead]).passReady_starts (.fetch l c p d)
    | store l c p n k =>
      refine ⟨hbusy, fun hb => ?_⟩
      rw [e, if_neg hb]
      exact (s.send [.statusRead]).passReady_starts (.store l c p n k)

/-- The step with which a STORE, or a FETCH, becomes the head (R168, R172). -/
theorem State.startHead_head {s : State} {j : Job} {js : List Job} (hq : s.patches.queue = j :: js) :
    s.startHead.patches.head = some (if s.patches.flashStatus.getLsbD 0 then .readyWait 0 else j.startStep) := by
  rw [State.startHead_cons hq]
  split
  · rfl
  · exact (State.passReady_starts _ j).1

/-! ### The next job, and a job queued (R168) -/

theorem State.queueJob_queue (s : State) (j : Job) : (s.queueJob j).patches.queue = s.patches.queue ++ [j] := by
  unfold State.queueJob
  simp only
  split
  · exact State.startHead_queue _
  · rfl

theorem State.queueJob_flash (s : State) (j : Job) : (s.queueJob j).patches.flashStatus = s.patches.flashStatus := by
  rw [s.queueJob_linkWork j]

/-- Into an empty queue, the job becomes the head and starts (R168). -/
theorem State.queueJob_of_nil {s : State} (h : s.patches.queue = []) (j : Job) :
    (s.queueJob j).headStarts [] ∧ (s.queueJob j).patches.head =
      some (if s.patches.flashStatus.getLsbD 0 then .readyWait 0 else j.startStep) := by
  have e : s.queueJob j = (s.setQueue (s.patches.queue ++ [j])).beginLink.startHead := by
    unfold State.queueJob
    simp only [h, List.isEmpty_nil, if_true]
  have hq : (s.setQueue (s.patches.queue ++ [j])).beginLink.patches.queue = [j] := by
    change s.patches.queue ++ [j] = [j]
    rw [h]
    rfl
  rw [e]
  exact ⟨State.startHead_headStarts _, State.startHead_head hq⟩

theorem State.queueJob_of_cons {s : State} (h : s.patches.queue ≠ []) (j : Job) :
    s.queueJob j = s.setQueue (s.patches.queue ++ [j]) := by
  unfold State.queueJob
  simp only [List.isEmpty_iff, h, if_false]


theorem State.nextJob_queue (s : State) : s.nextJob.patches.queue = s.patches.queue.drop 1 :=
  (s.setQueue (s.patches.queue.drop 1)).startHead_queue

theorem State.nextJob_flash (s : State) : s.nextJob.patches.flashStatus = s.patches.flashStatus :=
  (s.setQueue (s.patches.queue.drop 1)).startHead_flash

theorem State.nextJob_headStarts (s : State) : s.nextJob.headStarts s.patches.sent :=
  (s.setQueue (s.patches.queue.drop 1)).startHead_headStarts

theorem State.nextJob_head (s : State) : s.nextJob.patches.head = none ↔ s.patches.queue.drop 1 = [] := by
  have h := (s.setQueue (s.patches.queue.drop 1)).startHead_isSome
  rw [← not_iff_not, ← ne_eq, ← Option.isSome_iff_ne_none]
  exact h

/-- Link work leaves all but the queue, the head's step and the transactions as they are. -/
theorem State.LinkWork.slots {s t : State} (h : s.LinkWork t) : t.patches.slots = s.patches.slots := by rw [h]

theorem State.LinkWork.cache {s t : State} (h : s.LinkWork t) (c : CacheNo) : t.cache c = s.cache c := by
  rw [State.cache, h.slots]
  rfl

theorem State.LinkWork.part {s t : State} (h : s.LinkWork t) (p : PartNo) : t.part p = s.part p := by rw [h]; rfl

theorem State.LinkWork.rest {s t : State} (h : s.LinkWork t) :
    t.parts = s.parts ∧ t.voices = s.voices ∧ t.stamp = s.stamp ∧ t.panel = s.panel ∧ t.notices = s.notices ∧ t.port = s.port := by
  rw [h]
  exact ⟨rfl, rfl, rfl, rfl, rfl, rfl⟩

/-- From `s` to `t`, nothing changes but the queue. -/
def State.QueueWork (s t : State) : Prop := t = { s with patches := { s.patches with queue := t.patches.queue } }

theorem State.setQueue_queueWork (s : State) (q : List Job) : s.QueueWork (s.setQueue q) := rfl

theorem State.QueueWork.trans {s t u : State} (h : s.QueueWork t) (k : t.QueueWork u) : s.QueueWork u := by
  unfold State.QueueWork at *
  rw [h] at k
  exact k

theorem State.QueueWork.linkWork {s t : State} (h : s.QueueWork t) : s.LinkWork t := by
  unfold State.QueueWork at h
  unfold State.LinkWork
  rw [h]

theorem State.QueueWork.link {s t : State} (h : s.QueueWork t) :
    t.patches.flashStatus = s.patches.flashStatus ∧ t.patches.head = s.patches.head ∧ t.patches.sent = s.patches.sent
      ∧ t.settings = s.settings := by
  unfold State.QueueWork at h
  rw [h]
  exact ⟨rfl, rfl, rfl, rfl⟩

/-! ### Slots (R164, R165) -/

/-- A slot made most recent, as the statements write the ranks (R165). -/
theorem State.cache_touched (s : State) (c d : CacheNo) : (s.touchCache c).cache d = { s.cache d with rank := s.rankAfter c d } :=
  s.cache_touchCache c d

/-- A slot replaced at its rank and made most recent (R165). -/
theorem State.cache_touchCache_setCache (s : State) (c : CacheNo) {r : CacheSlot} (hr : r.rank = (s.cache c).rank) (d : CacheNo) :
    ((s.setCache c r).touchCache c).cache d =
      if c = d then { r with rank := 0 } else { s.cache d with rank := s.rankAfter c d } := by
  have hset := fun d => s.cache_setCache c d r
  have hrank : ∀ d, ((s.setCache c r).cache d).rank = (s.cache d).rank := fun d => by
    rw [hset]
    split
    · rename_i e; rw [← e, hr]
    · rfl
  have hafter : (s.setCache c r).rankAfter c d = s.rankAfter c d := by
    unfold State.rankAfter
    rw [hrank, hrank]
  rw [State.cache_touched, hafter, hset]
  split
  · rename_i h
    subst h
    rw [State.rankAfter, if_pos rfl]
  · rfl

end Sys2Proof.Machine
end

