-- ==== Sys2Proof/Proofs/JobEnds.lean ====
section
/-! PROOFS. FETCH_READ_COMPLETE and VERIFY_COMPLETE end their jobs (R165, R173 to R175, R177 to R180), and O55. -/

namespace Sys2Proof.Machine

/-! ### A fetch that ends with its record (R165, R174, R175) -/

section
variable {s : State} {l : Nat} {c : CacheNo} {bytes : List Byte}

/-- The slot of a fetch that read its record, before the copies (R165, R174). -/
def State.slotFilled (s : State) (c : CacheNo) (x : Patch) : State :=
  (s.beginLink.setCache c { s.cache c with state := .valid, contents := some x }).touchCache c

theorem State.cache_slotFilled (s : State) (c : CacheNo) (x : Patch) (e : CacheNo) :
    (s.slotFilled c x).cache e = if c = e then { s.cache c with state := .valid, contents := some x, rank := 0 }
      else { s.cache e with rank := s.rankAfter c e } :=
  State.cache_touchCache_setCache s.beginLink c (r := { s.cache c with state := .valid, contents := some x }) rfl e

/-- The state after a fetch that read its record. -/
def State.fetched (s : State) (l : Nat) (c : CacheNo) (x : Patch) : State := ((s.slotFilled c x).copyToWanting c l).nextJob

/-- The copies of a fetch's record. -/
theorem State.fetched_copied (s : State) (l : Nat) (c : CacheNo) (x : Patch) :
    State.Copied (s.wanting l) x (s.cache c).location (s.slotFilled c x) ((s.slotFilled c x).copyToWanting c l) := by
  have hc := s.cache_slotFilled c x c
  rw [if_pos rfl] at hc
  exact (s.slotFilled c x).copyToWanting_copied c l (by rw [hc]; rfl) (by rw [hc])

/-- What a fetch that read its record leaves (R165, R168, R174, R175, R179). -/
theorem State.fetched_spec (s : State) (l : Nat) (c : CacheNo) (x : Patch) :
    let t := s.fetched l c x
    (t.patches.queue = (s.patches.queue.drop 1).map (Job.unlinkedBy fun _ q => (s.part q).wanted == some l)) ∧
    (t.headStarts [] ∧ t.patches.flashStatus = s.patches.flashStatus ∧ (t.patches.head = none ↔ s.patches.queue.drop 1 = [])) ∧
    (t.cache c = { s.cache c with state := .valid, contents := some x, rank := 0 } ∧
      ∀ e, e ≠ c → t.cache e = { s.cache e with rank := s.rankAfter c e }) ∧
    ((s.cache c).location = some l → s.copiesMade t x l) ∧
    (∀ q, (s.part q).wanted ≠ some l → t.part q = s.part q) ∧
    ∀ q, (s.part q).wanted = some l → t.notices.recalls.getLsbD q.val = true ∧
      ∃ a b d, t.part q = { (s.part q).took x (s.cache c).location with lastPitch := a, steals := b, drops := d } := by
  intro t
  have hcop := s.fetched_copied l c x
  have hlink := ((s.slotFilled c x).copyToWanting c l).nextJob_linkWork
  have hqueue := ((s.slotFilled c x).copyToWanting c l).nextJob_queue
  have hflash := ((s.slotFilled c x).copyToWanting c l).nextJob_flash
  have hstarts := ((s.slotFilled c x).copyToWanting c l).nextJob_headStarts
  have hhead := ((s.slotFilled c x).copyToWanting c l).nextJob_head
  have ht : t = ((s.slotFilled c x).copyToWanting c l).nextJob := rfl
  have hcache := s.cache_slotFilled c x
  rw [← ht] at hlink hqueue hflash hstarts hhead
  clear_value t
  generalize hu : (s.slotFilled c x).copyToWanting c l = u at *
  have hfun : (fun (_ : CacheNo) (q : PartNo) => decide (q ∈ s.wanting l)) = fun _ q => (s.part q).wanted == some l := by
    funext _ q
    rw [Bool.eq_iff_iff, decide_eq_true_iff, State.mem_wanting, beq_iff_eq]
  have hpatches : u.patches = { (s.slotFilled c x).patches with
      queue := s.patches.queue.map (Job.unlinkedBy fun _ q => (s.part q).wanted == some l) } := by
    rw [hcop.patches, hfun]
    rfl
  have hq : u.patches.queue = s.patches.queue.map (Job.unlinkedBy fun _ q => (s.part q).wanted == some l) := by rw [hpatches]
  have hslots : ∀ e, u.cache e = (s.slotFilled c x).cache e := fun e => by rw [State.cache, hpatches]; rfl
  obtain ⟨r1, r2, r3, r4, r5, -⟩ := hlink.rest
  refine ⟨?_, ⟨?_, ?_, ?_⟩, ⟨?_, fun e he => ?_⟩, fun hl => ?_, fun q hw => ?_, fun q hw => ⟨?_, ?_⟩⟩
  · rw [hqueue, hq, List.map_drop]
  · have hsent : u.patches.sent = [] := by rw [hpatches]; rfl
    rw [hsent] at hstarts
    exact hstarts
  · rw [hflash, hpatches]
    rfl
  · rw [hhead, hq, ← List.map_drop, List.map_eq_nil_iff]
  · rw [hlink.cache, hslots, hcache, if_pos rfl]
  · rw [hlink.cache, hslots, hcache, if_neg (Ne.symm he)]
  · rw [hl] at hcop
    exact State.Copied.copiesMade (s := s) (r := s.slotFilled c x) hcop ⟨rfl, rfl, rfl, rfl⟩ rfl ⟨r2, r3, r1⟩ r4
  · rw [hlink.part, hcop.others q fun hm => hw (State.mem_wanting.mp hm)]
    rfl
  · rw [r5]
    exact hcop.posted q (State.mem_wanting.mpr hw)
  · rw [hlink.part]
    exact hcop.parts q (State.mem_wanting.mpr hw)

/-! ### A fetch that fails (R164, R174) -/

theorem State.failRecall_fold {L : List PartNo} (hL : L.Nodup) (s : State) (why : PatchResult) :
    let t := L.foldl (fun (t : State) p => t.failRecall p why) s
    t = { s with parts := t.parts, notices := t.notices } ∧
    (∀ q, t.part q = if q ∈ L then { s.part q with wanted := none, lastRecall := why } else s.part q) ∧
    (∀ q : PartNo, q ∈ L → t.notices.recalls.getLsbD q.val = true) ∧
    ∀ i, s.notices.recalls.getLsbD i = true → t.notices.recalls.getLsbD i = true := by
  induction L generalizing s with
  | nil => exact ⟨rfl, fun _ => rfl, nofun, fun _ h => h⟩
  | cons p L ih =>
    obtain ⟨hp, hL⟩ := List.nodup_cons.mp hL
    obtain ⟨h1, h2, h3, h4⟩ := ih hL (s.failRecall p why)
    have hpart : ∀ q, (s.failRecall p why).part q = if p = q then { s.part q with wanted := none, lastRecall := why } else s.part q :=
      fun q => State.part_modPart s p q fun r => { r with wanted := none, lastRecall := why }
    have hbit := fun i => State.getLsbD_postRecall (s.modPart p fun r => { r with wanted := none, lastRecall := why }) p i
    refine ⟨h1, fun q => ?_, fun q hq => ?_, fun i hi => h4 i ?_⟩
    · refine (h2 q).trans ?_
      rw [hpart]
      by_cases e : p = q
      · subst e
        simp [hp]
      · simp [e, Ne.symm e]
    · rcases List.mem_cons.mp hq with rfl | hq
      · refine h4 _ ((hbit _).trans ?_)
        simp
      · exact h3 q hq
    · exact (hbit i).trans (by rw [show (s.modPart p _).notices.recalls.getLsbD i = true from hi]; rfl)

/-- What a failed fetch leaves (R164, R168, R174). -/
theorem State.endFetch_failed (s : State) (l : Nat) (c : CacheNo) (why : PatchResult) :
    let t := s.beginLink.endFetch l c false why none
    (t.patches.queue = s.patches.queue.drop 1 ∧ t.panel = s.panel ∧ t.voices = s.voices) ∧
    (t.headStarts [] ∧ t.patches.flashStatus = s.patches.flashStatus ∧ (t.patches.head = none ↔ s.patches.queue.drop 1 = [])) ∧
    (t.cache c = ⟨.empty, none, none, (s.cache c).rank, false, 0⟩ ∧ ∀ e, e ≠ c → t.cache e = s.cache e) ∧
    (∀ q, (s.part q).wanted ≠ some l → t.part q = s.part q) ∧
    ∀ q, (s.part q).wanted = some l → t.part q = { s.part q with wanted := none, lastRecall := why } ∧
      t.notices.recalls.getLsbD q.val = true := by
  intro t
  obtain ⟨h1, h2, h3, -⟩ := State.failRecall_fold (s.nodup_wanting l) (s.beginLink.emptyCache c) why
  have ht : t = ((s.wanting l).foldl (fun (t : State) p => t.failRecall p why) (s.beginLink.emptyCache c)).nextJob := rfl
  have hcache := fun e => (s.beginLink.cache_emptyCache c e)
  generalize (s.wanting l).foldl (fun (t : State) p => t.failRecall p why) (s.beginLink.emptyCache c) = u at *
  have hlink := u.nextJob_linkWork
  have hqueue := u.nextJob_queue
  have hflash := u.nextJob_flash
  have hstarts := u.nextJob_headStarts
  have hhead := u.nextJob_head
  rw [← ht] at hlink hqueue hflash hstarts hhead
  clear_value t
  obtain ⟨-, r2, -, r4, r5, -⟩ := hlink.rest
  have hpatches : u.patches = (s.beginLink.emptyCache c).patches := by rw [h1]
  have hq : u.patches.queue = s.patches.queue := by rw [hpatches]; rfl
  have hslots : ∀ e, t.cache e = (s.beginLink.emptyCache c).cache e := fun e => by rw [hlink.cache, State.cache, hpatches]; rfl
  rw [hq] at hqueue hhead
  refine ⟨⟨hqueue, r4.trans (by rw [h1]; rfl), r2.trans (by rw [h1]; rfl)⟩, ⟨?_, ?_, hhead⟩, ⟨?_, fun e he => ?_⟩, fun q hw => ?_,
    fun q hw => ⟨?_, ?_⟩⟩
  · have hsent : u.patches.sent = [] := by rw [hpatches]; rfl
    rw [hsent] at hstarts
    exact hstarts
  · rw [hflash, hpatches]
    rfl
  · rw [hslots, hcache, if_pos rfl]
    rfl
  · rw [hslots, hcache, if_neg (Ne.symm he)]
    rfl
  · rw [hlink.part, h2, if_neg fun hm => hw (State.mem_wanting.mp hm)]
    rfl
  · rw [hlink.part, h2, if_pos (State.mem_wanting.mpr hw)]
    rfl
  · rw [r5]
    exact h3 q (State.mem_wanting.mpr hw)

end

/-! ### A store that ends (R164, R178 to R180) -/

/-- What the result of a store and the next job leave, from a state `u` whose slots and parts the store has settled (R168, R179,
R180). -/
theorem State.storeResult_nextJob (u : State) (l : Nat) (why : PatchResult) (hs : u.patches.sent = []) :
    let t := (u.storeResult l why).nextJob
    (t.patches.queue = u.patches.queue.drop 1 ∧ (t.patches.head = none ↔ u.patches.queue.drop 1 = []) ∧ t.headStarts []
      ∧ t.patches.flashStatus = u.patches.flashStatus) ∧
    t.patches.lastStore = why ∧ t.patches.lastStoreLoc = some l ∧ t.notices = { u.notices with store := true } ∧
    t.parts = u.parts ∧ t.voices = u.voices ∧ t.panel = u.panel ∧ ∀ x, t.cache x = u.cache x := by
  intro t
  have hlink := (u.storeResult l why).nextJob_linkWork
  have hqueue := (u.storeResult l why).nextJob_queue
  have hflash := (u.storeResult l why).nextJob_flash
  have hstarts := (u.storeResult l why).nextJob_headStarts
  have hhead := (u.storeResult l why).nextJob_head
  have ht : t = (u.storeResult l why).nextJob := rfl
  rw [← ht] at hlink hqueue hflash hstarts hhead
  clear_value t
  obtain ⟨r1, r2, -, r4, r5, -⟩ := hlink.rest
  have hsent : (u.storeResult l why).patches.sent = [] := hs
  rw [hsent] at hstarts
  refine ⟨⟨hqueue, hhead, hstarts, hflash⟩, ?_, ?_, r5, r1, r2, r4, fun x => hlink.cache x⟩
  · rw [hlink]
    rfl
  · rw [hlink]
    rfl

/-- What a store that was read back leaves (R179). -/
theorem State.storeDone_spec (s : State) (l : Nat) (c : CacheNo) (p : PartNo) (n : BitVec 16) (linked : Bool) :
    let t := s.beginLink.storeDone l c p n linked
    (t.patches.queue = s.patches.queue.drop 1 ∧ (t.patches.head = none ↔ s.patches.queue.drop 1 = []) ∧ t.headStarts []
      ∧ t.patches.flashStatus = s.patches.flashStatus) ∧
    t.patches.lastStore = .ok ∧ t.patches.lastStoreLoc = some l ∧ t.notices = { s.notices with store := true } ∧
    t.voices = s.voices ∧ t.panel = s.panel ∧
    (∀ x, t.cache x = if c = x then { s.cache c with pin := (s.cache c).pin - 1 } else s.cache x) ∧
    ∀ q, t.part q = if p = q ∧ linked = true ∧ (s.part p).editCount = n then { s.part q with dirty := false, origin := some l }
      else s.part q := by
  have hcache : ∀ x, (s.beginLink.unpin c).cache x = if c = x then { s.cache c with pin := (s.cache c).pin - 1 } else s.cache x :=
    fun x => State.cache_setCache _ c x _
  by_cases h : linked = true ∧ (s.part p).editCount = n
  · have hb : (linked && ((s.beginLink.unpin c).part p).editCount == n) = true := by
      rw [Bool.and_eq_true, beq_iff_eq]
      exact h
    have e : s.beginLink.storeDone l c p n linked = (((s.beginLink.unpin c).modPart p fun q =>
        { q with dirty := false, origin := some l }).storeResult l .ok).nextJob := by
      unfold State.storeDone
      simp only [hb, if_true]
    rw [e]
    obtain ⟨h1, h2, h3, h4, h5, h6, h7, h8⟩ := State.storeResult_nextJob ((s.beginLink.unpin c).modPart p fun q =>
      { q with dirty := false, origin := some l }) l .ok rfl
    refine ⟨h1, h2, h3, h4, h6, h7, fun x => (h8 x).trans (hcache x), fun q => ?_⟩
    rw [State.part, h5]
    refine (State.part_modPart (s.beginLink.unpin c) p q _).trans ?_
    by_cases e : p = q
    · rw [if_pos e, if_pos ⟨e, h⟩]
      rfl
    · rw [if_neg e, if_neg fun e' => e e'.1]
      rfl
  · have hb : (linked && ((s.beginLink.unpin c).part p).editCount == n) = false := by
      rw [Bool.eq_false_iff, ne_eq, Bool.and_eq_true, beq_iff_eq]
      exact h
    have e : s.beginLink.storeDone l c p n linked = ((s.beginLink.unpin c).storeResult l .ok).nextJob := by
      unfold State.storeDone
      simp only [hb]
      rfl
    rw [e]
    obtain ⟨h1, h2, h3, h4, h5, h6, h7, h8⟩ := State.storeResult_nextJob (s.beginLink.unpin c) l .ok rfl
    refine ⟨h1, h2, h3, h4, h6, h7, fun x => (h8 x).trans (hcache x), fun q => ?_⟩
    rw [if_neg fun e' => h e'.2, State.part, h5]
    rfl

/-- What a store that failed leaves (R164, R180). -/
theorem State.storeFailed_spec (s : State) (l : Nat) (c : CacheNo) (why : PatchResult) :
    let t := s.beginLink.storeFailed l c why
    (t.patches.queue = s.patches.queue.drop 1 ∧ (t.patches.head = none ↔ s.patches.queue.drop 1 = []) ∧ t.headStarts []
      ∧ t.patches.flashStatus = s.patches.flashStatus) ∧
    t.patches.lastStore = why ∧ t.patches.lastStoreLoc = some l ∧ t.notices = { s.notices with store := true } ∧
    t.parts = s.parts ∧ t.voices = s.voices ∧ t.panel = s.panel ∧ (∀ x, x ≠ c → t.cache x = s.cache x) ∧
    ((s.cache c).pin = 1 → t.cache c = ⟨.empty, none, none, (s.cache c).rank, false, 0⟩) ∧
    (2 ≤ (s.cache c).pin → t.cache c = { s.cache c with pin := (s.cache c).pin - 1 }) := by
  have hcache : ∀ x, (s.beginLink.unpin c).cache x = if c = x then { s.cache c with pin := (s.cache c).pin - 1 } else s.cache x :=
    fun x => State.cache_setCache _ c x _
  have hself := hcache c
  rw [if_pos rfl] at hself
  by_cases hp : ((s.beginLink.unpin c).cache c).pin = 0
  · have e : s.beginLink.storeFailed l c why = (((s.beginLink.unpin c).emptyCache c).storeResult l why).nextJob := by
      unfold State.storeFailed
      simp only [hp, if_true]
    rw [e]
    obtain ⟨h1, h2, h3, h4, h5, h6, h7, h8⟩ := State.storeResult_nextJob ((s.beginLink.unpin c).emptyCache c) l why rfl
    refine ⟨h1, h2, h3, h4, h5, h6, h7, fun x hx => ?_, fun _ => ?_, fun h => ?_⟩
    · rw [h8, State.cache_emptyCache, if_neg (Ne.symm hx), hcache, if_neg (Ne.symm hx)]
    · rw [h8, State.cache_emptyCache, if_pos rfl, hself]
    · rw [hself] at hp
      change (s.cache c).pin - 1 = 0 at hp
      omega
  · have e : s.beginLink.storeFailed l c why = ((s.beginLink.unpin c).storeResult l why).nextJob := by
      unfold State.storeFailed
      simp only [hp, if_false]
    rw [e]
    obtain ⟨h1, h2, h3, h4, h5, h6, h7, h8⟩ := State.storeResult_nextJob (s.beginLink.unpin c) l why rfl
    refine ⟨h1, h2, h3, h4, h5, h6, h7, fun x hx => ?_, fun h => ?_, fun _ => ?_⟩
    · rw [h8, hcache, if_neg (Ne.symm hx)]
    · rw [hself] at hp
      change ¬ (s.cache c).pin - 1 = 0 at hp
      omega
    · rw [h8, hself]

/-! ### The obligation -/

theorem execFetchReadComplete_of_other {s : State} {bytes : List Byte} (h : s.patches.head ≠ some .read) :
    exec (.fetchReadComplete bytes) s = .next s := by
  change execFetchReadComplete bytes s = _
  unfold execFetchReadComplete
  split
  · exact absurd ‹_› h
  · rfl

theorem execVerifyComplete_of_other {s : State} {bytes : List Byte} (h : ∀ page, s.patches.head ≠ some (.verify page)) :
    exec (.verifyComplete bytes) s = .next s := by
  change execVerifyComplete bytes s = _
  unfold execVerifyComplete
  split
  · exact absurd ‹_› (h _)
  · rfl

/-- The read of a FETCH ends it (R173, R174). -/
theorem exec_fetchReadComplete {s : State} {bytes : List Byte} {l : Nat} {c : CacheNo} {p : PartNo} {d : Bool} {rest : List Job}
    (hq : s.patches.queue = .fetch l c p d :: rest) (hh : s.patches.head = some .read) :
    exec (.fetchReadComplete bytes) s = if bytes.length = 74 then
        .next (s.beginLink.endFetch l c d (judge bytes) (if judge bytes = .ok then some (patchOf bytes) else none))
      else .fault .malformedTransfer := by
  change execFetchReadComplete bytes s = _
  unfold execFetchReadComplete
  rw [hq, hh]
  rfl

/-- The read of a STORE's page ends it (R178 to R180). -/
theorem exec_verifyComplete {s : State} {bytes page : List Byte} {l : Nat} {c : CacheNo} {p : PartNo} {n : BitVec 16} {linked : Bool}
    {rest : List Job} (hq : s.patches.queue = .store l c p n linked :: rest) (hh : s.patches.head = some (.verify page)) :
    exec (.verifyComplete bytes) s = if bytes.length = 256 then
        .next (if bytes = page then s.beginLink.storeDone l c p n linked else s.beginLink.storeFailed l c .verifyFail)
      else .fault .malformedTransfer := by
  change execVerifyComplete bytes s = _
  unfold execVerifyComplete
  rw [hq, hh]
  rfl

/-- Settles O55: a detached fetch only makes room, a record is copied or its failure told, a store's verdict settles its slot, and
the next head starts. -/
theorem transfersEndTheirJobs : Obligations.TransfersEndTheirJobs := by
  intro bytes s
  refine ⟨execFetchReadComplete_of_other, execVerifyComplete_of_other, fun l c p d rest hq hh => ⟨fun hl => ?_, fun hl => ?_⟩,
    fun l c p n linked rest page hq hh => ⟨fun hl => ?_, fun hl => ?_⟩⟩
  · rw [exec_fetchReadComplete hq hh, if_neg hl]
  · refine ⟨_, (exec_fetchReadComplete hq hh).trans (if_pos hl), ?_⟩
    have hrest : s.patches.queue.drop 1 = rest := by rw [hq]; rfl
    cases d with
    | true =>
      have e : s.beginLink.endFetch l c true (judge bytes) (if judge bytes = .ok then some (patchOf bytes) else none) =
          s.beginLink.nextJob := rfl
      rw [e]
      have hlink := s.beginLink.nextJob_linkWork
      obtain ⟨r1, r2, r3, r4, r5, r6⟩ := hlink.rest
      have hqueue := s.beginLink.nextJob_queue.trans hrest
      have hhead := s.beginLink.nextJob_head
      have hhead : s.beginLink.nextJob.patches.head = none ↔ rest = [] := by rw [hhead, ← hrest]; rfl
      exact ⟨by rw [hqueue], hhead, s.beginLink.nextJob_headStarts, s.beginLink.nextJob_flash,
        fun _ => ⟨r1, hlink.slots, r5, hqueue, r2, r4⟩, nofun, nofun, nofun, nofun, nofun⟩
    | false =>
      by_cases hok : judge bytes = .ok
      · have e : s.beginLink.endFetch l c false (judge bytes) (if judge bytes = .ok then some (patchOf bytes) else none) =
            s.fetched l c (patchOf bytes) := by rw [if_pos hok]; rfl
        rw [e]
        obtain ⟨h1, ⟨h2, h3, h4⟩, ⟨h5, h6⟩, h7, h8, h9⟩ := s.fetched_spec l c (patchOf bytes)
        rw [hrest] at h1 h4
        refine ⟨?_, h4, h2, h3, nofun, fun _ _ hloc => ⟨h7 hloc, h1, h5, h6⟩, fun _ hn => absurd hok hn, fun _ => h8,
          fun _ _ => ⟨by rw [h5], by rw [h5], by rw [h5], fun hloc q hw => ?_⟩, fun _ hn => absurd hok hn⟩
        · rw [h1, List.map_map]
          exact List.map_congr_left fun j _ => Job.unlinkedBy_slot _ j
        · obtain ⟨k1, a, b, d, k2⟩ := h9 q hw
          rw [k2, hloc]
          exact ⟨rfl, rfl, rfl, rfl, rfl, k1⟩
      · rw [if_neg hok]
        obtain ⟨⟨h1, h2, h3⟩, ⟨h4, h5, h6⟩, ⟨h7, h8⟩, h9, h10⟩ := s.endFetch_failed l c (judge bytes)
        rw [hrest] at h1 h6
        exact ⟨by rw [h1], h6, h4, h5, nofun, fun _ hn => absurd hn hok, fun _ _ => ⟨h1, h2, h8⟩, fun _ => h9,
          fun _ hn => absurd hn hok, fun _ _ => ⟨h7, h3, h10⟩⟩
  · rw [exec_verifyComplete hq hh, if_neg hl]
  · refine ⟨_, (exec_verifyComplete hq hh).trans (if_pos hl), ?_⟩
    have hrest : s.patches.queue.drop 1 = rest := by rw [hq]; rfl
    by_cases he : bytes = page
    · rw [if_pos he]
      obtain ⟨⟨h1, h2, h3, h4⟩, h5, h6, h7, h8, h9, h10, h11⟩ := s.storeDone_spec l c p n linked
      rw [hrest] at h1 h2
      refine ⟨h1, h2, h6, h3, h4, h7, fun q hne => ?_, fun x hx => ?_, h8, h9, fun _ => ⟨h5, ?_, ?_⟩, fun hn => absurd he hn⟩
      · rw [h11, if_neg fun e => hne e.1.symm]
      · rw [h10, if_neg (Ne.symm hx)]
      · rw [h10, if_pos rfl]
      · rw [h11]
        simp
    · rw [if_neg he]
      obtain ⟨⟨h1, h2, h3, h4⟩, h5, h6, h7, h8, h9, h10, h11, h12, h13⟩ := s.storeFailed_spec l c .verifyFail
      rw [hrest] at h1 h2
      refine ⟨h1, h2, h6, h3, h4, h7, fun q _ => ?_, h11, h9, h10, fun hn => absurd hn he, fun _ => ⟨h5, h8, h12, h13⟩⟩
      rw [State.part, h8]
      rfl

end Sys2Proof.Machine
end

