-- ==== Sys2Proof/Proofs/Snapshots.lean ====
section
/-! PROOFS. The choice of a cache slot (R166), a STORE's snapshot and the fetch that it meets (R165, R176, R177, R179), and O51. -/

namespace Sys2Proof.Machine

/-! ### The choice of a slot (R166) -/

theorem State.leastRecent_eq_some {s : State} {L : List CacheNo} {c : CacheNo} (h : s.leastRecent L = some c) :
    c ∈ L ∧ ∀ d ∈ L, (s.cache d).rank ≤ (s.cache c).rank := by
  cases L with
  | nil => cases h
  | cons x xs =>
    obtain ⟨before, after, he, hb, ha⟩ := scanBest_isBest (fun y best : CacheNo => (s.cache best).rank < (s.cache y).rank) x xs
      (fun _ _ _ _ _ _ h k => lt_trans k h) (fun _ _ _ _ _ _ h k => lt_of_le_of_lt (not_lt.mp k) h)
    have hc : scanBest (fun y best : CacheNo => (s.cache best).rank < (s.cache y).rank) x xs = c := Option.some.inj h
    rw [hc] at he hb ha
    rw [he]
    refine ⟨by simp, fun d hd => ?_⟩
    rcases List.mem_append.mp hd with hd | hd
    · exact le_of_lt (hb d hd)
    · rcases List.mem_cons.mp hd with rfl | hd
      · exact le_rfl
      · exact not_lt.mp (ha d hd)

theorem State.leastRecent_eq_none {s : State} {L : List CacheNo} : s.leastRecent L = none ↔ L = [] := by
  cases L <;> simp [State.leastRecent]

theorem CacheSlot.replaceable_iff {r : CacheSlot} : r.replaceable = true ↔ r.state = .valid ∧ r.lock = false ∧ r.pin = 0 := by
  simp [CacheSlot.replaceable, and_assoc]

/-- The slot allocated is the one of R166. -/
theorem State.victim_choosesSlot {s : State} {c : CacheNo} (h : s.victim = some c) : s.choosesSlot c := by
  have hmem : ∀ d, d ∈ allCaches := List.mem_finRange
  unfold State.victim at h
  rcases Option.or_eq_some_iff.mp h with h | ⟨hn, h⟩
  · obtain ⟨h1, h2⟩ := State.leastRecent_eq_some h
    refine .inl ⟨by simpa using (List.mem_filter.mp h1).2, fun d hd => h2 d (List.mem_filter.mpr ⟨hmem d, by simpa using hd⟩)⟩
  · obtain ⟨h1, h2⟩ := State.leastRecent_eq_some h
    refine .inr ⟨fun d hd => ?_, CacheSlot.replaceable_iff.mp (List.mem_filter.mp h1).2,
      fun d hd => h2 d (List.mem_filter.mpr ⟨hmem d, CacheSlot.replaceable_iff.mpr hd⟩)⟩
    have := List.filter_eq_nil_iff.mp (State.leastRecent_eq_none.mp hn) d (hmem d)
    simp [hd] at this

theorem State.victim_eq_none {s : State} : s.victim = none ↔ ∀ c, (s.cache c).state ≠ .empty ∧ (s.cache c).replaceable = false := by
  unfold State.victim
  rw [Option.or_eq_none_iff, State.leastRecent_eq_none, State.leastRecent_eq_none, List.filter_eq_nil_iff, List.filter_eq_nil_iff]
  have hmem : ∀ d, d ∈ allCaches := List.mem_finRange
  refine ⟨fun ⟨h1, h2⟩ c => ⟨by simpa using h1 c (hmem c), by simpa using h2 c (hmem c)⟩, fun h => ⟨fun c _ => ?_, fun c _ => ?_⟩⟩
  · simpa using (h c).1
  · simpa using (h c).2

theorem State.exists_victim {s : State} (h : ∃ c, (s.cache c).state = .empty ∨ (s.cache c).replaceable = true) :
    ∃ c, s.victim = some c := by
  refine Option.isSome_iff_exists.mp (Option.isSome_iff_ne_none.mpr fun hn => ?_)
  obtain ⟨c, hc⟩ := h
  obtain ⟨h1, h2⟩ := State.victim_eq_none.mp hn c
  exact hc.elim h1 fun e => by rw [h2] at e; cases e

/-- A slot that R166 chooses is EMPTY, or with none EMPTY replaceable. -/
theorem State.choosesSlot.spare {s : State} {c : CacheNo} (h : s.choosesSlot c) :
    (s.cache c).state = .empty ∨ (∀ d, (s.cache d).state ≠ .empty) ∧ (s.cache c).replaceable = true :=
  h.imp (fun h => h.1) fun ⟨h1, h2, _⟩ => ⟨h1, CacheSlot.replaceable_iff.mpr h2⟩

theorem State.choosesSlot.not_filling {s : State} {c : CacheNo} (h : s.choosesSlot c) : (s.cache c).state ≠ .filling := by
  rcases h with ⟨h, -⟩ | ⟨-, ⟨h, -⟩, -⟩ <;> simp [h]

/-! ### The slot of a location (R166) -/

theorem State.slotOf_eq_some {s : State} {l : Nat} {c : CacheNo} (h : s.slotOf l = some c) :
    (s.cache c).state ≠ .empty ∧ (s.cache c).location = some l := by
  have := List.find?_some h
  simpa using this

theorem State.slotOf_eq_none {s : State} {l : Nat} :
    s.slotOf l = none ↔ ∀ c, (s.cache c).state ≠ .empty → (s.cache c).location ≠ some l := by
  unfold State.slotOf
  rw [List.find?_eq_none]
  simp [allCaches]

theorem State.slotOf_of_absent {s : State} {l : Nat} (h : ∀ c, (s.cache c).location ≠ some l) : s.slotOf l = none :=
  State.slotOf_eq_none.mpr fun c _ => h c

/-- Slots and jobs agree: what the patch manager's statements rest on (R164, R166, R170, R177). -/
theorem State.jobsRight.slotOf {s : State} (h : s.jobsRight) {l : Nat} {c : CacheNo} (hc : (s.cache c).location = some l) :
    s.slotOf l = some c := by
  obtain ⟨-, -, -, hempty, -, -, hone, -⟩ := h
  cases hd : s.slotOf l with
  | none =>
    have := State.slotOf_eq_none.mp hd c fun e => by rw [(hempty c).mp e] at hc; cases hc
    exact absurd hc this
  | some d =>
    obtain ⟨-, h2⟩ := State.slotOf_eq_some hd
    exact congrArg some (hone d c (by rw [h2]; simp) (h2.trans hc.symm))

theorem State.jobsRight.queue_of_filling {s : State} (h : s.jobsRight) {c : CacheNo} (hc : (s.cache c).state = .filling) :
    s.patches.queue ≠ [] := by
  obtain ⟨-, -, -, -, hfills, -⟩ := h
  intro e
  have := hfills c
  rw [e, hc] at this
  simp at this

/-! ### The snapshot of a STORE (R165, R176, R177, R179) -/

section
variable {s : State} {p : PartNo} {l : Nat} {c : CacheNo}

theorem State.cache_snapshotInto (s : State) (p : PartNo) (c : CacheNo) (l : Nat) (d : CacheNo) :
    (s.snapshotInto p c l).cache d = if c = d then { s.cache c with
        state := .valid, location := some l, contents := some (s.part p).live, pin := (s.cache c).pin + 1, rank := 0 }
      else { s.cache d with rank := s.rankAfter c d } :=
  State.cache_touchCache_setCache s c (r := { s.cache c with
    state := .valid, location := some l, contents := some (s.part p).live, pin := (s.cache c).pin + 1 }) rfl d

/-- The snapshot with the slot's earlier STORE jobs unlinked (R176, R179). -/
def State.snapped (s : State) (p : PartNo) (c : CacheNo) (l : Nat) : State := (s.snapshotInto p c l).unlink fun x _ => x == c

theorem State.snapped_kept (s : State) (p : PartNo) (c : CacheNo) (l : Nat) :
    (s.snapped p c l).parts = s.parts ∧ (s.snapped p c l).voices = s.voices ∧ (s.snapped p c l).stamp = s.stamp ∧
    (s.snapped p c l).panel = s.panel ∧ (s.snapped p c l).notices = s.notices ∧ (s.snapped p c l).port = s.port ∧
    (s.snapped p c l).patches.flashStatus = s.patches.flashStatus ∧ (s.snapped p c l).patches.head = s.patches.head ∧
    (s.snapped p c l).patches.sent = s.patches.sent ∧ (s.snapped p c l).settings = s.settings :=
  ⟨rfl, rfl, rfl, rfl, rfl, rfl, rfl, rfl, rfl, rfl⟩

theorem State.cache_snapped (s : State) (p : PartNo) (c : CacheNo) (l : Nat) (d : CacheNo) :
    (s.snapped p c l).cache d = if c = d then { s.cache c with
        state := .valid, location := some l, contents := some (s.part p).live, pin := (s.cache c).pin + 1, rank := 0 }
      else { s.cache d with rank := s.rankAfter c d } :=
  s.cache_snapshotInto p c l d

theorem State.snapped_queue (s : State) (p : PartNo) (c : CacheNo) (l : Nat) :
    (s.snapped p c l).patches.queue = s.patches.queue.map (Job.unlinkedBy fun x _ => x == c) :=
  List.map_congr_left fun j _ => Job.unlinkWhere_eq _ j

/-- The slots and the link after a STORE's snapshot: the slots of both cases, and the job queued (R165, R168, R176). -/
structure State.Snapshot (s : State) (p : PartNo) (l : Nat) (c : CacheNo) (t : State) : Prop where
  self : t.cache c = { s.cache c with
    state := .valid, location := some l, contents := some (s.part p).live, pin := (s.cache c).pin + 1, rank := 0 }
  others : ∀ d, d ≠ c → t.cache d = { s.cache d with rank := s.rankAfter c d }
  flash : t.patches.flashStatus = s.patches.flashStatus
  port : t.port = s.port
  starts : s.patches.queue = [] → t.headStarts [] ∧
    t.patches.head = some (if s.patches.flashStatus.getLsbD 0 then .readyWait 0 else .erase 0)
  waits : s.patches.queue ≠ [] → t.patches.head = s.patches.head ∧ t.patches.sent = s.patches.sent

/-- A STORE that meets no fetch (R176, R179). -/
theorem State.storeInto_unmet (s : State) (p : PartNo) (l : Nat) (c : CacheNo) :
    let t := s.storeInto p l c false
    s.Snapshot p l c t ∧
    t.patches.queue = s.patches.queue.map (Job.unlinkedBy fun x _ => x == c) ++ [.store l c p (s.part p).editCount true] ∧
    t.parts = s.parts ∧ t.voices = s.voices ∧ t.panel = s.panel ∧ t.notices = s.notices := by
  intro t
  have ht : t = (s.snapped p c l).queueJob (.store l c p (s.part p).editCount true) := rfl
  have hcache := s.cache_snapped p c l
  have hmap := s.snapped_queue p c l
  obtain ⟨e1, e2, -, e3, e4, e5, e6, e7, e8, -⟩ := s.snapped_kept p c l
  generalize s.snapped p c l = u at *
  have hlink := u.queueJob_linkWork (.store l c p (s.part p).editCount true)
  obtain ⟨r1, r2, -, r4, r5, r6⟩ := hlink.rest
  have hslots : ∀ d, t.cache d = u.cache d := fun d => by rw [ht, hlink.cache]
  rw [← ht] at r1 r2 r4 r5 r6
  refine ⟨⟨?_, fun d hd => ?_, ?_, r6.trans e5, fun hq => ?_, fun hq => ?_⟩, ?_, r1.trans e1, r2.trans e2, r4.trans e3, r5.trans e4⟩
  · rw [hslots, hcache, if_pos rfl]
  · rw [hslots, hcache, if_neg (Ne.symm hd)]
  · rw [ht, State.queueJob_flash, e6]
  · have h := State.queueJob_of_nil (s := u) (by rw [hmap, hq]; rfl) (.store l c p (s.part p).editCount true)
    rw [e6] at h
    rw [ht]
    exact h
  · rw [ht, State.queueJob_of_cons (by rw [hmap]; simpa using hq)]
    exact ⟨e7, e8⟩
  · rw [ht, State.queueJob_queue, hmap]

theorem Job.detach_eq (j : Job) (l : Nat) : j.detach l = j.detachedFrom l := by cases j <;> rfl

theorem Job.fetches_eq (j : Job) (l : Nat) : j.fetches l = j.reads l := by cases j <;> rfl

theorem Job.detachedFrom_unlinkedBy (f : CacheNo → PartNo → Bool) (l : Nat) (j : Job) :
    (j.unlinkedBy f).detachedFrom l = (j.detachedFrom l).unlinkedBy f := by cases j <;> rfl

/-- The queue once a STORE has met the fetch of its location (R177). -/
theorem resolved_queue (f : CacheNo → PartNo → Bool) (l : Nat) (q : List Job) :
    ((q.map (Job.unlinkWhere f)).take 1).map (fun j => j.detach l) ++ ((q.map (Job.unlinkWhere f)).drop 1).filter (fun j => !j.fetches l)
      = ((q.take 1).map (Job.detachedFrom l) ++ (q.drop 1).filter fun j => !j.reads l).map (Job.unlinkedBy f) := by
  have h1 : Job.unlinkWhere f = Job.unlinkedBy f := funext (Job.unlinkWhere_eq f)
  rw [h1, ← List.map_take, ← List.map_drop, List.map_append, List.map_map, List.map_map, List.filter_map]
  refine congrArg₂ _ (List.map_congr_left fun j _ => ?_) (congrArg _ (List.filter_congr fun j _ => ?_))
  · exact (Job.detach_eq _ l).trans (Job.detachedFrom_unlinkedBy f l j)
  · change (!(j.unlinkedBy f).fetches l) = _
    rw [Job.fetches_eq, Job.unlinkedBy_reads]

/-- A STORE that meets a fetch of its location (R175, R177, R179). -/
theorem State.storeInto_met (hq : s.patches.queue ≠ []) (p : PartNo) (l : Nat) (c : CacheNo) :
    let t := s.storeInto p l c true
    s.Snapshot p l c t ∧
    t.patches.queue = ((s.patches.queue.take 1).map (Job.detachedFrom l) ++ (s.patches.queue.drop 1).filter (fun j => !j.reads l)).map
        (Job.unlinkedBy fun x q => x == c || (s.part q).wanted == some l)
      ++ [.store l c p (s.part p).editCount (decide ((s.part p).wanted ≠ some l))] ∧
    s.copiesMade t (s.part p).live l ∧
    (∀ q, (s.part q).wanted ≠ some l → t.part q = s.part q) ∧
    ∀ q, (s.part q).wanted = some l → t.notices.recalls.getLsbD q.val = true ∧
      ∃ a b d, t.part q = { (s.part q).took (s.part p).live (some l) with lastPitch := a, steals := b, drops := d } := by
  intro t
  have ht : t = (((s.snapped p c l).resolveFetch l).queueJob (.store l c p (s.part p).editCount true)).copyToWanting c l := rfl
  have hcache := s.cache_snapped p c l
  have hmap : ((s.snapped p c l).resolveFetch l).patches.queue =
      ((s.patches.queue.take 1).map (Job.detachedFrom l) ++ (s.patches.queue.drop 1).filter fun j => !j.reads l).map
        (Job.unlinkedBy fun x _ => x == c) := resolved_queue _ l s.patches.queue
  have hne : ((s.snapped p c l).resolveFetch l).patches.queue ≠ [] := by
    rw [hmap]
    cases hc : s.patches.queue with
    | nil => exact absurd hc hq
    | cons j js => simp
  rw [State.queueJob_of_cons hne] at ht
  have hqueue : (((s.snapped p c l).resolveFetch l).setQueue (((s.snapped p c l).resolveFetch l).patches.queue
      ++ [.store l c p (s.part p).editCount true])).patches.queue = _ ++ [.store l c p (s.part p).editCount true] :=
    congrArg (· ++ [Job.store l c p (s.part p).editCount true]) hmap
  have hwork : (s.snapped p c l).QueueWork (((s.snapped p c l).resolveFetch l).setQueue (((s.snapped p c l).resolveFetch l).patches.queue
      ++ [.store l c p (s.part p).editCount true])) := (State.setQueue_queueWork _ _).trans (State.setQueue_queueWork _ _)
  generalize ((s.snapped p c l).resolveFetch l).setQueue (((s.snapped p c l).resolveFetch l).patches.queue
    ++ [.store l c p (s.part p).editCount true]) = u at *
  obtain ⟨v4, v1, v2, e2, -, e3, e4, e5, e6, v3⟩ := s.snapped_kept p c l
  obtain ⟨g4, g1, g2, k2, -, k3⟩ := hwork.linkWork.rest
  obtain ⟨k4, k5, k6, g3⟩ := hwork.link
  have e7 := hwork.linkWork.cache
  rw [← g1] at v1
  rw [← g2] at v2
  rw [← g3] at v3
  rw [← g4] at v4
  rw [← k2] at e2
  rw [← k3] at e3
  rw [← k4] at e4
  rw [← k5] at e5
  rw [← k6] at e6
  have hpart : ∀ q, u.part q = s.part q := fun q => by rw [State.part, v4]; rfl
  have hself := (e7 c).trans (hcache c)
  rw [if_pos rfl] at hself
  have hwant : u.wanting l = s.wanting l := List.filter_congr fun q _ => by rw [hpart]
  have hcop := u.copyToWanting_copied c l (x := (s.part p).live) (o := some l) (by rw [hself]; rfl) (by rw [hself])
  rw [hwant, ← ht] at hcop
  clear_value t
  have hslots : ∀ d, t.cache d = (s.snapped p c l).cache d := fun d => by
    rw [State.cache, hcop.patches]
    exact e7 d
  refine ⟨⟨?_, fun d hd => ?_, ?_, hcop.port.trans e3, fun h => absurd h hq, fun _ => ⟨?_, ?_⟩⟩, ?_, ?_, fun q hw => ?_,
    fun q hw => ⟨hcop.posted q (State.mem_wanting.mpr hw), ?_⟩⟩
  · rw [hslots, hcache, if_pos rfl]
  · rw [hslots, hcache, if_neg (Ne.symm hd)]
  · rw [hcop.patches, ← e4]
  · rw [hcop.patches, ← e5]
  · rw [hcop.patches, ← e6]
  · have hlinked : ∀ q, decide (q ∈ s.wanting l) = ((s.part q).wanted == some l) := fun q => by
      rw [Bool.eq_iff_iff, decide_eq_true_iff, State.mem_wanting, beq_iff_eq]
    rw [hcop.patches, hqueue]
    change List.map _ (_ ++ _) = _
    rw [List.map_append, List.map_map]
    refine congrArg₂ _ (List.map_congr_left fun j _ => ?_) ?_
    · refine (Job.unlinkedBy_unlinkedBy _ _ j).trans (congrArg (fun f => j.unlinkedBy f) ?_)
      funext x q
      rw [hlinked]
    · simp [Job.unlinkedBy, State.mem_wanting]
  · exact State.Copied.copiesMade (s := s) (r := u) hcop ⟨v1.symm, v2.symm, v3.symm, v4.symm⟩ e2.symm ⟨rfl, rfl, rfl⟩ rfl
  · rw [hcop.others q fun hm => hw (State.mem_wanting.mp hm), hpart]
  · have h := hcop.parts q (State.mem_wanting.mpr hw)
    rw [hpart] at h
    exact h

end

/-! ### The obligation -/

theorem location?_of_le {x : BitVec 16} (h : x.toNat ≤ 511) : location? x = some x.toNat := if_pos h

theorem location?_of_gt {x : BitVec 16} (h : 511 < x.toNat) : location? x = none := if_neg (by omega)

theorem Settings.protects_iff {x : Settings} {l : Nat} :
    x.protects l = true ↔ x.protectOn = true ∧ x.protectLow ≤ l ∧ l ≤ x.protectHigh := by
  rw [Settings.protects, Bool.and_eq_true, decide_eq_true_iff]

/-- STORE of a part and a location in range (R176). -/
theorem exec_store {part : Byte} {location : BitVec 16} {s : State} (hi : s.inHand = some (.store part location)) {p : PartNo}
    (hp : part.toNat = p.val) (hl : location.toNat ≤ 511) :
    exec (.store part location) s = .next (s.storePatch p location.toNat) := by
  refine congrArg Host.Outcome.next ((hostCommand_of_inHand hi _).trans ?_)
  rw [part?_of_eq hp, location?_of_le hl]

/-- The slot into which an unguarded STORE takes its snapshot: the location's, or the one R166 chooses (R176). -/
theorem State.storePatch_of_open {s : State} {p : PartNo} {l : Nat} (hj : s.jobsRight) (hg : ¬ s.settings.protects l = true)
    (hq : s.patches.queue.length < 8)
    (h : ∃ c, (s.cache c).location = some l ∨ (s.cache c).state = .empty ∨ (s.cache c).replaceable = true) :
    ∃ c, s.storePatch p l = (s.storeInto p l c ((s.cache c).state == .filling)).answer .accepted [] ∧
      (∀ d, (s.cache d).location = some l → d = c) ∧ ((∀ d, (s.cache d).location ≠ some l) → s.choosesSlot c) := by
  have hq : ¬ Config.jobLimit ≤ s.patches.queue.length := Nat.not_le.mpr hq
  cases hslot : s.slotOf l with
  | some c =>
    obtain ⟨-, hloc⟩ := State.slotOf_eq_some hslot
    refine ⟨c, ?_, fun d hd => ?_, fun hn => absurd hloc (hn c)⟩
    · unfold State.storePatch
      rw [if_neg hg, if_neg hq, hslot]
    · exact (Option.some.inj (hslot.symm.trans (hj.slotOf hd))).symm
  | none =>
    have hno : ∀ d, (s.cache d).location ≠ some l := fun d hd => by
      rw [hj.slotOf hd] at hslot
      cases hslot
    obtain ⟨c, hc⟩ := State.exists_victim (h.imp fun c hc => hc.resolve_left (hno c))
    have hchosen := State.victim_choosesSlot hc
    refine ⟨c, ?_, fun d hd => absurd hd (hno d), fun _ => hchosen⟩
    unfold State.storePatch
    rw [if_neg hg, if_neg hq, hslot, hc, beq_eq_false_iff_ne.mpr hchosen.not_filling]

/-- Settles O51: the snapshot makes the slot VALID and queues its job, and the parts that wait for the location take it. -/
theorem storeSnapshotsAndQueues : Obligations.StoreSnapshotsAndQueues := by
  intro part location s hi
  refine ⟨fun h => ?_, fun p hp hl hj => ?_⟩
  · refine congrArg Host.Outcome.next ((hostCommand_of_inHand hi _).trans ?_)
    rcases h with h | h
    · rw [part?_of_gt h]
      rfl
    · rw [location?_of_gt h]
      cases part? part <;> rfl
  intro l guarded open_
  have hexec := exec_store hi hp hl
  have hguard : guarded ↔ s.settings.protects l = true := Settings.protects_iff.symm
  refine ⟨fun hg => ?_, fun hg hq => ?_, fun ho hn hv => ?_, fun ho hc => ?_⟩
  · rw [hexec]
    unfold State.storePatch
    rw [if_pos (hguard.mp hg)]
    rfl
  · rw [hexec]
    unfold State.storePatch
    rw [if_neg fun e => hg (hguard.mpr e), if_pos (show Config.jobLimit ≤ s.patches.queue.length from hq)]
    rfl
  · obtain ⟨hg, hq⟩ := ho
    have hq : ¬ Config.jobLimit ≤ s.patches.queue.length := Nat.not_le.mpr hq
    rw [hexec]
    unfold State.storePatch
    rw [if_neg fun e => hg (hguard.mpr e), if_neg hq, State.slotOf_of_absent hn, State.victim_eq_none.mpr hv]
    rfl
  · obtain ⟨hg, hq⟩ := ho
    obtain ⟨c, e, hloc, hchosen⟩ := State.storePatch_of_open (p := p) hj (fun e => hg (hguard.mpr e)) hq hc
    rw [e] at hexec
    refine ⟨_, hexec, c, hloc, fun hn => (hchosen hn).spare.imp_right fun h => h.2, hchosen, ?_⟩
    by_cases hf : (s.cache c).state = .filling
    · have hne := hj.queue_of_filling hf
      obtain ⟨⟨h1, h2, h3, h4, h5, h6⟩, h7, h8, h9, h10⟩ := State.storeInto_met hne p l c
      rw [beq_iff_eq.mpr hf]
      refine ⟨h2, fun hn => absurd hf hn, fun _ => h7, fun h => absurd h hne, h3, h6, h1, State.answer_port h4 _ _,
        ⟨decide ((s.part p).wanted ≠ some l), ?_⟩, fun hn => absurd hf hn, fun _ q hw => ?_,
        fun _ => ⟨State.patchesTaken_congr h8.1 ⟨rfl, rfl, rfl, rfl⟩ ⟨rfl, rfl, rfl⟩, h8.2⟩, fun hn => absurd hf hn, h9⟩
      · change (s.storeInto p l c true).patches.queue.getLast? = _
        rw [h7, List.getLast?_append]
        rfl
      · obtain ⟨k1, a, b, d, k2⟩ := h10 q hw
        have k2 : ((s.storeInto p l c true).answer .accepted []).part q = _ := k2
        rw [k2]
        exact ⟨rfl, rfl, rfl, rfl, k1⟩
    · obtain ⟨⟨h1, h2, h3, h4, h5, h6⟩, h7, h8, h9, h10, h11⟩ := s.storeInto_unmet p l c
      rw [beq_eq_false_iff_ne.mpr hf]
      have hlast : (s.storeInto p l c false).patches.queue.getLast? = some (.store l c p (s.part p).editCount true) := by
        rw [h7, List.getLast?_append]
        rfl
      refine ⟨h2, fun _ => h7, fun h => absurd h hf, h5, h3, h6, h1, State.answer_port h4 _ _, ⟨_, hlast⟩,
        fun _ => ⟨h8, h9, hlast⟩, fun h => absurd h hf, fun h => absurd h hf, fun _ => ⟨h10, h11⟩, fun q _ => ?_⟩
      change (s.storeInto p l c false).part q = _
      rw [State.part, h8]
      rfl

end Sys2Proof.Machine
end

