-- ==== Sys2Proof/Proofs/DisplacedRecalls.lean ====
section
/-! PROOFS. RECALL: a hit, a wait, a new FETCH, a retargeted FETCH and the recall displaced (R149, R165, R166, R169 to R171, R175),
and O50. -/

namespace Sys2Proof.Machine

/-! ### The recall displaced (R171) -/

/-- A part whose earlier recall is displaced (R171). -/
def State.superseded (s : State) (p : PartNo) : State :=
  s.modPart p fun q => { q with wanted := none, lastRecall := .superseded }

theorem State.part_superseded (s : State) (p q : PartNo) :
    (s.superseded p).part q = if p = q then { s.part q with wanted := none, lastRecall := .superseded } else s.part q :=
  State.part_modPart s p q _

theorem Job.reads_iff {j : Job} {l : Nat} : j.reads l = true ↔ ∃ c p d, j = .fetch l c p d := by
  cases j <;> simp [Job.reads]

section
variable {s : State} {p : PartNo} {l : Nat}

theorem State.wantedBy_eq_false {f : PartNo → Bool} :
    s.wantedBy l f = false ↔ ∀ q, f q = true → (s.part q).wanted ≠ some l := by
  unfold State.wantedBy
  rw [List.any_eq_false]
  simp [allParts]

theorem State.superseded_wantedBy {m : Nat} :
    ((s.superseded p).wantedBy m fun _ => true) = false ↔ ∀ q, q ≠ p → (s.part q).wanted ≠ some m := by
  rw [State.wantedBy_eq_false]
  refine forall_congr' fun q => ?_
  rw [State.part_superseded]
  by_cases e : p = q
  · subst e
    simp
  · simp [e, Ne.symm e]

/-- A FETCH that waits fills its slot, from the slot's location (R170, R177). -/
theorem State.jobsRight.waiting {m : Nat} {d : CacheNo} {q : PartNo} {x : Bool} (h : s.jobsRight)
    (hw : Job.fetch m d q x ∈ s.patches.queue.drop 1) : x = false ∧ (s.cache d).location = some m := by
  obtain ⟨-, -, -, -, -, hloc, -, hdet, -⟩ := h
  cases x with
  | true => exact absurd hw (hdet m d q)
  | false => exact ⟨rfl, hloc m d q (List.mem_of_mem_drop hw)⟩

/-- The FETCHes of one location that wait are one (R170). -/
theorem State.jobsRight.waiting_unique {m : Nat} {d : CacheNo} {q : PartNo} {x : Bool} {j : Job} (h : s.jobsRight)
    (hw : Job.fetch m d q x ∈ s.patches.queue.drop 1) (hj : j ∈ s.patches.queue.drop 1) (hr : j.reads m = true) :
    j = .fetch m d q x := by
  obtain ⟨e, q', x', rfl⟩ := Job.reads_iff.mp hr
  obtain ⟨rfl, hd⟩ := h.waiting hw
  obtain ⟨rfl, he⟩ := h.waiting hj
  obtain ⟨-, -, -, -, hfills, -, hone, -⟩ := h
  obtain rfl : e = d := hone e d (by rw [he]; simp) (he.trans hd.symm)
  have hmem : ∀ j : Job, j ∈ s.patches.queue.drop 1 → j.fills e = true → j ∈ s.patches.queue.filter (Job.fills e) := fun j hj hf =>
    List.mem_filter.mpr ⟨List.mem_of_mem_drop hj, hf⟩
  have h1 := hmem _ hw (by simp [Job.fills])
  have h2 := hmem _ hj (by simp [Job.fills])
  have hlen : (s.patches.queue.filter (Job.fills e)).length ≤ 1 := by rw [hfills]; split <;> simp
  obtain ⟨y, hy⟩ : ∃ y, s.patches.queue.filter (Job.fills e) = [y] := by
    refine List.length_eq_one_iff.mp (le_antisymm hlen ?_)
    exact List.length_pos_of_mem h1
  rw [hy, List.mem_singleton] at h1 h2
  rw [h1, h2]

theorem State.find?_waiting (m : Nat) :
    (s.waitingJobs.find? fun j => j.fetches m) = (s.patches.queue.drop 1).find? fun j => j.reads m := by
  have hf : (fun j : Job => j.fetches m) = fun j => j.reads m := funext fun j => j.fetches_eq m
  rw [hf]
  rfl

theorem State.find?_waiting_eq_some {m : Nat} {d : CacheNo} {q : PartNo} {x : Bool} (h : s.jobsRight)
    (hw : Job.fetch m d q x ∈ s.patches.queue.drop 1) : (s.waitingJobs.find? fun j => j.fetches m) = some (.fetch m d q x) := by
  rw [State.find?_waiting]
  cases hf : (s.patches.queue.drop 1).find? fun j => j.reads m with
  | none => exact absurd (List.find?_eq_none.mp hf _ hw) (by simp [Job.reads])
  | some j => rw [h.waiting_unique hw (List.mem_of_find?_eq_some hf) (List.find?_some hf)]

/-- A displaced recall takes its waiting FETCH with it (R171). -/
theorem State.displace_cancels (hj : s.jobsRight) {m : Nat} {d : CacheNo} (h : s.cancels p l m d) :
    s.displace p l = ((s.superseded p).setQueue (s.queueWithout m)).emptyCache d := by
  obtain ⟨hw, hne, hothers, q, x, hjob⟩ := h
  have hfilter : (s.waitingJobs.filter fun x => !x.fetches m) = (s.patches.queue.drop 1).filter fun j => !j.reads m :=
    List.filter_congr fun j _ => by rw [j.fetches_eq]
  have hcancel : (s.superseded p).cancelFetch m = ((s.superseded p).setQueue (s.queueWithout m)).emptyCache d := by
    have hfind : ((s.superseded p).waitingJobs.find? fun j => j.fetches m) = some (.fetch m d q x) :=
      State.find?_waiting_eq_some hj hjob
    unfold State.cancelFetch
    rw [hfind]
    change (s.superseded p |>.setQueue (_ ++ s.waitingJobs.filter fun x => !x.fetches m)).emptyCache d = _
    rw [hfilter]
    rfl
  have hwanted := (State.superseded_wantedBy (s := s) (p := p)).mpr hothers
  unfold State.displace
  rw [hw]
  simp only [if_neg hne]
  change (if (s.superseded p).wantedBy m (fun _ => true) = true then s.superseded p else (s.superseded p).cancelFetch m) = _
  rw [hwanted, hcancel]
  rfl

/-- A displaced recall with no FETCH of its own to take (R171). -/
theorem State.displace_quiet (h : ∀ m d, ¬ s.cancels p l m d) :
    s.displace p l = if (s.part p).wanted = none ∨ (s.part p).wanted = some l then s else s.superseded p := by
  unfold State.displace
  cases hw : (s.part p).wanted with
  | none => rfl
  | some m =>
    simp only [reduceCtorEq, false_or, Option.some.injEq]
    split
    · rfl
    · rename_i hne
      change (if (s.superseded p).wantedBy m (fun _ => true) = true then s.superseded p else (s.superseded p).cancelFetch m) = _
      split
      · rfl
      · rename_i hb
        have hothers := State.superseded_wantedBy.mp (Bool.not_eq_true _ ▸ hb)
        have hnone : ((s.superseded p).waitingJobs.find? fun j => j.fetches m) = none := by
          refine (State.find?_waiting (s := s) m).trans (List.find?_eq_none.mpr fun j hj hr => ?_)
          obtain ⟨d, q, x, rfl⟩ := Job.reads_iff.mp hr
          exact h m d ⟨hw, hne, hothers, q, x, hj⟩
        unfold State.cancelFetch
        rw [hnone]

/-- What an accepted RECALL of `l` for part `p` does to an earlier recall of the part (R171). -/
structure State.Displaced (s : State) (p : PartNo) (l : Nat) (r : State) : Prop where
  kept : r.voices = s.voices ∧ r.stamp = s.stamp ∧ r.settings = s.settings ∧ r.panel = s.panel ∧ r.notices = s.notices ∧ r.port = s.port
  others : ∀ q, q ≠ p → r.part q = s.part q
  self : r.part p = { s.part p with
    wanted := if (s.part p).wanted = none ∨ (s.part p).wanted = some l then (s.part p).wanted else none
    lastRecall := if (s.part p).wanted = none ∨ (s.part p).wanted = some l then (s.part p).lastRecall else .superseded }
  cancelled : ∀ m d, s.cancels p l m d → r.patches = { s.patches with
    queue := s.queueWithout m, slots := s.patches.slots.set d ⟨.empty, none, none, (s.cache d).rank, false, 0⟩ }
  quiet : (∀ m d, ¬ s.cancels p l m d) → r.patches = s.patches

theorem State.displaced_quiet (h : ∀ m d, ¬ s.cancels p l m d) : s.Displaced p l (s.displace p l) := by
  rw [State.displace_quiet h]
  split
  · rename_i hw
    refine ⟨⟨rfl, rfl, rfl, rfl, rfl, rfl⟩, fun _ _ => rfl, ?_, fun m d hc => absurd hc (h m d), fun _ => rfl⟩
    simp [hw]
  · rename_i hw
    refine ⟨⟨rfl, rfl, rfl, rfl, rfl, rfl⟩, fun q hq => ?_, ?_, fun m d hc => absurd hc (h m d), fun _ => rfl⟩
    · rw [State.part_superseded, if_neg (Ne.symm hq)]
    · rw [State.part_superseded, if_pos rfl]
      simp [hw]

theorem State.displaced (hj : s.jobsRight) (p : PartNo) (l : Nat) : s.Displaced p l (s.displace p l) := by
  by_cases h : ∃ m d, s.cancels p l m d
  · obtain ⟨m, d, hc⟩ := h
    have hw : ¬ ((s.part p).wanted = none ∨ (s.part p).wanted = some l) := by
      obtain ⟨hw, hne, -⟩ := hc
      simp [hw, hne]
    have hall : ∀ m' d', s.cancels p l m' d' → (s.displace p l).patches = { s.patches with
        queue := s.queueWithout m', slots := s.patches.slots.set d' ⟨.empty, none, none, (s.cache d').rank, false, 0⟩ } :=
      fun m' d' hc' => by
        rw [State.displace_cancels hj hc']
        rfl
    have hrest : ∀ r, r = s.displace p l → (r.voices = s.voices ∧ r.stamp = s.stamp ∧ r.settings = s.settings ∧ r.panel = s.panel
        ∧ r.notices = s.notices ∧ r.port = s.port) ∧ ∀ q, r.part q = (s.superseded p).part q := by
      rintro r rfl
      rw [State.displace_cancels hj hc]
      exact ⟨⟨rfl, rfl, rfl, rfl, rfl, rfl⟩, fun _ => rfl⟩
    obtain ⟨hkept, hpart⟩ := hrest _ rfl
    refine ⟨hkept, fun q hq => ?_, ?_, hall, fun hn => absurd hc (hn m d)⟩
    · rw [hpart, State.part_superseded, if_neg (Ne.symm hq)]
    · rw [hpart, State.part_superseded, if_pos rfl]
      simp [hw]
  · exact State.displaced_quiet fun m d hc => h ⟨m, d, hc⟩

/-- The slots after a displaced recall: one EMPTY at its rank, or all as they were (R164, R171). -/
theorem State.Displaced.cache {r : State} (h : s.Displaced p l r) :
    (∀ m d, s.cancels p l m d → ∀ e, r.cache e = if d = e then ⟨.empty, none, none, (s.cache d).rank, false, 0⟩ else s.cache e) ∧
    ((∀ m d, ¬ s.cancels p l m d) → ∀ e, r.cache e = s.cache e) := by
  refine ⟨fun m d hc e => ?_, fun hn e => ?_⟩
  · rw [State.cache, h.cancelled m d hc]
    exact State.cache_setCache s d e _
  · rw [State.cache, h.quiet hn]
    rfl

theorem State.Displaced.rank {r : State} (h : s.Displaced p l r) (e : CacheNo) : (r.cache e).rank = (s.cache e).rank := by
  by_cases hc : ∃ m d, s.cancels p l m d
  · obtain ⟨m, d, hc⟩ := hc
    rw [h.cache.1 m d hc]
    split
    · rename_i he; rw [← he]
    · rfl
  · rw [h.cache.2 fun m d hc' => hc ⟨m, d, hc'⟩]

theorem State.rankAfter_congr {r : State} (h : ∀ e, (r.cache e).rank = (s.cache e).rank) (c e : CacheNo) :
    r.rankAfter c e = s.rankAfter c e := by
  unfold State.rankAfter
  rw [h, h]

/-! ### A hit (R149, R165, R169, R175) -/

theorem State.jobsRight.cancels_location (hj : s.jobsRight) {m : Nat} {d : CacheNo} (h : s.cancels p l m d) :
    (s.cache d).location = some m ∧ m ≠ l := by
  obtain ⟨-, hne, -, q, x, hjob⟩ := h
  exact ⟨(hj.waiting hjob).2, hne⟩

/-- The state before the copy of a hit: the earlier recall displaced, the slot made most recent (R165, R171). -/
def State.hitReady (s : State) (p : PartNo) (l : Nat) (c : CacheNo) : State := (s.displace p l).touchCache c

theorem State.cache_hitReady (hj : s.jobsRight) (p : PartNo) (l : Nat) (c e : CacheNo) :
    (s.hitReady p l c).cache e = { (s.displace p l).cache e with rank := s.rankAfter c e } := by
  rw [State.hitReady, State.cache_touched, State.rankAfter_congr (State.displaced hj p l).rank]

theorem State.recallPatch_of_valid {c : CacheNo} (hslot : s.slotOf l = some c) (hv : (s.cache c).state = .valid) :
    s.recallPatch p l = ((s.hitReady p l c).copyInto c p).answer .ok [] := by
  unfold State.recallPatch
  rw [hslot]
  simp only [hv]
  rfl

/-- The copy of a hit, and the slot it comes from (R165, R169). -/
theorem State.hit_copied (hj : s.jobsRight) {c : CacheNo} {x : Patch} (hl : (s.cache c).location = some l)
    (hx : (s.cache c).contents = some x) :
    (s.hitReady p l c).copyInto c p = (s.hitReady p l c).copied p x (some l) ∧ (s.displace p l).cache c = s.cache c := by
  have hd := State.displaced hj p l
  have hself : (s.displace p l).cache c = s.cache c := by
    by_cases hc : ∃ m d, s.cancels p l m d
    · obtain ⟨m, d, hc⟩ := hc
      obtain ⟨hloc, hne⟩ := hj.cancels_location hc
      rw [hd.cache.1 m d hc, if_neg]
      rintro rfl
      exact hne (Option.some.inj (hloc.symm.trans hl))
    · rw [hd.cache.2 fun m d hc' => hc ⟨m, d, hc'⟩]
  refine ⟨?_, hself⟩
  rw [State.copyInto_eq, State.cache_hitReady hj, hself]
  change (s.hitReady p l c).copied p ((s.cache c).contents.getD .default) (s.cache c).location = _
  rw [hl, hx]
  rfl

/-- What a hit leaves of the slots and the queue (R165, R171, R179). -/
theorem State.hit_patches (hj : s.jobsRight) {c : CacheNo} {x : Patch} {t : State}
    (h : State.Copied [p] x (some l) (s.hitReady p l c) t) :
    (∀ m d, s.cancels p l m d → t.patches.queue = (s.queueWithout m).map (Job.unlinkedBy fun _ q => q == p) ∧
      ∀ e, t.cache e = if d = e then ⟨.empty, none, none, s.rankAfter c d, false, 0⟩ else { s.cache e with rank := s.rankAfter c e }) ∧
    ((∀ m d, ¬ s.cancels p l m d) → t.patches.queue = s.patches.queue.map (Job.unlinkedBy fun _ q => q == p) ∧
      ∀ e, t.cache e = { s.cache e with rank := s.rankAfter c e }) := by
  have hd := State.displaced hj p l
  have hfun : (fun (_ : CacheNo) (q : PartNo) => decide (q ∈ [p])) = fun _ q => q == p := by
    funext _ q
    by_cases h : q = p <;> simp [h]
  have hq : t.patches.queue = (s.displace p l).patches.queue.map (Job.unlinkedBy fun _ q => q == p) := by
    rw [h.patches, hfun]
    rfl
  have hcache : ∀ e, t.cache e = { (s.displace p l).cache e with rank := s.rankAfter c e } := fun e => by
    rw [State.cache, h.patches]
    exact State.cache_hitReady hj p l c e
  refine ⟨fun m d hc => ⟨?_, fun e => ?_⟩, fun hn => ⟨?_, fun e => ?_⟩⟩
  · rw [hq, hd.cancelled m d hc]
  · rw [hcache, hd.cache.1 m d hc]
    split
    · rename_i he; rw [← he]
    · rfl
  · rw [hq, hd.quiet hn]
  · rw [hcache, hd.cache.2 hn]

end

end Sys2Proof.Machine
end

