-- ==== Sys2Proof/Proofs/Recalls.lean ====
section
/-! PROOFS. RECALL by where its location is: in a slot, on its way, or in the flash (R165, R166, R168 to R171, R175), and O50. -/

namespace Sys2Proof.Machine

section
variable {s : State} {p : PartNo} {l : Nat} {part : Byte} {location : BitVec 16}

/-- RECALL of a part and a location in range (R169). -/
theorem exec_recall (hi : s.inHand = some (.recallPart part location)) (hp : part.toNat = p.val) (hl : location.toNat ≤ 511) :
    exec (.recallPart part location) s = .next (s.recallPatch p location.toNat) := by
  refine congrArg Host.Outcome.next ((hostCommand_of_inHand hi _).trans ?_)
  rw [part?_of_eq hp, location?_of_le hl]

theorem exec_recall_refused (hi : s.inHand = some (.recallPart part location)) (h : 3 < part.toNat ∨ 511 < location.toNat) :
    exec (.recallPart part location) s = .next (s.onlyAnswered .badValue []) := by
  refine congrArg Host.Outcome.next ((hostCommand_of_inHand hi _).trans ?_)
  rcases h with h | h
  · rw [part?_of_gt h]
    rfl
  · rw [location?_of_gt h]
    cases part? part <;> rfl

/-! ### A hit (R149, R165, R169, R171, R175) -/

/-- What a hit leaves, before its answer. -/
theorem State.hit_spec (hj : s.jobsRight) {c : CacheNo} {x : Patch} (hl : (s.cache c).location = some l)
    (hx : (s.cache c).contents = some x) :
    let t := (s.hitReady p l c).copyInto c p
    State.Copied [p] x (some l) (s.hitReady p l c) t ∧ t.port = s.port ∧
    (∃ a b d, t.part p = { (s.part p).took x (some l) with lastPitch := a, steals := b, drops := d }) ∧
    (∀ q, q ≠ p → t.part q = s.part q) ∧ (t.cache c).rank = 0 ∧ t.notices.recalls.getLsbD p.val = true ∧ t.count p ≤ t.limit p ∧
    (∀ m d e, Job.store m d p e true ∉ t.patches.queue) ∧ s.patchTaken t p ((s.part p).took x (some l)) ∧
    (s.panel.focus = p → t.panel = { s.panel with channels := t.panel.channels } ∧ s.armedIn t (fun _ => True) x) ∧
    (s.panel.focus ≠ p → t.panel = s.panel) := by
  intro t
  have hd := State.displaced hj p l
  obtain ⟨hcopy, -⟩ := State.hit_copied (p := p) hj hl hx
  have hcop := (s.hitReady p l c).copied_copied p x (some l)
  have hcount := (s.hitReady p l c).count_copied p x (some l)
  rw [← hcopy] at hcop hcount
  obtain ⟨hq1, hq2⟩ := State.hit_patches hj hcop
  obtain ⟨v1, v2, v3, v4, v5, v6⟩ := hd.kept
  have hparts : ∀ q, (s.hitReady p l c).part q = (s.displace p l).part q := fun _ => rfl
  have htook : ((s.hitReady p l c).part p).took x (some l) = (s.part p).took x (some l) := by rw [hparts, hd.self]; rfl
  have hpanel : (s.hitReady p l c).panel = s.panel := v4
  have hport : (s.hitReady p l c).port = s.port := v6
  have hready : (s.hitReady p l c).voices = s.voices ∧ (s.hitReady p l c).stamp = s.stamp ∧ (s.hitReady p l c).settings = s.settings :=
    ⟨v1, v2, v3⟩
  have ht : t = (s.hitReady p l c).copyInto c p := rfl
  rw [← ht] at hcop hcount hq1 hq2
  clear_value t
  have hunlinked : ∀ (q : List Job) m d e, Job.store m d p e true ∉ q.map (Job.unlinkedBy fun _ q => q == p) := fun q m d e hm => by
    obtain ⟨j, -, hj⟩ := List.mem_map.mp hm
    cases j with
    | fetch => cases hj
    | store a b r n linked =>
      simp only [Job.unlinkedBy, Job.store.injEq] at hj
      obtain ⟨-, -, rfl, -, hb⟩ := hj
      simp at hb
  refine ⟨hcop, hcop.port.trans hport, ?_, fun q hq => ?_, ?_, hcop.posted p (by simp), hcount, ?_, ?_, fun hf => ?_, fun hf => ?_⟩
  · obtain ⟨a, b, d, h⟩ := hcop.parts p (by simp)
    rw [htook] at h
    exact ⟨a, b, d, h⟩
  · rw [hcop.others q (by simpa using hq), hparts, hd.others q hq]
  · by_cases hc : ∃ m d, s.cancels p l m d
    · obtain ⟨m, d, hc⟩ := hc
      rw [(hq1 m d hc).2 c]
      split
      · rename_i e
        rw [e, State.rankAfter, if_pos rfl]
      · rw [State.rankAfter, if_pos rfl]
    · rw [(hq2 fun m d hc' => hc ⟨m, d, hc'⟩).2 c, State.rankAfter, if_pos rfl]
  · intro m d e
    by_cases hc : ∃ m d, s.cancels p l m d
    · obtain ⟨m', d', hc⟩ := hc
      rw [(hq1 m' d' hc).1]
      exact hunlinked _ m d e
    · rw [(hq2 fun m d hc' => hc ⟨m, d, hc'⟩).1]
      exact hunlinked _ m d e
  · obtain ⟨r, -, htaken, h1, h2, h3⟩ := hcop.taken l rfl
    refine State.patchTaken_congr (s := s.hitReady p l c) (t := r) (q := (s.part p).took x (some l)) ?_
      ⟨hready.1.symm, hready.2.1.symm, hready.2.2.symm⟩ (fun q hq => ?_) ?_ ⟨h1, h2, h3⟩
    · rw [← htook]
      exact htaken
    · rw [hparts, hd.others q hq]
    · rw [hparts, hd.self]
  · obtain ⟨h1, h2⟩ := hcop.armed (by rw [hpanel]; simp [hf])
    rw [hpanel] at h1
    refine ⟨h1, fun ch => ?_⟩
    have := h2 ch
    rw [State.channel, hpanel] at this
    exact this
  · rw [hcop.panel (by rw [hpanel]; simpa using hf), hpanel]

/-! ### A location on its way (R170, R171) -/

theorem State.recallPatch_of_filling {c : CacheNo} (hslot : s.slotOf l = some c) (hv : (s.cache c).state = .filling) :
    s.recallPatch p l = ((s.displace p l).want p l).answer .accepted [] := by
  unfold State.recallPatch
  rw [hslot]
  simp only [hv]

/-- A location wanted by a part, after its earlier recall is displaced (R170, R171). -/
theorem State.Displaced.want {r : State} (h : s.Displaced p l r) :
    (∀ q, q ≠ p → (r.want p l).part q = s.part q) ∧
    (r.want p l).part p = { s.part p with wanted := some l, lastRecall := ((r.want p l).part p).lastRecall } ∧
    ((r.want p l).part p).lastRecall = (if (s.part p).wanted = none ∨ (s.part p).wanted = some l then (s.part p).lastRecall
      else .superseded) := by
  have hpart : ∀ q, (r.want p l).part q = if p = q then { r.part q with wanted := some l } else r.part q := fun q =>
    State.part_modPart r p q _
  refine ⟨fun q hq => by rw [hpart, if_neg (Ne.symm hq), h.others q hq], ?_, ?_⟩
  · rw [hpart, if_pos rfl, h.self]
  · rw [hpart, if_pos rfl, h.self]

/-! ### A miss with a new FETCH (R165, R166, R168, R170) -/

theorem State.recallPatch_of_miss (hn : ∀ c, (s.cache c).location ≠ some l) : s.recallPatch p l = s.recallMiss p l := by
  unfold State.recallPatch
  rw [State.slotOf_of_absent hn]

theorem State.retargetable_eq_none (hj : s.jobsRight) (hn : ∀ c, (s.cache c).location ≠ some l) (h : ∀ m d, ¬ s.cancels p l m d) :
    s.retargetable p = none := by
  unfold State.retargetable
  cases hw : (s.part p).wanted with
  | none => rfl
  | some m =>
    simp only
    split
    · rfl
    · rename_i hb
      have hothers := State.wantedBy_eq_false.mp (Bool.not_eq_true _ ▸ hb)
      refine (State.find?_waiting m).trans (List.find?_eq_none.mpr fun j hjm hr => ?_)
      obtain ⟨d, q, x, rfl⟩ := Job.reads_iff.mp hr
      obtain ⟨-, hloc⟩ := hj.waiting hjm
      refine h m d ⟨hw, fun e => hn d (by rw [hloc, e]), fun q hq => hothers q (by simpa using hq), q, x, hjm⟩

/-- A slot allocated for a location that a FETCH will fill (R165, R166). -/
theorem State.cache_giveSlot (s : State) (c : CacheNo) (l : Nat) (e : CacheNo) :
    (s.giveSlot c l .filling none).cache e = if c = e then { s.cache c with state := .filling, location := some l, contents := none, rank := 0 }
      else { s.cache e with rank := s.rankAfter c e } :=
  State.cache_touchCache_setCache s c (r := { s.cache c with state := .filling, location := some l, contents := none }) rfl e

theorem State.giveSlot_kept (s : State) (c : CacheNo) (l : Nat) :
    (s.giveSlot c l .filling none) = { s with patches := { s.patches with slots := (s.giveSlot c l .filling none).patches.slots } } := rfl

/-- The state in which a miss has its slot and its FETCH (R166, R168). -/
def State.fetching (s : State) (p : PartNo) (l : Nat) (c : CacheNo) : State :=
  (s.giveSlot c l .filling none).queueJob (.fetch l c p false)

theorem State.fetching_spec (s : State) (p : PartNo) (l : Nat) (c : CacheNo) :
    let t := s.fetching p l c
    (t.parts = s.parts ∧ t.voices = s.voices ∧ t.notices = s.notices ∧ t.port = s.port) ∧
    (∀ e, t.cache e = if c = e then { s.cache c with state := .filling, location := some l, contents := none, rank := 0 }
      else { s.cache e with rank := s.rankAfter c e }) ∧
    t.patches.queue = s.patches.queue ++ [.fetch l c p false] ∧ t.patches.flashStatus = s.patches.flashStatus ∧
    (s.patches.queue = [] → t.headStarts [] ∧ t.patches.head = some (if s.patches.flashStatus.getLsbD 0 then .readyWait 0 else .read)) ∧
    (s.patches.queue ≠ [] → t.patches.head = s.patches.head ∧ t.patches.sent = s.patches.sent) := by
  intro t
  have hcache := s.cache_giveSlot c l
  have hframe := s.giveSlot_kept c l
  have ht : t = (s.giveSlot c l .filling none).queueJob (.fetch l c p false) := rfl
  clear_value t
  generalize s.giveSlot c l .filling none = u at *
  have hlink := u.queueJob_linkWork (.fetch l c p false)
  rw [← ht] at hlink
  obtain ⟨r1, r2, -, -, r5, r6⟩ := hlink.rest
  have hq : u.patches.queue = s.patches.queue := by rw [hframe]
  have hf : u.patches.flashStatus = s.patches.flashStatus := by rw [hframe]
  refine ⟨⟨r1.trans (by rw [hframe]), r2.trans (by rw [hframe]), r5.trans (by rw [hframe]), r6.trans (by rw [hframe])⟩,
    fun e => (hlink.cache e).trans (hcache e), ?_, ?_, fun h => ?_, fun h => ?_⟩
  · rw [ht, State.queueJob_queue, hq]
  · rw [ht, State.queueJob_flash, hf]
  · have h := State.queueJob_of_nil (s := u) (hq.trans h) (.fetch l c p false)
    rw [hf, ← ht] at h
    exact h
  · rw [ht, State.queueJob_of_cons (by rw [hq]; exact h)]
    refine ⟨?_, ?_⟩
    · change u.patches.head = _
      rw [hframe]
    · change u.patches.sent = _
      rw [hframe]

/-- The new FETCH is no recall to be displaced (R171). -/
theorem State.fetching_cancels {c : CacheNo} (h : ∀ m d, ¬ s.cancels p l m d) (m : Nat) (d : CacheNo) :
    ¬ (s.fetching p l c).cancels p l m d := by
  obtain ⟨⟨h1, -⟩, -, hq, -⟩ := s.fetching_spec p l c
  have hpart : ∀ q, (s.fetching p l c).part q = s.part q := fun q => by rw [State.part, h1]; rfl
  rintro ⟨hw, hne, hothers, q, x, hjob⟩
  rw [hpart] at hw
  refine h m d ⟨hw, hne, fun q hq => by rw [← hpart]; exact hothers q hq, q, x, ?_⟩
  rw [hq, List.drop_append] at hjob
  rcases List.mem_append.mp hjob with hjob | hjob
  · exact hjob
  · have := List.mem_of_mem_drop hjob
    simp only [List.mem_singleton, Job.fetch.injEq] at this
    exact absurd this.1 hne

theorem State.recallMiss_of_room (hr : s.retargetable p = none) (hq : s.patches.queue.length < 8) {c : CacheNo} (hc : s.victim = some c) :
    s.recallMiss p l = (((s.fetching p l c).displace p l).want p l).answer .accepted [] := by
  have hq : ¬ Config.jobLimit ≤ s.patches.queue.length := Nat.not_le.mpr hq
  unfold State.recallMiss
  rw [hr]
  simp only [hq, hc, if_false]
  rfl

/-! ### A FETCH retargeted (R165, R166, R170) -/

/-- The state in which the FETCH `j` has another location and slot (R170). -/
def State.retargeted (s : State) (l : Nat) (d c : CacheNo) (j : Job) : State :=
  let s2 := (s.emptyCache d).giveSlot c l .filling none
  s2.setWaiting (s2.waitingJobs.map fun x => if x = j then x.retarget l c else x)

theorem State.recallMiss_of_retargetable {j : Job} {c : CacheNo} (hr : s.retargetable p = some j)
    (hc : (s.emptyCache j.slot).victim = some c) :
    s.recallMiss p l =
      ((s.retargeted l j.slot c j).modPart p fun q => { q with lastRecall := .superseded, wanted := some l }).answer .accepted [] := by
  unfold State.recallMiss
  rw [hr]
  simp only
  unfold State.retarget
  simp only [hc]
  rfl

theorem State.retargetable_eq_some {m : Nat} {d : CacheNo} {q : PartNo} {x : Bool} (hj : s.jobsRight) (hw : (s.part p).wanted = some m)
    (hothers : ∀ r, r ≠ p → (s.part r).wanted ≠ some m) (hjob : Job.fetch m d q x ∈ s.patches.queue.drop 1) :
    s.retargetable p = some (.fetch m d q x) := by
  have hb : s.wantedBy m (fun q => q != p) = false := State.wantedBy_eq_false.mpr fun q hq => hothers q (by simpa using hq)
  unfold State.retargetable
  rw [hw]
  simp only [hb]
  exact State.find?_waiting_eq_some hj hjob

theorem State.retargeted_spec (s : State) (l m : Nat) (d c : CacheNo) (q : PartNo) (x : Bool) :
    let t := s.retargeted l d c (.fetch m d q x)
    let emptied := s.setCache d ⟨.empty, none, none, (s.cache d).rank, false, 0⟩
    t = { s with patches := t.patches } ∧
    t.patches.queue = s.patches.queue.take 1 ++ (s.patches.queue.drop 1).map (fun i => if i = .fetch m d q x then .fetch l c q x else i) ∧
    t.patches.head = s.patches.head ∧ t.patches.sent = s.patches.sent ∧
    ∀ e, t.cache e = if c = e then { emptied.cache c with state := .filling, location := some l, contents := none, rank := 0 }
      else { emptied.cache e with rank := s.rankAfter c e } := by
  intro t emptied
  have hcache := emptied.cache_giveSlot c l
  have hrank : ∀ e, (emptied.cache e).rank = (s.cache e).rank := fun e => by
    have h : emptied.cache e = if d = e then ⟨.empty, none, none, (s.cache d).rank, false, 0⟩ else s.cache e := s.cache_setCache d e _
    rw [h]
    split
    · rename_i he; rw [← he]
    · rfl
  simp only [State.rankAfter_congr hrank] at hcache
  refine ⟨rfl, ?_, rfl, rfl, hcache⟩
  change s.patches.queue.take 1 ++ (s.patches.queue.drop 1).map _ = _
  refine congrArg _ (List.map_congr_left fun i _ => ?_)
  split
  · rename_i h
    rw [h]
    rfl
  · rfl

end

/-- The head's start reads the patch manager's record alone. -/
theorem State.headStarts_of_patches {s t : State} {made : List FlashFrame} (h : s.headStarts made) (e : t.patches = s.patches) :
    t.headStarts made := by
  unfold State.headStarts at *
  rw [e]
  exact h

/-- Settles O50: the location is in a slot, on its way, or fetched, and what the part wanted before is displaced. -/
theorem recallHitsWaitsOrFetches : Obligations.RecallHitsWaitsOrFetches := by
  intro part location s hi
  refine ⟨exec_recall_refused hi, fun p hp hl hj => ?_⟩
  intro l
  have hexec := exec_recall hi hp hl
  refine ⟨fun c x hv hloc hx => ?_, fun c hf hloc => ?_, fun hn hc => ⟨fun hq => ?_, fun hq hv => ?_, fun hq hv => ?_⟩,
    fun m d q x hn hw hothers hjob => ?_⟩
  · rw [State.recallPatch_of_valid (hj.slotOf hloc) hv] at hexec
    obtain ⟨hcop, hport, ⟨a, b, e, hself⟩, hrest, hrank, hpost, hcount, hstores, htaken, harm, hpanel⟩ :=
      State.hit_spec (p := p) hj hloc hx
    obtain ⟨hq1, hq2⟩ := State.hit_patches hj hcop
    refine ⟨_, hexec, State.answer_port hport _ _, ?_⟩
    generalize (s.hitReady p location.toNat c).copyInto c p = t at *
    simp only [State.part_answer, State.cache_answer]
    rw [hself]
    refine ⟨rfl, rfl, rfl, rfl, rfl, rfl, rfl, hrest, hrank, hpost, hcount, hstores,
      State.patchTaken_congr htaken ⟨rfl, rfl, rfl⟩ (fun _ _ => rfl) rfl ⟨rfl, rfl, rfl⟩, harm, hpanel, fun m d hc => ?_, hq2⟩
    obtain ⟨h1, h2⟩ := hq1 m d hc
    refine ⟨h1, ?_, fun e he => ?_⟩
    · rw [h2, if_pos rfl]
    · rw [h2, if_neg (Ne.symm he)]
  · rw [State.recallPatch_of_filling (hj.slotOf hloc) hf] at hexec
    have hd := State.displaced hj p l
    obtain ⟨h1, h2, h3⟩ := hd.want
    obtain ⟨v1, -, -, -, v5, v6⟩ := hd.kept
    exact ⟨_, hexec, State.answer_port v6 _ _, h1, h2, h3, v1, v5, hd.cancelled, hd.quiet⟩
  · have hr := State.retargetable_eq_none hj hn hc
    rw [hexec, State.recallPatch_of_miss hn]
    unfold State.recallMiss
    rw [hr]
    simp only
    rw [if_pos (show Config.jobLimit ≤ s.patches.queue.length from hq)]
    rfl
  · have hr := State.retargetable_eq_none hj hn hc
    rw [hexec, State.recallPatch_of_miss hn]
    unfold State.recallMiss
    rw [hr]
    simp only
    rw [if_neg (show ¬ Config.jobLimit ≤ s.patches.queue.length from Nat.not_le.mpr hq), State.victim_eq_none.mpr hv]
    rfl
  · obtain ⟨c, hc'⟩ := State.exists_victim hv
    have hchosen := State.victim_choosesSlot hc'
    rw [State.recallPatch_of_miss hn, State.recallMiss_of_room (State.retargetable_eq_none hj hn hc) hq hc'] at hexec
    have hcancels := State.fetching_cancels (c := c) hc
    have hd := State.displaced_quiet hcancels
    obtain ⟨⟨k1, k2, k3, k4⟩, kcache, kqueue, kflash, kstarts, kwaits⟩ := s.fetching_spec p l c
    have hpatches := hd.quiet hcancels
    obtain ⟨h1, h2, h3⟩ := hd.want
    obtain ⟨v1, -, -, -, v5, v6⟩ := hd.kept
    have hpart : ∀ q, (s.fetching p l c).part q = s.part q := fun q => by rw [State.part, k1]; rfl
    simp only [hpart] at h1 h2 h3
    refine ⟨_, hexec, c, hchosen.spare, ?_⟩
    generalize hr : (s.fetching p l c).displace p l = r at *
    have hcache : ∀ e, (r.want p l).cache e = (s.fetching p l c).cache e := fun e => by
      change r.patches.slots[e] = _
      rw [hpatches]
      rfl
    have hself := hcache c
    rw [kcache, if_pos rfl] at hself
    have hall : (r.want p l).patches = (s.fetching p l c).patches := hpatches
    refine ⟨by rw [State.cache_answer, hself], by rw [State.cache_answer, hself], by rw [State.cache_answer, hself], hchosen,
      by rw [State.cache_answer, hself], fun d hd => ?_, ?_, State.answer_port (v6.trans k4) _ _, h2, h3, h1, v1.trans k2, v5.trans k3,
      fun he => ⟨?_, ?_⟩, ?_, fun he => ⟨?_, ?_⟩⟩
    · rw [State.cache_answer, hcache, kcache, if_neg (Ne.symm hd)]
    · exact (congrArg PatchMgr.queue hall).trans kqueue
    · exact State.headStarts_of_patches (kstarts he).1 hall
    · exact (congrArg PatchMgr.head hall).trans (kstarts he).2
    · exact (congrArg PatchMgr.flashStatus hall).trans kflash
    · exact (congrArg PatchMgr.head hall).trans (kwaits he).1
    · exact (congrArg PatchMgr.sent hall).trans (kwaits he).2
  · obtain ⟨hdet, hloc⟩ := hj.waiting hjob
    have hempty : ((s.emptyCache d).cache d).state = .empty := by rw [State.cache_emptyCache, if_pos rfl]
    obtain ⟨c, hc⟩ := State.exists_victim (s := s.emptyCache d) ⟨d, .inl hempty⟩
    have hchosen := State.victim_choosesSlot hc
    have hr := State.retargetable_eq_some hj hw hothers hjob
    rw [State.recallPatch_of_miss hn, State.recallMiss_of_retargetable hr hc] at hexec
    have hslot : (Job.fetch m d q x).slot = d := rfl
    rw [hslot] at hexec
    obtain ⟨e1, e2, e3, e4, e5⟩ := s.retargeted_spec l m d c q x
    refine ⟨_, hexec, ?_⟩
    have hpart : ∀ r, ((s.retargeted l d c (.fetch m d q x)).modPart p fun q =>
        { q with lastRecall := .superseded, wanted := some l }).part r =
        if p = r then { s.part r with lastRecall := .superseded, wanted := some l } else s.part r := fun r =>
      (State.part_modPart _ p r _).trans (by rw [e1]; rfl)
    change (State.answer ((s.retargeted l d c (.fetch m d q x)).modPart p _) .accepted []).port = _ ∧ _
    have hself := e5 c
    rw [if_pos rfl] at hself
    refine ⟨State.answer_port (congrArg State.port e1) _ _, ?_, (hpart p).trans (if_pos rfl),
      fun r hr => (hpart r).trans (if_neg (Ne.symm hr)), (congrArg State.voices e1 :), (congrArg State.notices e1 :), c, hchosen, ?_⟩
    · refine (congrArg List.length e2).trans ?_
      rw [List.length_append, List.length_map, ← List.length_append, List.take_append_drop]
    · have hcache : ∀ e, (((s.retargeted l d c (.fetch m d q x)).modPart p fun q =>
          { q with lastRecall := .superseded, wanted := some l }).answer .accepted []).cache e =
          (s.retargeted l d c (.fetch m d q x)).cache e := fun _ => rfl
      refine ⟨by rw [hcache, hself], by rw [hcache, hself], by rw [hcache, hself], by rw [hcache, hself], fun e he => ?_, e2, e3, e4⟩
      rw [hcache, e5, if_neg (Ne.symm he)]

end Sys2Proof.Machine
end

