-- ==== Sys2Proof/Proofs/PitchEngine.lean ====
section
/-! PROOFS. The pitch engine: interpolation between breakpoint codes, clamped pitches and codes (R53 to R66), and O42. -/

namespace Sys2Proof.Machine

/-! ### Interpolation (R61, R62) -/

/-- The rounded part `f / 768` of a step from one code to the next lies between them (R62). -/
theorem step_between (c d : Int) {f : Nat} (hf : f < 768) :
    min c d ≤ c + ((d - c) * f + 384) / 768 ∧ c + ((d - c) * f + 384) / 768 ≤ max c d := by
  have hf0 : (0 : Int) ≤ f := Int.natCast_nonneg f
  have hf' : (f : Int) ≤ 767 := by omega
  rcases le_total c d with h | h
  · have h1 : 0 ≤ (d - c) * f := mul_nonneg (by omega) hf0
    have h2 : (d - c) * f ≤ (d - c) * 767 := mul_le_mul_of_nonneg_left hf' (by omega)
    rw [min_eq_left h, max_eq_right h]
    omega
  · have h1 : (d - c) * f ≤ 0 := mul_nonpos_of_nonpos_of_nonneg (by omega) hf0
    have h2 : (d - c) * 767 ≤ (d - c) * f := mul_le_mul_of_nonpos_left hf' (by omega)
    rw [min_eq_right h, max_eq_left h]
    omega

section
variable (codes : Vector Code 12)

/-- A breakpoint's code, as a number (R61). -/
def codeAt (i : Nat) : Int := (tableAt codes i 0).toNat

theorem codeAt_range (i : Nat) : 0 ≤ codeAt codes i ∧ codeAt codes i ≤ 65535 := by
  have h := (tableAt codes i 0).isLt
  unfold codeAt
  omega

theorem interpolate_eq (pitch : Nat) :
    interpolate codes pitch = codeAt codes (pitch / 768)
      + ((codeAt codes (pitch / 768 + 1) - codeAt codes (pitch / 768)) * (pitch % 768 : Nat) + 384) / 768 := rfl

theorem interpolate_between (pitch : Nat) :
    min (codeAt codes (pitch / 768)) (codeAt codes (pitch / 768 + 1)) ≤ interpolate codes pitch ∧
    interpolate codes pitch ≤ max (codeAt codes (pitch / 768)) (codeAt codes (pitch / 768 + 1)) := by
  rw [interpolate_eq]
  exact step_between _ _ (Nat.mod_lt _ (by decide))

theorem interpolate_range (pitch : Nat) : 0 ≤ interpolate codes pitch ∧ interpolate codes pitch ≤ 65535 := by
  obtain ⟨h1, h2⟩ := interpolate_between codes pitch
  obtain ⟨a1, a2⟩ := codeAt_range codes (pitch / 768)
  obtain ⟨b1, b2⟩ := codeAt_range codes (pitch / 768 + 1)
  exact ⟨(le_min a1 b1).trans h1, h2.trans (max_le a2 b2)⟩

/-- At a breakpoint the interpolated code is the breakpoint's (R62). -/
theorem interpolate_breakpoint (k : Nat) : interpolate codes (768 * k) = codeAt codes k := by
  have h1 : 768 * k / 768 = k := by omega
  have h2 : 768 * k % 768 = 0 := by omega
  rw [interpolate_eq, h1, h2]
  simp

end

/-! ### Codes (R63 to R66) -/

theorem toCode_toNat (x : Int) : ((toCode x).toNat : Int) = max 0 (min 65535 x) := by
  unfold toCode clampInt
  rw [BitVec.toNat_ofNat]
  omega

/-- A tuned destination's code, clamp and trace (R54, R61 to R64). -/
theorem tunedCode_spec (codes : Vector Code 12) (pitch : Nat) (drift : Int) :
    let y := tunedCode codes pitch drift
    (y.code.toNat : Int) = max 0 (min 65535 (interpolate codes pitch + drift)) ∧
    (y.clamped = true ↔ interpolate codes pitch + drift < 0 ∨ 65535 < interpolate codes pitch + drift) ∧
    y.input = pitch ∧ y.segment = some (pitch / 768) ∧ y.fraction = some (pitch % 768) :=
  ⟨toCode_toNat _, decide_eq_true_iff, rfl, rfl, rfl⟩

/-- Without drift no sum is clamped (R62, R64). -/
theorem tunedCode_unclamped (codes : Vector Code 12) (pitch : Nat) : (tunedCode codes pitch 0).clamped = false := by
  obtain ⟨h1, h2⟩ := interpolate_range codes pitch
  rw [Bool.eq_false_iff, ne_eq, (tunedCode_spec codes pitch 0).2.1]
  omega

theorem scaled_code (x : Val12) : (scaled x.toNat).code.toNat = 16 * x.toNat + x.toNat / 256 := by
  have hx := x.isLt
  have h := toCode_toNat (16 * x.toNat + x.toNat / 256)
  have e : (scaled x.toNat).code = toCode (16 * x.toNat + x.toNat / 256) := rfl
  rw [e]
  omega

theorem velocityCode_code {a : Assignment} (h : a.velocity ≤ 127) : (velocityCode (some a)).code.toNat = a.velocity * 516 := by
  have hc := toCode_toNat (a.velocity * 516)
  have e : (velocityCode (some a)).code = toCode (a.velocity * 516) := rfl
  rw [e]
  omega

/-! ### Pitches (R33, R53, R55 to R60) -/

theorem clampPitch_eq (x : Int) : clampPitch x = (max 0 (min 8191 x)).toNat := by
  unfold clampPitch clampInt
  omega

theorem voiceCode_direct (s : State) (v : Voice) {d : DestNo} {i : Fin 25} (hd : 3 ≤ d.val) (hi : i.val = d.val + 2) :
    voiceCode s v d = scaled ((s.part (s.voice v).partNo).live.params[i]).toNat := by
  have hdi : directParam d = i := Fin.ext (by
    change (2 + d.val) % 25 = i.val
    omega)
  have h0 : d ≠ 0 := fun e => by rw [e] at hd; exact absurd hd (by decide)
  have h1 : d ≠ 1 := fun e => by rw [e] at hd; exact absurd hd (by decide)
  have h2 : d ≠ 2 := fun e => by rw [e] at hd; exact absurd hd (by decide)
  have h23 : d ≠ 23 := fun e => by
    have : d.val = 23 := congrArg Fin.val e
    omega
  unfold voiceCode
  simp only [h0, h1, h2, h23, if_false, hdi]
  rfl

/-! ### The obligation -/

/-- Settles O42: each destination is its formula, and a rounded step stays between its ends. -/
theorem eachDestinationHasItsCode : Obligations.EachDestinationHasItsCode := by
  refine ⟨fun s v => ?_, fun codes pitch _ => ⟨fun k _ => interpolate_breakpoint codes k, (interpolate_between codes pitch).1,
    (interpolate_between codes pitch).2, tunedCode_unclamped codes pitch⟩⟩
  intro r part live param pitch offset pitchA' pitchB' cutoff line tuned plain
  have hpart : part = s.part r.partNo := by
    unfold VoiceRec.partNo
    rfl
  have hoffset : offset = r.unisonPitch live := by
    unfold VoiceRec.unisonPitch
    rfl
  have hA : pitchA' = pitchA r part := by
    rw [pitchA, clampPitch_eq]
    change pitch _ = _
    rw [hoffset]
    rfl
  have hB : pitchB' = pitchB r part := by
    rw [pitchB, clampPitch_eq, ← hA]
    rfl
  have hcutoff : cutoff = cutoffPitch r part := by
    rw [cutoffPitch, clampPitch_eq]
    rfl
  have hline : ∀ d x, line d x = interpolate (s.cal v d).codes x := fun _ _ => rfl
  rw [hline, hline, hline, hA, hB, hcutoff, hpart]
  refine ⟨tunedCode_spec _ _ _, tunedCode_spec _ _ _, ?_, tunedCode_unclamped _ _, fun d i hd hi => ?_, fun a ha hv => ?_, fun ha => ?_⟩
  · have h := tunedCode_spec (s.cal v .cutoff).codes (cutoffPitch r (s.part r.partNo)) 0
    rw [add_zero] at h
    exact h
  · change (voiceCode s v d).code.toNat = _ ∧ _
    rw [voiceCode_direct s v hd hi]
    exact ⟨scaled_code _, rfl, rfl, rfl, rfl⟩
  · have e : voiceCode s v 23 = velocityCode (some a) := congrArg velocityCode ha
    change (voiceCode s v 23).code.toNat = _ ∧ _
    rw [e]
    exact ⟨velocityCode_code hv, rfl, rfl, rfl, rfl⟩
  · have e : voiceCode s v 23 = velocityCode none := congrArg velocityCode ha
    change (voiceCode s v 23).code.toNat = _ ∧ _
    rw [e]
    exact ⟨rfl, rfl, rfl, rfl, rfl⟩

end Sys2Proof.Machine
end
